-- ==== Sys2Proof/Word.lean ====
section
/-! DEFINITION. The word types of `huffman_core` (spec/00_scope.md R7, R9): every quantity with a width is an
unsigned bit vector of that width; every quantity without one is a `Nat`. -/

namespace Sys2Proof

/-- One byte: a symbol (R7 `SYM_W` = 8, R13) or the content of one buffer index (R60). -/
abbrev Byte := BitVec 8

/-- A command word (R7 `CMD_W` = 32, R90). -/
abbrev Word := BitVec 32

/-- A 64-bit register: a length, a counter, a cursor's byte index (R7 `CNT_W`, `SIZE_W`; R27, R34). -/
abbrev Reg64 := BitVec 64

/-- A node identifier as a 9-bit field holds it (R14, R30): 0 to 255 leaves, 256 to 510 internal nodes. -/
abbrev NodeId := BitVec 9

end Sys2Proof
end

