-- ==== Sys2Proof/Syntax.lean ====
section
/-! DEFINITION. The syntax of the command set HC-1: one constructor per row of spec/opcode_table.json
(spec/30_encoding.md R91), with the operands of R92. -/

namespace Sys2Proof

/-- A command (spec/00_scope.md R3: the analogue of an instruction). Operands that are not in the command word are
registers and buffers and are no part of the syntax (R92). -/
inductive Instr where
  /-- 0x01, spec/47_system.md R273. -/
  | clr
  /-- 0x02, spec/40_frequency_table.md R131. -/
  | freq
  /-- 0x03, spec/41_tree_builder.md R140. -/
  | tbuild
  /-- 0x04, spec/42_code_assigner.md R160. -/
  | cassign
  /-- 0x05, spec/42_code_assigner.md R170. -/
  | encode
  /-- 0x06, spec/43_bit_packer.md R181. -/
  | bpinit
  /-- 0x07, spec/43_bit_packer.md R183: `pattern` = w[15:0]; `length` = zext(w[23:16]), a natural number. -/
  | wbits (pattern : BitVec 16) (length : Nat)
  /-- 0x08, spec/44_bit_unpacker.md R196. -/
  | buinit
  /-- 0x09, spec/44_bit_unpacker.md R199. -/
  | rbit
  /-- 0x0A, spec/45_huffman_decoder.md R210. -/
  | tdeser
  /-- 0x0B, spec/45_huffman_decoder.md R215: `bit` = w[0]. -/
  | slookup (bit : Bool)
  /-- 0x0C, spec/45_huffman_decoder.md R220. -/
  | decode
  /-- 0x0D, spec/46_container_codec.md R235. -/
  | compress
  /-- 0x0E, spec/46_container_codec.md R250. -/
  | decompress
  deriving DecidableEq, Repr

end Sys2Proof
end

