-- ==== Sys2Proof/WellFormed.lean ====
section
/-! DEFINITION. When a term of `Instr` is a command the 32-bit word can hold (spec/30_encoding.md R90, R92). -/

namespace Sys2Proof

/-- The one check: WBITS's `length` is a natural number 0 to 255, the range of the 8-bit field w[23:16] (R92).
Lengths 17 to 255 are well-formed: they decode to WBITS, which then raises ILLEGAL_OPERAND (R94). Every other
operand is exact in its type. -/
def Instr.wellFormed : Instr → Bool
  | .wbits _ length => decide (length < 256)
  | .clr => true
  | .freq => true
  | .tbuild => true
  | .cassign => true
  | .encode => true
  | .bpinit => true
  | .buinit => true
  | .rbit => true
  | .tdeser => true
  | .slookup _ => true
  | .decode => true
  | .compress => true
  | .decompress => true

end Sys2Proof
end

