-- ==== Sys2Proof/Decode.lean ====
section
/-! DEFINITION. The command decoder, total on 32-bit words (spec/30_encoding.md R90 to R94), and after it the
encoder, written from the same fields. -/

namespace Sys2Proof

/-- Why a word is illegal (R93). Both reasons are the one outcome `Illegal` of R94. -/
inductive Illegal where
  /-- `op` is 0x00 or 0x0F to 0xFF. -/
  | unassignedOpcode (op : BitVec 8)
  /-- A field of w[23:0] that must be 0 under R90 is not 0. -/
  | mustBeZero (op : BitVec 8)
  deriving DecidableEq, Repr

/-- The field `op`, bits 31:24 (R90). -/
def opField (w : Word) : BitVec 8 := w.extractLsb' 24 8

/-- The field `len`, bits 23:16 (R90). -/
def lenField (w : Word) : BitVec 8 := w.extractLsb' 16 8

/-- The field `pat`, bits 15:0 (R90). -/
def patField (w : Word) : BitVec 16 := w.extractLsb' 0 16

/-- The opcode map of R91 for the twelve commands whose fields `len` and `pat` must be 0. -/
def decodePlain (op : BitVec 8) : Option Instr :=
  match op.toNat with
  | 0x01 => some .clr
  | 0x02 => some .freq
  | 0x03 => some .tbuild
  | 0x04 => some .cassign
  | 0x05 => some .encode
  | 0x06 => some .bpinit
  | 0x08 => some .buinit
  | 0x09 => some .rbit
  | 0x0A => some .tdeser
  | 0x0C => some .decode
  | 0x0D => some .compress
  | 0x0E => some .decompress
  | _ => none

/-- `decode(w)` of R94. -/
def decode (w : Word) : Except Illegal Instr :=
  if opField w = 0x07 then
    .ok (.wbits (patField w) (lenField w).toNat)
  else if opField w = 0x0B then
    if lenField w = 0 ∧ (patField w).extractLsb' 1 15 = 0 then .ok (.slookup ((patField w).getLsbD 0))
    else .error (.mustBeZero (opField w))
  else
    match decodePlain (opField w) with
    | some i => if lenField w = 0 ∧ patField w = 0 then .ok i else .error (.mustBeZero (opField w))
    | none => .error (.unassignedOpcode (opField w))

/-- The word with the three fields of R90. -/
def wordOf (op : BitVec 8) (len : BitVec 8) (pat : BitVec 16) : Word := (op ++ len) ++ pat

/-- The word of a command, from the opcode map R91 and the operand fields R92. -/
def encode : Instr → Word
  | .clr => wordOf 0x01 0 0
  | .freq => wordOf 0x02 0 0
  | .tbuild => wordOf 0x03 0 0
  | .cassign => wordOf 0x04 0 0
  | .encode => wordOf 0x05 0 0
  | .bpinit => wordOf 0x06 0 0
  | .wbits pattern length => wordOf 0x07 (BitVec.ofNat 8 length) pattern
  | .buinit => wordOf 0x08 0 0
  | .rbit => wordOf 0x09 0 0
  | .tdeser => wordOf 0x0A 0 0
  | .slookup bit => wordOf 0x0B 0 ((BitVec.ofBool bit).zeroExtend 16)
  | .decode => wordOf 0x0C 0 0
  | .compress => wordOf 0x0D 0 0
  | .decompress => wordOf 0x0E 0 0

/-- The command the decoder reads from a word whose bits are `w`, `nbits` of them given by the opcode table and
every higher bit 0. A command is one 32-bit value, not bytes in a memory (spec/20_memory.md R66), so there is no
byte order to lay out. -/
def decodeTableWord (nbits w : Nat) : Option Instr :=
  if w % 2 ^ nbits < 2 ^ 32 then
    match decode (BitVec.ofNat 32 (w % 2 ^ nbits)) with
    | .ok i => some i
    | .error _ => none
  else none

end Sys2Proof
end

