-- ==== Sys2Proof/Config.lean ====
section
/-! DEFINITION. What an implementation fixes: the constants of spec/00_scope.md R7, the four buffer capacities of
R8, and the free values, which the spec leaves open (spec/93_implementation_defined.md U3, U7). -/

namespace Sys2Proof

/-- The four byte spaces of spec/20_memory.md R60. They do not overlap. -/
inductive Space where
  | ibuf
  | abuf
  | pbuf
  | obuf
  deriving DecidableEq, Repr

/-- The capacities in bytes of the four spaces (R8). A 64-bit value is exactly a natural number from 0 to
2^64 - 1, the range R8 gives each of them. -/
structure Caps where
  ibuf : Reg64
  abuf : Reg64
  pbuf : Reg64
  obuf : Reg64
  deriving DecidableEq, Repr

/-- The capacity of one space. -/
def Caps.of (c : Caps) : Space → Reg64
  | .ibuf => c.ibuf
  | .abuf => c.abuf
  | .pbuf => c.pbuf
  | .obuf => c.obuf

namespace Config

/-- `MAXLEN` of R7: the greatest code length the block accepts. -/
abbrev maxLen : Nat := 16

/-- `HDR_SIZE` of R7 (R100): bytes before the first code entry. -/
abbrev hdrSize : Nat := 18

/-- `ENTRY_SIZE` of R7 (R104): bytes of one code entry. -/
abbrev entrySize : Nat := 4

/-- `NSYM` of R7: the number of symbols, the length of the frequency table and of the code table. -/
abbrev nsym : Nat := 256

/-- `NODE_MAX` of R7: the number of node identifiers, 0 to 510. -/
abbrev nodeMax : Nat := 511

/-- `MAGIC` of R7 (R101): the container's signature. The letters' byte values are ASCII, which the spec itself
marks as general knowledge (spec/93_implementation_defined.md G1). PRESUMED, assumption 9. -/
def magic : List Byte := [0x00, 0x6C, 0x62, 0x63, 0x61, 0x00]

/-- The capacities that `State.reset` carries: 2^20 each, the least that spec/95_test_vectors.md calls large.
DESIGN CHOICE, assumption 2: the spec leaves them open (R8). No statement rests on this value, since every
statement quantifies over all states and so over all capacities. -/
def resetCaps : Caps := ⟨0x100000, 0x100000, 0x100000, 0x100000⟩

/-- What a free value is the value of: a buffer byte, or a register (or field of one) after a fault
(spec/60_exceptions.md R291). -/
inductive FreePlace where
  | byte (sp : Space) (index : Nat)
  | nodata
  | eod
  | matched
  | rdata
  | inLen
  | arLen
  | pkLen
  | outLen
  | origSize
  | contentOff
  | entryCnt
  | maxLen
  | freq (s : Nat)
  | codePat (s : Nat)
  | codeLen (s : Nat)
  | nodeValid (n : Nat)
  | nodeKind (n : Nat)
  | nodeSym (n : Nat)
  | nodeFreq (n : Nat)
  | nodeLeft (n : Nat)
  | nodeRight (n : Nat)
  | wlLen
  | wl (k : Nat)
  | mergeCnt
  | rootValid
  | root
  | bpByte
  | bpBit
  | buByte
  | buBit
  | cand
  | clen
  | emitCnt
  deriving DecidableEq, Repr

/-- The free values: what each unspecified place holds in each epoch. An epoch begins at reset and at every fault
(U3, U7); the epoch is a counter in `State`. The constant has no body, so nothing can be proved about its values
and every claim holds whichever they are. Assumptions 3 and 4. -/
opaque freeBits (epoch : Nat) (place : FreePlace) (w : Nat) : BitVec w

end Config

end Sys2Proof
end

