-- ==== Sys2Proof/Machine/State.lean ====
section
/-! DEFINITION. The state of `huffman_core` as plain data (spec/10_state.md R21), the reasons a step can stop, and
the state after reset (R40). -/

namespace Sys2Proof.Machine

/-- `PHASE`, the sequencer's state (spec/10_state.md R23). The register's value 3 is never taken. -/
inductive Phase where
  | idle
  | run
  | faulted
  deriving DecidableEq, Repr

/-- The field `kind` of a node (spec/10_state.md R30): 0 leaf, 1 internal. -/
inductive NodeKind where
  | leaf
  | internal
  deriving DecidableEq, Repr

/-- One element of the node arena (spec/10_state.md R30). -/
structure Node where
  valid : Bool
  kind : NodeKind
  sym : Byte
  freq : Reg64
  left : NodeId
  right : NodeId
  deriving DecidableEq, Repr

/-- An arena element that holds no node: every field 0 (spec/41_tree_builder.md R142, spec/10_state.md R40). -/
def Node.empty : Node := ⟨false, .leaf, 0, 0, 0, 0⟩

/-- One entry of the code table: the code is the `len` low bits of `pat` (spec/10_state.md R33). -/
structure CodeEntry where
  pat : BitVec 16
  len : BitVec 8
  deriving DecidableEq, Repr

/-- The entry of an absent symbol (spec/10_state.md R33, R40). -/
def CodeEntry.absent : CodeEntry := ⟨0, 0⟩

/-- The frequency table (spec/10_state.md R29). -/
abbrev FreqTable := Vector Reg64 256

/-- The code table (spec/10_state.md R33). -/
abbrev CodeTable := Vector CodeEntry 256

/-- The node arena (spec/10_state.md R30). -/
abbrev Arena := Vector Node 511

/-- The bytes of one space that have been written since its content was last unspecified, by rising index. An index
that is not listed holds an unspecified byte (`State.readByte`). -/
abbrev Memory := List Host.Cell

/-- The faults of spec/60_exceptions.md R281, less NONE. Raising one is not a stop of the model: the command ends in
the state of fault entry (R290). -/
inductive CmdFault where
  | allocFailure
  | badMagic
  | truncatedHeader
  | badEntryCount
  | unencodableSymbol
  | unboundedDecode
  | codeTooLong
  | truncatedContent
  | packOverrun
  | illegalCommand
  | illegalOperand
  deriving DecidableEq, Repr

/-- One act of the host (spec/30_encoding.md R116, spec/47_system.md R274) or the reset input
(spec/70_reset_and_hazards.md R320). A write of register 0x0000 issues a command. -/
inductive Transaction where
  /-- `WR`: write `value` to the register at byte address `addr` (R38). -/
  | writeReg (addr : BitVec 16) (value : Reg64)
  /-- `RD`: read the register at byte address `addr`. -/
  | readReg (addr : BitVec 16)
  /-- One byte of `LOAD`. -/
  | writeBuf (sp : Space) (index : Reg64) (value : Byte)
  /-- One byte of `DUMP`. -/
  | readBuf (sp : Space) (index : Reg64)
  /-- The hardware reset input. -/
  | reset
  deriving DecidableEq, Repr

/-- Why the machine stops with a fault of the MODEL (not a fault of the block: those are taken, `CmdFault`). -/
inductive Fault where
  /-- Raised by a host access to a buffer at an index at or above its capacity, which "is not a transaction of the
  model" (spec/20_memory.md R63). Safe: the model stops. DESIGN CHOICE of the name, assumption 7. -/
  | outsideBuffer (sp : Space) (index : Nat)
  /-- Raised by CASSIGN and ENCODE when the walk of spec/42_code_assigner.md R163 meets an identifier that names no
  node or does not end: an arena no TBUILD leaves. Safe: the model stops; no run from reset reaches it.
  DESIGN CHOICE, assumption 6. -/
  | walkStuck
  deriving DecidableEq, Repr

/-- Why the model gives a step no meaning. -/
inductive Refusal where
  /-- Raised by an arm of `exec` whose command has no meaning yet; no arm is left so. Safe. -/
  | notModelled (mnemonic : String)
  /-- Raised by every host transaction but reset while `PHASE` is RUN: "The model has no transition for a host
  transaction during a command" (spec/20_memory.md R76, U6). No run from reset reaches it. Safe in the model; the
  spec says that it errs toward proving (spec/70_reset_and_hazards.md R331), so unsafe for a host that breaks the rule.
  DEDUCED, assumption 1. -/
  | hostWhileRunning
  /-- Raised by a host read of an unmapped register address: "it has no meaning; a model refuses it"
  (spec/10_state.md R39, U10). Safe. DESIGN CHOICE of the name, assumption 7. -/
  | unmappedRead (addr : Nat)
  deriving DecidableEq, Repr

/-- The state. The fields `epoch`, `pending` and `replies` are the model's own, and `caps` holds the parameters of
R8, which no step writes (assumption 2); every other field is the spec's. -/
structure State where
  /-- The four capacities (spec/00_scope.md R8). -/
  caps : Caps
  /-- `CMD` (R24). -/
  cmd : Word
  /-- `STATUS` bits 0 to 5 (R22). -/
  busy : Bool
  done : Bool
  fault : Bool
  nodata : Bool
  eod : Bool
  matched : Bool
  /-- `PHASE` (R23). -/
  phase : Phase
  /-- `FAULT_CODE`, `FAULT_INFO` (R25). -/
  faultCode : BitVec 8
  faultInfo : Reg64
  /-- `RDATA` (R26). -/
  rdata : Byte
  /-- The length registers (R27). -/
  inLen : Reg64
  arLen : Reg64
  pkLen : Reg64
  outLen : Reg64
  /-- The header registers (R28). -/
  origSize : Reg64
  contentOff : BitVec 32
  entryCnt : BitVec 16
  maxLen : BitVec 8
  /-- `FREQ[0 .. 255]` (R29). -/
  freq : FreqTable
  /-- `NODE[0 .. 510]` (R30). -/
  node : Arena
  /-- `WL`, head first; `WL_LEN` is its length (R31). -/
  wl : List NodeId
  /-- `MERGE_CNT` (R31). -/
  mergeCnt : BitVec 8
  /-- `TREE_ROOT`: `ROOT_VALID` and `ROOT` (R32). -/
  rootValid : Bool
  root : NodeId
  /-- `CODE[0 .. 255]` (R33). -/
  code : CodeTable
  /-- The packer's cursor (R34). -/
  bpByte : Reg64
  bpBit : BitVec 3
  /-- The unpacker's cursor (R35). -/
  buByte : Reg64
  buBit : BitVec 3
  /-- The running candidate and the count of emitted symbols (R36). -/
  cand : BitVec 16
  clen : BitVec 8
  emitCnt : Reg64
  /-- The four byte buffers (R37). -/
  ibuf : Memory
  abuf : Memory
  pbuf : Memory
  obuf : Memory
  /-- How often the unspecified state has become unspecified anew. DESIGN CHOICE, assumption 3. -/
  epoch : Nat
  /-- What the host does next, first transaction first. DESIGN CHOICE, assumption 5. -/
  pending : List Transaction
  /-- What the host's reads have returned, last read first. DESIGN CHOICE, assumption 5. -/
  replies : List Reg64
  deriving DecidableEq, Repr

/-- The state after hardware reset of an instance with the given capacities (spec/10_state.md R40,
spec/70_reset_and_hazards.md R320): every register 0, `PHASE` IDLE, nothing listed in any buffer, so that every
buffer byte is unspecified. -/
def State.resetWith (caps : Caps) : State where
  caps := caps
  cmd := 0
  busy := false
  done := false
  fault := false
  nodata := false
  eod := false
  matched := false
  phase := .idle
  faultCode := 0
  faultInfo := 0
  rdata := 0
  inLen := 0
  arLen := 0
  pkLen := 0
  outLen := 0
  origSize := 0
  contentOff := 0
  entryCnt := 0
  maxLen := 0
  freq := Vector.replicate 256 0
  node := Vector.replicate 511 Node.empty
  wl := []
  mergeCnt := 0
  rootValid := false
  root := 0
  code := Vector.replicate 256 CodeEntry.absent
  bpByte := 0
  bpBit := 0
  buByte := 0
  buBit := 0
  cand := 0
  clen := 0
  emitCnt := 0
  ibuf := []
  abuf := []
  pbuf := []
  obuf := []
  epoch := 0
  pending := []
  replies := []

/-- The machine right after reset. Its capacities are `Config.resetCaps` (DESIGN CHOICE, assumption 2). -/
def State.reset : State := State.resetWith Config.resetCaps

end Sys2Proof.Machine
end

