-- ==== Sys2Proof/Machine/Ops.lean ====
section
/-! DEFINITION. The shared operations: buffer bytes, the little-endian fields, the tables, the outcome of a command
body, taking a fault (spec/60_exceptions.md R290, R291), the return from it (spec/47_system.md R273) and the
dispatch envelope (R271). -/

namespace Sys2Proof.Machine

/-! ## One buffer -/

/-- The byte listed at an index, if one is. -/
def Memory.peek : Memory → Nat → Option Byte
  | [], _ => none
  | (k, x) :: m, a => if k = a then some x else Memory.peek m a

/-- List `v` at index `a`, keeping the indexes rising. -/
def Memory.poke : Memory → Nat → Byte → Memory
  | [], a, v => [(a, v)]
  | (k, x) :: m, a, v =>
    if a < k then (a, v) :: (k, x) :: m
    else if a = k then (a, v) :: m
    else (k, x) :: Memory.poke m a v

/-- The canonical form: indexes strictly rising. An unlisted index is unspecified, which is no byte, so no entry can
equal what an unlisted index holds. DESIGN CHOICE, assumption 4, safe. -/
def Memory.wf : Memory → Bool
  | [] => true
  | [_] => true
  | (k, _) :: (l, y) :: m => decide (k < l) && Memory.wf ((l, y) :: m)

/-! ## The four spaces (spec/20_memory.md R60) -/

/-- The listed bytes of one space. -/
def State.buf (s : State) : Space → Memory
  | .ibuf => s.ibuf
  | .abuf => s.abuf
  | .pbuf => s.pbuf
  | .obuf => s.obuf

/-- Replace the listed bytes of one space. -/
def State.setBuf (s : State) (sp : Space) (m : Memory) : State :=
  match sp with
  | .ibuf => { s with ibuf := m }
  | .abuf => { s with abuf := m }
  | .pbuf => { s with pbuf := m }
  | .obuf => { s with obuf := m }

/-- `S[a]` (R11). An unlisted byte has some value, the same on every read until it is written (R40, U7): the free
value of this epoch. DEDUCED, assumption 4, safe. -/
def State.readByte (s : State) (sp : Space) (a : Nat) : Byte :=
  match (s.buf sp).peek a with
  | some v => v
  | none => Config.freeBits s.epoch (.byte sp a) 8

/-- `MemWrite(S, a, 1, v)` (R11). -/
def State.writeByte (s : State) (sp : Space) (a : Nat) (v : Byte) : State :=
  s.setBuf sp ((s.buf sp).poke a v)

/-- The `n` bytes S[a], …, S[a+n-1]. -/
def State.readBytes (s : State) (sp : Space) (a n : Nat) : List Byte :=
  (List.range n).map fun k => s.readByte sp (a + k)

/-- Write the bytes at S[a], S[a+1], … in that order. -/
def State.writeBytes (s : State) (sp : Space) (a : Nat) : List Byte → State
  | [] => s
  | v :: vs => (s.writeByte sp a v).writeBytes sp (a + 1) vs

/-- The little-endian number of a list of bytes (spec/20_memory.md R64). -/
def leNat : List Byte → Nat
  | [] => 0
  | b :: bs => b.toNat + 256 * leNat bs

/-- The `n` little-endian bytes of a number: byte k is `(v div 256^k) mod 256` (R11, R64). -/
def leBytes : Nat → Nat → List Byte
  | 0, _ => []
  | n + 1, v => BitVec.ofNat 8 v :: leBytes n (v / 256)

/-- `MemRead(S, a, n)` (R11). -/
def State.memRead (s : State) (sp : Space) (a n : Nat) : Nat := leNat (s.readBytes sp a n)

/-- `MemWrite(S, a, n, v)` (R11). -/
def State.memWrite (s : State) (sp : Space) (a n v : Nat) : State := s.writeBytes sp a (leBytes n v)

/-! ## Tables indexed by a symbol, and the arena -/

/-- The table whose entry i is `f i`. -/
def tableOf {α : Type} (n : Nat) (f : Nat → α) : Vector α n := ⟨((List.range n).map f).toArray, by simp⟩

/-- The entry of a symbol. -/
def tget {α : Type} (t : Vector α 256) (b : Byte) : α := t[b.toNat]'b.isLt

/-- Replace the entry of a symbol. -/
def tset {α : Type} (t : Vector α 256) (b : Byte) (x : α) : Vector α 256 := t.set b.toNat x b.isLt

/-- The 256 symbols in ascending order. -/
def allSymbols : List Byte := (List.range 256).map (BitVec.ofNat 8)

/-- The tree gone: no node, an empty work list, no root (R142, R166). -/
def State.clearTree (s : State) : State :=
  { s with node := Vector.replicate 511 Node.empty, wl := [], mergeCnt := 0, rootValid := false, root := 0 }

/-- Every symbol absent (R162, R212). -/
def State.clearCodes (s : State) : State := { s with code := Vector.replicate 256 CodeEntry.absent }

/-! ## The outcome of a command body -/

/-- What the pseudocode of a command body ends in: its last line, a `raise F(info)` (R11), or no end at all. -/
inductive Result where
  | ok (s : State)
  | raised (f : CmdFault) (info : Nat)
  | stuck (r : Fault)
  deriving DecidableEq, Repr

/-- Sequencing, which is also `call X` (R11): nothing after a raise runs. -/
def Result.andThen : Result → (State → Result) → Result
  | .ok s, k => k s
  | .raised f info, _ => .raised f info
  | .stuck r, _ => .stuck r

/-! ## Taking a fault -/

/-- The fault codes of spec/60_exceptions.md R281. -/
def CmdFault.code : CmdFault → BitVec 8
  | .allocFailure => 0x01
  | .badMagic => 0x02
  | .truncatedHeader => 0x03
  | .badEntryCount => 0x04
  | .unencodableSymbol => 0x05
  | .unboundedDecode => 0x06
  | .codeTooLong => 0x07
  | .truncatedContent => 0x08
  | .packOverrun => 0x09
  | .illegalCommand => 0x0A
  | .illegalOperand => 0x0B

/-- A free bit as a flag. -/
def freeBool (epoch : Nat) (place : Config.FreePlace) : Bool := (Config.freeBits epoch place 1).getLsbD 0

/-- A node each of whose fields is free. -/
def freeNode (epoch n : Nat) : Node where
  valid := freeBool epoch (.nodeValid n)
  kind := if freeBool epoch (.nodeKind n) then .internal else .leaf
  sym := Config.freeBits epoch (.nodeSym n) 8
  freq := Config.freeBits epoch (.nodeFreq n) 64
  left := Config.freeBits epoch (.nodeLeft n) 9
  right := Config.freeBits epoch (.nodeRight n) 9

/-- Everything that R291 leaves unspecified after a fault, at the free values of a new epoch: "the other three flags,
every other register, both tables, the node arena, the cursors, and the contents of all four buffers each hold some
value". DESIGN CHOICE, assumption 3, safe. -/
def State.unspecified (s : State) : State :=
  let e := s.epoch + 1
  { s with
    epoch := e
    nodata := freeBool e .nodata
    eod := freeBool e .eod
    matched := freeBool e .matched
    rdata := Config.freeBits e .rdata 8
    inLen := Config.freeBits e .inLen 64
    arLen := Config.freeBits e .arLen 64
    pkLen := Config.freeBits e .pkLen 64
    outLen := Config.freeBits e .outLen 64
    origSize := Config.freeBits e .origSize 64
    contentOff := Config.freeBits e .contentOff 32
    entryCnt := Config.freeBits e .entryCnt 16
    maxLen := Config.freeBits e .maxLen 8
    freq := tableOf 256 fun i => Config.freeBits e (.freq i) 64
    node := tableOf 511 (freeNode e)
    wl := (List.range (Config.freeBits e .wlLen 16).toNat).map fun k => Config.freeBits e (.wl k) 9
    mergeCnt := Config.freeBits e .mergeCnt 8
    rootValid := freeBool e .rootValid
    root := Config.freeBits e .root 9
    code := tableOf 256 fun i => ⟨Config.freeBits e (.codePat i) 16, Config.freeBits e (.codeLen i) 8⟩
    bpByte := Config.freeBits e .bpByte 64
    bpBit := Config.freeBits e .bpBit 3
    buByte := Config.freeBits e .buByte 64
    buBit := Config.freeBits e .buBit 3
    cand := Config.freeBits e .cand 16
    clen := Config.freeBits e .clen 8
    emitCnt := Config.freeBits e .emitCnt 64
    ibuf := []
    abuf := []
    pbuf := []
    obuf := [] }

/-- Fault entry F(info) (spec/60_exceptions.md R290): the one shared operation by which every command, at any depth of
`call`, and every illegal word takes its fault. `CMD` keeps the word that faulted. -/
def State.faultEntry (f : CmdFault) (info : Nat) (s : State) : State :=
  { s.unspecified with
    faultCode := f.code
    faultInfo := BitVec.ofNat 64 info
    fault := true
    done := false
    busy := false
    phase := .faulted }

/-- CLR, the return from the fault state (spec/47_system.md R273): every register at its reset value but `CMD`, which
holds the CLR word; the buffers keep their contents. -/
def State.softReset (s : State) : State :=
  { State.resetWith s.caps with
    cmd := 0x01000000
    ibuf := s.ibuf
    abuf := s.abuf
    pbuf := s.pbuf
    obuf := s.obuf
    epoch := s.epoch
    pending := s.pending
    replies := s.replies }

/-- Hardware reset (spec/70_reset_and_hazards.md R320): every register 0 and the buffers' contents unspecified anew.
The host's own side (what it will do next, what it has read) is no state of the block. -/
def State.hardReset (s : State) : State :=
  { State.resetWith s.caps with
    epoch := s.epoch + 1
    pending := s.pending
    replies := s.replies }

end Sys2Proof.Machine
end

