-- ==== Sys2Proof/Machine/Flags.lean ====
section
/-! DEFINITION. The flags of `STATUS` (spec/10_state.md R22, R43): what the envelope of spec/47_system.md R271 does to
BUSY and DONE, what the commands do to NODATA, EOD and MATCH, and the register as the host reads it. -/

namespace Sys2Proof.Machine

/-- `STATUS` as a word: bit 0 BUSY, 1 DONE, 2 FAULT, 3 NODATA, 4 EOD, 5 MATCH (R22). -/
def State.status (s : State) : BitVec 6 :=
  BitVec.ofBool s.matched ++ BitVec.ofBool s.eod ++ BitVec.ofBool s.nodata ++ BitVec.ofBool s.fault ++
    BitVec.ofBool s.done ++ BitVec.ofBool s.busy

/-- The start of an accepted command (R271). -/
def State.accept (s : State) : State := { s with done := false, busy := true, phase := .run }

/-- The successful end of a command (R271). -/
def State.finish (s : State) : State := { s with busy := false, done := true, phase := .idle }

/-- NODATA, written by the tree builder (spec/41_tree_builder.md R143). -/
def State.setNodata (s : State) (b : Bool) : State := { s with nodata := b }

/-- EOD, written by the unpacker (spec/44_bit_unpacker.md R196, R199). -/
def State.setEod (s : State) (b : Bool) : State := { s with eod := b }

/-- MATCH, written by the symbol lookup (spec/45_huffman_decoder.md R212, R216, R221). -/
def State.setMatched (s : State) (b : Bool) : State := { s with matched := b }

/-- The dispatch envelope (R271) around a command body, with the gate of R270: in IDLE the body runs and ends in
success or in fault entry; in FAULTED a command other than CLR changes nothing (R272); in RUN there is no host
transaction (spec/20_memory.md R76; DEDUCED, assumption 1). `CMD` has been written before (`issue`). -/
def command (body : State → Result) (s : State) : Host.Outcome State Fault Refusal :=
  match s.phase with
  | .idle =>
    match body s.accept with
    | .ok t => .next t.finish
    | .raised f info => .next (s.faultEntry f info)
    | .stuck r => .fault r
  | .faulted => .next s
  | .run => .refused .hostWhileRunning

end Sys2Proof.Machine
end

