-- ==== Sys2Proof/Machine/FrequencyTable.lean ====
section
/-! DEFINITION. huffman_encoder.frequency_table: FREQ (spec/40_frequency_table.md). -/

namespace Sys2Proof.Machine

/-- `FREQ[s] <- FREQ[s] + 1`. The 64-bit addition never wraps (R132). -/
def bump (f : FreqTable) (b : Byte) : FreqTable := tset f b (tget f b + 1)

/-- IBUF[0 .. IN_LEN - 1]. -/
def State.input (s : State) : List Byte := s.readBytes .ibuf 0 s.inLen.toNat

/-- The counters after counting the bytes from all-zero counters (R131). -/
def countBytes (bs : List Byte) : FreqTable := bs.foldl bump (Vector.replicate 256 0)

/-- The body of FREQ (R131). -/
def freqBody (s : State) : Result :=
  if s.caps.ibuf < s.inLen then .raised .allocFailure s.inLen.toNat
  else .ok { s with freq := countBytes s.input }

/-- FREQ (R131). -/
def execFreq (s : State) : Host.Outcome State Fault Refusal := command freqBody s

end Sys2Proof.Machine
end

