-- ==== Sys2Proof/Machine/Operands.lean ====
section
/-! DEFINITION. The operand forms (spec/30_encoding.md R92): the two operands a command word can carry, and the bits
of a code and of a byte as the packer, the unpacker and the lookup take them (spec/00_scope.md R10, R108). -/

namespace Sys2Proof.Machine

/-- The low `length` bits of `pattern`, bit `length - 1` first (spec/43_bit_packer.md R183); the bit string of a code
(spec/30_encoding.md R108). -/
def patternBits (pattern : BitVec 16) (length : Nat) : List Bool :=
  (List.range length).map fun i => pattern.getLsbD (length - 1 - i)

/-- The bit string of a code table entry (R108). -/
def CodeEntry.bits (e : CodeEntry) : List Bool := patternBits e.pat e.len.toNat

/-- The length operand of WBITS that is legal: 0 to 16 (R92, R183). -/
def legalLength (length : Nat) : Bool := decide (length ≤ Config.maxLen)

/-- The bit of a byte at a cursor's bit offset: offset 0 is bit 7, offset 7 is bit 0 (spec/00_scope.md R10). -/
def bitAt (v : Byte) (p : BitVec 3) : Bool := v.getLsbD (7 - p.toNat)

/-- `v | (b << (7 - p))` of spec/43_bit_packer.md R184. -/
def orBitAt (v : Byte) (p : BitVec 3) (b : Bool) : Byte := v ||| ((BitVec.ofBool b).zeroExtend 8 <<< (7 - p.toNat))

/-- `(2 * CAND + bit) mod 2^16` of spec/45_huffman_decoder.md R216. -/
def shiftIn (cand : BitVec 16) (bit : Bool) : BitVec 16 := BitVec.ofNat 16 (2 * cand.toNat + bit.toNat)

/-- `T` of spec/43_bit_packer.md R186: the number of bytes into which at least one bit was written. -/
def State.touched (s : State) : Nat := s.bpByte.toNat + (if 0 < s.bpBit.toNat then 1 else 0)

end Sys2Proof.Machine
end

