-- ==== Sys2Proof/Machine/TreeBuilder.lean ====
section
/-! DEFINITION. huffman_encoder.tree_builder: TBUILD (spec/41_tree_builder.md). -/

namespace Sys2Proof.Machine

/-- An item of the work list: a node identifier with that node's frequency `NODE[id].freq`. DEDUCED, assumption 10,
safe. -/
structure Item where
  id : NodeId
  freq : Reg64
  deriving DecidableEq, Repr

/-- The order of the work list (R144): frequency descending, then identifier ascending. -/
def before (x y : Item) : Bool :=
  decide (y.freq < x.freq) || (decide (x.freq = y.freq) && decide (x.id < y.id))

/-- Put an item at its place in a sorted work list. -/
def insertItem (x : Item) : List Item → List Item
  | [] => [x]
  | y :: ys => if before x y then x :: y :: ys else y :: insertItem x ys

/-- The sorted arrangement of the items, which is unique since the order is total (R144). -/
def sortItems (xs : List Item) : List Item := xs.foldr insertItem []

/-- What the merge loop works on: the arena, the work list and `MERGE_CNT`. -/
structure Build where
  node : Arena
  items : List Item
  mergeCnt : BitVec 8
  deriving DecidableEq, Repr

/-- The leaf of a symbol with a nonzero count (R141); no node for a symbol with count 0. -/
def leafNode (i : Nat) (f : Reg64) : Node :=
  if f = 0 then Node.empty else ⟨true, .leaf, BitVec.ofNat 8 i, f, 0, 0⟩

/-- The arena with one leaf per symbol s with FREQ[s] > 0 and no internal node (R141, R142). -/
def leafArena (freq : FreqTable) : Arena :=
  tableOf 511 fun i => if h : i < 256 then leafNode i freq[i] else Node.empty

/-- The items of the leaves, in ascending symbol order. -/
def leafItems (freq : FreqTable) : List Item :=
  (List.zipWith (fun i f => Item.mk (BitVec.ofNat 9 i) f) (List.range 256) freq.toList).filter
    fun x => decide (x.freq ≠ 0)

/-- The merge step (R145), for a work list of two or more items: `a` is the last item but one, `b` the tail; the new
node's left child is `a`, its right child `b`. The 64-bit sum never wraps (R149). -/
def mergeStep (t : Build) : Build :=
  match t.items.reverse with
  | b :: a :: rest =>
    let m : NodeId := BitVec.ofNat 9 (256 + t.mergeCnt.toNat)
    let f := a.freq + b.freq
    { node := t.node.setIfInBounds m.toNat ⟨true, .internal, 0, f, a.id, b.id⟩
      items := insertItem ⟨m, f⟩ rest.reverse
      mergeCnt := t.mergeCnt + 1 }
  | _ => t

/-- `n` merge steps. -/
def mergeTimes : Nat → Build → Build
  | 0, t => t
  | n + 1, t => mergeTimes n (mergeStep t)

/-- The tree of a frequency table with at least one leaf `x` first in the sorted work list: with L leaves, L - 1
merge steps (R146). -/
def mergeAll (t : Build) : Build := mergeTimes (t.items.length - 1) t

/-- The body of TBUILD (R140). -/
def tbuildBody (s : State) : Result :=
  match sortItems (leafItems s.freq) with
  | [] => .ok (s.clearTree.setNodata true)
  | x :: xs =>
    let t := mergeAll ⟨leafArena s.freq, x :: xs, 0⟩
    .ok ({ s with
      node := t.node
      wl := t.items.map Item.id
      mergeCnt := t.mergeCnt
      rootValid := true
      root := (t.items.headD x).id }.setNodata false)

/-- TBUILD (R140). -/
def execTbuild (s : State) : Host.Outcome State Fault Refusal := command tbuildBody s

end Sys2Proof.Machine
end

