-- ==== Sys2Proof/Machine/CodeAssigner.lean ====
section
/-! DEFINITION. huffman_encoder.code_assigner: CASSIGN and ENCODE (spec/42_code_assigner.md). -/

namespace Sys2Proof.Machine

/-- What a walk of the tree ends in. -/
inductive WalkResult where
  | done (code : CodeTable)
  | tooLong (sym : Byte) (len : Nat)
  | stuck
  deriving DecidableEq, Repr

/-- The walk of R163, left child before right (R167), with the code table filled so far. The first argument bounds
how many nodes a path may hold; a path of more than 511 nodes visits one of the 511 nodes twice, so a walk that
exceeds the bound has no end. No tree of TBUILD comes near it (depth at most 255, R152). DESIGN CHOICE, assumption 6,
safe. -/
def walk (node : Arena) : Nat → NodeId → Nat → Nat → CodeTable → WalkResult
  | 0, _, _, _, _ => .stuck
  | fuel + 1, n, bits, len, code =>
    match node[n.toNat]? with
    | none => .stuck
    | some nd =>
      match nd.kind with
      | .leaf =>
        if Config.maxLen < len then .tooLong nd.sym len
        else .done (tset code nd.sym ⟨BitVec.ofNat 16 bits, BitVec.ofNat 8 len⟩)
      | .internal =>
        match walk node fuel nd.left (2 * bits) (len + 1) code with
        | .done code' => walk node fuel nd.right (2 * bits + 1) (len + 1) code'
        | .tooLong sym l => .tooLong sym l
        | .stuck => .stuck

/-- The code table of the tree in the arena (R160): every symbol absent without a tree (R161), the code (0, 1) for the
symbol of a root that is a leaf (R164), otherwise the walk. -/
def assignCodes (s : State) : WalkResult :=
  if s.rootValid then
    match s.node[s.root.toNat]? with
    | none => .stuck
    | some nd =>
      match nd.kind with
      | .leaf => .done (tset s.clearCodes.code nd.sym ⟨0, 1⟩)
      | .internal => walk s.node Config.nodeMax s.root 0 0 s.clearCodes.code
  else .done s.clearCodes.code

/-- The body of CASSIGN (R160); the tree is consumed (R166). -/
def cassignBody (s : State) : Result :=
  match assignCodes s with
  | .done code => .ok { s with code := code }.clearTree
  | .tooLong sym len => .raised .codeTooLong (sym.toNat + 256 * len)
  | .stuck => .stuck .walkStuck

/-- CASSIGN (R160). -/
def execCassign (s : State) : Host.Outcome State Fault Refusal := command cassignBody s

/-- The body of ENCODE: `call FREQ`, `call TBUILD`, `call CASSIGN` (R170). -/
def encodeBody (s : State) : Result := ((freqBody s).andThen tbuildBody).andThen cassignBody

/-- ENCODE (R170). -/
def execEncode (s : State) : Host.Outcome State Fault Refusal := command encodeBody s

end Sys2Proof.Machine
end

