-- ==== Sys2Proof/Machine/BitPacker.lean ====
section
/-! DEFINITION. bit_packer: BPINIT and WBITS (spec/43_bit_packer.md). -/

namespace Sys2Proof.Machine

/-- The body of BPINIT (R181). -/
def bpinitBody (s : State) : Result :=
  if s.caps.pbuf < s.pkLen then .raised .allocFailure s.pkLen.toNat
  else
    let s := { s with bpByte := 0, bpBit := 0 }
    .ok (if 0 < s.pkLen.toNat then s.writeByte .pbuf 0 0 else s)

/-- BPINIT (R181). -/
def execBpinit (s : State) : Host.Outcome State Fault Refusal := command bpinitBody s

/-- The packer's cursor moves one bit on; a byte it advances into inside the declared capacity is zeroed at once
(R184, R185). -/
def State.advancePacker (s : State) : State :=
  if s.bpBit.toNat < 7 then { s with bpBit := s.bpBit + 1 }
  else
    let s := { s with bpBit := 0, bpByte := s.bpByte + 1 }
    if s.bpByte < s.pkLen then s.writeByte .pbuf s.bpByte.toNat 0 else s

/-- Writing one bit (R184). -/
def writeBit (b : Bool) (s : State) : Result :=
  if s.pkLen ≤ s.bpByte then .raised .packOverrun s.bpByte.toNat
  else
    let v := s.readByte .pbuf s.bpByte.toNat
    .ok (s.writeByte .pbuf s.bpByte.toNat (orBitAt v s.bpBit b)).advancePacker

/-- Writing bits one after the other. -/
def writeBits : List Bool → State → Result
  | [], s => .ok s
  | b :: bs, s => (writeBit b s).andThen (writeBits bs)

/-- The body of WBITS (R183). -/
def wbitsBody (pattern : BitVec 16) (length : Nat) (s : State) : Result :=
  if legalLength length then
    if s.caps.pbuf < s.pkLen then .raised .allocFailure s.pkLen.toNat
    else writeBits (patternBits pattern length) s
  else .raised .illegalOperand length

/-- WBITS pattern, length (R183). -/
def execWbits (pattern : BitVec 16) (length : Nat) (s : State) : Host.Outcome State Fault Refusal :=
  command (wbitsBody pattern length) s

end Sys2Proof.Machine
end

