-- ==== Sys2Proof/Machine/BitUnpacker.lean ====
section
/-! DEFINITION. bit_unpacker: BUINIT and RBIT (spec/44_bit_unpacker.md). -/

namespace Sys2Proof.Machine

/-- The unpacker's cursor at (0, 0) and EOD cleared (R196, R221). -/
def State.startUnpacker (s : State) : State := { s with buByte := 0, buBit := 0 }.setEod false

/-- The body of BUINIT (R196). -/
def buinitBody (s : State) : Result :=
  if s.caps.pbuf < s.pkLen then .raised .allocFailure s.pkLen.toNat
  else .ok s.startUnpacker

/-- BUINIT (R196). -/
def execBuinit (s : State) : Host.Outcome State Fault Refusal := command buinitBody s

/-- The unpacker's cursor moves one bit on (R199). -/
def State.advanceUnpacker (s : State) : State :=
  if s.buBit.toNat < 7 then { s with buBit := s.buBit + 1 }
  else { s with buBit := 0, buByte := s.buByte + 1 }

/-- The body of RBIT (R199). -/
def rbitBody (s : State) : Result :=
  if s.caps.pbuf < s.pkLen then .raised .allocFailure s.pkLen.toNat
  else if s.pkLen ≤ s.buByte then .ok { s.setEod true with rdata := 0 }
  else
    let v := s.readByte .pbuf s.buByte.toNat
    .ok ({ s with rdata := (BitVec.ofBool (bitAt v s.buBit)).zeroExtend 8 }.setEod false).advanceUnpacker

/-- RBIT (R199). -/
def execRbit (s : State) : Host.Outcome State Fault Refusal := command rbitBody s

end Sys2Proof.Machine
end

