-- ==== Sys2Proof/Machine/HuffmanDecoder.lean ====
section
/-! DEFINITION. huffman_decoder: TDESER, SLOOKUP and DECODE (spec/45_huffman_decoder.md). -/

namespace Sys2Proof.Machine

/-- The entry count of a content offset, where it gives a whole number of entries that exist and fit the table
(R211); the four conditions report the same fault. -/
def entryCount (contentOff arLen : Nat) : Option Nat :=
  if contentOff < Config.hdrSize then none
  else if (contentOff - Config.hdrSize) % Config.entrySize ≠ 0 then none
  else if Config.nsym < (contentOff - Config.hdrSize) / Config.entrySize then none
  else if arLen < contentOff then none
  else some ((contentOff - Config.hdrSize) / Config.entrySize)

/-- An empty candidate and MATCH cleared (R212, R221). -/
def State.clearCandidate (s : State) : State := { s with cand := 0, clen := 0 }.setMatched false

/-- Entry i of the archive into the slot named by its symbol byte (R210, R213). -/
def State.storeEntry (s : State) (i : Nat) : State :=
  let at0 := Config.hdrSize + Config.entrySize * i
  { s with
    code := tset s.code (s.readByte .abuf at0)
      ⟨BitVec.ofNat 16 (s.memRead .abuf (at0 + 1) 2), s.readByte .abuf (at0 + 3)⟩ }

/-- The body of TDESER (R210). -/
def tdeserBody (s : State) : Result :=
  if s.caps.abuf < s.arLen then .raised .allocFailure s.arLen.toNat
  else
    match entryCount s.contentOff.toNat s.arLen.toNat with
    | none => .raised .badEntryCount s.contentOff.toNat
    | some count =>
      let s := { s.clearCodes.clearCandidate with entryCnt := BitVec.ofNat 16 count }
      .ok ((List.range count).foldl State.storeEntry s)

/-- TDESER (R210). -/
def execTdeser (s : State) : Host.Outcome State Fault Refusal := command tdeserBody s

/-- The least symbol whose entry is (cand, clen), the scan of R216 and R218. -/
def findSymbol (code : CodeTable) (cand : BitVec 16) (clen : BitVec 8) : Option Byte :=
  (code.toList.findIdx? fun e => decide (e.len = clen) && decide (e.pat = cand)).map (BitVec.ofNat 8)

/-- The body of SLOOKUP (R216). -/
def slookupBody (bit : Bool) (s : State) : Result :=
  let s := { s with cand := shiftIn s.cand bit, clen := s.clen + 1 }
  match findSymbol s.code s.cand s.clen with
  | some hit => .ok { s.setMatched true with rdata := hit, cand := 0, clen := 0 }
  | none =>
    if Config.maxLen ≤ s.clen.toNat then .raised .unboundedDecode s.emitCnt.toNat
    else .ok (s.setMatched false)

/-- SLOOKUP bit (R215). -/
def execSlookup (bit : Bool) (s : State) : Host.Outcome State Fault Refusal := command (slookupBody bit) s

/-- Store the symbol of a match in OBUF and count it (R220). -/
def State.emit (s : State) : State :=
  { s.writeByte .obuf s.emitCnt.toNat s.rdata with emitCnt := s.emitCnt + 1 }

/-- The loop of R220 for at most the given number of turns. A turn consumes one bit, so `8 * PK_LEN + 1` turns are
never used up (R223); were they, the unpacker would be at end of data, and the fault is the one R222 gives.
DEDUCED, assumption 8, safe. -/
def decodeLoop : Nat → State → Result
  | 0, s => if s.emitCnt < s.origSize then .raised .truncatedContent s.emitCnt.toNat else .ok s
  | turns + 1, s =>
    if s.emitCnt < s.origSize then
      (rbitBody s).andThen fun s =>
        if s.eod then .raised .truncatedContent s.emitCnt.toNat
        else
          (slookupBody (s.rdata.getLsbD 0) s).andThen fun s =>
            decodeLoop turns (if s.matched then s.emit else s)
    else .ok s

/-- The start of DECODE after its two checks (R221). -/
def State.startDecode (s : State) : State := { s.startUnpacker.clearCandidate with emitCnt := 0, outLen := 0 }

/-- The body of DECODE (R220, R221). -/
def decodeBody (s : State) : Result :=
  if s.caps.pbuf < s.pkLen then .raised .allocFailure s.pkLen.toNat
  else if s.caps.obuf < s.origSize then .raised .allocFailure s.origSize.toNat
  else
    (decodeLoop (8 * s.pkLen.toNat + 1) s.startDecode).andThen fun s => .ok { s with outLen := s.origSize }

/-- DECODE (R220). -/
def execDecode (s : State) : Host.Outcome State Fault Refusal := command decodeBody s

end Sys2Proof.Machine
end

