-- ==== Sys2Proof/Machine/ContainerCodec.lean ====
section
/-! DEFINITION. container_codec: COMPRESS and DECOMPRESS (spec/46_container_codec.md) over the LBCA container
(spec/30_encoding.md R100 to R110). -/

namespace Sys2Proof.Machine

/-! ## COMPRESS -/

/-- The present codes with their symbols, in ascending symbol order (R237, R240). -/
def presentCodes (code : CodeTable) : List (Byte × CodeEntry) :=
  (allSymbols.zip code.toList).filter fun e => decide (e.2.len ≠ 0)

/-- `maxlen` of R237: the greatest length of a present code, 0 if there is none. -/
def greatestLen (present : List (Byte × CodeEntry)) : Nat := present.foldl (fun m e => max m e.2.len.toNat) 0

/-- The least symbol whose code is longer than 16 (R238). -/
def overlong (code : CodeTable) : Option (Byte × CodeEntry) :=
  (allSymbols.zip code.toList).find? fun e => decide (Config.maxLen < e.2.len.toNat)

/-- The four bytes of a code entry (spec/30_encoding.md R104). -/
def entryBytes (e : Byte × CodeEntry) : List Byte := e.1 :: (leBytes 2 e.2.pat.toNat ++ [e.2.len])

/-- The 18 bytes of the header (spec/30_encoding.md R100). -/
def headerBytes (size off : Nat) : List Byte := Config.magic ++ leBytes 8 size ++ leBytes 4 off

/-- Step C1 (R237, R238). -/
def compressCount (s : State) : Result :=
  match overlong s.code with
  | some e => .raised .codeTooLong (e.1.toNat + 256 * e.2.len.toNat)
  | none =>
    let present := presentCodes s.code
    .ok { s with entryCnt := BitVec.ofNat 16 present.length, maxLen := BitVec.ofNat 8 (greatestLen present) }

/-- `off = 18 + 4 * count` of R239. -/
def contentStart (count : Nat) : Nat := Config.hdrSize + Config.entrySize * count

/-- Steps C2 and C3 (R239, R240). -/
def compressHeader (s : State) : Result :=
  let present := presentCodes s.code
  let off := contentStart present.length
  if s.caps.abuf.toNat < off then .raised .allocFailure off
  else
    let s := s.writeBytes .abuf 0 (headerBytes s.inLen.toNat off)
    let s := { s with origSize := s.inLen, contentOff := BitVec.ofNat 32 off }
    .ok (s.writeBytes .abuf Config.hdrSize (present.flatMap entryBytes))

/-- `W` of R241: `ceil(IN_LEN * maxlen / 8) + 1`, formed without wrapping. -/
def worstCase (inLen maxlen : Nat) : Nat := (inLen * maxlen + 7) / 8 + 1

/-- The packing loop of R241 from input index i on: an input byte without a code faults (R242). -/
def packLoop : Nat → List Byte → State → Result
  | _, [], s => .ok s
  | i, b :: bs, s =>
    let e := tget s.code b
    if e.len = 0 then .raised .unencodableSymbol i
    else (wbitsBody e.pat e.len.toNat s).andThen (packLoop (i + 1) bs)

/-- The end of step C4 (R241): the touched bytes become the archive's content. -/
def compressAppend (s : State) : Result :=
  let off := contentStart (presentCodes s.code).length
  if s.caps.abuf.toNat < off + s.touched then .raised .allocFailure (off + s.touched)
  else
    .ok { s.writeBytes .abuf off (s.readBytes .pbuf 0 s.touched) with arLen := BitVec.ofNat 64 (off + s.touched) }

/-- Step C4 (R241). -/
def compressPack (s : State) : Result :=
  let w := worstCase s.inLen.toNat (greatestLen (presentCodes s.code))
  if s.caps.pbuf.toNat < w then .raised .allocFailure w
  else
    ((bpinitBody { s with pkLen := BitVec.ofNat 64 w }).andThen (packLoop 0 s.input)).andThen compressAppend

/-- The body of COMPRESS (R235): C0 (R236), then C1 to C4. -/
def compressBody (s : State) : Result :=
  if s.caps.ibuf < s.inLen then .raised .allocFailure s.inLen.toNat
  else ((compressCount s).andThen compressHeader).andThen compressPack

/-- COMPRESS (R235). -/
def execCompress (s : State) : Host.Outcome State Fault Refusal := command compressBody s

/-! ## DECOMPRESS -/

/-- The index of the first byte of the archive that differs from the magic (R251). -/
def firstBadMagic (s : State) : Option Nat :=
  ((Config.magic.zip (s.readBytes .abuf 0 6)).findIdx? fun p => decide (p.1 ≠ p.2))

/-- Steps D0 and D1 (R251). -/
def checkMagic (s : State) : Result :=
  if s.caps.abuf < s.arLen then .raised .allocFailure s.arLen.toNat
  else if s.arLen.toNat < 6 then .raised .truncatedHeader s.arLen.toNat
  else
    match firstBadMagic s with
    | some k => .raised .badMagic k
    | none => .ok s

/-- Step D2 (R252). -/
def readHeader (s : State) : Result :=
  if s.arLen.toNat < Config.hdrSize then .raised .truncatedHeader s.arLen.toNat
  else
    .ok { s with
      origSize := BitVec.ofNat 64 (s.memRead .abuf 6 8)
      contentOff := BitVec.ofNat 32 (s.memRead .abuf 14 4) }

/-- Step D4 (R253). -/
def copyContent (s : State) : Result :=
  let n := s.arLen.toNat - s.contentOff.toNat
  if s.caps.pbuf.toNat < n then .raised .allocFailure n
  else
    .ok { s.writeBytes .pbuf 0 (s.readBytes .abuf s.contentOff.toNat n) with pkLen := BitVec.ofNat 64 n }

/-- The body of DECOMPRESS (R250): D0 to D2, `call TDESER` (R252), D4, `call DECODE` (R254). -/
def decompressBody (s : State) : Result :=
  ((((checkMagic s).andThen readHeader).andThen tdeserBody).andThen copyContent).andThen decodeBody

/-- DECOMPRESS (R250). -/
def execDecompress (s : State) : Host.Outcome State Fault Refusal := command decompressBody s

end Sys2Proof.Machine
end

