-- ==== Sys2Proof/Machine/System.lean ====
section
/-! DEFINITION. CLR (spec/47_system.md R273). -/

namespace Sys2Proof.Machine

/-- CLR (R273): accepted in IDLE and in FAULTED, never faults, and leaves DONE at 0. -/
def execClr (s : State) : Host.Outcome State Fault Refusal :=
  match s.phase with
  | .idle => .next s.softReset
  | .faulted => .next s.softReset
  | .run => .refused .hostWhileRunning

end Sys2Proof.Machine
end

