-- ==== Sys2Proof/Machine/Dispatch.lean ====
section
/-! DEFINITION. One arm per command (spec/30_encoding.md R91). `exec i s` is the whole effect of issuing the command
i in the state s once its word stands in `CMD` (spec/47_system.md R270 to R273). -/

namespace Sys2Proof.Machine

def exec (i : Instr) (s : State) : Host.Outcome State Fault Refusal :=
  match i with
  | .clr => Sys2Proof.Machine.execClr s
  | .freq => Sys2Proof.Machine.execFreq s
  | .tbuild => Sys2Proof.Machine.execTbuild s
  | .cassign => Sys2Proof.Machine.execCassign s
  | .encode => Sys2Proof.Machine.execEncode s
  | .bpinit => Sys2Proof.Machine.execBpinit s
  | .wbits pattern length => Sys2Proof.Machine.execWbits pattern length s
  | .buinit => Sys2Proof.Machine.execBuinit s
  | .rbit => Sys2Proof.Machine.execRbit s
  | .tdeser => Sys2Proof.Machine.execTdeser s
  | .slookup bit => Sys2Proof.Machine.execSlookup bit s
  | .decode => Sys2Proof.Machine.execDecode s
  | .compress => Sys2Proof.Machine.execCompress s
  | .decompress => Sys2Proof.Machine.execDecompress s

end Sys2Proof.Machine
end

