-- ==== Sys2Proof/Machine/Transactions.lean ====
section
/-! DEFINITION. The host's side: issuing a command word (spec/47_system.md R270 to R272), the register map and its
access rules (spec/10_state.md R38, R39), the buffer accesses (spec/20_memory.md R63), and the reset input
(spec/70_reset_and_hazards.md R320). -/

namespace Sys2Proof.Machine

/-! ## Issuing a command -/

/-- What an illegal word does once it stands in `CMD`: ILLEGAL_COMMAND in IDLE (spec/60_exceptions.md R288), nothing
in FAULTED (R272). -/
def illegalWord (w : Word) (s : State) : Host.Outcome State Fault Refusal :=
  match s.phase with
  | .idle => .next (s.faultEntry .illegalCommand w.toNat)
  | .faulted => .next s
  | .run => .refused .hostWhileRunning

/-- A write of `w` to `CMD` (R270): the register takes the word, whether or not it is accepted (spec/10_state.md R24),
and the command it stands for is executed. -/
def issue (w : Word) (s : State) : Host.Outcome State Fault Refusal :=
  match decode w with
  | .ok i => exec i { s with cmd := w }
  | .error _ => illegalWord w { s with cmd := w }

/-! ## The register map -/

/-- The registers of spec/10_state.md R38. -/
inductive RegName where
  | cmd
  | status
  | faultCode
  | faultInfo
  | rdata
  | inLen
  | arLen
  | pkLen
  | outLen
  | origSize
  | contentOff
  | entryCnt
  | maxLen
  | treeRoot
  | mergeCnt
  | wlLen
  | bpByte
  | bpBit
  | buByte
  | buBit
  | cand
  | clen
  | emitCnt
  | phase
  | freq (i : Byte)
  | code (i : Byte)
  | nodeFreq (i : Fin 511)
  | nodeLink (i : Fin 511)
  deriving DecidableEq, Repr

/-- The registers at 0x0000, 0x0008, …, 0x00B8 (R38). -/
def lowRegs : List RegName :=
  [.cmd, .status, .faultCode, .faultInfo, .rdata, .inLen, .arLen, .pkLen, .outLen, .origSize, .contentOff, .entryCnt,
    .maxLen, .treeRoot, .mergeCnt, .wlLen, .bpByte, .bpBit, .buByte, .buBit, .cand, .clen, .emitCnt, .phase]

/-- The arena element of a slot number, which is none for the slot after the last. -/
def nodeSlot (n : Nat) : Option (Fin 511) := if h : n < 511 then some ⟨n, h⟩ else none

/-- The register at a byte address, if one is mapped there (R38): a multiple of 8, in one of the ranges. -/
def regAt (addr : BitVec 16) : Option RegName :=
  let n := addr.toNat / 8
  if addr.toNat % 8 ≠ 0 then none
  else if n < 0x200 then lowRegs[n]?
  else if n < 0x300 then some (.freq (BitVec.ofNat 8 (n - 0x200)))
  else if n < 0x400 then some (.code (BitVec.ofNat 8 (n - 0x300)))
  else if n < 0x600 then (nodeSlot (n - 0x400)).map .nodeFreq
  else if n < 0x800 then (nodeSlot (n - 0x600)).map .nodeLink
  else none

/-- `PHASE` as the host reads it (R23). -/
def Phase.word : Phase → BitVec 2
  | .idle => 0
  | .run => 1
  | .faulted => 2

/-- `NODE_LINK[i]` (R30): bit 31 valid, bit 30 kind, then left and right of an internal node or sym of a leaf. -/
def Node.link (n : Node) : BitVec 32 :=
  match n.kind with
  | .leaf => BitVec.ofBool n.valid ++ (0 : BitVec 23) ++ n.sym
  | .internal => BitVec.ofBool n.valid ++ (1 : BitVec 1) ++ (0 : BitVec 5) ++ n.left ++ (0 : BitVec 7) ++ n.right

/-- `TREE_ROOT` (R32): bit 15 `ROOT_VALID`, bits 8:0 `ROOT`. -/
def State.treeRoot (s : State) : BitVec 16 := BitVec.ofBool s.rootValid ++ (0 : BitVec 6) ++ s.root

/-- `WL_LEN` (R31). -/
def State.wlLen (s : State) : BitVec 16 := BitVec.ofNat 16 s.wl.length

/-- `CODE[i]` as the host reads it (R33): pat in bits 15:0, len in bits 23:16. -/
def CodeEntry.word (e : CodeEntry) : BitVec 24 := e.len ++ e.pat

/-- What a host read of a register returns: its value in the low bits of the 64-bit slot, the rest 0 (R38). Reads
have no side effect (spec/47_system.md R274). -/
def State.readReg (s : State) : RegName → Reg64
  | .cmd => s.cmd.zeroExtend 64
  | .status => s.status.zeroExtend 64
  | .faultCode => s.faultCode.zeroExtend 64
  | .faultInfo => s.faultInfo
  | .rdata => s.rdata.zeroExtend 64
  | .inLen => s.inLen
  | .arLen => s.arLen
  | .pkLen => s.pkLen
  | .outLen => s.outLen
  | .origSize => s.origSize
  | .contentOff => s.contentOff.zeroExtend 64
  | .entryCnt => s.entryCnt.zeroExtend 64
  | .maxLen => s.maxLen.zeroExtend 64
  | .treeRoot => s.treeRoot.zeroExtend 64
  | .mergeCnt => s.mergeCnt.zeroExtend 64
  | .wlLen => s.wlLen.zeroExtend 64
  | .bpByte => s.bpByte
  | .bpBit => s.bpBit.zeroExtend 64
  | .buByte => s.buByte
  | .buBit => s.buBit.zeroExtend 64
  | .cand => s.cand.zeroExtend 64
  | .clen => s.clen.zeroExtend 64
  | .emitCnt => s.emitCnt
  | .phase => s.phase.word.zeroExtend 64
  | .freq i => tget s.freq i
  | .code i => (tget s.code i).word.zeroExtend 64
  | .nodeFreq i => s.node[i].freq
  | .nodeLink i => s.node[i].link.zeroExtend 64

/-- What a host write to a register other than `CMD` does in IDLE: an "rw" register takes the value truncated to its
width, a read-only register is unchanged (R38, R39). -/
def State.writeReg (s : State) (r : RegName) (v : Reg64) : State :=
  match r with
  | .inLen => { s with inLen := v }
  | .arLen => { s with arLen := v }
  | .pkLen => { s with pkLen := v }
  | .origSize => { s with origSize := v }
  | .contentOff => { s with contentOff := v.truncate 32 }
  | .code i => { s with code := tset s.code i ⟨v.truncate 16, v.extractLsb' 16 8⟩ }
  | .cmd => s
  | .status => s
  | .faultCode => s
  | .faultInfo => s
  | .rdata => s
  | .outLen => s
  | .entryCnt => s
  | .maxLen => s
  | .treeRoot => s
  | .mergeCnt => s
  | .wlLen => s
  | .bpByte => s
  | .bpBit => s
  | .buByte => s
  | .buBit => s
  | .cand => s
  | .clen => s
  | .emitCnt => s
  | .phase => s
  | .freq _ => s
  | .nodeFreq _ => s
  | .nodeLink _ => s

/-! ## The transactions -/

/-- A host write to a register address (R39, R274). -/
def hostWriteReg (addr : BitVec 16) (v : Reg64) (s : State) : Host.Outcome State Fault Refusal :=
  match regAt addr with
  | none =>
    match s.phase with
    | .run => .refused .hostWhileRunning
    | .idle => .next s
    | .faulted => .next s
  | some .cmd => issue (v.truncate 32) s
  | some r =>
    match s.phase with
    | .run => .refused .hostWhileRunning
    | .idle => .next (s.writeReg r v)
    | .faulted => .next s

/-- The host has been answered a value. -/
def State.reply (s : State) (v : Reg64) : State := { s with replies := v :: s.replies }

/-- A host read of a register address (R39). In FAULTED the registers that R291 leaves unspecified hold free values
(`State.unspecified`), and the read returns them. -/
def hostReadReg (addr : BitVec 16) (s : State) : Host.Outcome State Fault Refusal :=
  match s.phase with
  | .run => .refused .hostWhileRunning
  | .idle | .faulted =>
    match regAt addr with
    | none => .refused (.unmappedRead addr.toNat)
    | some r => .next (s.reply (s.readReg r))

/-- A host write of a buffer byte (spec/20_memory.md R63): IBUF, ABUF and PBUF in IDLE; nothing for OBUF and in
FAULTED. -/
def hostWriteBuf (sp : Space) (index : Reg64) (v : Byte) (s : State) : Host.Outcome State Fault Refusal :=
  if s.caps.of sp ≤ index then .fault (.outsideBuffer sp index.toNat)
  else
    match s.phase with
    | .run => .refused .hostWhileRunning
    | .faulted => .next s
    | .idle => if sp = .obuf then .next s else .next (s.writeByte sp index.toNat v)

/-- A host read of a buffer byte (spec/20_memory.md R63). -/
def hostReadBuf (sp : Space) (index : Reg64) (s : State) : Host.Outcome State Fault Refusal :=
  if s.caps.of sp ≤ index then .fault (.outsideBuffer sp index.toNat)
  else
    match s.phase with
    | .run => .refused .hostWhileRunning
    | .idle | .faulted => .next (s.reply ((s.readByte sp index.toNat).zeroExtend 64))

/-- One transaction. -/
def transact (t : Transaction) (s : State) : Host.Outcome State Fault Refusal :=
  match t with
  | .writeReg addr v => hostWriteReg addr v s
  | .readReg addr => hostReadReg addr s
  | .writeBuf sp index v => hostWriteBuf sp index v s
  | .readBuf sp index => hostReadBuf sp index s
  | .reset => .next s.hardReset

/-- The byte address of `CMD` (R38). -/
def cmdAddr : BitVec 16 := 0x0000

end Sys2Proof.Machine
end

