-- ==== Sys2Proof/Machine/Step.lean ====
section
/-! DEFINITION. One step: the next transaction of the host, or waiting (spec/20_memory.md R75, R76). -/

namespace Sys2Proof.Machine

/-- One step. The host's next transaction is carried out; with none pending the block waits without limit
(spec/47_system.md R275). DESIGN CHOICE, assumption 5. -/
def step (s : State) : Host.Outcome State Fault Refusal :=
  match s.pending with
  | [] => .next s
  | t :: rest => transact t { s with pending := rest }

/-- The state in which the host's next transaction writes the word `w` to `CMD`. A command is the value written to
`CMD` and is fetched from no memory (spec/20_memory.md R66, R79). -/
def State.withFetchWord (s : State) (nbits w : Nat) : State :=
  { s with pending := .writeReg cmdAddr (BitVec.ofNat 64 (w % 2 ^ nbits)) :: s.pending }

end Sys2Proof.Machine
end

