-- ==== Sys2Proof/Safety.lean ====
section
/-! DEFINITION. The terms the statements use: how a command ends, the bit stream of a buffer, the codes of a table, the
leaves of a tree, runs of several commands, and the invariants of the machine. No step uses any of them. -/

namespace Sys2Proof.Machine

/-! ## How a command ends -/

/-- `t` is the state after a fault with this code and information word was taken in `s` (spec/60_exceptions.md R290,
R291): what is defined after a fault, and the parameters and the host's side, which no command writes. -/
structure State.FaultedFrom (s t : State) (code info : Nat) : Prop where
  phase : t.phase = .faulted
  fault : t.fault = true
  done : t.done = false
  busy : t.busy = false
  faultCode : t.faultCode = BitVec.ofNat 8 code
  faultInfo : t.faultInfo = BitVec.ofNat 64 info
  cmd : t.cmd = s.cmd
  caps : t.caps = s.caps
  pending : t.pending = s.pending
  replies : t.replies = s.replies

/-- The command ends in this fault. -/
def Faults (i : Instr) (s : State) (code info : Nat) : Prop :=
  ∃ t, exec i s = .next t ∧ s.FaultedFrom t code info

/-- The state of a command that ended successfully, from the state its body left (spec/47_system.md R271). -/
def State.completed (s : State) : State := { s with busy := false, done := true, phase := .idle }

/-- The commands one after the other, each of which must end with DONE = 1. -/
def runAll : List Instr → State → Option State
  | [], s => some s
  | i :: is, s =>
    match exec i s with
    | .next t => if t.done then runAll is t else none
    | .fault _ => none
    | .refused _ => none

/-! ## Bits of a buffer and of codes -/

/-- Bit `q` of the stream in a space, most significant bit of each byte first (spec/20_memory.md R65). -/
def State.streamBit (s : State) (sp : Space) (q : Nat) : Bool := (s.readByte sp (q / 8)).getLsbD (7 - q % 8)

/-- The packer's position in bits (spec/43_bit_packer.md R186). -/
def State.packPos (s : State) : Nat := 8 * s.bpByte.toNat + s.bpBit.toNat

/-- The unpacker's position in bits. -/
def State.readPos (s : State) : Nat := 8 * s.buByte.toNat + s.buBit.toNat

/-- Bit `j` of the bit string of a code: bit `len - 1 - j` of its pattern (spec/30_encoding.md R108). -/
def CodeEntry.bit (e : CodeEntry) (j : Nat) : Bool := e.pat.getLsbD (e.len.toNat - 1 - j)

/-- The bit string of a code, first bit first (R108). -/
def CodeEntry.string (e : CodeEntry) : List Bool := (List.range e.len.toNat).map e.bit

/-- The codes of a sequence of symbols, one after the other (spec/30_encoding.md R105). -/
def codeString (code : CodeTable) (xs : List Byte) : List Bool := xs.flatMap fun b => (tget code b).string

/-- The bits that a sequence of WBITS operands stands for: of each pattern the low `length` bits, the highest of them
first (spec/43_bit_packer.md R183). -/
def operandBits (ws : List (BitVec 16 × Nat)) : List Bool :=
  ws.flatMap fun w => (List.range w.2).map fun j => w.1.getLsbD (w.2 - 1 - j)

/-- The WBITS commands of a sequence of operands. -/
def packAll (ws : List (BitVec 16 × Nat)) : List Instr := ws.map fun w => .wbits w.1 w.2

/-- A symbol whose code is present (spec/00_scope.md R13). -/
abbrev present (code : CodeTable) (b : Byte) : Prop := (tget code b).len ≠ 0

/-- The symbols with a present code, in ascending order (spec/46_container_codec.md R237, R240). -/
def presentSymbols (code : CodeTable) : List Byte := allSymbols.filter fun b => decide (present code b)

/-- How many present symbols stand before a symbol: the index of its entry in an archive (R240). -/
def entryIndex (code : CodeTable) (b : Byte) : Nat := ((presentSymbols code).filter fun c => decide (c < b)).length

/-- `m` is the greatest code length of the table, 0 if no code is present (R237). -/
abbrev isGreatestLen (code : CodeTable) (m : Nat) : Prop :=
  (∀ b, (tget code b).len.toNat ≤ m) ∧ (m = 0 ∨ ∃ b, (tget code b).len.toNat = m)

/-- Every present code has 1 to 16 bits and no stray pattern bit (R168 b, e). -/
abbrev properCodes (code : CodeTable) : Prop :=
  ∀ b, present code b → (tget code b).len.toNat ≤ 16 ∧ (tget code b).pat.toNat < 2 ^ (tget code b).len.toNat

/-- No present code is a prefix of another (R109, R168 c). -/
abbrev prefixFree (code : CodeTable) : Prop :=
  ∀ b c, present code b → present code c → b ≠ c → ¬ (tget code b).string <+: (tget code c).string

/-- The first `bits.length` bits of the packed content are these. -/
def State.contentIs (s : State) (bits : List Bool) : Prop :=
  ∀ k (h : k < bits.length), s.streamBit .pbuf k = bits[k]

/-- The number a bit string stands for: each bit is shifted in at the low end (spec/30_encoding.md R108). -/
def pathValue (p : List Bool) : Nat := p.foldl (fun n b => 2 * n + b.toNat) 0

/-- The least symbol whose entry is exactly this bit string: its length, and its value with no stray pattern bit
(spec/45_huffman_decoder.md R216 to R218). -/
def symbolOf (code : CodeTable) (bits : List Bool) : Option Byte :=
  allSymbols.find? fun b =>
    decide ((tget code b).len.toNat = bits.length) && decide ((tget code b).pat.toNat = pathValue bits)

/-- How a decoding ends: with the symbols and the bits left, or in one of two faults with the symbols emitted before. -/
inductive Decoded where
  | symbols (xs : List Byte) (rest : List Bool)
  | truncated (emitted : Nat)
  | unbounded (emitted : Nat)
  deriving DecidableEq, Repr

/-- Decoding as the source describes it, over bit strings and without the machine: append each bit to the candidate; a
candidate that is a code emits its symbol; sixteen bits without one, or the end of the bits, end it (R215, R222). -/
def greedy (code : CodeTable) (todo : Nat) : List Bool → List Bool → List Byte → Decoded
  | [], _, out => if out.length < todo then .truncated out.length else .symbols out []
  | b :: rest, cand, out =>
    if out.length < todo then
      match symbolOf code (cand ++ [b]) with
      | some x => greedy code todo rest [] (out ++ [x])
      | none => if 16 ≤ cand.length + 1 then .unbounded out.length else greedy code todo rest (cand ++ [b]) out
    else .symbols out (b :: rest)

/-- The bits of PBUF inside the declared capacity, in stream order (spec/20_memory.md R65). -/
def State.packedBits (s : State) : List Bool := (List.range (8 * s.pkLen.toNat)).map (s.streamBit .pbuf)

/-- The signature of an archive (spec/30_encoding.md R101). -/
def signature : List Byte := [0x00, 0x6C, 0x62, 0x63, 0x61, 0x00]

/-- The first six bytes of ABUF are the signature. -/
abbrev State.hasMagic (s : State) : Prop := ∀ k, k < 6 → signature[k]? = some (s.readByte .abuf k)

/-- The original size in an archive's header: bytes 6 to 13, the byte at 6 the least significant (R102). -/
def State.headerSize (s : State) : Reg64 :=
  s.readByte .abuf 13 ++ s.readByte .abuf 12 ++ s.readByte .abuf 11 ++ s.readByte .abuf 10 ++
    s.readByte .abuf 9 ++ s.readByte .abuf 8 ++ s.readByte .abuf 7 ++ s.readByte .abuf 6

/-- The content offset in an archive's header: bytes 14 to 17 (R103). -/
def State.headerOff (s : State) : BitVec 32 :=
  s.readByte .abuf 17 ++ s.readByte .abuf 16 ++ s.readByte .abuf 15 ++ s.readByte .abuf 14

/-- The code in entry i of an archive (R104). -/
def State.entryCode (s : State) (i : Nat) : CodeEntry :=
  ⟨s.readByte .abuf (18 + 4 * i + 2) ++ s.readByte .abuf (18 + 4 * i + 1), s.readByte .abuf (18 + 4 * i + 3)⟩

/-! ## Trees -/

/-- The leaves below a node in depth-first order, left before right, each with its path (0 left, 1 right); none when
some path has more than the given number of nodes or leaves the arena (spec/42_code_assigner.md R163, R167). -/
def treeLeaves (node : Arena) : Nat → NodeId → Option (List (List Bool × Byte))
  | 0, _ => none
  | bound + 1, n =>
    match node[n.toNat]? with
    | none => none
    | some nd =>
      match nd.kind with
      | .leaf => some [([], nd.sym)]
      | .internal =>
        match treeLeaves node bound nd.left, treeLeaves node bound nd.right with
        | some l, some r => some (l.map (fun x => (false :: x.1, x.2)) ++ r.map (fun x => (true :: x.1, x.2)))
        | _, _ => none

/-- The symbols with a nonzero count, in ascending order: the leaves TBUILD creates (spec/41_tree_builder.md R141). -/
def leafSymbols (freq : FreqTable) : List Byte := allSymbols.filter fun b => decide (tget freq b ≠ 0)

/-- The state without a tree (spec/42_code_assigner.md R166). -/
def State.withoutTree (s : State) : State :=
  { s with node := Vector.replicate 511 Node.empty, wl := [], mergeCnt := 0, rootValid := false, root := 0 }

/-- The code table in which every symbol is absent. -/
def noCodes : CodeTable := Vector.replicate 256 CodeEntry.absent

/-- The sum of all counters. -/
def freqSum (freq : FreqTable) : Nat := (freq.toList.map BitVec.toNat).sum

/-! ## Invariants -/

/-- Every buffer is in canonical form and lists no index at or above its capacity (spec/20_memory.md R61). -/
def State.buffersOk (s : State) : Prop :=
  ∀ sp, Memory.wf (s.buf sp) = true ∧ ∀ c ∈ s.buf sp, c.1 < (s.caps.of sp).toNat

/-- `PHASE`, the flags BUSY, DONE and FAULT, and the fault registers agree (spec/10_state.md R22, R23, R25;
spec/60_exceptions.md R281, R291). -/
def State.controlOk (s : State) : Prop :=
  s.busy = false ∧
  match s.phase with
  | .idle => s.fault = false ∧ s.faultCode = 0 ∧ s.faultInfo = 0
  | .run => False
  | .faulted => s.fault = true ∧ s.done = false ∧ 0x01 ≤ s.faultCode.toNat ∧ s.faultCode.toNat ≤ 0x0B

/-- The lookup's candidate between commands (spec/10_state.md R36). -/
def State.candidateOk (s : State) : Prop :=
  s.phase = .idle → s.cand.toNat < 2 ^ s.clen.toNat ∧ s.clen.toNat ≤ 15

/-- Between commands there is either no tree at all, or a root that is the one item of the work list and whose
leaves, as many as one more than the merges, have distinct symbols (spec/10_state.md R42; spec/41_tree_builder.md
R146, R147). -/
def State.treeOk (s : State) : Prop :=
  s.phase = .idle →
    (s.rootValid = false →
      s.wl = [] ∧ s.mergeCnt = 0 ∧ s.root = 0 ∧ s.node = Vector.replicate 511 Node.empty) ∧
    (s.rootValid = true →
      s.wl = [s.root] ∧
      ∃ ls, treeLeaves s.node 511 s.root = some ls ∧ (ls.map Prod.snd).Nodup ∧ ls.length = s.mergeCnt.toNat + 1)

/-- Bounds of registers between commands: the counters' sum (spec/40_frequency_table.md R132), ENTRY_CNT and MAX_LEN
(spec/10_state.md R28), and OUT_LEN, which never exceeds OBUF's capacity (spec/45_huffman_decoder.md R221). -/
def State.countsOk (s : State) : Prop :=
  s.phase = .idle →
    freqSum s.freq < 2 ^ 64 ∧ s.entryCnt.toNat ≤ 256 ∧ s.maxLen.toNat ≤ 16 ∧ s.outLen.toNat ≤ s.caps.obuf.toNat

/-! ## Host access -/

/-- How many bits a host write stores in a register: none for a read-only one and for `CMD`, whose write is an issue
(spec/10_state.md R38). -/
def hostWidth : RegName → Option Nat
  | .inLen => some 64
  | .arLen => some 64
  | .pkLen => some 64
  | .origSize => some 64
  | .contentOff => some 32
  | .code _ => some 24
  | .cmd => none
  | .status => none
  | .faultCode => none
  | .faultInfo => none
  | .rdata => none
  | .outLen => none
  | .entryCnt => none
  | .maxLen => none
  | .treeRoot => none
  | .mergeCnt => none
  | .wlLen => none
  | .bpByte => none
  | .bpBit => none
  | .buByte => none
  | .buBit => none
  | .cand => none
  | .clen => none
  | .emitCnt => none
  | .phase => none
  | .freq _ => none
  | .nodeFreq _ => none
  | .nodeLink _ => none

end Sys2Proof.Machine
end

