-- ==== Sys2Proof/Certificates/Slice0/Obligations.lean ====
section
/-! DEFINITION. The statements about the machine, from the numbered rules of the spec. In each of them `s` is any
state, reached or not, with any capacities. -/

open Sys2Proof Sys2Proof.Machine

/-! ## Encoding -/

/-- The word of every well-formed command decodes to that command, with its operands (spec/30_encoding.md R94). -/
def Obligations.DecodeOfEncode : Prop :=
  ∀ i : Instr, i.wellFormed = true → Sys2Proof.decode (Sys2Proof.encode i) = .ok i

/-- A word that decodes to a command is that command's word, so no two words decode to the same command (R94). -/
def Obligations.EncodeOfDecode : Prop :=
  ∀ (w : Word) (i : Instr), Sys2Proof.decode w = .ok i → i.wellFormed = true ∧ Sys2Proof.encode i = w

/-- The illegal words, by the digits of the word, and what issuing one in IDLE does (R93). -/
def Obligations.IllegalWords : Prop :=
  ∀ w : Word,
    ((∃ e, Sys2Proof.decode w = .error e) ↔
      (w.toNat / 2 ^ 24 = 0 ∨ 0x0E < w.toNat / 2 ^ 24 ∨
        (w.toNat / 2 ^ 24 = 0x0B ∧ w.toNat % 2 ^ 24 / 2 ≠ 0) ∨
        (w.toNat / 2 ^ 24 ≠ 0x07 ∧ w.toNat / 2 ^ 24 ≠ 0x0B ∧ w.toNat % 2 ^ 24 ≠ 0))) ∧
    ∀ (s : State) (e : Illegal), Sys2Proof.decode w = .error e → s.phase = .idle →
      ∃ t, issue w s = .next t ∧ State.FaultedFrom { s with cmd := w } t 0x0A w.toNat

/-- The words written out from the opcode map (R91, R92, R115). A sanity statement. -/
def Obligations.TableWordsDecode : Prop :=
  Sys2Proof.decode 0x01000000 = .ok .clr ∧
  Sys2Proof.decode 0x02000000 = .ok .freq ∧
  Sys2Proof.decode 0x03000000 = .ok .tbuild ∧
  Sys2Proof.decode 0x04000000 = .ok .cassign ∧
  Sys2Proof.decode 0x05000000 = .ok .encode ∧
  Sys2Proof.decode 0x06000000 = .ok .bpinit ∧
  Sys2Proof.decode 0x07030005 = .ok (.wbits 0b101 3) ∧
  Sys2Proof.decode 0x08000000 = .ok .buinit ∧
  Sys2Proof.decode 0x09000000 = .ok .rbit ∧
  Sys2Proof.decode 0x0A000000 = .ok .tdeser ∧
  Sys2Proof.decode 0x0B000001 = .ok (.slookup true) ∧
  Sys2Proof.decode 0x0C000000 = .ok .decode ∧
  Sys2Proof.decode 0x0D000000 = .ok .compress ∧
  Sys2Proof.decode 0x0E000000 = .ok .decompress

/-! ## The step, the phases, faults and reset -/

/-- One step carries out the host's next transaction; a write of a command's word to `CMD` stores the word and
executes the command (spec/47_system.md R270); without a transaction the block waits (R275). That the host's
transactions stand in a list of the state is the model's choice (assumption 5). -/
def Obligations.StepRunsTheDecodedCommand : Prop :=
  (∀ s : State, s.pending = [] → step s = .next s) ∧
  ∀ (s : State) (v : Reg64) (rest : List Transaction) (i : Instr),
    s.pending = .writeReg 0x0000 v :: rest → Sys2Proof.decode (v.truncate 32) = .ok i →
      step s = Sys2Proof.Machine.exec i { s with pending := rest, cmd := v.truncate 32 }

/-- In FAULTED a word other than CLR's is stored in `CMD` and changes nothing else; CLR's word runs CLR (R272). -/
def Obligations.FaultedIgnoresAllButClr : Prop :=
  ∀ s : State, s.phase = .faulted →
    (∀ w : Word, w ≠ 0x01000000 → issue w s = .next { s with cmd := w }) ∧
    issue 0x01000000 s = Sys2Proof.Machine.exec .clr { s with cmd := 0x01000000 }

/-- What CLR writes and what it leaves (R273). -/
def Obligations.ClrResets : Prop :=
  Sys2Proof.encode .clr = 0x01000000 ∧
  ∀ s : State, s.phase = .idle ∨ s.phase = .faulted →
    ∃ t, Sys2Proof.Machine.exec .clr s = .next t ∧
      t.cmd = 0x01000000 ∧ t.phase = .idle ∧ t.status = 0 ∧
      (∀ r : RegName, r ≠ .cmd → t.readReg r = 0) ∧
      (∀ i : Fin 511, t.node[i] = ⟨false, .leaf, 0, 0, 0, 0⟩) ∧ t.wl = [] ∧
      (∀ sp, t.buf sp = s.buf sp) ∧ (∀ sp a, t.readByte sp a = s.readByte sp a) ∧
      t.caps = s.caps ∧ t.pending = s.pending ∧ t.replies = s.replies

/-- After hardware reset, also one during a command, every register is 0 and no buffer byte has a specified content
(spec/70_reset_and_hazards.md R320, spec/10_state.md R40). That unspecified bytes are free values is assumption 4. -/
def Obligations.HardwareResetClears : Prop :=
  ∀ s : State, ∃ t, transact .reset s = .next t ∧
    (∀ r : RegName, t.readReg r = 0) ∧ t.phase = .idle ∧
    (∀ i : Fin 511, t.node[i] = ⟨false, .leaf, 0, 0, 0, 0⟩) ∧ t.wl = [] ∧
    (∀ sp, t.buf sp = []) ∧ (∀ sp a, t.readByte sp a = Config.freeBits t.epoch (.byte sp a) 8) ∧
    t.epoch = s.epoch + 1 ∧ t.caps = s.caps

/-- The state of reset meets every invariant of the machine, whatever the capacities. -/
def Obligations.ResetMeetsTheInvariants : Prop :=
  ∀ caps : Caps, (State.resetWith caps).buffersOk ∧ (State.resetWith caps).controlOk ∧
    (State.resetWith caps).candidateOk ∧ (State.resetWith caps).treeOk ∧ (State.resetWith caps).countsOk

/-- Fault entry (spec/60_exceptions.md R290), with the codes of R281: a body that raises a fault, at any depth of
`call`, ends the command with the registers the rule names. -/
def Obligations.FaultEntryRecords : Prop :=
  (∀ (body : State → Result) (s : State) (f : CmdFault) (info : Nat),
    s.phase = .idle → body s.accept = .raised f info →
      ∃ t, command body s = .next t ∧ s.FaultedFrom t f.code.toNat info) ∧
  (∀ (f : CmdFault) (info : Nat) (k : State → Result), (Result.raised f info).andThen k = .raised f info) ∧
  CmdFault.allocFailure.code = 0x01 ∧ CmdFault.badMagic.code = 0x02 ∧ CmdFault.truncatedHeader.code = 0x03 ∧
  CmdFault.badEntryCount.code = 0x04 ∧ CmdFault.unencodableSymbol.code = 0x05 ∧
  CmdFault.unboundedDecode.code = 0x06 ∧ CmdFault.codeTooLong.code = 0x07 ∧
  CmdFault.truncatedContent.code = 0x08 ∧ CmdFault.packOverrun.code = 0x09 ∧
  CmdFault.illegalCommand.code = 0x0A ∧ CmdFault.illegalOperand.code = 0x0B

/-- After a fault nothing is known but what R291 lists: two commands that take the same fault, from states that share
only `CMD`, the parameters, the host's side and the epoch, end in the same state, so no register, table or buffer of
the faulted command shows in it. The epoch and its free values are the model's choice (assumption 3). -/
def Obligations.AfterAFaultNothingIsKnown : Prop :=
  ∀ (i j : Instr) (s s' t t' : State),
    s.phase = .idle → s'.phase = .idle →
    s.cmd = s'.cmd → s.caps = s'.caps → s.epoch = s'.epoch → s.pending = s'.pending → s.replies = s'.replies →
    Sys2Proof.Machine.exec i s = .next t → Sys2Proof.Machine.exec j s' = .next t' →
    t.phase = .faulted → t'.phase = .faulted → t.faultCode = t'.faultCode → t.faultInfo = t'.faultInfo →
      t = t'

/-- Every command that starts in IDLE ends (spec/70_reset_and_hazards.md R340), and ends either in success or in one
fault of R281. CASSIGN walks the tree it finds, so for it the state must meet the invariant of trees. -/
def Obligations.EveryCommandEnds : Prop :=
  ∀ (i : Instr) (s : State), s.phase = .idle → (i = .cassign → s.treeOk) →
    ∃ t, Sys2Proof.Machine.exec i s = .next t ∧
      ((t.phase = .idle ∧ t.busy = false ∧ (i ≠ .clr → t.done = true ∧ t.fault = s.fault ∧
          t.faultCode = s.faultCode ∧ t.faultInfo = s.faultInfo)) ∨
        ∃ code info, 0x01 ≤ code ∧ code ≤ 0x0B ∧ s.FaultedFrom t code info)

/-- CLR and hardware reset are the only exits from FAULTED; until then the fault registers and `STATUS` stay
(spec/60_exceptions.md R297). -/
def Obligations.OnlyClrOrResetLeavesFaulted : Prop :=
  ∀ s t : State, s.phase = .faulted → step s = .next t →
    (t.phase = .faulted ∧ t.faultCode = s.faultCode ∧ t.faultInfo = s.faultInfo ∧ t.status = s.status) ∨
    (t.phase = .idle ∧ t.faultCode = 0 ∧ t.faultInfo = 0 ∧ t.status = 0 ∧
      ((∃ v rest, s.pending = .writeReg 0x0000 v :: rest ∧ v.truncate 32 = (0x01000000 : Word)) ∨
        ∃ rest, s.pending = .reset :: rest))

/-! ## FREQ -/

/-- FREQ counts the input's bytes, faults when the input does not fit its buffer, and writes nothing else
(spec/40_frequency_table.md R131, R133); no counter wraps (R132). -/
def Obligations.FreqCountsTheInput : Prop :=
  Sys2Proof.encode .freq = 0x02000000 ∧
  ∀ s : State, s.phase = .idle →
    (s.caps.ibuf < s.inLen → Faults .freq s 0x01 s.inLen.toNat) ∧
    (s.inLen ≤ s.caps.ibuf →
      ∃ table : FreqTable, Sys2Proof.Machine.exec .freq s = .next { s with freq := table }.completed ∧
        (∀ b : Byte, (tget table b).toNat =
          ((List.range s.inLen.toNat).filter fun k => decide (s.readByte .ibuf k = b)).length) ∧
        freqSum table = s.inLen.toNat ∧ ∀ b : Byte, tget table b ≤ s.inLen)

/-! ## TBUILD -/

/-- Without a symbol of nonzero count there is no tree, NODATA is set, and it is no fault
(spec/41_tree_builder.md R143). -/
def Obligations.TbuildWithoutLeaves : Prop :=
  ∀ s : State, s.phase = .idle → (∀ b : Byte, tget s.freq b = 0) →
    Sys2Proof.Machine.exec .tbuild s = .next { s.withoutTree with nodata := true }.completed

/-- With one symbol of nonzero count the tree is its leaf (R148). -/
def Obligations.TbuildOneLeaf : Prop :=
  ∀ (s : State) (b : Byte), s.phase = .idle → tget s.freq b ≠ 0 → (∀ c : Byte, c ≠ b → tget s.freq c = 0) →
    Sys2Proof.Machine.exec .tbuild s = .next { s with
      node := (Vector.replicate 511 Node.empty).setIfInBounds b.toNat ⟨true, .leaf, b, tget s.freq b, 0, 0⟩
      wl := [b.zeroExtend 9]
      mergeCnt := 0
      rootValid := true
      root := b.zeroExtend 9
      nodata := false }.completed

/-- With L symbols of nonzero count, L at least 1, TBUILD ends with a tree: one leaf per such symbol, L - 1 internal
nodes with two earlier nodes as children, the left one with the greater or equal frequency, the root alone in the work
list, and every path of at most L - 1 steps; it writes nothing but the tree and NODATA (R140 to R147, R151, R152). -/
def Obligations.TbuildBuildsATree : Prop :=
  ∀ (s : State) (L : Nat), s.phase = .idle → (leafSymbols s.freq).length = L → 0 < L →
    ∃ t, Sys2Proof.Machine.exec .tbuild s = .next t ∧
      t = { s with
        node := t.node, wl := t.wl, mergeCnt := t.mergeCnt, rootValid := true, root := t.root,
        nodata := false }.completed ∧
      t.mergeCnt.toNat = L - 1 ∧ t.wl = [t.root] ∧ (2 ≤ L → t.root.toNat = 256 + (L - 2)) ∧
      (∀ b : Byte, t.node[b.toNat]? =
        some (if tget s.freq b = 0 then Node.empty else ⟨true, .leaf, b, tget s.freq b, 0, 0⟩)) ∧
      (∀ k, k < L - 1 → ∃ m l r, t.node[256 + k]? = some m ∧
        m.valid = true ∧ m.kind = .internal ∧ m.sym = 0 ∧
        m.left.toNat < 256 + k ∧ m.right.toNat < 256 + k ∧ m.left ≠ m.right ∧
        t.node[m.left.toNat]? = some l ∧ t.node[m.right.toNat]? = some r ∧ l.valid = true ∧ r.valid = true ∧
        m.freq = l.freq + r.freq ∧ r.freq ≤ l.freq) ∧
      (∀ k, L - 1 ≤ k → 256 + k < 511 → t.node[256 + k]? = some Node.empty) ∧
      ∃ leaves, treeLeaves t.node 511 t.root = some leaves ∧ (leaves.map Prod.snd).Perm (leafSymbols s.freq) ∧
        ∀ x ∈ leaves, x.1.length ≤ L - 1

/-- With counters whose sum fits 64 bits no sum of the merge steps wraps, and the root's frequency is the sum of all
counters (R149). -/
def Obligations.RootFrequencyIsTheSum : Prop :=
  ∀ s t : State, s.phase = .idle → freqSum s.freq < 2 ^ 64 → leafSymbols s.freq ≠ [] →
    Sys2Proof.Machine.exec .tbuild s = .next t →
      (∃ r, t.node[t.root.toNat]? = some r ∧ r.freq.toNat = freqSum s.freq) ∧
      ∀ (n : Nat) (m l r : Node), t.node[n]? = some m → m.valid = true → m.kind = .internal →
        t.node[m.left.toNat]? = some l → t.node[m.right.toNat]? = some r →
          m.freq.toNat = l.freq.toNat + r.freq.toNat

/-- A merge step joins the two items at the tail and puts the new node just before the first item of strictly smaller
frequency, which keeps the work list sorted (R145); TBUILD runs it on the sorted list of its leaves until one item is
left (R144, R146). -/
def Obligations.MergeStepKeepsTheOrder : Prop :=
  (∀ (t : Build) (front : List Item) (a b : Item),
    t.items = front ++ [a, b] → t.items.Pairwise (fun x y => before x y = true) →
    (∀ x ∈ t.items, x.id.toNat < 256 + t.mergeCnt.toNat) → t.mergeCnt.toNat < 255 →
      (mergeStep t).items.Pairwise (fun x y => before x y = true) ∧ b.freq ≤ a.freq ∧
      mergeStep t =
        { node := t.node.setIfInBounds (256 + t.mergeCnt.toNat) ⟨true, .internal, 0, a.freq + b.freq, a.id, b.id⟩
          items := front.takeWhile (fun x => decide (a.freq + b.freq ≤ x.freq)) ++
            ⟨BitVec.ofNat 9 (256 + t.mergeCnt.toNat), a.freq + b.freq⟩ ::
            front.dropWhile (fun x => decide (a.freq + b.freq ≤ x.freq))
          mergeCnt := t.mergeCnt + 1 }) ∧
  (∀ x y : Item, before x y = true ↔ y.freq < x.freq ∨ (x.freq = y.freq ∧ x.id < y.id)) ∧
  ∀ s : State, s.phase = .idle → leafSymbols s.freq ≠ [] →
    ∃ items t, items.Perm ((leafSymbols s.freq).map fun b => Item.mk (b.zeroExtend 9) (tget s.freq b)) ∧
      items.Pairwise (fun x y => before x y = true) ∧ Sys2Proof.Machine.exec .tbuild s = .next t ∧
      t.node = (mergeTimes (items.length - 1) ⟨leafArena s.freq, items, 0⟩).node ∧
      t.wl = (mergeTimes (items.length - 1) ⟨leafArena s.freq, items, 0⟩).items.map Item.id

/-! ## CASSIGN and ENCODE -/

/-- Without a tree CASSIGN succeeds and makes every symbol absent (spec/42_code_assigner.md R161). -/
def Obligations.CassignWithoutTree : Prop :=
  ∀ s : State, s.phase = .idle → s.rootValid = false →
    Sys2Proof.Machine.exec .cassign s = .next { s with code := noCodes }.withoutTree.completed

/-- A root that is a leaf gives its symbol the code of one bit 0 (R164), so that any number of copies of the symbol
pack to as many zero bits. -/
def Obligations.CassignOneLeaf : Prop :=
  ∀ (s : State) (nd : Node), s.phase = .idle → s.rootValid = true → s.node[s.root.toNat]? = some nd →
    nd.kind = .leaf →
      Sys2Proof.Machine.exec .cassign s = .next { s with code := tset noCodes nd.sym ⟨0, 1⟩ }.withoutTree.completed ∧
      ∀ n, codeString (tset noCodes nd.sym ⟨0, 1⟩) (List.replicate n nd.sym) = List.replicate n false

/-- From a tree whose leaves have distinct symbols and a root that is no leaf: if every leaf is at most 16 deep, the
code of each leaf's symbol is its path, first step first, and every other symbol is absent; if some leaf is deeper,
CASSIGN faults with the first such leaf, left before right (R160, R162, R163, R165, R167). -/
def Obligations.CassignReadsThePaths : Prop :=
  ∀ (s : State) (nd : Node) (leaves : List (List Bool × Byte)),
    s.phase = .idle → s.rootValid = true → s.node[s.root.toNat]? = some nd → nd.kind = .internal →
    treeLeaves s.node 511 s.root = some leaves → (leaves.map Prod.snd).Nodup →
      ((∀ x ∈ leaves, x.1.length ≤ 16) →
        ∃ code : CodeTable,
          Sys2Proof.Machine.exec .cassign s = .next { s with code := code }.withoutTree.completed ∧
          (∀ x ∈ leaves, tget code x.2 = ⟨BitVec.ofNat 16 (pathValue x.1), BitVec.ofNat 8 x.1.length⟩ ∧
            (tget code x.2).string = x.1) ∧
          ∀ b : Byte, b ∉ leaves.map Prod.snd → tget code b = ⟨0, 0⟩) ∧
      ∀ x, leaves.find? (fun y => decide (16 < y.1.length)) = some x →
        Faults .cassign s 0x07 (x.2.toNat + 256 * x.1.length)

/-- Where the arena holds no whole tree below the root, which no run from reset reaches (`StepKeepsTheTree`), CASSIGN
stops with the model's own fault or meets a leaf that is too deep before. The stop is the model's choice
(assumption 6). -/
def Obligations.CassignStopsOnABrokenTree : Prop :=
  ∀ s : State, s.phase = .idle → s.rootValid = true → treeLeaves s.node 511 s.root = none →
    Sys2Proof.Machine.exec .cassign s = .fault .walkStuck ∨ ∃ info, Faults .cassign s 0x07 info

/-- A successful CASSIGN leaves no tree, and a second one empties the code table (R166). -/
def Obligations.CassignConsumesTheTree : Prop :=
  ∀ s t : State, s.phase = .idle → Sys2Proof.Machine.exec .cassign s = .next t → t.phase = .idle →
    (∀ i : Fin 511, t.node[i] = ⟨false, .leaf, 0, 0, 0, 0⟩) ∧ t.wl = [] ∧ t.mergeCnt = 0 ∧
    t.rootValid = false ∧ t.root = 0 ∧
    Sys2Proof.Machine.exec .cassign t = .next { t with code := noCodes }.completed

/-- After TBUILD and CASSIGN the present codes are those of the symbols with a nonzero count, have 1 to 16 bits and no
stray bits, and none is a prefix of another (R109, R168 a, b, c, e). -/
def Obligations.CodesArePrefixFree : Prop :=
  ∀ s t : State, s.phase = .idle → runAll [.tbuild, .cassign] s = some t →
    (∀ b : Byte, present t.code b ↔ tget s.freq b ≠ 0) ∧ properCodes t.code ∧ prefixFree t.code ∧
    ((leafSymbols s.freq).length = 1 → ∀ b : Byte, present t.code b → tget t.code b = ⟨0, 1⟩)

/-- For two or more leaves the code is complete: the weights 2^(16 - len) of the present symbols sum to 2^16
(R168 d). -/
def Obligations.CodesAreComplete : Prop :=
  ∀ s t : State, s.phase = .idle → 2 ≤ (leafSymbols s.freq).length → runAll [.tbuild, .cassign] s = some t →
    ((presentSymbols t.code).map fun b => 2 ^ (16 - (tget t.code b).len.toNat)).sum = 2 ^ 16

/-- A more frequent symbol never has a longer code (R168 f), for counters whose sum fits 64 bits. -/
def Obligations.MoreFrequentIsNeverLonger : Prop :=
  ∀ (s t : State) (a b : Byte), s.phase = .idle → freqSum s.freq < 2 ^ 64 →
    runAll [.tbuild, .cassign] s = some t → tget s.freq b < tget s.freq a → tget s.freq b ≠ 0 →
      (tget t.code a).len ≤ (tget t.code b).len

/-- ENCODE is FREQ, TBUILD and CASSIGN one after the other, in success and in fault; after a success the tree is gone
and NODATA says that the input was empty (R170). -/
def Obligations.EncodeIsItsThreeCommands : Prop :=
  Sys2Proof.encode .encode = 0x05000000 ∧
  ∀ s : State, s.phase = .idle →
    (s.caps.ibuf < s.inLen → Faults .encode s 0x01 s.inLen.toNat) ∧
    (s.inLen ≤ s.caps.ibuf →
      ∃ a b, Sys2Proof.Machine.exec .freq s = .next a ∧ a.done = true ∧
        Sys2Proof.Machine.exec .tbuild a = .next b ∧ b.done = true ∧
        Sys2Proof.Machine.exec .encode s = Sys2Proof.Machine.exec .cassign b) ∧
    ∀ t, Sys2Proof.Machine.exec .encode s = .next t → t.done = true →
      t.rootValid = false ∧ t.mergeCnt = 0 ∧ (t.nodata = true ↔ s.inLen = 0)

/-- For an input with at most 17 distinct byte values ENCODE succeeds, and the codes are present exactly for the bytes
that occur, proper and prefix-free; it writes FREQ, CODE, the tree state and NODATA only (R152, R165, R168, R170). -/
def Obligations.EncodeCompletes : Prop :=
  ∀ s : State, s.phase = .idle → s.inLen ≤ s.caps.ibuf →
    (allSymbols.filter fun b => decide (b ∈ s.input)).length ≤ 17 →
      ∃ t, Sys2Proof.Machine.exec .encode s = .next t ∧
        t = { s with freq := t.freq, code := t.code, nodata := decide (s.inLen = 0) }.withoutTree.completed ∧
        (∀ b : Byte, present t.code b ↔ b ∈ s.input) ∧ properCodes t.code ∧ prefixFree t.code

/-! ## The bit packer -/

/-- BPINIT resets the packer's cursor and zeroes PBUF[0] inside the declared capacity (spec/43_bit_packer.md R181). -/
def Obligations.BpinitStartsPacking : Prop :=
  Sys2Proof.encode .bpinit = 0x06000000 ∧
  ∀ s : State, s.phase = .idle →
    (s.caps.pbuf < s.pkLen → Faults .bpinit s 0x01 s.pkLen.toNat) ∧
    (s.pkLen ≤ s.caps.pbuf →
      ∃ t, Sys2Proof.Machine.exec .bpinit s = .next t ∧
        t = { s with bpByte := 0, bpBit := 0, pbuf := t.pbuf }.completed ∧
        (∀ a, t.readByte .pbuf a = if a = 0 ∧ s.pkLen ≠ 0 then 0 else s.readByte .pbuf a) ∧
        (s.pkLen = 0 → ∀ (pattern : BitVec 16) (length : Nat), 0 < length → length ≤ 16 →
          Faults (.wbits pattern length) t 0x09 0))

/-- WBITS puts the low `length` bits of the pattern, the highest first, at the packer's position: it ORs them into the
byte at the cursor and writes them into zeroed bytes after it, moves the cursor on, zeroes the byte it comes to inside
the declared capacity, and changes no other byte and no other register (R183 to R185). -/
def Obligations.WbitsAppendsBits : Prop :=
  ∀ (s : State) (pattern : BitVec 16) (length : Nat),
    s.phase = .idle → length ≤ 16 → s.pkLen ≤ s.caps.pbuf →
    (length = 0 ∨ s.packPos + length ≤ 8 * s.pkLen.toNat) →
      ∃ t, Sys2Proof.Machine.exec (.wbits pattern length) s = .next t ∧
        t = { s with bpByte := t.bpByte, bpBit := t.bpBit, pbuf := t.pbuf }.completed ∧
        t.packPos = s.packPos + length ∧
        (∀ q, t.streamBit .pbuf q =
          if s.packPos ≤ q ∧ q < s.packPos + length then
            (decide (q / 8 = s.bpByte.toNat) && s.streamBit .pbuf q) ||
              pattern.getLsbD (length - 1 - (q - s.packPos))
          else if s.bpByte.toNat < q / 8 ∧ q / 8 ≤ t.bpByte.toNat ∧ q / 8 < s.pkLen.toNat then false
          else s.streamBit .pbuf q) ∧
        ∀ a, a < s.bpByte.toNat ∨ t.bpByte.toNat < a → t.readByte .pbuf a = s.readByte .pbuf a

/-- WBITS with a length above 16 is an illegal operand, before any bit is written (spec/60_exceptions.md R289). -/
def Obligations.WbitsIllegalOperand : Prop :=
  ∀ (s : State) (pattern : BitVec 16) (length : Nat), s.phase = .idle → 16 < length →
    Faults (.wbits pattern length) s 0x0B length

/-- WBITS of a legal length faults if the declared capacity exceeds the buffer (R183), and, where it does not, if a bit
has no byte inside the declared capacity; the information is the byte index of that bit (R184, R294). -/
def Obligations.WbitsOverrun : Prop :=
  ∀ (s : State) (pattern : BitVec 16) (length : Nat), s.phase = .idle → length ≤ 16 →
    (s.caps.pbuf < s.pkLen → Faults (.wbits pattern length) s 0x01 s.pkLen.toNat) ∧
    (s.pkLen ≤ s.caps.pbuf → 0 < length → 8 * s.pkLen.toNat < s.packPos + length →
      Faults (.wbits pattern length) s 0x09 (max s.bpByte.toNat s.pkLen.toNat))

/-- A sequence of WBITS after BPINIT succeeds exactly if every length is legal and the declared capacity holds all the
bits, and then the cursor counts them (R186, R187). -/
def Obligations.PackingFitsExactly : Prop :=
  ∀ (s : State) (ws : List (BitVec 16 × Nat)), s.phase = .idle → s.pkLen ≤ s.caps.pbuf →
    ((∃ t, runAll (.bpinit :: packAll ws) s = some t) ↔
      (∀ w ∈ ws, w.2 ≤ 16) ∧ (operandBits ws).length ≤ 8 * s.pkLen.toNat) ∧
    ∀ t, runAll (.bpinit :: packAll ws) s = some t →
      t.packPos = (operandBits ws).length ∧ t.touched = ((operandBits ws).length + 7) / 8 ∧ t.contentIs (operandBits ws)

/-! ## The bit unpacker -/

/-- BUINIT resets the unpacker's cursor and EOD, and touches nothing else (spec/44_bit_unpacker.md R196). -/
def Obligations.BuinitStartsUnpacking : Prop :=
  Sys2Proof.encode .buinit = 0x08000000 ∧
  ∀ s : State, s.phase = .idle →
    (s.caps.pbuf < s.pkLen → Faults .buinit s 0x01 s.pkLen.toNat) ∧
    (s.pkLen ≤ s.caps.pbuf →
      Sys2Proof.Machine.exec .buinit s = .next { s with buByte := 0, buBit := 0, eod := false }.completed ∧
      (s.pkLen = 0 → Sys2Proof.Machine.exec .rbit { s with buByte := 0, buBit := 0, eod := false }.completed =
        .next { s with buByte := 0, buBit := 0, eod := true, rdata := 0 }.completed))

/-- RBIT returns the bit at the unpacker's position and moves it on by one; at the end of the declared capacity it sets
EOD, returns 0 and does not move (R199). -/
def Obligations.RbitReadsTheNextBit : Prop :=
  ∀ s : State, s.phase = .idle →
    (s.caps.pbuf < s.pkLen → Faults .rbit s 0x01 s.pkLen.toNat) ∧
    (s.pkLen ≤ s.caps.pbuf → s.pkLen ≤ s.buByte →
      Sys2Proof.Machine.exec .rbit s = .next { s with eod := true, rdata := 0 }.completed) ∧
    (s.pkLen ≤ s.caps.pbuf → s.buByte < s.pkLen →
      Sys2Proof.Machine.exec .rbit s = .next { s with
        rdata := if s.streamBit .pbuf s.readPos then 1 else 0
        eod := false
        buByte := BitVec.ofNat 64 ((s.readPos + 1) / 8)
        buBit := BitVec.ofNat 3 ((s.readPos + 1) % 8) }.completed)

/-- What the packer wrote the unpacker reads: after BPINIT and WBITS that fit, BUINIT and k times RBIT succeed without
EOD for every k up to the end of the last touched byte, the k-th bit read is the k-th bit written, 0 after the last,
and the packer's cursor stays where it was (R200). -/
def Obligations.UnpackerReturnsThePackedBits : Prop :=
  ∀ (s t : State) (ws : List (BitVec 16 × Nat)), s.phase = .idle → s.pkLen ≤ s.caps.pbuf →
    runAll (.bpinit :: packAll ws) s = some t →
      ∀ k, k < 8 * (((operandBits ws).length + 7) / 8) →
        ∃ u, runAll (.buinit :: List.replicate (k + 1) .rbit) t = some u ∧ u.eod = false ∧
          u.rdata = (if (operandBits ws)[k]?.getD false then 1 else 0) ∧ u.readPos = k + 1 ∧
          u.packPos = t.packPos ∧ u.pbuf = t.pbuf ∧ u.pkLen = t.pkLen

/-! ## The decoder -/

/-- TDESER stores the archive's entries into an emptied table, the last entry of a symbol winning, whatever the entries
hold, and resets the lookup's candidate and MATCH (spec/45_huffman_decoder.md R210, R212, R213). -/
def Obligations.TdeserStoresTheEntries : Prop :=
  ∀ (s : State) (count : Nat), s.phase = .idle → s.arLen ≤ s.caps.abuf → count ≤ 256 →
    s.contentOff.toNat = 18 + 4 * count → s.contentOff.toNat ≤ s.arLen.toNat →
      ∃ code : CodeTable,
        Sys2Proof.Machine.exec .tdeser s = .next { s with
          code := code, entryCnt := BitVec.ofNat 16 count, cand := 0, clen := 0, matched := false }.completed ∧
        (∀ i, i < count → (∀ j, i < j → j < count → s.readByte .abuf (18 + 4 * j) ≠ s.readByte .abuf (18 + 4 * i)) →
          tget code (s.readByte .abuf (18 + 4 * i)) = s.entryCode i) ∧
        ∀ b : Byte, (∀ i, i < count → s.readByte .abuf (18 + 4 * i) ≠ b) → tget code b = ⟨0, 0⟩

/-- The checks of TDESER: four conditions on the content offset report one fault; an offset that meets none of them
yields the entry count (R211). -/
def Obligations.TdeserChecks : Prop :=
  ∀ s : State, s.phase = .idle →
    (s.caps.abuf < s.arLen → Faults .tdeser s 0x01 s.arLen.toNat) ∧
    (s.arLen ≤ s.caps.abuf →
      (s.contentOff.toNat < 18 ∨ (s.contentOff.toNat - 18) % 4 ≠ 0 ∨ 256 < (s.contentOff.toNat - 18) / 4 ∨
        s.arLen.toNat < s.contentOff.toNat) →
      Faults .tdeser s 0x04 s.contentOff.toNat) ∧
    (s.arLen ≤ s.caps.abuf → ∀ count, count ≤ 256 → s.contentOff.toNat = 18 + 4 * count →
      s.contentOff.toNat ≤ s.arLen.toNat →
        ∃ t, Sys2Proof.Machine.exec .tdeser s = .next t ∧ t.done = true ∧ t.entryCnt.toNat = count)

/-- SLOOKUP shifts the bit in, loses none, and looks the candidate up: the least symbol whose entry it is, or no match
and the fault at the sixteenth bit (R216, R218). The candidate is as the invariant of spec/10_state.md R36 has it. -/
def Obligations.SlookupScansTheTable : Prop :=
  ∀ (s : State) (bit : Bool) (e : CodeEntry), s.phase = .idle → s.candidateOk →
    e.pat.toNat = 2 * s.cand.toNat + bit.toNat → e.len.toNat = s.clen.toNat + 1 →
      (∀ hit : Byte, tget s.code hit = e → (∀ b : Byte, b < hit → tget s.code b ≠ e) →
        Sys2Proof.Machine.exec (.slookup bit) s =
          .next { s with rdata := hit, matched := true, cand := 0, clen := 0 }.completed) ∧
      ((∀ b : Byte, tget s.code b ≠ e) → s.clen.toNat < 15 →
        Sys2Proof.Machine.exec (.slookup bit) s =
          .next { s with cand := e.pat, clen := e.len, matched := false }.completed) ∧
      ((∀ b : Byte, tget s.code b ≠ e) → s.clen.toNat = 15 → Faults (.slookup bit) s 0x06 s.emitCnt.toNat)

/-- A match is never an absent entry, one longer than 16 bits or one with stray pattern bits, and of equal entries it
is the least symbol's (R217). -/
def Obligations.SlookupMatchesProperEntriesOnly : Prop :=
  ∀ (s t : State) (bit : Bool), s.phase = .idle → s.candidateOk →
    Sys2Proof.Machine.exec (.slookup bit) s = .next t → t.phase = .idle → t.matched = true →
      1 ≤ (tget s.code t.rdata).len.toNat ∧ (tget s.code t.rdata).len.toNat ≤ 16 ∧
      (tget s.code t.rdata).pat.toNat < 2 ^ (tget s.code t.rdata).len.toNat ∧
      ∀ b : Byte, b < t.rdata → tget s.code b ≠ tget s.code t.rdata

/-- The start of DECODE: its two checks, and what it resets, which is all it does for an original size of 0 (R221,
R223). -/
def Obligations.DecodeStart : Prop :=
  ∀ s : State, s.phase = .idle →
    (s.caps.pbuf < s.pkLen → Faults .decode s 0x01 s.pkLen.toNat) ∧
    (s.pkLen ≤ s.caps.pbuf → s.caps.obuf < s.origSize → Faults .decode s 0x01 s.origSize.toNat) ∧
    (s.pkLen ≤ s.caps.pbuf → s.origSize = 0 →
      Sys2Proof.Machine.exec .decode s = .next { s with
        buByte := 0, buBit := 0, eod := false, cand := 0, clen := 0, matched := false, emitCnt := 0,
        outLen := 0 }.completed)

/-- DECODE of packed content that begins with the codes of ORIG_SIZE symbols, under a proper prefix-free table, ends
with those symbols in OBUF and reads no bit after them (R220, R222, R223). -/
def Obligations.DecodeReconstructs : Prop :=
  ∀ (s : State) (xs : List Byte), s.phase = .idle → s.pkLen ≤ s.caps.pbuf → s.origSize ≤ s.caps.obuf →
    properCodes s.code → prefixFree s.code → (∀ b ∈ xs, present s.code b) → xs.length = s.origSize.toNat →
    (codeString s.code xs).length ≤ 8 * s.pkLen.toNat → s.contentIs (codeString s.code xs) →
      ∃ t, Sys2Proof.Machine.exec .decode s = .next t ∧
        t = { s with
          obuf := t.obuf, outLen := s.origSize, emitCnt := s.origSize, buByte := t.buByte, buBit := t.buBit,
          cand := 0, clen := 0, rdata := xs.getLast?.getD s.rdata, eod := false,
          matched := decide (xs ≠ []) }.completed ∧
        t.readPos = (codeString s.code xs).length ∧
        ∀ a, t.readByte .obuf a = xs[a]?.getD (s.readByte .obuf a)

/-- DECODE is the decoding of the packed bits by the code table as it stands, whatever table and content these are: the
symbols and where the reading stops, or the fault and its information (R217, R220, R222, spec/60_exceptions.md R287,
R293). -/
def Obligations.DecodeIsGreedyDecoding : Prop :=
  ∀ s : State, s.phase = .idle → s.pkLen ≤ s.caps.pbuf → s.origSize ≤ s.caps.obuf →
    (∀ xs rest, greedy s.code s.origSize.toNat s.packedBits [] [] = .symbols xs rest →
      ∃ t, Sys2Proof.Machine.exec .decode s = .next t ∧
        t = { s with
          obuf := t.obuf, outLen := s.origSize, emitCnt := s.origSize, buByte := t.buByte, buBit := t.buBit,
          cand := 0, clen := 0, rdata := xs.getLast?.getD s.rdata, eod := false,
          matched := decide (xs ≠ []) }.completed ∧
        t.readPos + rest.length = 8 * s.pkLen.toNat ∧ xs.length = s.origSize.toNat ∧
        ∀ a, t.readByte .obuf a = xs[a]?.getD (s.readByte .obuf a)) ∧
    (∀ n, greedy s.code s.origSize.toNat s.packedBits [] [] = .truncated n → Faults .decode s 0x08 n) ∧
    (∀ n, greedy s.code s.origSize.toNat s.packedBits [] [] = .unbounded n → Faults .decode s 0x06 n)

/-! ## The container -/

/-- COMPRESS of an input whose every byte has a code of at most 16 bits, where the capacities suffice: the archive is
the header, one entry per present symbol in ascending order, and the packed codes of the input with zero padding; the
registers are those of the archive; every other byte and register is as before (spec/46_container_codec.md R237,
R239 to R241, R243; spec/30_encoding.md R100 to R106). -/
def Obligations.CompressWritesTheArchive : Prop :=
  ∀ (s : State) (m count off N W T : Nat), s.phase = .idle → s.inLen ≤ s.caps.ibuf →
    isGreatestLen s.code m → m ≤ 16 → (∀ b ∈ s.input, present s.code b) →
    count = (presentSymbols s.code).length → off = 18 + 4 * count → N = (codeString s.code s.input).length →
    W = (s.inLen.toNat * m + 7) / 8 + 1 → T = (N + 7) / 8 → W ≤ s.caps.pbuf.toNat → off + T ≤ s.caps.abuf.toNat →
      ∃ t, Sys2Proof.Machine.exec .compress s = .next t ∧
        t = { s with
          abuf := t.abuf, pbuf := t.pbuf, arLen := BitVec.ofNat 64 (off + T), origSize := s.inLen,
          contentOff := BitVec.ofNat 32 off, entryCnt := BitVec.ofNat 16 count, maxLen := BitVec.ofNat 8 m,
          pkLen := BitVec.ofNat 64 W, bpByte := BitVec.ofNat 64 (N / 8), bpBit := BitVec.ofNat 3 (N % 8) }.completed ∧
        t.hasMagic ∧ t.headerSize = s.inLen ∧ t.headerOff.toNat = off ∧
        (∀ b : Byte, present s.code b →
          t.readByte .abuf (18 + 4 * entryIndex s.code b) = b ∧ t.entryCode (entryIndex s.code b) = tget s.code b) ∧
        (∀ k, k < 8 * T → t.streamBit .abuf (8 * off + k) = (codeString s.code s.input)[k]?.getD false) ∧
        (∀ a, off + T ≤ a → t.readByte .abuf a = s.readByte .abuf a) ∧
        (∀ a, a < T → t.readByte .pbuf a = t.readByte .abuf (off + a)) ∧
        (N % 8 = 0 → t.readByte .pbuf (N / 8) = 0) ∧
        ∀ a, N / 8 < a → t.readByte .pbuf a = s.readByte .pbuf a

/-- The faults of COMPRESS in the order of its checks (R235, R236, R238 to R242). -/
def Obligations.CompressFaultsInOrder : Prop :=
  ∀ (s : State) (m count off N W : Nat), s.phase = .idle →
    count = (presentSymbols s.code).length → off = 18 + 4 * count → N = (codeString s.code s.input).length →
    W = (s.inLen.toNat * m + 7) / 8 + 1 → isGreatestLen s.code m →
      (s.caps.ibuf < s.inLen → Faults .compress s 0x01 s.inLen.toNat) ∧
      (s.inLen ≤ s.caps.ibuf →
        (∀ b : Byte, 16 < (tget s.code b).len.toNat → (∀ c : Byte, c < b → (tget s.code c).len.toNat ≤ 16) →
          Faults .compress s 0x07 (b.toNat + 256 * (tget s.code b).len.toNat)) ∧
        (m ≤ 16 → s.caps.abuf.toNat < off → Faults .compress s 0x01 off) ∧
        (m ≤ 16 → off ≤ s.caps.abuf.toNat → s.caps.pbuf.toNat < W → Faults .compress s 0x01 W) ∧
        (m ≤ 16 → off ≤ s.caps.abuf.toNat → W ≤ s.caps.pbuf.toNat →
          (∀ i, i < s.inLen.toNat → (∀ j, j < i → present s.code (s.readByte .ibuf j)) →
            ¬ present s.code (s.readByte .ibuf i) → Faults .compress s 0x05 i) ∧
          ((∀ b ∈ s.input, present s.code b) → s.caps.abuf.toNat < off + (N + 7) / 8 →
            Faults .compress s 0x01 (off + (N + 7) / 8))))

/-- The archive of the empty input is the 18 bytes of R110, and it decompresses to the empty output. -/
def Obligations.EmptyInputArchive : Prop :=
  ∀ s : State, s.phase = .idle → s.inLen = 0 → 18 ≤ s.caps.abuf.toNat → 1 ≤ s.caps.pbuf.toNat →
    (∃ t, runAll [.encode, .compress] s = some t ∧ t.arLen = 18 ∧
      t.readBytes .abuf 0 18 =
        [0x00, 0x6C, 0x62, 0x63, 0x61, 0x00, 0x00, 0x00, 0x00, 0x00, 0x00, 0x00, 0x00, 0x00, 0x12, 0x00, 0x00, 0x00]) ∧
    ∃ u, runAll [.encode, .compress, .decompress] s = some u ∧ u.outLen = 0

/-- The first checks of DECOMPRESS: the capacity, the length of the magic, and the first wrong byte of the magic
(R251). -/
def Obligations.DecompressChecksTheMagic : Prop :=
  ∀ s : State, s.phase = .idle →
    (s.caps.abuf < s.arLen → Faults .decompress s 0x01 s.arLen.toNat) ∧
    (s.arLen ≤ s.caps.abuf → s.arLen.toNat < 6 → Faults .decompress s 0x03 s.arLen.toNat) ∧
    (s.arLen ≤ s.caps.abuf → 6 ≤ s.arLen.toNat →
      ∀ k, k < 6 → (∀ j, j < k → signature[j]? = some (s.readByte .abuf j)) →
        signature[k]? ≠ some (s.readByte .abuf k) → Faults .decompress s 0x02 k)

/-- A truncated header: fewer than 6 bytes, or fewer than 18 with the right magic (spec/60_exceptions.md R284). -/
def Obligations.DecompressTruncatedHeader : Prop :=
  ∀ s : State, s.phase = .idle → s.arLen ≤ s.caps.abuf →
    (s.arLen.toNat < 6 ∨ (s.arLen.toNat < 18 ∧ s.hasMagic)) → Faults .decompress s 0x03 s.arLen.toNat

/-- DECOMPRESS of an archive with a whole header is TDESER on the header's fields, the copy of the content to PBUF, and
DECODE (spec/46_container_codec.md R252 to R254). -/
def Obligations.DecompressIsItsSteps : Prop :=
  ∀ s : State, s.phase = .idle → s.arLen ≤ s.caps.abuf → 18 ≤ s.arLen.toNat → s.hasMagic →
    ∃ b, Sys2Proof.Machine.exec .tdeser { s with origSize := s.headerSize, contentOff := s.headerOff } = .next b ∧
      (b.done = false → Sys2Proof.Machine.exec .decompress s = .next b) ∧
      (b.done = true → s.caps.pbuf.toNat < s.arLen.toNat - s.headerOff.toNat →
        Faults .decompress s 0x01 (s.arLen.toNat - s.headerOff.toNat)) ∧
      (b.done = true → s.arLen.toNat - s.headerOff.toNat ≤ s.caps.pbuf.toNat →
        ∃ c, Sys2Proof.Machine.exec .decompress s = Sys2Proof.Machine.exec .decode c ∧
          c = { b with pbuf := c.pbuf, pkLen := BitVec.ofNat 64 (s.arLen.toNat - s.headerOff.toNat) } ∧
          ∀ a, c.readByte .pbuf a =
            if a < s.arLen.toNat - s.headerOff.toNat then s.readByte .abuf (s.headerOff.toNat + a)
            else s.readByte .pbuf a)

/-- DECOMPRESS of an archive that stands in ABUF, whoever wrote it: where the entries are those of a proper prefix-free
table, in any order, and the content begins with the codes of the original, OBUF holds the original, no bit after its
codes is read, and what R255 lists is unchanged (R250 to R255, R107; spec/45_huffman_decoder.md R220, R223). -/
def Obligations.DecompressReadsAnArchive : Prop :=
  ∀ (s : State) (code : CodeTable) (count : Nat) (xs : List Byte),
    s.phase = .idle → s.arLen ≤ s.caps.abuf → s.hasMagic → count ≤ 256 → s.headerOff.toNat = 18 + 4 * count →
    s.headerOff.toNat ≤ s.arLen.toNat → s.arLen.toNat - s.headerOff.toNat ≤ s.caps.pbuf.toNat →
    s.headerSize ≤ s.caps.obuf → xs.length = s.headerSize.toNat →
    (∀ i, i < count → tget code (s.readByte .abuf (18 + 4 * i)) = s.entryCode i) →
    (∀ b : Byte, (∀ i, i < count → s.readByte .abuf (18 + 4 * i) ≠ b) → ¬ present code b) →
    properCodes code → prefixFree code → (∀ b ∈ xs, present code b) →
    (codeString code xs).length ≤ 8 * (s.arLen.toNat - s.headerOff.toNat) →
    (∀ k (h : k < (codeString code xs).length),
      s.streamBit .abuf (8 * s.headerOff.toNat + k) = (codeString code xs)[k]) →
      ∃ t, Sys2Proof.Machine.exec .decompress s = .next t ∧
        t = { s with
          origSize := s.headerSize, contentOff := s.headerOff, entryCnt := BitVec.ofNat 16 count, code := t.code,
          pbuf := t.pbuf, pkLen := BitVec.ofNat 64 (s.arLen.toNat - s.headerOff.toNat), obuf := t.obuf,
          outLen := s.headerSize, emitCnt := s.headerSize, buByte := t.buByte, buBit := t.buBit, cand := 0, clen := 0,
          rdata := xs.getLast?.getD s.rdata, eod := false, matched := decide (xs ≠ []) }.completed ∧
        t.readPos = (codeString code xs).length ∧
        (∀ b : Byte, present code b → tget t.code b = tget code b) ∧
        (∀ a, t.readByte .obuf a = xs[a]?.getD (s.readByte .obuf a)) ∧
        ∀ a, t.readByte .pbuf a =
          if a < s.arLen.toNat - s.headerOff.toNat then s.readByte .abuf (s.headerOff.toNat + a)
          else s.readByte .pbuf a

/-- The round trip: if ENCODE and COMPRESS of an input succeed and OBUF can hold it, then DECOMPRESS, and also DECODE in
its place, ends with the input in OBUF (R256). -/
def Obligations.RoundTrip : Prop :=
  ∀ s c : State, s.phase = .idle → runAll [.encode, .compress] s = some c → s.inLen ≤ s.caps.obuf →
    ∀ last, last = Instr.decompress ∨ last = Instr.decode →
      ∃ d, Sys2Proof.Machine.exec last c = .next d ∧ d.done = true ∧ d.outLen = s.inLen ∧
        ∀ k, k < s.inLen.toNat → d.readByte .obuf k = s.readByte .ibuf k

/-! ## The host's accesses -/

/-- The register map (spec/10_state.md R38): every register has exactly one address, a multiple of 8, and those of the
table's rows are the ones below. -/
def Obligations.RegisterMap : Prop :=
  (∀ r : RegName, ∃ a : BitVec 16, regAt a = some r ∧ a.toNat % 8 = 0 ∧ ∀ a', regAt a' = some r → a' = a) ∧
  [0x0000, 0x0008, 0x0010, 0x0018, 0x0020, 0x0028, 0x0030, 0x0038, 0x0040, 0x0048, 0x0050, 0x0058, 0x0060, 0x0068,
      0x0070, 0x0078, 0x0080, 0x0088, 0x0090, 0x0098, 0x00A0, 0x00A8, 0x00B0, 0x00B8].map regAt =
    [.cmd, .status, .faultCode, .faultInfo, .rdata, .inLen, .arLen, .pkLen, .outLen, .origSize, .contentOff,
      .entryCnt, .maxLen, .treeRoot, .mergeCnt, .wlLen, .bpByte, .bpBit, .buByte, .buBit, .cand, .clen, .emitCnt,
      .phase].map some ∧
  (∀ i : Byte, regAt (0x1000 + 8 * i.zeroExtend 16) = some (.freq i) ∧
    regAt (0x1800 + 8 * i.zeroExtend 16) = some (.code i)) ∧
  ∀ i : Fin 511, regAt (BitVec.ofNat 16 (0x2000 + 8 * i.val)) = some (.nodeFreq i) ∧
    regAt (BitVec.ofNat 16 (0x3000 + 8 * i.val)) = some (.nodeLink i)

/-- Host register accesses (R39, spec/47_system.md R274): in IDLE a write stores the value truncated to an "rw"
register's width and changes no other register and no buffer, a write to a read-only or unmapped address changes
nothing, and a read returns the register and changes nothing; in FAULTED a write to any address but CMD's changes
nothing. The model's own choices: that a read in FAULTED returns what the state holds, where R39 leaves all but five
registers unspecified (the free values of assumption 3); that answers stand in `replies` (assumption 5); and that a read
of an unmapped address is refused (assumption 7). -/
def Obligations.HostRegisterAccess : Prop :=
  ∀ (s : State) (addr : BitVec 16) (v : Reg64),
    (s.phase = .idle → ∀ r, regAt addr = some r → r ≠ .cmd →
      ∃ t, transact (.writeReg addr v) s = .next t ∧
        (hostWidth r = none → t = s) ∧ (∀ w, hostWidth r = some w → (t.readReg r).toNat = v.toNat % 2 ^ w) ∧
        (∀ r', r' ≠ r → t.readReg r' = s.readReg r') ∧
        (∀ sp a, t.readByte sp a = s.readByte sp a) ∧ t.wl = s.wl ∧ t.node = s.node ∧ t.caps = s.caps ∧
        t.pending = s.pending ∧ t.replies = s.replies) ∧
    (s.phase = .idle → regAt addr = none → transact (.writeReg addr v) s = .next s) ∧
    (s.phase = .faulted → addr ≠ 0x0000 → transact (.writeReg addr v) s = .next s) ∧
    (s.phase ≠ .run → ∀ r, regAt addr = some r →
      transact (.readReg addr) s = .next { s with replies := s.readReg r :: s.replies }) ∧
    (s.phase ≠ .run → regAt addr = none → transact (.readReg addr) s = .refused (.unmappedRead addr.toNat))

/-- Host buffer accesses (spec/20_memory.md R63): inside the capacity a read returns the byte and changes nothing, a
write stores it in IDLE in IBUF, ABUF and PBUF, and changes nothing in OBUF and in FAULTED. The model's own choices: that a
read in FAULTED returns the byte the state holds, where R63 leaves it unspecified (the free values of assumptions 3 and
4); that answers stand in `replies` (assumption 5); and that the model stops, with a fault of its own, outside the
capacity (assumption 7). -/
def Obligations.HostBufferAccess : Prop :=
  ∀ (s : State) (sp : Space) (index : Reg64) (v : Byte), s.phase ≠ .run →
    (index < s.caps.of sp →
      transact (.readBuf sp index) s =
        .next { s with replies := (s.readByte sp index.toNat).zeroExtend 64 :: s.replies } ∧
      (s.phase = .faulted ∨ sp = .obuf → transact (.writeBuf sp index v) s = .next s) ∧
      (s.phase = .idle → sp ≠ .obuf →
        ∃ t, transact (.writeBuf sp index v) s = .next t ∧
          t = { s with ibuf := t.ibuf, abuf := t.abuf, pbuf := t.pbuf } ∧
          ∀ sq a, t.readByte sq a = if sq = sp ∧ a = index.toNat then v else s.readByte sq a)) ∧
    (s.caps.of sp ≤ index →
      transact (.readBuf sp index) s = .fault (.outsideBuffer sp index.toNat) ∧
      transact (.writeBuf sp index v) s = .fault (.outsideBuffer sp index.toNat))

/-! ## Frames over all commands -/

/-- What each command that succeeds may change; every register and buffer that is not named keeps its value, the flags
BUSY and DONE and `PHASE` being those of a successful end, and of a buffer that a command stores to every byte outside
the stored ones reads as before: BPINIT stores PBUF[0], WBITS from the packer's byte to the one it comes to, DECODE
OBUF below the original size, COMPRESS the archive and the packed bytes, DECOMPRESS the content and the original of the
archive's header (spec/70_reset_and_hazards.md R328, spec/20_memory.md R62, and the Writes bullets of the command
rules). For CLR see `ClrResets`. -/
def Obligations.CommandsKeepTheRest : Prop :=
  ∀ (i : Instr) (s t : State), s.phase = .idle → Sys2Proof.Machine.exec i s = .next t → t.phase = .idle →
    match i with
    | .clr => t.ibuf = s.ibuf ∧ t.abuf = s.abuf ∧ t.pbuf = s.pbuf ∧ t.obuf = s.obuf
    | .freq => t = { s with freq := t.freq }.completed
    | .tbuild => t = { s with
        node := t.node, wl := t.wl, mergeCnt := t.mergeCnt, rootValid := t.rootValid, root := t.root,
        nodata := t.nodata }.completed
    | .cassign => t = { s with code := t.code }.withoutTree.completed
    | .encode => t = { s with freq := t.freq, code := t.code, nodata := t.nodata }.withoutTree.completed
    | .bpinit => t = { s with bpByte := 0, bpBit := 0, pbuf := t.pbuf }.completed ∧
        ∀ a, a ≠ 0 ∨ s.pkLen = 0 → t.readByte .pbuf a = s.readByte .pbuf a
    | .wbits _ length => t = { s with bpByte := t.bpByte, bpBit := t.bpBit, pbuf := t.pbuf }.completed ∧
        t.packPos = s.packPos + length ∧
        ∀ a, length = 0 ∨ a < s.bpByte.toNat ∨ t.bpByte.toNat < a ∨ s.pkLen.toNat ≤ a →
          t.readByte .pbuf a = s.readByte .pbuf a
    | .buinit => t = { s with buByte := 0, buBit := 0, eod := false }.completed
    | .rbit => t = { s with rdata := t.rdata, eod := t.eod, buByte := t.buByte, buBit := t.buBit }.completed
    | .tdeser => t = { s with
        code := t.code, entryCnt := t.entryCnt, cand := 0, clen := 0, matched := false }.completed
    | .slookup _ => t = { s with
        rdata := t.rdata, matched := t.matched, cand := t.cand, clen := t.clen }.completed
    | .decode => t = { s with
        obuf := t.obuf, outLen := s.origSize, emitCnt := t.emitCnt, buByte := t.buByte, buBit := t.buBit,
        cand := t.cand, clen := t.clen, rdata := t.rdata, eod := t.eod, matched := t.matched }.completed ∧
        ∀ a, s.origSize.toNat ≤ a → t.readByte .obuf a = s.readByte .obuf a
    | .compress => t = { s with
        abuf := t.abuf, arLen := t.arLen, origSize := s.inLen, contentOff := t.contentOff, entryCnt := t.entryCnt,
        maxLen := t.maxLen, pkLen := t.pkLen, pbuf := t.pbuf, bpByte := t.bpByte, bpBit := t.bpBit }.completed ∧
        t.packPos = (codeString s.code s.input).length ∧
        t.arLen.toNat = 18 + 4 * (presentSymbols s.code).length + t.touched ∧
        (∀ a, t.arLen.toNat ≤ a → t.readByte .abuf a = s.readByte .abuf a) ∧
        ∀ a, t.bpByte.toNat < a → t.readByte .pbuf a = s.readByte .pbuf a
    | .decompress => t = { s with
        origSize := s.headerSize, contentOff := s.headerOff, entryCnt := t.entryCnt, code := t.code, pbuf := t.pbuf,
        pkLen := BitVec.ofNat 64 (s.arLen.toNat - s.headerOff.toNat), obuf := t.obuf, outLen := s.headerSize,
        emitCnt := t.emitCnt, buByte := t.buByte, buBit := t.buBit, cand := t.cand, clen := t.clen, rdata := t.rdata,
        eod := t.eod, matched := t.matched }.completed ∧
        (∀ a, s.arLen.toNat - s.headerOff.toNat ≤ a → t.readByte .pbuf a = s.readByte .pbuf a) ∧
        ∀ a, s.headerSize.toNat ≤ a → t.readByte .obuf a = s.readByte .obuf a

/-- The table of the flags (spec/10_state.md R43): for every command that succeeds, which flags it leaves and what the
others become. -/
def Obligations.FlagsTable : Prop :=
  ∀ (i : Instr) (s t : State), s.phase = .idle → Sys2Proof.Machine.exec i s = .next t → t.phase = .idle →
    (t.done = decide (i ≠ .clr)) ∧ (t.fault = if i = .clr then false else s.fault) ∧
    (t.nodata = match i with
      | .clr => false
      | .tbuild => decide (leafSymbols s.freq = [])
      | .encode => decide (s.inLen = 0)
      | _ => s.nodata) ∧
    (t.eod = match i with
      | .clr | .buinit | .decode | .decompress => false
      | .rbit => decide (s.pkLen ≤ s.buByte)
      | _ => s.eod) ∧
    (t.matched = match i with
      | .clr | .tdeser => false
      | .slookup bit => decide (∃ b : Byte, tget s.code b = ⟨shiftIn s.cand bit, s.clen + 1⟩)
      | .decode | .decompress => decide (t.origSize ≠ 0)
      | _ => s.matched)

/-! ## Invariants -/

/-- Every step keeps the buffers in canonical form and inside their capacities (spec/20_memory.md R61). -/
def Obligations.StepKeepsTheBuffers : Prop :=
  ∀ s t : State, s.buffersOk → step s = .next t → t.buffersOk

/-- Every step keeps the agreement of `PHASE`, the flags and the fault registers (spec/10_state.md R22, R23, R25), the
bound of the lookup's candidate (R36) and the bounds of the counts (R28; spec/40_frequency_table.md R132). -/
def Obligations.StepKeepsTheControlState : Prop :=
  ∀ s t : State, step s = .next t →
    (s.controlOk → t.controlOk) ∧ (s.candidateOk → t.candidateOk) ∧ (s.countsOk → t.countsOk)

/-- Every step keeps the invariant of trees: between commands there is no tree at all, or a whole one whose root is
the one item of the work list (spec/10_state.md R42; spec/41_tree_builder.md R146, R147). -/
def Obligations.StepKeepsTheTree : Prop :=
  ∀ s t : State, s.treeOk → step s = .next t → t.treeOk
end

