-- ==== Sys2Proof/Laws/State.lean ====
section
/-! SUPPORT. One lemma per field per named update of the state, true by rfl, for simp; so that no proof unfolds a
record update. -/

namespace Sys2Proof.Machine

/-! ### accept -/

@[simp] theorem State.accept_caps (s : State) : (s.accept).caps = s.caps := rfl
@[simp] theorem State.accept_cmd (s : State) : (s.accept).cmd = s.cmd := rfl
@[simp] theorem State.accept_busy (s : State) : (s.accept).busy = true := rfl
@[simp] theorem State.accept_done (s : State) : (s.accept).done = false := rfl
@[simp] theorem State.accept_fault (s : State) : (s.accept).fault = s.fault := rfl
@[simp] theorem State.accept_nodata (s : State) : (s.accept).nodata = s.nodata := rfl
@[simp] theorem State.accept_eod (s : State) : (s.accept).eod = s.eod := rfl
@[simp] theorem State.accept_matched (s : State) : (s.accept).matched = s.matched := rfl
@[simp] theorem State.accept_phase (s : State) : (s.accept).phase = .run := rfl
@[simp] theorem State.accept_faultCode (s : State) : (s.accept).faultCode = s.faultCode := rfl
@[simp] theorem State.accept_faultInfo (s : State) : (s.accept).faultInfo = s.faultInfo := rfl
@[simp] theorem State.accept_rdata (s : State) : (s.accept).rdata = s.rdata := rfl
@[simp] theorem State.accept_inLen (s : State) : (s.accept).inLen = s.inLen := rfl
@[simp] theorem State.accept_arLen (s : State) : (s.accept).arLen = s.arLen := rfl
@[simp] theorem State.accept_pkLen (s : State) : (s.accept).pkLen = s.pkLen := rfl
@[simp] theorem State.accept_outLen (s : State) : (s.accept).outLen = s.outLen := rfl
@[simp] theorem State.accept_origSize (s : State) : (s.accept).origSize = s.origSize := rfl
@[simp] theorem State.accept_contentOff (s : State) : (s.accept).contentOff = s.contentOff := rfl
@[simp] theorem State.accept_entryCnt (s : State) : (s.accept).entryCnt = s.entryCnt := rfl
@[simp] theorem State.accept_maxLen (s : State) : (s.accept).maxLen = s.maxLen := rfl
@[simp] theorem State.accept_freq (s : State) : (s.accept).freq = s.freq := rfl
@[simp] theorem State.accept_node (s : State) : (s.accept).node = s.node := rfl
@[simp] theorem State.accept_wl (s : State) : (s.accept).wl = s.wl := rfl
@[simp] theorem State.accept_mergeCnt (s : State) : (s.accept).mergeCnt = s.mergeCnt := rfl
@[simp] theorem State.accept_rootValid (s : State) : (s.accept).rootValid = s.rootValid := rfl
@[simp] theorem State.accept_root (s : State) : (s.accept).root = s.root := rfl
@[simp] theorem State.accept_code (s : State) : (s.accept).code = s.code := rfl
@[simp] theorem State.accept_bpByte (s : State) : (s.accept).bpByte = s.bpByte := rfl
@[simp] theorem State.accept_bpBit (s : State) : (s.accept).bpBit = s.bpBit := rfl
@[simp] theorem State.accept_buByte (s : State) : (s.accept).buByte = s.buByte := rfl
@[simp] theorem State.accept_buBit (s : State) : (s.accept).buBit = s.buBit := rfl
@[simp] theorem State.accept_cand (s : State) : (s.accept).cand = s.cand := rfl
@[simp] theorem State.accept_clen (s : State) : (s.accept).clen = s.clen := rfl
@[simp] theorem State.accept_emitCnt (s : State) : (s.accept).emitCnt = s.emitCnt := rfl
@[simp] theorem State.accept_ibuf (s : State) : (s.accept).ibuf = s.ibuf := rfl
@[simp] theorem State.accept_abuf (s : State) : (s.accept).abuf = s.abuf := rfl
@[simp] theorem State.accept_pbuf (s : State) : (s.accept).pbuf = s.pbuf := rfl
@[simp] theorem State.accept_obuf (s : State) : (s.accept).obuf = s.obuf := rfl
@[simp] theorem State.accept_epoch (s : State) : (s.accept).epoch = s.epoch := rfl
@[simp] theorem State.accept_pending (s : State) : (s.accept).pending = s.pending := rfl
@[simp] theorem State.accept_replies (s : State) : (s.accept).replies = s.replies := rfl

/-! ### finish -/

@[simp] theorem State.finish_caps (s : State) : (s.finish).caps = s.caps := rfl
@[simp] theorem State.finish_cmd (s : State) : (s.finish).cmd = s.cmd := rfl
@[simp] theorem State.finish_busy (s : State) : (s.finish).busy = false := rfl
@[simp] theorem State.finish_done (s : State) : (s.finish).done = true := rfl
@[simp] theorem State.finish_fault (s : State) : (s.finish).fault = s.fault := rfl
@[simp] theorem State.finish_nodata (s : State) : (s.finish).nodata = s.nodata := rfl
@[simp] theorem State.finish_eod (s : State) : (s.finish).eod = s.eod := rfl
@[simp] theorem State.finish_matched (s : State) : (s.finish).matched = s.matched := rfl
@[simp] theorem State.finish_phase (s : State) : (s.finish).phase = .idle := rfl
@[simp] theorem State.finish_faultCode (s : State) : (s.finish).faultCode = s.faultCode := rfl
@[simp] theorem State.finish_faultInfo (s : State) : (s.finish).faultInfo = s.faultInfo := rfl
@[simp] theorem State.finish_rdata (s : State) : (s.finish).rdata = s.rdata := rfl
@[simp] theorem State.finish_inLen (s : State) : (s.finish).inLen = s.inLen := rfl
@[simp] theorem State.finish_arLen (s : State) : (s.finish).arLen = s.arLen := rfl
@[simp] theorem State.finish_pkLen (s : State) : (s.finish).pkLen = s.pkLen := rfl
@[simp] theorem State.finish_outLen (s : State) : (s.finish).outLen = s.outLen := rfl
@[simp] theorem State.finish_origSize (s : State) : (s.finish).origSize = s.origSize := rfl
@[simp] theorem State.finish_contentOff (s : State) : (s.finish).contentOff = s.contentOff := rfl
@[simp] theorem State.finish_entryCnt (s : State) : (s.finish).entryCnt = s.entryCnt := rfl
@[simp] theorem State.finish_maxLen (s : State) : (s.finish).maxLen = s.maxLen := rfl
@[simp] theorem State.finish_freq (s : State) : (s.finish).freq = s.freq := rfl
@[simp] theorem State.finish_node (s : State) : (s.finish).node = s.node := rfl
@[simp] theorem State.finish_wl (s : State) : (s.finish).wl = s.wl := rfl
@[simp] theorem State.finish_mergeCnt (s : State) : (s.finish).mergeCnt = s.mergeCnt := rfl
@[simp] theorem State.finish_rootValid (s : State) : (s.finish).rootValid = s.rootValid := rfl
@[simp] theorem State.finish_root (s : State) : (s.finish).root = s.root := rfl
@[simp] theorem State.finish_code (s : State) : (s.finish).code = s.code := rfl
@[simp] theorem State.finish_bpByte (s : State) : (s.finish).bpByte = s.bpByte := rfl
@[simp] theorem State.finish_bpBit (s : State) : (s.finish).bpBit = s.bpBit := rfl
@[simp] theorem State.finish_buByte (s : State) : (s.finish).buByte = s.buByte := rfl
@[simp] theorem State.finish_buBit (s : State) : (s.finish).buBit = s.buBit := rfl
@[simp] theorem State.finish_cand (s : State) : (s.finish).cand = s.cand := rfl
@[simp] theorem State.finish_clen (s : State) : (s.finish).clen = s.clen := rfl
@[simp] theorem State.finish_emitCnt (s : State) : (s.finish).emitCnt = s.emitCnt := rfl
@[simp] theorem State.finish_ibuf (s : State) : (s.finish).ibuf = s.ibuf := rfl
@[simp] theorem State.finish_abuf (s : State) : (s.finish).abuf = s.abuf := rfl
@[simp] theorem State.finish_pbuf (s : State) : (s.finish).pbuf = s.pbuf := rfl
@[simp] theorem State.finish_obuf (s : State) : (s.finish).obuf = s.obuf := rfl
@[simp] theorem State.finish_epoch (s : State) : (s.finish).epoch = s.epoch := rfl
@[simp] theorem State.finish_pending (s : State) : (s.finish).pending = s.pending := rfl
@[simp] theorem State.finish_replies (s : State) : (s.finish).replies = s.replies := rfl

/-! ### completed -/

@[simp] theorem State.completed_caps (s : State) : (s.completed).caps = s.caps := rfl
@[simp] theorem State.completed_cmd (s : State) : (s.completed).cmd = s.cmd := rfl
@[simp] theorem State.completed_busy (s : State) : (s.completed).busy = false := rfl
@[simp] theorem State.completed_done (s : State) : (s.completed).done = true := rfl
@[simp] theorem State.completed_fault (s : State) : (s.completed).fault = s.fault := rfl
@[simp] theorem State.completed_nodata (s : State) : (s.completed).nodata = s.nodata := rfl
@[simp] theorem State.completed_eod (s : State) : (s.completed).eod = s.eod := rfl
@[simp] theorem State.completed_matched (s : State) : (s.completed).matched = s.matched := rfl
@[simp] theorem State.completed_phase (s : State) : (s.completed).phase = .idle := rfl
@[simp] theorem State.completed_faultCode (s : State) : (s.completed).faultCode = s.faultCode := rfl
@[simp] theorem State.completed_faultInfo (s : State) : (s.completed).faultInfo = s.faultInfo := rfl
@[simp] theorem State.completed_rdata (s : State) : (s.completed).rdata = s.rdata := rfl
@[simp] theorem State.completed_inLen (s : State) : (s.completed).inLen = s.inLen := rfl
@[simp] theorem State.completed_arLen (s : State) : (s.completed).arLen = s.arLen := rfl
@[simp] theorem State.completed_pkLen (s : State) : (s.completed).pkLen = s.pkLen := rfl
@[simp] theorem State.completed_outLen (s : State) : (s.completed).outLen = s.outLen := rfl
@[simp] theorem State.completed_origSize (s : State) : (s.completed).origSize = s.origSize := rfl
@[simp] theorem State.completed_contentOff (s : State) : (s.completed).contentOff = s.contentOff := rfl
@[simp] theorem State.completed_entryCnt (s : State) : (s.completed).entryCnt = s.entryCnt := rfl
@[simp] theorem State.completed_maxLen (s : State) : (s.completed).maxLen = s.maxLen := rfl
@[simp] theorem State.completed_freq (s : State) : (s.completed).freq = s.freq := rfl
@[simp] theorem State.completed_node (s : State) : (s.completed).node = s.node := rfl
@[simp] theorem State.completed_wl (s : State) : (s.completed).wl = s.wl := rfl
@[simp] theorem State.completed_mergeCnt (s : State) : (s.completed).mergeCnt = s.mergeCnt := rfl
@[simp] theorem State.completed_rootValid (s : State) : (s.completed).rootValid = s.rootValid := rfl
@[simp] theorem State.completed_root (s : State) : (s.completed).root = s.root := rfl
@[simp] theorem State.completed_code (s : State) : (s.completed).code = s.code := rfl
@[simp] theorem State.completed_bpByte (s : State) : (s.completed).bpByte = s.bpByte := rfl
@[simp] theorem State.completed_bpBit (s : State) : (s.completed).bpBit = s.bpBit := rfl
@[simp] theorem State.completed_buByte (s : State) : (s.completed).buByte = s.buByte := rfl
@[simp] theorem State.completed_buBit (s : State) : (s.completed).buBit = s.buBit := rfl
@[simp] theorem State.completed_cand (s : State) : (s.completed).cand = s.cand := rfl
@[simp] theorem State.completed_clen (s : State) : (s.completed).clen = s.clen := rfl
@[simp] theorem State.completed_emitCnt (s : State) : (s.completed).emitCnt = s.emitCnt := rfl
@[simp] theorem State.completed_ibuf (s : State) : (s.completed).ibuf = s.ibuf := rfl
@[simp] theorem State.completed_abuf (s : State) : (s.completed).abuf = s.abuf := rfl
@[simp] theorem State.completed_pbuf (s : State) : (s.completed).pbuf = s.pbuf := rfl
@[simp] theorem State.completed_obuf (s : State) : (s.completed).obuf = s.obuf := rfl
@[simp] theorem State.completed_epoch (s : State) : (s.completed).epoch = s.epoch := rfl
@[simp] theorem State.completed_pending (s : State) : (s.completed).pending = s.pending := rfl
@[simp] theorem State.completed_replies (s : State) : (s.completed).replies = s.replies := rfl

/-! ### setNodata -/

@[simp] theorem State.setNodata_caps (s : State) (b : Bool) : (s.setNodata b).caps = s.caps := rfl
@[simp] theorem State.setNodata_cmd (s : State) (b : Bool) : (s.setNodata b).cmd = s.cmd := rfl
@[simp] theorem State.setNodata_busy (s : State) (b : Bool) : (s.setNodata b).busy = s.busy := rfl
@[simp] theorem State.setNodata_done (s : State) (b : Bool) : (s.setNodata b).done = s.done := rfl
@[simp] theorem State.setNodata_fault (s : State) (b : Bool) : (s.setNodata b).fault = s.fault := rfl
@[simp] theorem State.setNodata_nodata (s : State) (b : Bool) : (s.setNodata b).nodata = b := rfl
@[simp] theorem State.setNodata_eod (s : State) (b : Bool) : (s.setNodata b).eod = s.eod := rfl
@[simp] theorem State.setNodata_matched (s : State) (b : Bool) : (s.setNodata b).matched = s.matched := rfl
@[simp] theorem State.setNodata_phase (s : State) (b : Bool) : (s.setNodata b).phase = s.phase := rfl
@[simp] theorem State.setNodata_faultCode (s : State) (b : Bool) : (s.setNodata b).faultCode = s.faultCode := rfl
@[simp] theorem State.setNodata_faultInfo (s : State) (b : Bool) : (s.setNodata b).faultInfo = s.faultInfo := rfl
@[simp] theorem State.setNodata_rdata (s : State) (b : Bool) : (s.setNodata b).rdata = s.rdata := rfl
@[simp] theorem State.setNodata_inLen (s : State) (b : Bool) : (s.setNodata b).inLen = s.inLen := rfl
@[simp] theorem State.setNodata_arLen (s : State) (b : Bool) : (s.setNodata b).arLen = s.arLen := rfl
@[simp] theorem State.setNodata_pkLen (s : State) (b : Bool) : (s.setNodata b).pkLen = s.pkLen := rfl
@[simp] theorem State.setNodata_outLen (s : State) (b : Bool) : (s.setNodata b).outLen = s.outLen := rfl
@[simp] theorem State.setNodata_origSize (s : State) (b : Bool) : (s.setNodata b).origSize = s.origSize := rfl
@[simp] theorem State.setNodata_contentOff (s : State) (b : Bool) : (s.setNodata b).contentOff = s.contentOff := rfl
@[simp] theorem State.setNodata_entryCnt (s : State) (b : Bool) : (s.setNodata b).entryCnt = s.entryCnt := rfl
@[simp] theorem State.setNodata_maxLen (s : State) (b : Bool) : (s.setNodata b).maxLen = s.maxLen := rfl
@[simp] theorem State.setNodata_freq (s : State) (b : Bool) : (s.setNodata b).freq = s.freq := rfl
@[simp] theorem State.setNodata_node (s : State) (b : Bool) : (s.setNodata b).node = s.node := rfl
@[simp] theorem State.setNodata_wl (s : State) (b : Bool) : (s.setNodata b).wl = s.wl := rfl
@[simp] theorem State.setNodata_mergeCnt (s : State) (b : Bool) : (s.setNodata b).mergeCnt = s.mergeCnt := rfl
@[simp] theorem State.setNodata_rootValid (s : State) (b : Bool) : (s.setNodata b).rootValid = s.rootValid := rfl
@[simp] theorem State.setNodata_root (s : State) (b : Bool) : (s.setNodata b).root = s.root := rfl
@[simp] theorem State.setNodata_code (s : State) (b : Bool) : (s.setNodata b).code = s.code := rfl
@[simp] theorem State.setNodata_bpByte (s : State) (b : Bool) : (s.setNodata b).bpByte = s.bpByte := rfl
@[simp] theorem State.setNodata_bpBit (s : State) (b : Bool) : (s.setNodata b).bpBit = s.bpBit := rfl
@[simp] theorem State.setNodata_buByte (s : State) (b : Bool) : (s.setNodata b).buByte = s.buByte := rfl
@[simp] theorem State.setNodata_buBit (s : State) (b : Bool) : (s.setNodata b).buBit = s.buBit := rfl
@[simp] theorem State.setNodata_cand (s : State) (b : Bool) : (s.setNodata b).cand = s.cand := rfl
@[simp] theorem State.setNodata_clen (s : State) (b : Bool) : (s.setNodata b).clen = s.clen := rfl
@[simp] theorem State.setNodata_emitCnt (s : State) (b : Bool) : (s.setNodata b).emitCnt = s.emitCnt := rfl
@[simp] theorem State.setNodata_ibuf (s : State) (b : Bool) : (s.setNodata b).ibuf = s.ibuf := rfl
@[simp] theorem State.setNodata_abuf (s : State) (b : Bool) : (s.setNodata b).abuf = s.abuf := rfl
@[simp] theorem State.setNodata_pbuf (s : State) (b : Bool) : (s.setNodata b).pbuf = s.pbuf := rfl
@[simp] theorem State.setNodata_obuf (s : State) (b : Bool) : (s.setNodata b).obuf = s.obuf := rfl
@[simp] theorem State.setNodata_epoch (s : State) (b : Bool) : (s.setNodata b).epoch = s.epoch := rfl
@[simp] theorem State.setNodata_pending (s : State) (b : Bool) : (s.setNodata b).pending = s.pending := rfl
@[simp] theorem State.setNodata_replies (s : State) (b : Bool) : (s.setNodata b).replies = s.replies := rfl

/-! ### setEod -/

@[simp] theorem State.setEod_caps (s : State) (b : Bool) : (s.setEod b).caps = s.caps := rfl
@[simp] theorem State.setEod_cmd (s : State) (b : Bool) : (s.setEod b).cmd = s.cmd := rfl
@[simp] theorem State.setEod_busy (s : State) (b : Bool) : (s.setEod b).busy = s.busy := rfl
@[simp] theorem State.setEod_done (s : State) (b : Bool) : (s.setEod b).done = s.done := rfl
@[simp] theorem State.setEod_fault (s : State) (b : Bool) : (s.setEod b).fault = s.fault := rfl
@[simp] theorem State.setEod_nodata (s : State) (b : Bool) : (s.setEod b).nodata = s.nodata := rfl
@[simp] theorem State.setEod_eod (s : State) (b : Bool) : (s.setEod b).eod = b := rfl
@[simp] theorem State.setEod_matched (s : State) (b : Bool) : (s.setEod b).matched = s.matched := rfl
@[simp] theorem State.setEod_phase (s : State) (b : Bool) : (s.setEod b).phase = s.phase := rfl
@[simp] theorem State.setEod_faultCode (s : State) (b : Bool) : (s.setEod b).faultCode = s.faultCode := rfl
@[simp] theorem State.setEod_faultInfo (s : State) (b : Bool) : (s.setEod b).faultInfo = s.faultInfo := rfl
@[simp] theorem State.setEod_rdata (s : State) (b : Bool) : (s.setEod b).rdata = s.rdata := rfl
@[simp] theorem State.setEod_inLen (s : State) (b : Bool) : (s.setEod b).inLen = s.inLen := rfl
@[simp] theorem State.setEod_arLen (s : State) (b : Bool) : (s.setEod b).arLen = s.arLen := rfl
@[simp] theorem State.setEod_pkLen (s : State) (b : Bool) : (s.setEod b).pkLen = s.pkLen := rfl
@[simp] theorem State.setEod_outLen (s : State) (b : Bool) : (s.setEod b).outLen = s.outLen := rfl
@[simp] theorem State.setEod_origSize (s : State) (b : Bool) : (s.setEod b).origSize = s.origSize := rfl
@[simp] theorem State.setEod_contentOff (s : State) (b : Bool) : (s.setEod b).contentOff = s.contentOff := rfl
@[simp] theorem State.setEod_entryCnt (s : State) (b : Bool) : (s.setEod b).entryCnt = s.entryCnt := rfl
@[simp] theorem State.setEod_maxLen (s : State) (b : Bool) : (s.setEod b).maxLen = s.maxLen := rfl
@[simp] theorem State.setEod_freq (s : State) (b : Bool) : (s.setEod b).freq = s.freq := rfl
@[simp] theorem State.setEod_node (s : State) (b : Bool) : (s.setEod b).node = s.node := rfl
@[simp] theorem State.setEod_wl (s : State) (b : Bool) : (s.setEod b).wl = s.wl := rfl
@[simp] theorem State.setEod_mergeCnt (s : State) (b : Bool) : (s.setEod b).mergeCnt = s.mergeCnt := rfl
@[simp] theorem State.setEod_rootValid (s : State) (b : Bool) : (s.setEod b).rootValid = s.rootValid := rfl
@[simp] theorem State.setEod_root (s : State) (b : Bool) : (s.setEod b).root = s.root := rfl
@[simp] theorem State.setEod_code (s : State) (b : Bool) : (s.setEod b).code = s.code := rfl
@[simp] theorem State.setEod_bpByte (s : State) (b : Bool) : (s.setEod b).bpByte = s.bpByte := rfl
@[simp] theorem State.setEod_bpBit (s : State) (b : Bool) : (s.setEod b).bpBit = s.bpBit := rfl
@[simp] theorem State.setEod_buByte (s : State) (b : Bool) : (s.setEod b).buByte = s.buByte := rfl
@[simp] theorem State.setEod_buBit (s : State) (b : Bool) : (s.setEod b).buBit = s.buBit := rfl
@[simp] theorem State.setEod_cand (s : State) (b : Bool) : (s.setEod b).cand = s.cand := rfl
@[simp] theorem State.setEod_clen (s : State) (b : Bool) : (s.setEod b).clen = s.clen := rfl
@[simp] theorem State.setEod_emitCnt (s : State) (b : Bool) : (s.setEod b).emitCnt = s.emitCnt := rfl
@[simp] theorem State.setEod_ibuf (s : State) (b : Bool) : (s.setEod b).ibuf = s.ibuf := rfl
@[simp] theorem State.setEod_abuf (s : State) (b : Bool) : (s.setEod b).abuf = s.abuf := rfl
@[simp] theorem State.setEod_pbuf (s : State) (b : Bool) : (s.setEod b).pbuf = s.pbuf := rfl
@[simp] theorem State.setEod_obuf (s : State) (b : Bool) : (s.setEod b).obuf = s.obuf := rfl
@[simp] theorem State.setEod_epoch (s : State) (b : Bool) : (s.setEod b).epoch = s.epoch := rfl
@[simp] theorem State.setEod_pending (s : State) (b : Bool) : (s.setEod b).pending = s.pending := rfl
@[simp] theorem State.setEod_replies (s : State) (b : Bool) : (s.setEod b).replies = s.replies := rfl

/-! ### setMatched -/

@[simp] theorem State.setMatched_caps (s : State) (b : Bool) : (s.setMatched b).caps = s.caps := rfl
@[simp] theorem State.setMatched_cmd (s : State) (b : Bool) : (s.setMatched b).cmd = s.cmd := rfl
@[simp] theorem State.setMatched_busy (s : State) (b : Bool) : (s.setMatched b).busy = s.busy := rfl
@[simp] theorem State.setMatched_done (s : State) (b : Bool) : (s.setMatched b).done = s.done := rfl
@[simp] theorem State.setMatched_fault (s : State) (b : Bool) : (s.setMatched b).fault = s.fault := rfl
@[simp] theorem State.setMatched_nodata (s : State) (b : Bool) : (s.setMatched b).nodata = s.nodata := rfl
@[simp] theorem State.setMatched_eod (s : State) (b : Bool) : (s.setMatched b).eod = s.eod := rfl
@[simp] theorem State.setMatched_matched (s : State) (b : Bool) : (s.setMatched b).matched = b := rfl
@[simp] theorem State.setMatched_phase (s : State) (b : Bool) : (s.setMatched b).phase = s.phase := rfl
@[simp] theorem State.setMatched_faultCode (s : State) (b : Bool) : (s.setMatched b).faultCode = s.faultCode := rfl
@[simp] theorem State.setMatched_faultInfo (s : State) (b : Bool) : (s.setMatched b).faultInfo = s.faultInfo := rfl
@[simp] theorem State.setMatched_rdata (s : State) (b : Bool) : (s.setMatched b).rdata = s.rdata := rfl
@[simp] theorem State.setMatched_inLen (s : State) (b : Bool) : (s.setMatched b).inLen = s.inLen := rfl
@[simp] theorem State.setMatched_arLen (s : State) (b : Bool) : (s.setMatched b).arLen = s.arLen := rfl
@[simp] theorem State.setMatched_pkLen (s : State) (b : Bool) : (s.setMatched b).pkLen = s.pkLen := rfl
@[simp] theorem State.setMatched_outLen (s : State) (b : Bool) : (s.setMatched b).outLen = s.outLen := rfl
@[simp] theorem State.setMatched_origSize (s : State) (b : Bool) : (s.setMatched b).origSize = s.origSize := rfl
@[simp] theorem State.setMatched_contentOff (s : State) (b : Bool) : (s.setMatched b).contentOff = s.contentOff := rfl
@[simp] theorem State.setMatched_entryCnt (s : State) (b : Bool) : (s.setMatched b).entryCnt = s.entryCnt := rfl
@[simp] theorem State.setMatched_maxLen (s : State) (b : Bool) : (s.setMatched b).maxLen = s.maxLen := rfl
@[simp] theorem State.setMatched_freq (s : State) (b : Bool) : (s.setMatched b).freq = s.freq := rfl
@[simp] theorem State.setMatched_node (s : State) (b : Bool) : (s.setMatched b).node = s.node := rfl
@[simp] theorem State.setMatched_wl (s : State) (b : Bool) : (s.setMatched b).wl = s.wl := rfl
@[simp] theorem State.setMatched_mergeCnt (s : State) (b : Bool) : (s.setMatched b).mergeCnt = s.mergeCnt := rfl
@[simp] theorem State.setMatched_rootValid (s : State) (b : Bool) : (s.setMatched b).rootValid = s.rootValid := rfl
@[simp] theorem State.setMatched_root (s : State) (b : Bool) : (s.setMatched b).root = s.root := rfl
@[simp] theorem State.setMatched_code (s : State) (b : Bool) : (s.setMatched b).code = s.code := rfl
@[simp] theorem State.setMatched_bpByte (s : State) (b : Bool) : (s.setMatched b).bpByte = s.bpByte := rfl
@[simp] theorem State.setMatched_bpBit (s : State) (b : Bool) : (s.setMatched b).bpBit = s.bpBit := rfl
@[simp] theorem State.setMatched_buByte (s : State) (b : Bool) : (s.setMatched b).buByte = s.buByte := rfl
@[simp] theorem State.setMatched_buBit (s : State) (b : Bool) : (s.setMatched b).buBit = s.buBit := rfl
@[simp] theorem State.setMatched_cand (s : State) (b : Bool) : (s.setMatched b).cand = s.cand := rfl
@[simp] theorem State.setMatched_clen (s : State) (b : Bool) : (s.setMatched b).clen = s.clen := rfl
@[simp] theorem State.setMatched_emitCnt (s : State) (b : Bool) : (s.setMatched b).emitCnt = s.emitCnt := rfl
@[simp] theorem State.setMatched_ibuf (s : State) (b : Bool) : (s.setMatched b).ibuf = s.ibuf := rfl
@[simp] theorem State.setMatched_abuf (s : State) (b : Bool) : (s.setMatched b).abuf = s.abuf := rfl
@[simp] theorem State.setMatched_pbuf (s : State) (b : Bool) : (s.setMatched b).pbuf = s.pbuf := rfl
@[simp] theorem State.setMatched_obuf (s : State) (b : Bool) : (s.setMatched b).obuf = s.obuf := rfl
@[simp] theorem State.setMatched_epoch (s : State) (b : Bool) : (s.setMatched b).epoch = s.epoch := rfl
@[simp] theorem State.setMatched_pending (s : State) (b : Bool) : (s.setMatched b).pending = s.pending := rfl
@[simp] theorem State.setMatched_replies (s : State) (b : Bool) : (s.setMatched b).replies = s.replies := rfl

/-! ### clearTree -/

@[simp] theorem State.clearTree_caps (s : State) : (s.clearTree).caps = s.caps := rfl
@[simp] theorem State.clearTree_cmd (s : State) : (s.clearTree).cmd = s.cmd := rfl
@[simp] theorem State.clearTree_busy (s : State) : (s.clearTree).busy = s.busy := rfl
@[simp] theorem State.clearTree_done (s : State) : (s.clearTree).done = s.done := rfl
@[simp] theorem State.clearTree_fault (s : State) : (s.clearTree).fault = s.fault := rfl
@[simp] theorem State.clearTree_nodata (s : State) : (s.clearTree).nodata = s.nodata := rfl
@[simp] theorem State.clearTree_eod (s : State) : (s.clearTree).eod = s.eod := rfl
@[simp] theorem State.clearTree_matched (s : State) : (s.clearTree).matched = s.matched := rfl
@[simp] theorem State.clearTree_phase (s : State) : (s.clearTree).phase = s.phase := rfl
@[simp] theorem State.clearTree_faultCode (s : State) : (s.clearTree).faultCode = s.faultCode := rfl
@[simp] theorem State.clearTree_faultInfo (s : State) : (s.clearTree).faultInfo = s.faultInfo := rfl
@[simp] theorem State.clearTree_rdata (s : State) : (s.clearTree).rdata = s.rdata := rfl
@[simp] theorem State.clearTree_inLen (s : State) : (s.clearTree).inLen = s.inLen := rfl
@[simp] theorem State.clearTree_arLen (s : State) : (s.clearTree).arLen = s.arLen := rfl
@[simp] theorem State.clearTree_pkLen (s : State) : (s.clearTree).pkLen = s.pkLen := rfl
@[simp] theorem State.clearTree_outLen (s : State) : (s.clearTree).outLen = s.outLen := rfl
@[simp] theorem State.clearTree_origSize (s : State) : (s.clearTree).origSize = s.origSize := rfl
@[simp] theorem State.clearTree_contentOff (s : State) : (s.clearTree).contentOff = s.contentOff := rfl
@[simp] theorem State.clearTree_entryCnt (s : State) : (s.clearTree).entryCnt = s.entryCnt := rfl
@[simp] theorem State.clearTree_maxLen (s : State) : (s.clearTree).maxLen = s.maxLen := rfl
@[simp] theorem State.clearTree_freq (s : State) : (s.clearTree).freq = s.freq := rfl
@[simp] theorem State.clearTree_node (s : State) : (s.clearTree).node = Vector.replicate 511 Node.empty := rfl
@[simp] theorem State.clearTree_wl (s : State) : (s.clearTree).wl = [] := rfl
@[simp] theorem State.clearTree_mergeCnt (s : State) : (s.clearTree).mergeCnt = 0 := rfl
@[simp] theorem State.clearTree_rootValid (s : State) : (s.clearTree).rootValid = false := rfl
@[simp] theorem State.clearTree_root (s : State) : (s.clearTree).root = 0 := rfl
@[simp] theorem State.clearTree_code (s : State) : (s.clearTree).code = s.code := rfl
@[simp] theorem State.clearTree_bpByte (s : State) : (s.clearTree).bpByte = s.bpByte := rfl
@[simp] theorem State.clearTree_bpBit (s : State) : (s.clearTree).bpBit = s.bpBit := rfl
@[simp] theorem State.clearTree_buByte (s : State) : (s.clearTree).buByte = s.buByte := rfl
@[simp] theorem State.clearTree_buBit (s : State) : (s.clearTree).buBit = s.buBit := rfl
@[simp] theorem State.clearTree_cand (s : State) : (s.clearTree).cand = s.cand := rfl
@[simp] theorem State.clearTree_clen (s : State) : (s.clearTree).clen = s.clen := rfl
@[simp] theorem State.clearTree_emitCnt (s : State) : (s.clearTree).emitCnt = s.emitCnt := rfl
@[simp] theorem State.clearTree_ibuf (s : State) : (s.clearTree).ibuf = s.ibuf := rfl
@[simp] theorem State.clearTree_abuf (s : State) : (s.clearTree).abuf = s.abuf := rfl
@[simp] theorem State.clearTree_pbuf (s : State) : (s.clearTree).pbuf = s.pbuf := rfl
@[simp] theorem State.clearTree_obuf (s : State) : (s.clearTree).obuf = s.obuf := rfl
@[simp] theorem State.clearTree_epoch (s : State) : (s.clearTree).epoch = s.epoch := rfl
@[simp] theorem State.clearTree_pending (s : State) : (s.clearTree).pending = s.pending := rfl
@[simp] theorem State.clearTree_replies (s : State) : (s.clearTree).replies = s.replies := rfl

/-! ### clearCodes -/

@[simp] theorem State.clearCodes_caps (s : State) : (s.clearCodes).caps = s.caps := rfl
@[simp] theorem State.clearCodes_cmd (s : State) : (s.clearCodes).cmd = s.cmd := rfl
@[simp] theorem State.clearCodes_busy (s : State) : (s.clearCodes).busy = s.busy := rfl
@[simp] theorem State.clearCodes_done (s : State) : (s.clearCodes).done = s.done := rfl
@[simp] theorem State.clearCodes_fault (s : State) : (s.clearCodes).fault = s.fault := rfl
@[simp] theorem State.clearCodes_nodata (s : State) : (s.clearCodes).nodata = s.nodata := rfl
@[simp] theorem State.clearCodes_eod (s : State) : (s.clearCodes).eod = s.eod := rfl
@[simp] theorem State.clearCodes_matched (s : State) : (s.clearCodes).matched = s.matched := rfl
@[simp] theorem State.clearCodes_phase (s : State) : (s.clearCodes).phase = s.phase := rfl
@[simp] theorem State.clearCodes_faultCode (s : State) : (s.clearCodes).faultCode = s.faultCode := rfl
@[simp] theorem State.clearCodes_faultInfo (s : State) : (s.clearCodes).faultInfo = s.faultInfo := rfl
@[simp] theorem State.clearCodes_rdata (s : State) : (s.clearCodes).rdata = s.rdata := rfl
@[simp] theorem State.clearCodes_inLen (s : State) : (s.clearCodes).inLen = s.inLen := rfl
@[simp] theorem State.clearCodes_arLen (s : State) : (s.clearCodes).arLen = s.arLen := rfl
@[simp] theorem State.clearCodes_pkLen (s : State) : (s.clearCodes).pkLen = s.pkLen := rfl
@[simp] theorem State.clearCodes_outLen (s : State) : (s.clearCodes).outLen = s.outLen := rfl
@[simp] theorem State.clearCodes_origSize (s : State) : (s.clearCodes).origSize = s.origSize := rfl
@[simp] theorem State.clearCodes_contentOff (s : State) : (s.clearCodes).contentOff = s.contentOff := rfl
@[simp] theorem State.clearCodes_entryCnt (s : State) : (s.clearCodes).entryCnt = s.entryCnt := rfl
@[simp] theorem State.clearCodes_maxLen (s : State) : (s.clearCodes).maxLen = s.maxLen := rfl
@[simp] theorem State.clearCodes_freq (s : State) : (s.clearCodes).freq = s.freq := rfl
@[simp] theorem State.clearCodes_node (s : State) : (s.clearCodes).node = s.node := rfl
@[simp] theorem State.clearCodes_wl (s : State) : (s.clearCodes).wl = s.wl := rfl
@[simp] theorem State.clearCodes_mergeCnt (s : State) : (s.clearCodes).mergeCnt = s.mergeCnt := rfl
@[simp] theorem State.clearCodes_rootValid (s : State) : (s.clearCodes).rootValid = s.rootValid := rfl
@[simp] theorem State.clearCodes_root (s : State) : (s.clearCodes).root = s.root := rfl
@[simp] theorem State.clearCodes_code (s : State) : (s.clearCodes).code = Vector.replicate 256 CodeEntry.absent := rfl
@[simp] theorem State.clearCodes_bpByte (s : State) : (s.clearCodes).bpByte = s.bpByte := rfl
@[simp] theorem State.clearCodes_bpBit (s : State) : (s.clearCodes).bpBit = s.bpBit := rfl
@[simp] theorem State.clearCodes_buByte (s : State) : (s.clearCodes).buByte = s.buByte := rfl
@[simp] theorem State.clearCodes_buBit (s : State) : (s.clearCodes).buBit = s.buBit := rfl
@[simp] theorem State.clearCodes_cand (s : State) : (s.clearCodes).cand = s.cand := rfl
@[simp] theorem State.clearCodes_clen (s : State) : (s.clearCodes).clen = s.clen := rfl
@[simp] theorem State.clearCodes_emitCnt (s : State) : (s.clearCodes).emitCnt = s.emitCnt := rfl
@[simp] theorem State.clearCodes_ibuf (s : State) : (s.clearCodes).ibuf = s.ibuf := rfl
@[simp] theorem State.clearCodes_abuf (s : State) : (s.clearCodes).abuf = s.abuf := rfl
@[simp] theorem State.clearCodes_pbuf (s : State) : (s.clearCodes).pbuf = s.pbuf := rfl
@[simp] theorem State.clearCodes_obuf (s : State) : (s.clearCodes).obuf = s.obuf := rfl
@[simp] theorem State.clearCodes_epoch (s : State) : (s.clearCodes).epoch = s.epoch := rfl
@[simp] theorem State.clearCodes_pending (s : State) : (s.clearCodes).pending = s.pending := rfl
@[simp] theorem State.clearCodes_replies (s : State) : (s.clearCodes).replies = s.replies := rfl

/-! ### clearCandidate -/

@[simp] theorem State.clearCandidate_caps (s : State) : (s.clearCandidate).caps = s.caps := rfl
@[simp] theorem State.clearCandidate_cmd (s : State) : (s.clearCandidate).cmd = s.cmd := rfl
@[simp] theorem State.clearCandidate_busy (s : State) : (s.clearCandidate).busy = s.busy := rfl
@[simp] theorem State.clearCandidate_done (s : State) : (s.clearCandidate).done = s.done := rfl
@[simp] theorem State.clearCandidate_fault (s : State) : (s.clearCandidate).fault = s.fault := rfl
@[simp] theorem State.clearCandidate_nodata (s : State) : (s.clearCandidate).nodata = s.nodata := rfl
@[simp] theorem State.clearCandidate_eod (s : State) : (s.clearCandidate).eod = s.eod := rfl
@[simp] theorem State.clearCandidate_matched (s : State) : (s.clearCandidate).matched = false := rfl
@[simp] theorem State.clearCandidate_phase (s : State) : (s.clearCandidate).phase = s.phase := rfl
@[simp] theorem State.clearCandidate_faultCode (s : State) : (s.clearCandidate).faultCode = s.faultCode := rfl
@[simp] theorem State.clearCandidate_faultInfo (s : State) : (s.clearCandidate).faultInfo = s.faultInfo := rfl
@[simp] theorem State.clearCandidate_rdata (s : State) : (s.clearCandidate).rdata = s.rdata := rfl
@[simp] theorem State.clearCandidate_inLen (s : State) : (s.clearCandidate).inLen = s.inLen := rfl
@[simp] theorem State.clearCandidate_arLen (s : State) : (s.clearCandidate).arLen = s.arLen := rfl
@[simp] theorem State.clearCandidate_pkLen (s : State) : (s.clearCandidate).pkLen = s.pkLen := rfl
@[simp] theorem State.clearCandidate_outLen (s : State) : (s.clearCandidate).outLen = s.outLen := rfl
@[simp] theorem State.clearCandidate_origSize (s : State) : (s.clearCandidate).origSize = s.origSize := rfl
@[simp] theorem State.clearCandidate_contentOff (s : State) : (s.clearCandidate).contentOff = s.contentOff := rfl
@[simp] theorem State.clearCandidate_entryCnt (s : State) : (s.clearCandidate).entryCnt = s.entryCnt := rfl
@[simp] theorem State.clearCandidate_maxLen (s : State) : (s.clearCandidate).maxLen = s.maxLen := rfl
@[simp] theorem State.clearCandidate_freq (s : State) : (s.clearCandidate).freq = s.freq := rfl
@[simp] theorem State.clearCandidate_node (s : State) : (s.clearCandidate).node = s.node := rfl
@[simp] theorem State.clearCandidate_wl (s : State) : (s.clearCandidate).wl = s.wl := rfl
@[simp] theorem State.clearCandidate_mergeCnt (s : State) : (s.clearCandidate).mergeCnt = s.mergeCnt := rfl
@[simp] theorem State.clearCandidate_rootValid (s : State) : (s.clearCandidate).rootValid = s.rootValid := rfl
@[simp] theorem State.clearCandidate_root (s : State) : (s.clearCandidate).root = s.root := rfl
@[simp] theorem State.clearCandidate_code (s : State) : (s.clearCandidate).code = s.code := rfl
@[simp] theorem State.clearCandidate_bpByte (s : State) : (s.clearCandidate).bpByte = s.bpByte := rfl
@[simp] theorem State.clearCandidate_bpBit (s : State) : (s.clearCandidate).bpBit = s.bpBit := rfl
@[simp] theorem State.clearCandidate_buByte (s : State) : (s.clearCandidate).buByte = s.buByte := rfl
@[simp] theorem State.clearCandidate_buBit (s : State) : (s.clearCandidate).buBit = s.buBit := rfl
@[simp] theorem State.clearCandidate_cand (s : State) : (s.clearCandidate).cand = 0 := rfl
@[simp] theorem State.clearCandidate_clen (s : State) : (s.clearCandidate).clen = 0 := rfl
@[simp] theorem State.clearCandidate_emitCnt (s : State) : (s.clearCandidate).emitCnt = s.emitCnt := rfl
@[simp] theorem State.clearCandidate_ibuf (s : State) : (s.clearCandidate).ibuf = s.ibuf := rfl
@[simp] theorem State.clearCandidate_abuf (s : State) : (s.clearCandidate).abuf = s.abuf := rfl
@[simp] theorem State.clearCandidate_pbuf (s : State) : (s.clearCandidate).pbuf = s.pbuf := rfl
@[simp] theorem State.clearCandidate_obuf (s : State) : (s.clearCandidate).obuf = s.obuf := rfl
@[simp] theorem State.clearCandidate_epoch (s : State) : (s.clearCandidate).epoch = s.epoch := rfl
@[simp] theorem State.clearCandidate_pending (s : State) : (s.clearCandidate).pending = s.pending := rfl
@[simp] theorem State.clearCandidate_replies (s : State) : (s.clearCandidate).replies = s.replies := rfl

/-! ### startUnpacker -/

@[simp] theorem State.startUnpacker_caps (s : State) : (s.startUnpacker).caps = s.caps := rfl
@[simp] theorem State.startUnpacker_cmd (s : State) : (s.startUnpacker).cmd = s.cmd := rfl
@[simp] theorem State.startUnpacker_busy (s : State) : (s.startUnpacker).busy = s.busy := rfl
@[simp] theorem State.startUnpacker_done (s : State) : (s.startUnpacker).done = s.done := rfl
@[simp] theorem State.startUnpacker_fault (s : State) : (s.startUnpacker).fault = s.fault := rfl
@[simp] theorem State.startUnpacker_nodata (s : State) : (s.startUnpacker).nodata = s.nodata := rfl
@[simp] theorem State.startUnpacker_eod (s : State) : (s.startUnpacker).eod = false := rfl
@[simp] theorem State.startUnpacker_matched (s : State) : (s.startUnpacker).matched = s.matched := rfl
@[simp] theorem State.startUnpacker_phase (s : State) : (s.startUnpacker).phase = s.phase := rfl
@[simp] theorem State.startUnpacker_faultCode (s : State) : (s.startUnpacker).faultCode = s.faultCode := rfl
@[simp] theorem State.startUnpacker_faultInfo (s : State) : (s.startUnpacker).faultInfo = s.faultInfo := rfl
@[simp] theorem State.startUnpacker_rdata (s : State) : (s.startUnpacker).rdata = s.rdata := rfl
@[simp] theorem State.startUnpacker_inLen (s : State) : (s.startUnpacker).inLen = s.inLen := rfl
@[simp] theorem State.startUnpacker_arLen (s : State) : (s.startUnpacker).arLen = s.arLen := rfl
@[simp] theorem State.startUnpacker_pkLen (s : State) : (s.startUnpacker).pkLen = s.pkLen := rfl
@[simp] theorem State.startUnpacker_outLen (s : State) : (s.startUnpacker).outLen = s.outLen := rfl
@[simp] theorem State.startUnpacker_origSize (s : State) : (s.startUnpacker).origSize = s.origSize := rfl
@[simp] theorem State.startUnpacker_contentOff (s : State) : (s.startUnpacker).contentOff = s.contentOff := rfl
@[simp] theorem State.startUnpacker_entryCnt (s : State) : (s.startUnpacker).entryCnt = s.entryCnt := rfl
@[simp] theorem State.startUnpacker_maxLen (s : State) : (s.startUnpacker).maxLen = s.maxLen := rfl
@[simp] theorem State.startUnpacker_freq (s : State) : (s.startUnpacker).freq = s.freq := rfl
@[simp] theorem State.startUnpacker_node (s : State) : (s.startUnpacker).node = s.node := rfl
@[simp] theorem State.startUnpacker_wl (s : State) : (s.startUnpacker).wl = s.wl := rfl
@[simp] theorem State.startUnpacker_mergeCnt (s : State) : (s.startUnpacker).mergeCnt = s.mergeCnt := rfl
@[simp] theorem State.startUnpacker_rootValid (s : State) : (s.startUnpacker).rootValid = s.rootValid := rfl
@[simp] theorem State.startUnpacker_root (s : State) : (s.startUnpacker).root = s.root := rfl
@[simp] theorem State.startUnpacker_code (s : State) : (s.startUnpacker).code = s.code := rfl
@[simp] theorem State.startUnpacker_bpByte (s : State) : (s.startUnpacker).bpByte = s.bpByte := rfl
@[simp] theorem State.startUnpacker_bpBit (s : State) : (s.startUnpacker).bpBit = s.bpBit := rfl
@[simp] theorem State.startUnpacker_buByte (s : State) : (s.startUnpacker).buByte = 0 := rfl
@[simp] theorem State.startUnpacker_buBit (s : State) : (s.startUnpacker).buBit = 0 := rfl
@[simp] theorem State.startUnpacker_cand (s : State) : (s.startUnpacker).cand = s.cand := rfl
@[simp] theorem State.startUnpacker_clen (s : State) : (s.startUnpacker).clen = s.clen := rfl
@[simp] theorem State.startUnpacker_emitCnt (s : State) : (s.startUnpacker).emitCnt = s.emitCnt := rfl
@[simp] theorem State.startUnpacker_ibuf (s : State) : (s.startUnpacker).ibuf = s.ibuf := rfl
@[simp] theorem State.startUnpacker_abuf (s : State) : (s.startUnpacker).abuf = s.abuf := rfl
@[simp] theorem State.startUnpacker_pbuf (s : State) : (s.startUnpacker).pbuf = s.pbuf := rfl
@[simp] theorem State.startUnpacker_obuf (s : State) : (s.startUnpacker).obuf = s.obuf := rfl
@[simp] theorem State.startUnpacker_epoch (s : State) : (s.startUnpacker).epoch = s.epoch := rfl
@[simp] theorem State.startUnpacker_pending (s : State) : (s.startUnpacker).pending = s.pending := rfl
@[simp] theorem State.startUnpacker_replies (s : State) : (s.startUnpacker).replies = s.replies := rfl

/-! ### startDecode -/

@[simp] theorem State.startDecode_caps (s : State) : (s.startDecode).caps = s.caps := rfl
@[simp] theorem State.startDecode_cmd (s : State) : (s.startDecode).cmd = s.cmd := rfl
@[simp] theorem State.startDecode_busy (s : State) : (s.startDecode).busy = s.busy := rfl
@[simp] theorem State.startDecode_done (s : State) : (s.startDecode).done = s.done := rfl
@[simp] theorem State.startDecode_fault (s : State) : (s.startDecode).fault = s.fault := rfl
@[simp] theorem State.startDecode_nodata (s : State) : (s.startDecode).nodata = s.nodata := rfl
@[simp] theorem State.startDecode_eod (s : State) : (s.startDecode).eod = false := rfl
@[simp] theorem State.startDecode_matched (s : State) : (s.startDecode).matched = false := rfl
@[simp] theorem State.startDecode_phase (s : State) : (s.startDecode).phase = s.phase := rfl
@[simp] theorem State.startDecode_faultCode (s : State) : (s.startDecode).faultCode = s.faultCode := rfl
@[simp] theorem State.startDecode_faultInfo (s : State) : (s.startDecode).faultInfo = s.faultInfo := rfl
@[simp] theorem State.startDecode_rdata (s : State) : (s.startDecode).rdata = s.rdata := rfl
@[simp] theorem State.startDecode_inLen (s : State) : (s.startDecode).inLen = s.inLen := rfl
@[simp] theorem State.startDecode_arLen (s : State) : (s.startDecode).arLen = s.arLen := rfl
@[simp] theorem State.startDecode_pkLen (s : State) : (s.startDecode).pkLen = s.pkLen := rfl
@[simp] theorem State.startDecode_outLen (s : State) : (s.startDecode).outLen = 0 := rfl
@[simp] theorem State.startDecode_origSize (s : State) : (s.startDecode).origSize = s.origSize := rfl
@[simp] theorem State.startDecode_contentOff (s : State) : (s.startDecode).contentOff = s.contentOff := rfl
@[simp] theorem State.startDecode_entryCnt (s : State) : (s.startDecode).entryCnt = s.entryCnt := rfl
@[simp] theorem State.startDecode_maxLen (s : State) : (s.startDecode).maxLen = s.maxLen := rfl
@[simp] theorem State.startDecode_freq (s : State) : (s.startDecode).freq = s.freq := rfl
@[simp] theorem State.startDecode_node (s : State) : (s.startDecode).node = s.node := rfl
@[simp] theorem State.startDecode_wl (s : State) : (s.startDecode).wl = s.wl := rfl
@[simp] theorem State.startDecode_mergeCnt (s : State) : (s.startDecode).mergeCnt = s.mergeCnt := rfl
@[simp] theorem State.startDecode_rootValid (s : State) : (s.startDecode).rootValid = s.rootValid := rfl
@[simp] theorem State.startDecode_root (s : State) : (s.startDecode).root = s.root := rfl
@[simp] theorem State.startDecode_code (s : State) : (s.startDecode).code = s.code := rfl
@[simp] theorem State.startDecode_bpByte (s : State) : (s.startDecode).bpByte = s.bpByte := rfl
@[simp] theorem State.startDecode_bpBit (s : State) : (s.startDecode).bpBit = s.bpBit := rfl
@[simp] theorem State.startDecode_buByte (s : State) : (s.startDecode).buByte = 0 := rfl
@[simp] theorem State.startDecode_buBit (s : State) : (s.startDecode).buBit = 0 := rfl
@[simp] theorem State.startDecode_cand (s : State) : (s.startDecode).cand = 0 := rfl
@[simp] theorem State.startDecode_clen (s : State) : (s.startDecode).clen = 0 := rfl
@[simp] theorem State.startDecode_emitCnt (s : State) : (s.startDecode).emitCnt = 0 := rfl
@[simp] theorem State.startDecode_ibuf (s : State) : (s.startDecode).ibuf = s.ibuf := rfl
@[simp] theorem State.startDecode_abuf (s : State) : (s.startDecode).abuf = s.abuf := rfl
@[simp] theorem State.startDecode_pbuf (s : State) : (s.startDecode).pbuf = s.pbuf := rfl
@[simp] theorem State.startDecode_obuf (s : State) : (s.startDecode).obuf = s.obuf := rfl
@[simp] theorem State.startDecode_epoch (s : State) : (s.startDecode).epoch = s.epoch := rfl
@[simp] theorem State.startDecode_pending (s : State) : (s.startDecode).pending = s.pending := rfl
@[simp] theorem State.startDecode_replies (s : State) : (s.startDecode).replies = s.replies := rfl

/-! ### reply -/

@[simp] theorem State.reply_caps (s : State) (v : Reg64) : (s.reply v).caps = s.caps := rfl
@[simp] theorem State.reply_cmd (s : State) (v : Reg64) : (s.reply v).cmd = s.cmd := rfl
@[simp] theorem State.reply_busy (s : State) (v : Reg64) : (s.reply v).busy = s.busy := rfl
@[simp] theorem State.reply_done (s : State) (v : Reg64) : (s.reply v).done = s.done := rfl
@[simp] theorem State.reply_fault (s : State) (v : Reg64) : (s.reply v).fault = s.fault := rfl
@[simp] theorem State.reply_nodata (s : State) (v : Reg64) : (s.reply v).nodata = s.nodata := rfl
@[simp] theorem State.reply_eod (s : State) (v : Reg64) : (s.reply v).eod = s.eod := rfl
@[simp] theorem State.reply_matched (s : State) (v : Reg64) : (s.reply v).matched = s.matched := rfl
@[simp] theorem State.reply_phase (s : State) (v : Reg64) : (s.reply v).phase = s.phase := rfl
@[simp] theorem State.reply_faultCode (s : State) (v : Reg64) : (s.reply v).faultCode = s.faultCode := rfl
@[simp] theorem State.reply_faultInfo (s : State) (v : Reg64) : (s.reply v).faultInfo = s.faultInfo := rfl
@[simp] theorem State.reply_rdata (s : State) (v : Reg64) : (s.reply v).rdata = s.rdata := rfl
@[simp] theorem State.reply_inLen (s : State) (v : Reg64) : (s.reply v).inLen = s.inLen := rfl
@[simp] theorem State.reply_arLen (s : State) (v : Reg64) : (s.reply v).arLen = s.arLen := rfl
@[simp] theorem State.reply_pkLen (s : State) (v : Reg64) : (s.reply v).pkLen = s.pkLen := rfl
@[simp] theorem State.reply_outLen (s : State) (v : Reg64) : (s.reply v).outLen = s.outLen := rfl
@[simp] theorem State.reply_origSize (s : State) (v : Reg64) : (s.reply v).origSize = s.origSize := rfl
@[simp] theorem State.reply_contentOff (s : State) (v : Reg64) : (s.reply v).contentOff = s.contentOff := rfl
@[simp] theorem State.reply_entryCnt (s : State) (v : Reg64) : (s.reply v).entryCnt = s.entryCnt := rfl
@[simp] theorem State.reply_maxLen (s : State) (v : Reg64) : (s.reply v).maxLen = s.maxLen := rfl
@[simp] theorem State.reply_freq (s : State) (v : Reg64) : (s.reply v).freq = s.freq := rfl
@[simp] theorem State.reply_node (s : State) (v : Reg64) : (s.reply v).node = s.node := rfl
@[simp] theorem State.reply_wl (s : State) (v : Reg64) : (s.reply v).wl = s.wl := rfl
@[simp] theorem State.reply_mergeCnt (s : State) (v : Reg64) : (s.reply v).mergeCnt = s.mergeCnt := rfl
@[simp] theorem State.reply_rootValid (s : State) (v : Reg64) : (s.reply v).rootValid = s.rootValid := rfl
@[simp] theorem State.reply_root (s : State) (v : Reg64) : (s.reply v).root = s.root := rfl
@[simp] theorem State.reply_code (s : State) (v : Reg64) : (s.reply v).code = s.code := rfl
@[simp] theorem State.reply_bpByte (s : State) (v : Reg64) : (s.reply v).bpByte = s.bpByte := rfl
@[simp] theorem State.reply_bpBit (s : State) (v : Reg64) : (s.reply v).bpBit = s.bpBit := rfl
@[simp] theorem State.reply_buByte (s : State) (v : Reg64) : (s.reply v).buByte = s.buByte := rfl
@[simp] theorem State.reply_buBit (s : State) (v : Reg64) : (s.reply v).buBit = s.buBit := rfl
@[simp] theorem State.reply_cand (s : State) (v : Reg64) : (s.reply v).cand = s.cand := rfl
@[simp] theorem State.reply_clen (s : State) (v : Reg64) : (s.reply v).clen = s.clen := rfl
@[simp] theorem State.reply_emitCnt (s : State) (v : Reg64) : (s.reply v).emitCnt = s.emitCnt := rfl
@[simp] theorem State.reply_ibuf (s : State) (v : Reg64) : (s.reply v).ibuf = s.ibuf := rfl
@[simp] theorem State.reply_abuf (s : State) (v : Reg64) : (s.reply v).abuf = s.abuf := rfl
@[simp] theorem State.reply_pbuf (s : State) (v : Reg64) : (s.reply v).pbuf = s.pbuf := rfl
@[simp] theorem State.reply_obuf (s : State) (v : Reg64) : (s.reply v).obuf = s.obuf := rfl
@[simp] theorem State.reply_epoch (s : State) (v : Reg64) : (s.reply v).epoch = s.epoch := rfl
@[simp] theorem State.reply_pending (s : State) (v : Reg64) : (s.reply v).pending = s.pending := rfl
@[simp] theorem State.reply_replies (s : State) (v : Reg64) : (s.reply v).replies = v :: s.replies := rfl

/-! ### faultEntry -/

@[simp] theorem State.faultEntry_caps (s : State) (f : CmdFault) (info : Nat) : (s.faultEntry f info).caps = s.caps := rfl
@[simp] theorem State.faultEntry_cmd (s : State) (f : CmdFault) (info : Nat) : (s.faultEntry f info).cmd = s.cmd := rfl
@[simp] theorem State.faultEntry_busy (s : State) (f : CmdFault) (info : Nat) : (s.faultEntry f info).busy = false := rfl
@[simp] theorem State.faultEntry_done (s : State) (f : CmdFault) (info : Nat) : (s.faultEntry f info).done = false := rfl
@[simp] theorem State.faultEntry_fault (s : State) (f : CmdFault) (info : Nat) : (s.faultEntry f info).fault = true := rfl
@[simp] theorem State.faultEntry_phase (s : State) (f : CmdFault) (info : Nat) : (s.faultEntry f info).phase = .faulted := rfl
@[simp] theorem State.faultEntry_faultCode (s : State) (f : CmdFault) (info : Nat) : (s.faultEntry f info).faultCode = f.code := rfl
@[simp] theorem State.faultEntry_faultInfo (s : State) (f : CmdFault) (info : Nat) : (s.faultEntry f info).faultInfo = BitVec.ofNat 64 info := rfl
@[simp] theorem State.faultEntry_ibuf (s : State) (f : CmdFault) (info : Nat) : (s.faultEntry f info).ibuf = [] := rfl
@[simp] theorem State.faultEntry_abuf (s : State) (f : CmdFault) (info : Nat) : (s.faultEntry f info).abuf = [] := rfl
@[simp] theorem State.faultEntry_pbuf (s : State) (f : CmdFault) (info : Nat) : (s.faultEntry f info).pbuf = [] := rfl
@[simp] theorem State.faultEntry_obuf (s : State) (f : CmdFault) (info : Nat) : (s.faultEntry f info).obuf = [] := rfl
@[simp] theorem State.faultEntry_epoch (s : State) (f : CmdFault) (info : Nat) : (s.faultEntry f info).epoch = s.epoch + 1 := rfl
@[simp] theorem State.faultEntry_pending (s : State) (f : CmdFault) (info : Nat) : (s.faultEntry f info).pending = s.pending := rfl
@[simp] theorem State.faultEntry_replies (s : State) (f : CmdFault) (info : Nat) : (s.faultEntry f info).replies = s.replies := rfl

/-! ### softReset -/

@[simp] theorem State.softReset_caps (s : State) : (s.softReset).caps = s.caps := rfl
@[simp] theorem State.softReset_cmd (s : State) : (s.softReset).cmd = 0x01000000 := rfl
@[simp] theorem State.softReset_busy (s : State) : (s.softReset).busy = false := rfl
@[simp] theorem State.softReset_done (s : State) : (s.softReset).done = false := rfl
@[simp] theorem State.softReset_fault (s : State) : (s.softReset).fault = false := rfl
@[simp] theorem State.softReset_nodata (s : State) : (s.softReset).nodata = false := rfl
@[simp] theorem State.softReset_eod (s : State) : (s.softReset).eod = false := rfl
@[simp] theorem State.softReset_matched (s : State) : (s.softReset).matched = false := rfl
@[simp] theorem State.softReset_phase (s : State) : (s.softReset).phase = .idle := rfl
@[simp] theorem State.softReset_faultCode (s : State) : (s.softReset).faultCode = 0 := rfl
@[simp] theorem State.softReset_faultInfo (s : State) : (s.softReset).faultInfo = 0 := rfl
@[simp] theorem State.softReset_rdata (s : State) : (s.softReset).rdata = 0 := rfl
@[simp] theorem State.softReset_inLen (s : State) : (s.softReset).inLen = 0 := rfl
@[simp] theorem State.softReset_arLen (s : State) : (s.softReset).arLen = 0 := rfl
@[simp] theorem State.softReset_pkLen (s : State) : (s.softReset).pkLen = 0 := rfl
@[simp] theorem State.softReset_outLen (s : State) : (s.softReset).outLen = 0 := rfl
@[simp] theorem State.softReset_origSize (s : State) : (s.softReset).origSize = 0 := rfl
@[simp] theorem State.softReset_contentOff (s : State) : (s.softReset).contentOff = 0 := rfl
@[simp] theorem State.softReset_entryCnt (s : State) : (s.softReset).entryCnt = 0 := rfl
@[simp] theorem State.softReset_maxLen (s : State) : (s.softReset).maxLen = 0 := rfl
@[simp] theorem State.softReset_freq (s : State) : (s.softReset).freq = Vector.replicate 256 0 := rfl
@[simp] theorem State.softReset_node (s : State) : (s.softReset).node = Vector.replicate 511 Node.empty := rfl
@[simp] theorem State.softReset_wl (s : State) : (s.softReset).wl = [] := rfl
@[simp] theorem State.softReset_mergeCnt (s : State) : (s.softReset).mergeCnt = 0 := rfl
@[simp] theorem State.softReset_rootValid (s : State) : (s.softReset).rootValid = false := rfl
@[simp] theorem State.softReset_root (s : State) : (s.softReset).root = 0 := rfl
@[simp] theorem State.softReset_code (s : State) : (s.softReset).code = Vector.replicate 256 CodeEntry.absent := rfl
@[simp] theorem State.softReset_bpByte (s : State) : (s.softReset).bpByte = 0 := rfl
@[simp] theorem State.softReset_bpBit (s : State) : (s.softReset).bpBit = 0 := rfl
@[simp] theorem State.softReset_buByte (s : State) : (s.softReset).buByte = 0 := rfl
@[simp] theorem State.softReset_buBit (s : State) : (s.softReset).buBit = 0 := rfl
@[simp] theorem State.softReset_cand (s : State) : (s.softReset).cand = 0 := rfl
@[simp] theorem State.softReset_clen (s : State) : (s.softReset).clen = 0 := rfl
@[simp] theorem State.softReset_emitCnt (s : State) : (s.softReset).emitCnt = 0 := rfl
@[simp] theorem State.softReset_ibuf (s : State) : (s.softReset).ibuf = s.ibuf := rfl
@[simp] theorem State.softReset_abuf (s : State) : (s.softReset).abuf = s.abuf := rfl
@[simp] theorem State.softReset_pbuf (s : State) : (s.softReset).pbuf = s.pbuf := rfl
@[simp] theorem State.softReset_obuf (s : State) : (s.softReset).obuf = s.obuf := rfl
@[simp] theorem State.softReset_epoch (s : State) : (s.softReset).epoch = s.epoch := rfl
@[simp] theorem State.softReset_pending (s : State) : (s.softReset).pending = s.pending := rfl
@[simp] theorem State.softReset_replies (s : State) : (s.softReset).replies = s.replies := rfl

/-! ### hardReset -/

@[simp] theorem State.hardReset_caps (s : State) : (s.hardReset).caps = s.caps := rfl
@[simp] theorem State.hardReset_cmd (s : State) : (s.hardReset).cmd = 0 := rfl
@[simp] theorem State.hardReset_busy (s : State) : (s.hardReset).busy = false := rfl
@[simp] theorem State.hardReset_done (s : State) : (s.hardReset).done = false := rfl
@[simp] theorem State.hardReset_fault (s : State) : (s.hardReset).fault = false := rfl
@[simp] theorem State.hardReset_nodata (s : State) : (s.hardReset).nodata = false := rfl
@[simp] theorem State.hardReset_eod (s : State) : (s.hardReset).eod = false := rfl
@[simp] theorem State.hardReset_matched (s : State) : (s.hardReset).matched = false := rfl
@[simp] theorem State.hardReset_phase (s : State) : (s.hardReset).phase = .idle := rfl
@[simp] theorem State.hardReset_faultCode (s : State) : (s.hardReset).faultCode = 0 := rfl
@[simp] theorem State.hardReset_faultInfo (s : State) : (s.hardReset).faultInfo = 0 := rfl
@[simp] theorem State.hardReset_rdata (s : State) : (s.hardReset).rdata = 0 := rfl
@[simp] theorem State.hardReset_inLen (s : State) : (s.hardReset).inLen = 0 := rfl
@[simp] theorem State.hardReset_arLen (s : State) : (s.hardReset).arLen = 0 := rfl
@[simp] theorem State.hardReset_pkLen (s : State) : (s.hardReset).pkLen = 0 := rfl
@[simp] theorem State.hardReset_outLen (s : State) : (s.hardReset).outLen = 0 := rfl
@[simp] theorem State.hardReset_origSize (s : State) : (s.hardReset).origSize = 0 := rfl
@[simp] theorem State.hardReset_contentOff (s : State) : (s.hardReset).contentOff = 0 := rfl
@[simp] theorem State.hardReset_entryCnt (s : State) : (s.hardReset).entryCnt = 0 := rfl
@[simp] theorem State.hardReset_maxLen (s : State) : (s.hardReset).maxLen = 0 := rfl
@[simp] theorem State.hardReset_freq (s : State) : (s.hardReset).freq = Vector.replicate 256 0 := rfl
@[simp] theorem State.hardReset_node (s : State) : (s.hardReset).node = Vector.replicate 511 Node.empty := rfl
@[simp] theorem State.hardReset_wl (s : State) : (s.hardReset).wl = [] := rfl
@[simp] theorem State.hardReset_mergeCnt (s : State) : (s.hardReset).mergeCnt = 0 := rfl
@[simp] theorem State.hardReset_rootValid (s : State) : (s.hardReset).rootValid = false := rfl
@[simp] theorem State.hardReset_root (s : State) : (s.hardReset).root = 0 := rfl
@[simp] theorem State.hardReset_code (s : State) : (s.hardReset).code = Vector.replicate 256 CodeEntry.absent := rfl
@[simp] theorem State.hardReset_bpByte (s : State) : (s.hardReset).bpByte = 0 := rfl
@[simp] theorem State.hardReset_bpBit (s : State) : (s.hardReset).bpBit = 0 := rfl
@[simp] theorem State.hardReset_buByte (s : State) : (s.hardReset).buByte = 0 := rfl
@[simp] theorem State.hardReset_buBit (s : State) : (s.hardReset).buBit = 0 := rfl
@[simp] theorem State.hardReset_cand (s : State) : (s.hardReset).cand = 0 := rfl
@[simp] theorem State.hardReset_clen (s : State) : (s.hardReset).clen = 0 := rfl
@[simp] theorem State.hardReset_emitCnt (s : State) : (s.hardReset).emitCnt = 0 := rfl
@[simp] theorem State.hardReset_ibuf (s : State) : (s.hardReset).ibuf = [] := rfl
@[simp] theorem State.hardReset_abuf (s : State) : (s.hardReset).abuf = [] := rfl
@[simp] theorem State.hardReset_pbuf (s : State) : (s.hardReset).pbuf = [] := rfl
@[simp] theorem State.hardReset_obuf (s : State) : (s.hardReset).obuf = [] := rfl
@[simp] theorem State.hardReset_epoch (s : State) : (s.hardReset).epoch = s.epoch + 1 := rfl
@[simp] theorem State.hardReset_pending (s : State) : (s.hardReset).pending = s.pending := rfl
@[simp] theorem State.hardReset_replies (s : State) : (s.hardReset).replies = s.replies := rfl

/-! ### resetWith -/

@[simp] theorem State.resetWith_caps (c : Caps) : (State.resetWith c).caps = c := rfl
@[simp] theorem State.resetWith_cmd (c : Caps) : (State.resetWith c).cmd = 0 := rfl
@[simp] theorem State.resetWith_busy (c : Caps) : (State.resetWith c).busy = false := rfl
@[simp] theorem State.resetWith_done (c : Caps) : (State.resetWith c).done = false := rfl
@[simp] theorem State.resetWith_fault (c : Caps) : (State.resetWith c).fault = false := rfl
@[simp] theorem State.resetWith_nodata (c : Caps) : (State.resetWith c).nodata = false := rfl
@[simp] theorem State.resetWith_eod (c : Caps) : (State.resetWith c).eod = false := rfl
@[simp] theorem State.resetWith_matched (c : Caps) : (State.resetWith c).matched = false := rfl
@[simp] theorem State.resetWith_phase (c : Caps) : (State.resetWith c).phase = .idle := rfl
@[simp] theorem State.resetWith_faultCode (c : Caps) : (State.resetWith c).faultCode = 0 := rfl
@[simp] theorem State.resetWith_faultInfo (c : Caps) : (State.resetWith c).faultInfo = 0 := rfl
@[simp] theorem State.resetWith_rdata (c : Caps) : (State.resetWith c).rdata = 0 := rfl
@[simp] theorem State.resetWith_inLen (c : Caps) : (State.resetWith c).inLen = 0 := rfl
@[simp] theorem State.resetWith_arLen (c : Caps) : (State.resetWith c).arLen = 0 := rfl
@[simp] theorem State.resetWith_pkLen (c : Caps) : (State.resetWith c).pkLen = 0 := rfl
@[simp] theorem State.resetWith_outLen (c : Caps) : (State.resetWith c).outLen = 0 := rfl
@[simp] theorem State.resetWith_origSize (c : Caps) : (State.resetWith c).origSize = 0 := rfl
@[simp] theorem State.resetWith_contentOff (c : Caps) : (State.resetWith c).contentOff = 0 := rfl
@[simp] theorem State.resetWith_entryCnt (c : Caps) : (State.resetWith c).entryCnt = 0 := rfl
@[simp] theorem State.resetWith_maxLen (c : Caps) : (State.resetWith c).maxLen = 0 := rfl
@[simp] theorem State.resetWith_freq (c : Caps) : (State.resetWith c).freq = Vector.replicate 256 0 := rfl
@[simp] theorem State.resetWith_node (c : Caps) : (State.resetWith c).node = Vector.replicate 511 Node.empty := rfl
@[simp] theorem State.resetWith_wl (c : Caps) : (State.resetWith c).wl = [] := rfl
@[simp] theorem State.resetWith_mergeCnt (c : Caps) : (State.resetWith c).mergeCnt = 0 := rfl
@[simp] theorem State.resetWith_rootValid (c : Caps) : (State.resetWith c).rootValid = false := rfl
@[simp] theorem State.resetWith_root (c : Caps) : (State.resetWith c).root = 0 := rfl
@[simp] theorem State.resetWith_code (c : Caps) : (State.resetWith c).code = Vector.replicate 256 CodeEntry.absent := rfl
@[simp] theorem State.resetWith_bpByte (c : Caps) : (State.resetWith c).bpByte = 0 := rfl
@[simp] theorem State.resetWith_bpBit (c : Caps) : (State.resetWith c).bpBit = 0 := rfl
@[simp] theorem State.resetWith_buByte (c : Caps) : (State.resetWith c).buByte = 0 := rfl
@[simp] theorem State.resetWith_buBit (c : Caps) : (State.resetWith c).buBit = 0 := rfl
@[simp] theorem State.resetWith_cand (c : Caps) : (State.resetWith c).cand = 0 := rfl
@[simp] theorem State.resetWith_clen (c : Caps) : (State.resetWith c).clen = 0 := rfl
@[simp] theorem State.resetWith_emitCnt (c : Caps) : (State.resetWith c).emitCnt = 0 := rfl
@[simp] theorem State.resetWith_ibuf (c : Caps) : (State.resetWith c).ibuf = [] := rfl
@[simp] theorem State.resetWith_abuf (c : Caps) : (State.resetWith c).abuf = [] := rfl
@[simp] theorem State.resetWith_pbuf (c : Caps) : (State.resetWith c).pbuf = [] := rfl
@[simp] theorem State.resetWith_obuf (c : Caps) : (State.resetWith c).obuf = [] := rfl
@[simp] theorem State.resetWith_epoch (c : Caps) : (State.resetWith c).epoch = 0 := rfl
@[simp] theorem State.resetWith_pending (c : Caps) : (State.resetWith c).pending = [] := rfl
@[simp] theorem State.resetWith_replies (c : Caps) : (State.resetWith c).replies = [] := rfl

/-! ### setBuf -/

@[simp] theorem State.setBuf_caps (s : State) (sp : Space) (m : Memory) : (s.setBuf sp m).caps = s.caps := by
  cases sp <;> rfl
@[simp] theorem State.setBuf_cmd (s : State) (sp : Space) (m : Memory) : (s.setBuf sp m).cmd = s.cmd := by
  cases sp <;> rfl
@[simp] theorem State.setBuf_busy (s : State) (sp : Space) (m : Memory) : (s.setBuf sp m).busy = s.busy := by
  cases sp <;> rfl
@[simp] theorem State.setBuf_done (s : State) (sp : Space) (m : Memory) : (s.setBuf sp m).done = s.done := by
  cases sp <;> rfl
@[simp] theorem State.setBuf_fault (s : State) (sp : Space) (m : Memory) : (s.setBuf sp m).fault = s.fault := by
  cases sp <;> rfl
@[simp] theorem State.setBuf_nodata (s : State) (sp : Space) (m : Memory) : (s.setBuf sp m).nodata = s.nodata := by
  cases sp <;> rfl
@[simp] theorem State.setBuf_eod (s : State) (sp : Space) (m : Memory) : (s.setBuf sp m).eod = s.eod := by
  cases sp <;> rfl
@[simp] theorem State.setBuf_matched (s : State) (sp : Space) (m : Memory) : (s.setBuf sp m).matched = s.matched := by
  cases sp <;> rfl
@[simp] theorem State.setBuf_phase (s : State) (sp : Space) (m : Memory) : (s.setBuf sp m).phase = s.phase := by
  cases sp <;> rfl
@[simp] theorem State.setBuf_faultCode (s : State) (sp : Space) (m : Memory) : (s.setBuf sp m).faultCode = s.faultCode := by
  cases sp <;> rfl
@[simp] theorem State.setBuf_faultInfo (s : State) (sp : Space) (m : Memory) : (s.setBuf sp m).faultInfo = s.faultInfo := by
  cases sp <;> rfl
@[simp] theorem State.setBuf_rdata (s : State) (sp : Space) (m : Memory) : (s.setBuf sp m).rdata = s.rdata := by
  cases sp <;> rfl
@[simp] theorem State.setBuf_inLen (s : State) (sp : Space) (m : Memory) : (s.setBuf sp m).inLen = s.inLen := by
  cases sp <;> rfl
@[simp] theorem State.setBuf_arLen (s : State) (sp : Space) (m : Memory) : (s.setBuf sp m).arLen = s.arLen := by
  cases sp <;> rfl
@[simp] theorem State.setBuf_pkLen (s : State) (sp : Space) (m : Memory) : (s.setBuf sp m).pkLen = s.pkLen := by
  cases sp <;> rfl
@[simp] theorem State.setBuf_outLen (s : State) (sp : Space) (m : Memory) : (s.setBuf sp m).outLen = s.outLen := by
  cases sp <;> rfl
@[simp] theorem State.setBuf_origSize (s : State) (sp : Space) (m : Memory) : (s.setBuf sp m).origSize = s.origSize := by
  cases sp <;> rfl
@[simp] theorem State.setBuf_contentOff (s : State) (sp : Space) (m : Memory) : (s.setBuf sp m).contentOff = s.contentOff := by
  cases sp <;> rfl
@[simp] theorem State.setBuf_entryCnt (s : State) (sp : Space) (m : Memory) : (s.setBuf sp m).entryCnt = s.entryCnt := by
  cases sp <;> rfl
@[simp] theorem State.setBuf_maxLen (s : State) (sp : Space) (m : Memory) : (s.setBuf sp m).maxLen = s.maxLen := by
  cases sp <;> rfl
@[simp] theorem State.setBuf_freq (s : State) (sp : Space) (m : Memory) : (s.setBuf sp m).freq = s.freq := by
  cases sp <;> rfl
@[simp] theorem State.setBuf_node (s : State) (sp : Space) (m : Memory) : (s.setBuf sp m).node = s.node := by
  cases sp <;> rfl
@[simp] theorem State.setBuf_wl (s : State) (sp : Space) (m : Memory) : (s.setBuf sp m).wl = s.wl := by
  cases sp <;> rfl
@[simp] theorem State.setBuf_mergeCnt (s : State) (sp : Space) (m : Memory) : (s.setBuf sp m).mergeCnt = s.mergeCnt := by
  cases sp <;> rfl
@[simp] theorem State.setBuf_rootValid (s : State) (sp : Space) (m : Memory) : (s.setBuf sp m).rootValid = s.rootValid := by
  cases sp <;> rfl
@[simp] theorem State.setBuf_root (s : State) (sp : Space) (m : Memory) : (s.setBuf sp m).root = s.root := by
  cases sp <;> rfl
@[simp] theorem State.setBuf_code (s : State) (sp : Space) (m : Memory) : (s.setBuf sp m).code = s.code := by
  cases sp <;> rfl
@[simp] theorem State.setBuf_bpByte (s : State) (sp : Space) (m : Memory) : (s.setBuf sp m).bpByte = s.bpByte := by
  cases sp <;> rfl
@[simp] theorem State.setBuf_bpBit (s : State) (sp : Space) (m : Memory) : (s.setBuf sp m).bpBit = s.bpBit := by
  cases sp <;> rfl
@[simp] theorem State.setBuf_buByte (s : State) (sp : Space) (m : Memory) : (s.setBuf sp m).buByte = s.buByte := by
  cases sp <;> rfl
@[simp] theorem State.setBuf_buBit (s : State) (sp : Space) (m : Memory) : (s.setBuf sp m).buBit = s.buBit := by
  cases sp <;> rfl
@[simp] theorem State.setBuf_cand (s : State) (sp : Space) (m : Memory) : (s.setBuf sp m).cand = s.cand := by
  cases sp <;> rfl
@[simp] theorem State.setBuf_clen (s : State) (sp : Space) (m : Memory) : (s.setBuf sp m).clen = s.clen := by
  cases sp <;> rfl
@[simp] theorem State.setBuf_emitCnt (s : State) (sp : Space) (m : Memory) : (s.setBuf sp m).emitCnt = s.emitCnt := by
  cases sp <;> rfl
@[simp] theorem State.setBuf_epoch (s : State) (sp : Space) (m : Memory) : (s.setBuf sp m).epoch = s.epoch := by
  cases sp <;> rfl
@[simp] theorem State.setBuf_pending (s : State) (sp : Space) (m : Memory) : (s.setBuf sp m).pending = s.pending := by
  cases sp <;> rfl
@[simp] theorem State.setBuf_replies (s : State) (sp : Space) (m : Memory) : (s.setBuf sp m).replies = s.replies := by
  cases sp <;> rfl

/-! ### writeByte -/

@[simp] theorem State.writeByte_caps (s : State) (sp : Space) (a : Nat) (v : Byte) : (s.writeByte sp a v).caps = s.caps := by
  cases sp <;> rfl
@[simp] theorem State.writeByte_cmd (s : State) (sp : Space) (a : Nat) (v : Byte) : (s.writeByte sp a v).cmd = s.cmd := by
  cases sp <;> rfl
@[simp] theorem State.writeByte_busy (s : State) (sp : Space) (a : Nat) (v : Byte) : (s.writeByte sp a v).busy = s.busy := by
  cases sp <;> rfl
@[simp] theorem State.writeByte_done (s : State) (sp : Space) (a : Nat) (v : Byte) : (s.writeByte sp a v).done = s.done := by
  cases sp <;> rfl
@[simp] theorem State.writeByte_fault (s : State) (sp : Space) (a : Nat) (v : Byte) : (s.writeByte sp a v).fault = s.fault := by
  cases sp <;> rfl
@[simp] theorem State.writeByte_nodata (s : State) (sp : Space) (a : Nat) (v : Byte) : (s.writeByte sp a v).nodata = s.nodata := by
  cases sp <;> rfl
@[simp] theorem State.writeByte_eod (s : State) (sp : Space) (a : Nat) (v : Byte) : (s.writeByte sp a v).eod = s.eod := by
  cases sp <;> rfl
@[simp] theorem State.writeByte_matched (s : State) (sp : Space) (a : Nat) (v : Byte) : (s.writeByte sp a v).matched = s.matched := by
  cases sp <;> rfl
@[simp] theorem State.writeByte_phase (s : State) (sp : Space) (a : Nat) (v : Byte) : (s.writeByte sp a v).phase = s.phase := by
  cases sp <;> rfl
@[simp] theorem State.writeByte_faultCode (s : State) (sp : Space) (a : Nat) (v : Byte) : (s.writeByte sp a v).faultCode = s.faultCode := by
  cases sp <;> rfl
@[simp] theorem State.writeByte_faultInfo (s : State) (sp : Space) (a : Nat) (v : Byte) : (s.writeByte sp a v).faultInfo = s.faultInfo := by
  cases sp <;> rfl
@[simp] theorem State.writeByte_rdata (s : State) (sp : Space) (a : Nat) (v : Byte) : (s.writeByte sp a v).rdata = s.rdata := by
  cases sp <;> rfl
@[simp] theorem State.writeByte_inLen (s : State) (sp : Space) (a : Nat) (v : Byte) : (s.writeByte sp a v).inLen = s.inLen := by
  cases sp <;> rfl
@[simp] theorem State.writeByte_arLen (s : State) (sp : Space) (a : Nat) (v : Byte) : (s.writeByte sp a v).arLen = s.arLen := by
  cases sp <;> rfl
@[simp] theorem State.writeByte_pkLen (s : State) (sp : Space) (a : Nat) (v : Byte) : (s.writeByte sp a v).pkLen = s.pkLen := by
  cases sp <;> rfl
@[simp] theorem State.writeByte_outLen (s : State) (sp : Space) (a : Nat) (v : Byte) : (s.writeByte sp a v).outLen = s.outLen := by
  cases sp <;> rfl
@[simp] theorem State.writeByte_origSize (s : State) (sp : Space) (a : Nat) (v : Byte) : (s.writeByte sp a v).origSize = s.origSize := by
  cases sp <;> rfl
@[simp] theorem State.writeByte_contentOff (s : State) (sp : Space) (a : Nat) (v : Byte) : (s.writeByte sp a v).contentOff = s.contentOff := by
  cases sp <;> rfl
@[simp] theorem State.writeByte_entryCnt (s : State) (sp : Space) (a : Nat) (v : Byte) : (s.writeByte sp a v).entryCnt = s.entryCnt := by
  cases sp <;> rfl
@[simp] theorem State.writeByte_maxLen (s : State) (sp : Space) (a : Nat) (v : Byte) : (s.writeByte sp a v).maxLen = s.maxLen := by
  cases sp <;> rfl
@[simp] theorem State.writeByte_freq (s : State) (sp : Space) (a : Nat) (v : Byte) : (s.writeByte sp a v).freq = s.freq := by
  cases sp <;> rfl
@[simp] theorem State.writeByte_node (s : State) (sp : Space) (a : Nat) (v : Byte) : (s.writeByte sp a v).node = s.node := by
  cases sp <;> rfl
@[simp] theorem State.writeByte_wl (s : State) (sp : Space) (a : Nat) (v : Byte) : (s.writeByte sp a v).wl = s.wl := by
  cases sp <;> rfl
@[simp] theorem State.writeByte_mergeCnt (s : State) (sp : Space) (a : Nat) (v : Byte) : (s.writeByte sp a v).mergeCnt = s.mergeCnt := by
  cases sp <;> rfl
@[simp] theorem State.writeByte_rootValid (s : State) (sp : Space) (a : Nat) (v : Byte) : (s.writeByte sp a v).rootValid = s.rootValid := by
  cases sp <;> rfl
@[simp] theorem State.writeByte_root (s : State) (sp : Space) (a : Nat) (v : Byte) : (s.writeByte sp a v).root = s.root := by
  cases sp <;> rfl
@[simp] theorem State.writeByte_code (s : State) (sp : Space) (a : Nat) (v : Byte) : (s.writeByte sp a v).code = s.code := by
  cases sp <;> rfl
@[simp] theorem State.writeByte_bpByte (s : State) (sp : Space) (a : Nat) (v : Byte) : (s.writeByte sp a v).bpByte = s.bpByte := by
  cases sp <;> rfl
@[simp] theorem State.writeByte_bpBit (s : State) (sp : Space) (a : Nat) (v : Byte) : (s.writeByte sp a v).bpBit = s.bpBit := by
  cases sp <;> rfl
@[simp] theorem State.writeByte_buByte (s : State) (sp : Space) (a : Nat) (v : Byte) : (s.writeByte sp a v).buByte = s.buByte := by
  cases sp <;> rfl
@[simp] theorem State.writeByte_buBit (s : State) (sp : Space) (a : Nat) (v : Byte) : (s.writeByte sp a v).buBit = s.buBit := by
  cases sp <;> rfl
@[simp] theorem State.writeByte_cand (s : State) (sp : Space) (a : Nat) (v : Byte) : (s.writeByte sp a v).cand = s.cand := by
  cases sp <;> rfl
@[simp] theorem State.writeByte_clen (s : State) (sp : Space) (a : Nat) (v : Byte) : (s.writeByte sp a v).clen = s.clen := by
  cases sp <;> rfl
@[simp] theorem State.writeByte_emitCnt (s : State) (sp : Space) (a : Nat) (v : Byte) : (s.writeByte sp a v).emitCnt = s.emitCnt := by
  cases sp <;> rfl
@[simp] theorem State.writeByte_epoch (s : State) (sp : Space) (a : Nat) (v : Byte) : (s.writeByte sp a v).epoch = s.epoch := by
  cases sp <;> rfl
@[simp] theorem State.writeByte_pending (s : State) (sp : Space) (a : Nat) (v : Byte) : (s.writeByte sp a v).pending = s.pending := by
  cases sp <;> rfl
@[simp] theorem State.writeByte_replies (s : State) (sp : Space) (a : Nat) (v : Byte) : (s.writeByte sp a v).replies = s.replies := by
  cases sp <;> rfl

/-! ### writeBytes -/

@[simp] theorem State.writeBytes_caps (s : State) (sp : Space) (a : Nat) (vs : List Byte) :
    (s.writeBytes sp a vs).caps = s.caps := by
  induction vs generalizing s a <;> simp_all [State.writeBytes]
@[simp] theorem State.writeBytes_cmd (s : State) (sp : Space) (a : Nat) (vs : List Byte) :
    (s.writeBytes sp a vs).cmd = s.cmd := by
  induction vs generalizing s a <;> simp_all [State.writeBytes]
@[simp] theorem State.writeBytes_busy (s : State) (sp : Space) (a : Nat) (vs : List Byte) :
    (s.writeBytes sp a vs).busy = s.busy := by
  induction vs generalizing s a <;> simp_all [State.writeBytes]
@[simp] theorem State.writeBytes_done (s : State) (sp : Space) (a : Nat) (vs : List Byte) :
    (s.writeBytes sp a vs).done = s.done := by
  induction vs generalizing s a <;> simp_all [State.writeBytes]
@[simp] theorem State.writeBytes_fault (s : State) (sp : Space) (a : Nat) (vs : List Byte) :
    (s.writeBytes sp a vs).fault = s.fault := by
  induction vs generalizing s a <;> simp_all [State.writeBytes]
@[simp] theorem State.writeBytes_nodata (s : State) (sp : Space) (a : Nat) (vs : List Byte) :
    (s.writeBytes sp a vs).nodata = s.nodata := by
  induction vs generalizing s a <;> simp_all [State.writeBytes]
@[simp] theorem State.writeBytes_eod (s : State) (sp : Space) (a : Nat) (vs : List Byte) :
    (s.writeBytes sp a vs).eod = s.eod := by
  induction vs generalizing s a <;> simp_all [State.writeBytes]
@[simp] theorem State.writeBytes_matched (s : State) (sp : Space) (a : Nat) (vs : List Byte) :
    (s.writeBytes sp a vs).matched = s.matched := by
  induction vs generalizing s a <;> simp_all [State.writeBytes]
@[simp] theorem State.writeBytes_phase (s : State) (sp : Space) (a : Nat) (vs : List Byte) :
    (s.writeBytes sp a vs).phase = s.phase := by
  induction vs generalizing s a <;> simp_all [State.writeBytes]
@[simp] theorem State.writeBytes_faultCode (s : State) (sp : Space) (a : Nat) (vs : List Byte) :
    (s.writeBytes sp a vs).faultCode = s.faultCode := by
  induction vs generalizing s a <;> simp_all [State.writeBytes]
@[simp] theorem State.writeBytes_faultInfo (s : State) (sp : Space) (a : Nat) (vs : List Byte) :
    (s.writeBytes sp a vs).faultInfo = s.faultInfo := by
  induction vs generalizing s a <;> simp_all [State.writeBytes]
@[simp] theorem State.writeBytes_rdata (s : State) (sp : Space) (a : Nat) (vs : List Byte) :
    (s.writeBytes sp a vs).rdata = s.rdata := by
  induction vs generalizing s a <;> simp_all [State.writeBytes]
@[simp] theorem State.writeBytes_inLen (s : State) (sp : Space) (a : Nat) (vs : List Byte) :
    (s.writeBytes sp a vs).inLen = s.inLen := by
  induction vs generalizing s a <;> simp_all [State.writeBytes]
@[simp] theorem State.writeBytes_arLen (s : State) (sp : Space) (a : Nat) (vs : List Byte) :
    (s.writeBytes sp a vs).arLen = s.arLen := by
  induction vs generalizing s a <;> simp_all [State.writeBytes]
@[simp] theorem State.writeBytes_pkLen (s : State) (sp : Space) (a : Nat) (vs : List Byte) :
    (s.writeBytes sp a vs).pkLen = s.pkLen := by
  induction vs generalizing s a <;> simp_all [State.writeBytes]
@[simp] theorem State.writeBytes_outLen (s : State) (sp : Space) (a : Nat) (vs : List Byte) :
    (s.writeBytes sp a vs).outLen = s.outLen := by
  induction vs generalizing s a <;> simp_all [State.writeBytes]
@[simp] theorem State.writeBytes_origSize (s : State) (sp : Space) (a : Nat) (vs : List Byte) :
    (s.writeBytes sp a vs).origSize = s.origSize := by
  induction vs generalizing s a <;> simp_all [State.writeBytes]
@[simp] theorem State.writeBytes_contentOff (s : State) (sp : Space) (a : Nat) (vs : List Byte) :
    (s.writeBytes sp a vs).contentOff = s.contentOff := by
  induction vs generalizing s a <;> simp_all [State.writeBytes]
@[simp] theorem State.writeBytes_entryCnt (s : State) (sp : Space) (a : Nat) (vs : List Byte) :
    (s.writeBytes sp a vs).entryCnt = s.entryCnt := by
  induction vs generalizing s a <;> simp_all [State.writeBytes]
@[simp] theorem State.writeBytes_maxLen (s : State) (sp : Space) (a : Nat) (vs : List Byte) :
    (s.writeBytes sp a vs).maxLen = s.maxLen := by
  induction vs generalizing s a <;> simp_all [State.writeBytes]
@[simp] theorem State.writeBytes_freq (s : State) (sp : Space) (a : Nat) (vs : List Byte) :
    (s.writeBytes sp a vs).freq = s.freq := by
  induction vs generalizing s a <;> simp_all [State.writeBytes]
@[simp] theorem State.writeBytes_node (s : State) (sp : Space) (a : Nat) (vs : List Byte) :
    (s.writeBytes sp a vs).node = s.node := by
  induction vs generalizing s a <;> simp_all [State.writeBytes]
@[simp] theorem State.writeBytes_wl (s : State) (sp : Space) (a : Nat) (vs : List Byte) :
    (s.writeBytes sp a vs).wl = s.wl := by
  induction vs generalizing s a <;> simp_all [State.writeBytes]
@[simp] theorem State.writeBytes_mergeCnt (s : State) (sp : Space) (a : Nat) (vs : List Byte) :
    (s.writeBytes sp a vs).mergeCnt = s.mergeCnt := by
  induction vs generalizing s a <;> simp_all [State.writeBytes]
@[simp] theorem State.writeBytes_rootValid (s : State) (sp : Space) (a : Nat) (vs : List Byte) :
    (s.writeBytes sp a vs).rootValid = s.rootValid := by
  induction vs generalizing s a <;> simp_all [State.writeBytes]
@[simp] theorem State.writeBytes_root (s : State) (sp : Space) (a : Nat) (vs : List Byte) :
    (s.writeBytes sp a vs).root = s.root := by
  induction vs generalizing s a <;> simp_all [State.writeBytes]
@[simp] theorem State.writeBytes_code (s : State) (sp : Space) (a : Nat) (vs : List Byte) :
    (s.writeBytes sp a vs).code = s.code := by
  induction vs generalizing s a <;> simp_all [State.writeBytes]
@[simp] theorem State.writeBytes_bpByte (s : State) (sp : Space) (a : Nat) (vs : List Byte) :
    (s.writeBytes sp a vs).bpByte = s.bpByte := by
  induction vs generalizing s a <;> simp_all [State.writeBytes]
@[simp] theorem State.writeBytes_bpBit (s : State) (sp : Space) (a : Nat) (vs : List Byte) :
    (s.writeBytes sp a vs).bpBit = s.bpBit := by
  induction vs generalizing s a <;> simp_all [State.writeBytes]
@[simp] theorem State.writeBytes_buByte (s : State) (sp : Space) (a : Nat) (vs : List Byte) :
    (s.writeBytes sp a vs).buByte = s.buByte := by
  induction vs generalizing s a <;> simp_all [State.writeBytes]
@[simp] theorem State.writeBytes_buBit (s : State) (sp : Space) (a : Nat) (vs : List Byte) :
    (s.writeBytes sp a vs).buBit = s.buBit := by
  induction vs generalizing s a <;> simp_all [State.writeBytes]
@[simp] theorem State.writeBytes_cand (s : State) (sp : Space) (a : Nat) (vs : List Byte) :
    (s.writeBytes sp a vs).cand = s.cand := by
  induction vs generalizing s a <;> simp_all [State.writeBytes]
@[simp] theorem State.writeBytes_clen (s : State) (sp : Space) (a : Nat) (vs : List Byte) :
    (s.writeBytes sp a vs).clen = s.clen := by
  induction vs generalizing s a <;> simp_all [State.writeBytes]
@[simp] theorem State.writeBytes_emitCnt (s : State) (sp : Space) (a : Nat) (vs : List Byte) :
    (s.writeBytes sp a vs).emitCnt = s.emitCnt := by
  induction vs generalizing s a <;> simp_all [State.writeBytes]
@[simp] theorem State.writeBytes_epoch (s : State) (sp : Space) (a : Nat) (vs : List Byte) :
    (s.writeBytes sp a vs).epoch = s.epoch := by
  induction vs generalizing s a <;> simp_all [State.writeBytes]
@[simp] theorem State.writeBytes_pending (s : State) (sp : Space) (a : Nat) (vs : List Byte) :
    (s.writeBytes sp a vs).pending = s.pending := by
  induction vs generalizing s a <;> simp_all [State.writeBytes]
@[simp] theorem State.writeBytes_replies (s : State) (sp : Space) (a : Nat) (vs : List Byte) :
    (s.writeBytes sp a vs).replies = s.replies := by
  induction vs generalizing s a <;> simp_all [State.writeBytes]

end Sys2Proof.Machine
end

