-- ==== Sys2Proof/Laws/Memory.lean ====
section
/-! SUPPORT. The laws of the buffers: what a read gives after a write, and that every memory operation keeps the
canonical form. -/

namespace Sys2Proof.Machine

/-! ## One buffer -/

theorem Memory.peek_poke_same (m : Memory) (a : Nat) (v : Byte) : (m.poke a v).peek a = some v := by
  induction m with
  | nil => simp [Memory.poke, Memory.peek]
  | cons c m ih =>
    obtain ⟨k, x⟩ := c
    unfold Memory.poke
    split
    · simp [Memory.peek]
    · split
      · simp [Memory.peek]
      · rename_i h1 h2
        simp [Memory.peek, Ne.symm h2, ih]

theorem Memory.peek_poke_other (m : Memory) {a b : Nat} (v : Byte) (h : b ≠ a) : (m.poke a v).peek b = m.peek b := by
  induction m with
  | nil => simp [Memory.poke, Memory.peek, Ne.symm h]
  | cons c m ih =>
    obtain ⟨k, x⟩ := c
    unfold Memory.poke
    split
    · simp [Memory.peek, Ne.symm h]
    · split
      · rename_i h1 h2
        subst h2
        simp [Memory.peek, Ne.symm h]
      · simp [Memory.peek, ih]

/-- The canonical form, as a fact about the whole list of indexes. -/
theorem Memory.wf_iff (m : Memory) : m.wf = true ↔ (m.map Prod.fst).Pairwise (· < ·) := by
  induction m with
  | nil => simp [Memory.wf]
  | cons c m ih =>
    obtain ⟨k, x⟩ := c
    cases m with
    | nil => simp [Memory.wf]
    | cons d m =>
      obtain ⟨l, y⟩ := d
      simp only [Memory.wf, Bool.and_eq_true, decide_eq_true_eq, ih]
      simp only [List.map_cons, List.pairwise_cons, List.mem_cons, forall_eq_or_imp]
      constructor
      · rintro ⟨h, h1, h2⟩
        exact ⟨⟨h, fun z hz => lt_trans h (h1 z hz)⟩, h1, h2⟩
      · rintro ⟨⟨h, -⟩, h1, h2⟩
        exact ⟨h, h1, h2⟩

/-- The indexes a write lists. -/
theorem Memory.mem_poke {m : Memory} {a : Nat} {v : Byte} {c : Host.Cell} (h : c ∈ m.poke a v) :
    c = (a, v) ∨ c ∈ m := by
  induction m with
  | nil => simpa [Memory.poke] using h
  | cons d m ih =>
    obtain ⟨k, x⟩ := d
    unfold Memory.poke at h
    split at h
    · simpa using h
    · split at h
      · rcases List.mem_cons.1 h with h | h
        · exact .inl h
        · exact .inr (List.mem_cons_of_mem _ h)
      · rcases List.mem_cons.1 h with h | h
        · exact .inr (h ▸ List.mem_cons_self)
        · exact (ih h).imp id (List.mem_cons_of_mem _)

/-- Every write keeps the canonical form. -/
theorem Memory.wf_poke {m : Memory} (a : Nat) (v : Byte) (h : m.wf = true) : (m.poke a v).wf = true := by
  rw [Memory.wf_iff] at h ⊢
  induction m with
  | nil => simp [Memory.poke]
  | cons d m ih =>
    obtain ⟨k, x⟩ := d
    simp only [List.map_cons, List.pairwise_cons] at h
    unfold Memory.poke
    split
    · rename_i hk
      simp only [List.map_cons, List.pairwise_cons, List.mem_cons, forall_eq_or_imp]
      exact ⟨⟨hk, fun z hz => lt_trans hk (h.1 z hz)⟩, h⟩
    · split
      · rename_i h1 h2
        subst h2
        simpa using h
      · rename_i h1 h2
        simp only [List.map_cons, List.pairwise_cons]
        refine ⟨fun z hz => ?_, ih h.2⟩
        obtain ⟨c, hc, rfl⟩ := List.mem_map.1 hz
        rcases Memory.mem_poke hc with rfl | hc
        · change k < a
          omega
        · exact h.1 _ (List.mem_map_of_mem hc)

/-! ## The four spaces -/

@[simp] theorem State.buf_setBuf_same (s : State) (sp : Space) (m : Memory) : (s.setBuf sp m).buf sp = m := by
  cases sp <;> rfl

theorem State.buf_setBuf_other (s : State) {sp sq : Space} (m : Memory) (h : sq ≠ sp) :
    (s.setBuf sp m).buf sq = s.buf sq := by
  cases sp <;> cases sq <;> first | rfl | exact absurd rfl h

@[simp] theorem State.buf_writeByte_same (s : State) (sp : Space) (a : Nat) (v : Byte) :
    (s.writeByte sp a v).buf sp = (s.buf sp).poke a v := by
  simp [State.writeByte]

theorem State.buf_writeByte_other (s : State) {sp sq : Space} (a : Nat) (v : Byte) (h : sq ≠ sp) :
    (s.writeByte sp a v).buf sq = s.buf sq :=
  State.buf_setBuf_other s _ h

theorem State.readByte_congr {s t : State} {sp : Space} (hb : t.buf sp = s.buf sp) (he : t.epoch = s.epoch) (a : Nat) :
    t.readByte sp a = s.readByte sp a := by
  simp [State.readByte, hb, he]

@[simp] theorem State.readByte_writeByte_same (s : State) (sp : Space) (a : Nat) (v : Byte) :
    (s.writeByte sp a v).readByte sp a = v := by
  simp [State.readByte, Memory.peek_poke_same]

theorem State.readByte_writeByte_other (s : State) (sp : Space) {a b : Nat} (v : Byte) (h : b ≠ a) :
    (s.writeByte sp a v).readByte sp b = s.readByte sp b := by
  simp [State.readByte, Memory.peek_poke_other _ _ h]

theorem State.readByte_writeByte_space (s : State) {sp sq : Space} (a b : Nat) (v : Byte) (h : sq ≠ sp) :
    (s.writeByte sp a v).readByte sq b = s.readByte sq b :=
  State.readByte_congr (State.buf_writeByte_other s a v h) (by simp) b

/-- One lemma for a byte read after a byte write. -/
theorem State.readByte_writeByte (s : State) (sp sq : Space) (a b : Nat) (v : Byte) :
    (s.writeByte sp a v).readByte sq b = if sq = sp ∧ b = a then v else s.readByte sq b := by
  split
  · rename_i h
    obtain ⟨rfl, rfl⟩ := h
    simp
  · rename_i h
    by_cases hs : sq = sp
    · subst hs
      exact State.readByte_writeByte_other s sq v fun hb => h ⟨rfl, hb⟩
    · exact State.readByte_writeByte_space s a b v hs

@[simp] theorem State.length_readBytes (s : State) (sp : Space) (a n : Nat) : (s.readBytes sp a n).length = n := by
  simp [State.readBytes]

@[simp] theorem State.getElem_readBytes (s : State) (sp : Space) (a n k : Nat) (h : k < (s.readBytes sp a n).length) :
    (s.readBytes sp a n)[k] = s.readByte sp (a + k) := by
  simp [State.readBytes]

theorem State.writeBytes_append (s : State) (sp : Space) (a : Nat) (us vs : List Byte) :
    s.writeBytes sp a (us ++ vs) = (s.writeBytes sp a us).writeBytes sp (a + us.length) vs := by
  induction us generalizing s a with
  | nil => simp [State.writeBytes]
  | cons u us ih => simp [State.writeBytes, ih, Nat.add_assoc, Nat.add_comm 1]

theorem State.buf_writeBytes_other (s : State) {sp sq : Space} (a : Nat) (vs : List Byte) (h : sq ≠ sp) :
    (s.writeBytes sp a vs).buf sq = s.buf sq := by
  induction vs generalizing s a with
  | nil => rfl
  | cons v vs ih => rw [State.writeBytes, ih, State.buf_writeByte_other s a v h]

theorem State.readByte_writeBytes_space (s : State) {sp sq : Space} (a b : Nat) (vs : List Byte) (h : sq ≠ sp) :
    (s.writeBytes sp a vs).readByte sq b = s.readByte sq b :=
  State.readByte_congr (State.buf_writeBytes_other s a vs h) (by simp) b

/-- A byte outside the written range reads as before. -/
theorem State.readByte_writeBytes_outside (s : State) (sp : Space) {a b : Nat} (vs : List Byte)
    (h : b < a ∨ a + vs.length ≤ b) : (s.writeBytes sp a vs).readByte sp b = s.readByte sp b := by
  induction vs generalizing s a with
  | nil => rfl
  | cons v vs ih =>
    simp only [List.length_cons] at h
    rw [State.writeBytes, ih _ (by omega), State.readByte_writeByte_other s sp v (by omega)]

/-- A byte of the written range reads as written. -/
theorem State.readByte_writeBytes_inside (s : State) (sp : Space) (a : Nat) (vs : List Byte) {k : Nat}
    (h : k < vs.length) : (s.writeBytes sp a vs).readByte sp (a + k) = vs[k] := by
  induction vs generalizing s a k with
  | nil => simp at h
  | cons v vs ih =>
    rw [State.writeBytes]
    cases k with
    | zero => rw [State.readByte_writeBytes_outside _ _ _ (by omega)]; simp
    | succ k =>
      have := ih (s.writeByte sp a v) (a + 1) (k := k) (by simpa using h)
      rw [show a + (k + 1) = a + 1 + k by omega, this]
      simp

theorem State.readBytes_writeBytes_same (s : State) (sp : Space) (a : Nat) (vs : List Byte) :
    (s.writeBytes sp a vs).readBytes sp a vs.length = vs := by
  apply List.ext_getElem
  · simp
  · intro k h1 h2
    simp [State.readByte_writeBytes_inside s sp a vs h2]

/-! ## The buffers' invariant -/

theorem State.buffersOk_congr {s t : State} (h : s.buffersOk) (hb : ∀ sp, t.buf sp = s.buf sp)
    (hc : t.caps = s.caps) : t.buffersOk := by
  intro sp
  rw [hb sp, hc]
  exact h sp

/-- A write inside the capacity keeps the invariant. -/
theorem State.buffersOk_writeByte {s : State} (h : s.buffersOk) {sp : Space} {a : Nat} (v : Byte)
    (ha : a < (s.caps.of sp).toNat) : (s.writeByte sp a v).buffersOk := by
  intro sq
  by_cases hs : sq = sp
  · subst hs
    simp only [State.buf_writeByte_same, State.writeByte_caps]
    refine ⟨Memory.wf_poke a v (h sq).1, fun c hc => ?_⟩
    rcases Memory.mem_poke hc with rfl | hc
    · exact ha
    · exact (h sq).2 c hc
  · rw [State.buf_writeByte_other s a v hs, State.writeByte_caps]
    exact h sq

theorem State.buffersOk_writeBytes {s : State} (h : s.buffersOk) {sp : Space} {a : Nat} (vs : List Byte)
    (ha : a + vs.length ≤ (s.caps.of sp).toNat) : (s.writeBytes sp a vs).buffersOk := by
  induction vs generalizing s a with
  | nil => exact h
  | cons v vs ih =>
    simp only [List.length_cons] at ha
    exact ih (State.buffersOk_writeByte h v (by omega)) (by simp only [State.writeByte_caps]; omega)

/-- A state that lists nothing meets the invariant: the state after reset, and after a fault. -/
theorem State.buffersOk_of_empty {s : State} (h : ∀ sp, s.buf sp = []) : s.buffersOk := by
  intro sp
  simp [h sp, Memory.wf]

/-! ## Little-endian fields (spec/20_memory.md R64) -/

@[simp] theorem length_leBytes (n v : Nat) : (leBytes n v).length = n := by
  induction n generalizing v with
  | zero => rfl
  | succ n ih => simp [leBytes, ih]

/-- Reading back what `leBytes` wrote gives the number, truncated to the field. -/
theorem leNat_leBytes (n v : Nat) : leNat (leBytes n v) = v % 256 ^ n := by
  induction n generalizing v with
  | zero => simp [leBytes, leNat, Nat.mod_one]
  | succ n ih =>
    simp only [leBytes, leNat, ih, BitVec.toNat_ofNat]
    rw [show 256 ^ (n + 1) = 256 * 256 ^ n by ring, Nat.mod_mul]

theorem leNat_lt (bs : List Byte) : leNat bs < 256 ^ bs.length := by
  induction bs with
  | nil => simp [leNat]
  | cons b bs ih =>
    have := b.isLt
    simp only [leNat, List.length_cons, Nat.pow_succ]
    omega

end Sys2Proof.Machine
end

