-- ==== Sys2Proof/Laws/Ops.lean ====
section
/-! SUPPORT. The laws of the shared operations: sequencing, the tables, the dispatch envelope, and taking a fault. -/

namespace Sys2Proof.Machine

/-! ## Sequencing -/

@[simp] theorem Result.ok_andThen (s : State) (k : State → Result) : (Result.ok s).andThen k = k s := rfl

@[simp] theorem Result.raised_andThen (f : CmdFault) (n : Nat) (k : State → Result) :
    (Result.raised f n).andThen k = .raised f n := rfl

@[simp] theorem Result.stuck_andThen (r : Fault) (k : State → Result) : (Result.stuck r).andThen k = .stuck r := rfl

theorem Result.andThen_assoc (x : Result) (k l : State → Result) :
    (x.andThen k).andThen l = x.andThen fun s => (k s).andThen l := by
  cases x <;> rfl

/-- A sequence ends in success only if both of its parts do. -/
theorem Result.andThen_ok {x : Result} {k : State → Result} {t : State} :
    x.andThen k = .ok t ↔ ∃ s, x = .ok s ∧ k s = .ok t := by
  cases x <;> simp

/-- A sequence ends in a fault if its first part does, or the rest after it. -/
theorem Result.andThen_raised {x : Result} {k : State → Result} {f : CmdFault} {n : Nat} :
    x.andThen k = .raised f n ↔ x = .raised f n ∨ ∃ s, x = .ok s ∧ k s = .raised f n := by
  cases x <;> simp

/-- A sequence has no end if its first part has none, or the rest after it. -/
theorem Result.andThen_stuck {x : Result} {k : State → Result} {r : Fault} :
    x.andThen k = .stuck r ↔ x = .stuck r ∨ ∃ s, x = .ok s ∧ k s = .stuck r := by
  cases x <;> simp

/-! ## Tables -/

@[simp] theorem tget_tset_same {α : Type} (t : Vector α 256) (b : Byte) (x : α) : tget (tset t b x) b = x := by
  simp [tget, tset]

theorem tget_tset_other {α : Type} (t : Vector α 256) {b c : Byte} (x : α) (h : c ≠ b) :
    tget (tset t b x) c = tget t c := by
  simp only [tget, tset]
  rw [Vector.getElem_set_ne]
  exact fun e => h (BitVec.eq_of_toNat_eq e.symm)

@[simp] theorem tget_replicate {α : Type} (x : α) (b : Byte) : tget (Vector.replicate 256 x) b = x := by
  simp [tget]

@[simp] theorem getElem_tableOf {α : Type} (n : Nat) (f : Nat → α) (i : Nat) (h : i < n) : (tableOf n f)[i] = f i := by
  simp [tableOf]

@[simp] theorem tget_tableOf {α : Type} (f : Nat → α) (b : Byte) : tget (tableOf 256 f) b = f b.toNat := by
  simp [tget]

theorem mem_allSymbols (b : Byte) : b ∈ allSymbols := by
  refine List.mem_map.2 ⟨b.toNat, List.mem_range.2 b.isLt, ?_⟩
  simp

/-! ## The dispatch envelope (spec/47_system.md R271) -/

/-- Everything a command that is issued in IDLE can do: succeed, take a fault, or (CASSIGN and ENCODE only) find no
end. -/
theorem command_idle {body : State → Result} {s : State} (h : s.phase = .idle) :
    (∃ t, body s.accept = .ok t ∧ command body s = .next t.finish) ∨
    (∃ f n, body s.accept = .raised f n ∧ command body s = .next (s.faultEntry f n)) ∨
    (∃ r, body s.accept = .stuck r ∧ command body s = .fault r) := by
  unfold command
  rw [h]
  cases hb : body s.accept with
  | ok t => exact .inl ⟨t, rfl, by simp⟩
  | raised f n => exact .inr (.inl ⟨f, n, rfl, by simp⟩)
  | stuck r => exact .inr (.inr ⟨r, rfl, by simp⟩)

theorem command_ok {body : State → Result} {s t : State} (h : s.phase = .idle) (hb : body s.accept = .ok t) :
    command body s = .next t.finish := by
  simp [command, h, hb]

theorem command_raised {body : State → Result} {s : State} {f : CmdFault} {n : Nat} (h : s.phase = .idle)
    (hb : body s.accept = .raised f n) : command body s = .next (s.faultEntry f n) := by
  simp [command, h, hb]

theorem command_stuck {body : State → Result} {s : State} {r : Fault} (h : s.phase = .idle)
    (hb : body s.accept = .stuck r) : command body s = .fault r := by
  simp [command, h, hb]

/-- In FAULTED a command other than CLR changes nothing (spec/47_system.md R272). -/
theorem command_faulted (body : State → Result) {s : State} (h : s.phase = .faulted) : command body s = .next s := by
  simp [command, h]

theorem command_run (body : State → Result) {s : State} (h : s.phase = .run) :
    command body s = .refused .hostWhileRunning := by
  simp [command, h]

/-- What a next state of a command is, whatever the phase. -/
theorem command_next {body : State → Result} {s u : State} (h : command body s = .next u) :
    (s.phase = .idle ∧ ∃ t, body s.accept = .ok t ∧ u = t.finish) ∨
    (s.phase = .idle ∧ ∃ f n, body s.accept = .raised f n ∧ u = s.faultEntry f n) ∨
    (s.phase = .faulted ∧ u = s) := by
  cases hp : s.phase with
  | idle =>
    rcases command_idle (body := body) hp with ⟨t, hb, hc⟩ | ⟨f, n, hb, hc⟩ | ⟨r, hb, hc⟩
    · rw [hc] at h
      injection h with h
      exact .inl ⟨rfl, t, hb, h.symm⟩
    · rw [hc] at h
      injection h with h
      exact .inr (.inl ⟨rfl, f, n, hb, h.symm⟩)
    · rw [hc] at h
      cases h
  | run =>
    rw [command_run body hp] at h
    cases h
  | faulted =>
    rw [command_faulted body hp] at h
    injection h with h
    exact .inr (.inr ⟨rfl, h.symm⟩)

/-- A command in IDLE that ends in IDLE has succeeded. -/
theorem command_next_idle {body : State → Result} {s u : State} (hs : s.phase = .idle)
    (h : command body s = .next u) (hu : u.phase = .idle) : ∃ t, body s.accept = .ok t ∧ u = t.finish := by
  rcases command_next h with ⟨-, h⟩ | ⟨-, f, n, -, rfl⟩ | ⟨hp, -⟩
  · exact h
  · simp at hu
  · rw [hs] at hp
    cases hp

/-! ## Taking a fault -/

/-- Fault entry leaves what `FaultedFrom` says. -/
theorem faultEntry_faultedFrom (s : State) (f : CmdFault) (info : Nat) :
    s.FaultedFrom (s.faultEntry f info) f.code.toNat info where
  phase := rfl
  fault := rfl
  done := rfl
  busy := rfl
  faultCode := by simp
  faultInfo := rfl
  cmd := rfl
  caps := rfl
  pending := rfl
  replies := rfl

/-- Two states with the same command word, capacities, epoch and host side take the same fault to the same state:
fault entry depends on nothing else. -/
theorem faultEntry_congr {s t : State} (f : CmdFault) (info : Nat) (hcmd : t.cmd = s.cmd) (hcaps : t.caps = s.caps)
    (hepoch : t.epoch = s.epoch) (hpending : t.pending = s.pending) (hreplies : t.replies = s.replies) :
    t.faultEntry f info = s.faultEntry f info := by
  simp only [State.faultEntry, State.unspecified, hcmd, hcaps, hepoch, hpending, hreplies]

/-- The codes are the numbers 1 to 0x0B (spec/60_exceptions.md R281). -/
theorem CmdFault.code_range (f : CmdFault) : 0x01 ≤ f.code.toNat ∧ f.code.toNat ≤ 0x0B := by
  cases f <;> decide

@[simp] theorem State.buf_faultEntry (s : State) (f : CmdFault) (info : Nat) (sp : Space) :
    (s.faultEntry f info).buf sp = [] := by
  cases sp <;> rfl

/-! ## CLR and reset -/

@[simp] theorem State.buf_softReset (s : State) (sp : Space) : s.softReset.buf sp = s.buf sp := by
  cases sp <;> rfl

@[simp] theorem State.buf_hardReset (s : State) (sp : Space) : s.hardReset.buf sp = [] := by
  cases sp <;> rfl

theorem State.readByte_softReset (s : State) (sp : Space) (a : Nat) : s.softReset.readByte sp a = s.readByte sp a :=
  State.readByte_congr (by simp) (by simp) a

end Sys2Proof.Machine
end

