-- ==== Sys2Proof/Laws/Packer.lean ====
section
/-! SUPPORT. What the bodies of BPINIT, WBITS, BUINIT and RBIT can do. -/

namespace Sys2Proof.Machine

/-! ## BPINIT and WBITS -/

/-- Everything the body of BPINIT can do (spec/43_bit_packer.md R181). -/
theorem bpinitBody_cases (s : State) :
    (s.caps.pbuf < s.pkLen ∧ bpinitBody s = .raised .allocFailure s.pkLen.toNat) ∨
    (¬ s.caps.pbuf < s.pkLen ∧ 0 < s.pkLen.toNat ∧
      bpinitBody s = .ok ({ s with bpByte := 0, bpBit := 0 }.writeByte .pbuf 0 0)) ∨
    (¬ s.caps.pbuf < s.pkLen ∧ s.pkLen.toNat = 0 ∧ bpinitBody s = .ok { s with bpByte := 0, bpBit := 0 }) := by
  unfold bpinitBody
  split
  · exact .inl ⟨‹_›, rfl⟩
  · by_cases h : 0 < s.pkLen.toNat
    · exact .inr (.inl ⟨‹_›, h, by simp [h]⟩)
    · exact .inr (.inr ⟨‹_›, by omega, by simp [h]⟩)

/-- Everything the packer's advance can do (spec/43_bit_packer.md R184, R185). -/
theorem advancePacker_cases (s : State) :
    (s.bpBit.toNat < 7 ∧ s.advancePacker = { s with bpBit := s.bpBit + 1 }) ∨
    (s.bpBit.toNat = 7 ∧ s.bpByte + 1 < s.pkLen ∧
      s.advancePacker = { s with bpBit := 0, bpByte := s.bpByte + 1 }.writeByte .pbuf (s.bpByte + 1).toNat 0) ∨
    (s.bpBit.toNat = 7 ∧ ¬ s.bpByte + 1 < s.pkLen ∧
      s.advancePacker = { s with bpBit := 0, bpByte := s.bpByte + 1 }) := by
  unfold State.advancePacker
  by_cases h : s.bpBit.toNat < 7
  · exact .inl ⟨h, by simp [h]⟩
  · have h7 : s.bpBit.toNat = 7 := by have := s.bpBit.isLt; omega
    by_cases hp : s.bpByte + 1 < s.pkLen
    · exact .inr (.inl ⟨h7, hp, (if_neg h).trans (if_pos hp)⟩)
    · exact .inr (.inr ⟨h7, hp, (if_neg h).trans (if_neg hp)⟩)

/-- What the packer never changes: it writes its cursor and PBUF only. -/
theorem advancePacker_frame (s : State) :
    s.advancePacker = { s with
      bpBit := s.advancePacker.bpBit, bpByte := s.advancePacker.bpByte, pbuf := s.advancePacker.pbuf } := by
  rcases advancePacker_cases s with ⟨-, h⟩ | ⟨-, -, h⟩ | ⟨-, -, h⟩ <;> rw [h] <;> rfl

/-- Everything the writing of one bit can do (spec/43_bit_packer.md R184). -/
theorem writeBit_cases (b : Bool) (s : State) :
    (s.pkLen ≤ s.bpByte ∧ writeBit b s = .raised .packOverrun s.bpByte.toNat) ∨
    (s.bpByte < s.pkLen ∧
      writeBit b s = .ok (s.writeByte .pbuf s.bpByte.toNat
        (orBitAt (s.readByte .pbuf s.bpByte.toNat) s.bpBit b)).advancePacker) := by
  unfold writeBit
  split
  · exact .inl ⟨‹_›, rfl⟩
  · exact .inr ⟨BitVec.not_le.1 ‹_›, rfl⟩

theorem writeBit_frame {b : Bool} {s t : State} (h : writeBit b s = .ok t) :
    t = { s with bpBit := t.bpBit, bpByte := t.bpByte, pbuf := t.pbuf } := by
  rcases writeBit_cases b s with ⟨-, h'⟩ | ⟨-, h'⟩ <;> rw [h'] at h
  · cases h
  · injection h with h
    subst h
    rw [advancePacker_frame]
    rfl

theorem writeBits_frame {bs : List Bool} {s t : State} (h : writeBits bs s = .ok t) :
    t = { s with bpBit := t.bpBit, bpByte := t.bpByte, pbuf := t.pbuf } := by
  induction bs generalizing s with
  | nil => cases h; rfl
  | cons b bs ih =>
    obtain ⟨u, hu, h⟩ := Result.andThen_ok.1 h
    have hf := writeBit_frame hu
    have := ih h
    rw [this, hf]

theorem writeBits_append (as bs : List Bool) (s : State) :
    writeBits (as ++ bs) s = (writeBits as s).andThen (writeBits bs) := by
  induction as generalizing s with
  | nil => rfl
  | cons a as ih =>
    simp only [List.cons_append, writeBits, Result.andThen_assoc]
    congr 1
    funext t
    exact ih t

/-- Everything the body of WBITS can do, in the order of its checks (spec/43_bit_packer.md R183). -/
theorem wbitsBody_cases (pattern : BitVec 16) (length : Nat) (s : State) :
    (16 < length ∧ wbitsBody pattern length s = .raised .illegalOperand length) ∨
    (length ≤ 16 ∧ s.caps.pbuf < s.pkLen ∧ wbitsBody pattern length s = .raised .allocFailure s.pkLen.toNat) ∨
    (length ≤ 16 ∧ ¬ s.caps.pbuf < s.pkLen ∧
      wbitsBody pattern length s = writeBits (patternBits pattern length) s) := by
  unfold wbitsBody legalLength
  by_cases h : length ≤ 16
  · by_cases hp : s.caps.pbuf < s.pkLen
    · exact .inr (.inl ⟨h, hp, by simp [h, hp]⟩)
    · exact .inr (.inr ⟨h, hp, by simp [h, hp]⟩)
  · exact .inl ⟨by omega, by simp [h]⟩

@[simp] theorem length_patternBits (pattern : BitVec 16) (length : Nat) :
    (patternBits pattern length).length = length := by
  simp [patternBits]

@[simp] theorem getElem_patternBits (pattern : BitVec 16) (length j : Nat) (h : j < (patternBits pattern length).length) :
    (patternBits pattern length)[j] = pattern.getLsbD (length - 1 - j) := by
  simp [patternBits]

/-- The packer's bit string of a code is the statements' (spec/30_encoding.md R108). -/
theorem bits_eq_string (e : CodeEntry) : e.bits = e.string := rfl

/-- A bit of `v | (b << (7 - p))`. -/
theorem bitAt_orBitAt (v : Byte) (p q : BitVec 3) (b : Bool) :
    bitAt (orBitAt v p b) q = (bitAt v q || (decide (q = p) && b)) := by
  have hp := p.isLt
  have hq := q.isLt
  have hpq : q = p ↔ q.toNat = p.toNat := BitVec.toNat_eq
  simp only [bitAt, orBitAt, BitVec.getLsbD_or, BitVec.getLsbD_shiftLeft]
  congr 1
  by_cases h : q.toNat = p.toNat
  · have : q = p := hpq.2 h
    subst this
    cases b
    · simp
    · simp
      omega
  · have hne : q ≠ p := fun e => h (hpq.1 e)
    simp only [hne, decide_false, Bool.false_and]
    cases b
    · simp
    · by_cases hlt : 7 - q.toNat < 7 - p.toNat
      · simp [hlt]
      · have : 7 - q.toNat - (7 - p.toNat) ≠ 0 := by omega
        simp [this]

/-! ## BUINIT and RBIT -/

/-- Everything the body of BUINIT can do (spec/44_bit_unpacker.md R196). -/
theorem buinitBody_cases (s : State) :
    (s.caps.pbuf < s.pkLen ∧ buinitBody s = .raised .allocFailure s.pkLen.toNat) ∨
    (¬ s.caps.pbuf < s.pkLen ∧ buinitBody s = .ok s.startUnpacker) := by
  unfold buinitBody
  split
  · exact .inl ⟨‹_›, rfl⟩
  · exact .inr ⟨‹_›, rfl⟩

/-- The unpacker's advance moves the position by one bit (spec/44_bit_unpacker.md R199). -/
theorem readPos_advanceUnpacker (s : State) (h : s.buByte.toNat + 1 < 2 ^ 64) :
    s.advanceUnpacker.readPos = s.readPos + 1 := by
  unfold State.advanceUnpacker State.readPos
  have h3 := s.buBit.isLt
  have h1 : (1 : BitVec 3).toNat = 1 := rfl
  have h1' : (1 : Reg64).toNat = 1 := rfl
  have h0 : (0 : BitVec 3).toNat = 0 := rfl
  split
  · simp only [BitVec.toNat_add, h1]
    omega
  · simp only [BitVec.toNat_add, h1', h0]
    omega

theorem advanceUnpacker_frame (s : State) :
    s.advanceUnpacker = { s with buByte := s.advanceUnpacker.buByte, buBit := s.advanceUnpacker.buBit } := by
  unfold State.advanceUnpacker
  split <;> rfl

/-- Everything the body of RBIT can do (spec/44_bit_unpacker.md R199). -/
theorem rbitBody_cases (s : State) :
    (s.caps.pbuf < s.pkLen ∧ rbitBody s = .raised .allocFailure s.pkLen.toNat) ∨
    (¬ s.caps.pbuf < s.pkLen ∧ s.pkLen ≤ s.buByte ∧ rbitBody s = .ok { s with eod := true, rdata := 0 }) ∨
    (¬ s.caps.pbuf < s.pkLen ∧ s.buByte < s.pkLen ∧
      rbitBody s = .ok ({ s with
        rdata := (BitVec.ofBool (bitAt (s.readByte .pbuf s.buByte.toNat) s.buBit)).zeroExtend 8,
        eod := false }.advanceUnpacker)) := by
  unfold rbitBody
  split
  · exact .inl ⟨‹_›, rfl⟩
  · split
    · exact .inr (.inl ⟨‹_›, ‹_›, rfl⟩)
    · exact .inr (.inr ⟨‹_›, BitVec.not_le.1 ‹_›, rfl⟩)

/-- RBIT writes RDATA, EOD and the unpacker's cursor only. -/
theorem rbitBody_frame {s t : State} (h : rbitBody s = .ok t) :
    t = { s with rdata := t.rdata, eod := t.eod, buByte := t.buByte, buBit := t.buBit } := by
  rcases rbitBody_cases s with ⟨-, h'⟩ | ⟨-, -, h'⟩ | ⟨-, -, h'⟩ <;> rw [h'] at h
  · cases h
  · injection h with h
    subst h
    rfl
  · injection h with h
    subst h
    rw [advanceUnpacker_frame]

end Sys2Proof.Machine
end

