-- ==== Sys2Proof/Laws/Decoder.lean ====
section
/-! SUPPORT. What the bodies of TDESER, SLOOKUP and DECODE can do. -/

namespace Sys2Proof.Machine

/-! ## TDESER -/

/-- When a content offset gives an entry count, and which (spec/45_huffman_decoder.md R211). -/
theorem entryCount_eq_some (off arLen count : Nat) :
    entryCount off arLen = some count ↔ off = 18 + 4 * count ∧ count ≤ 256 ∧ off ≤ arLen := by
  unfold entryCount
  simp only [Config.hdrSize, Config.entrySize, Config.nsym]
  split
  · simp only [reduceCtorEq, false_iff]
    omega
  · split
    · simp only [reduceCtorEq, false_iff]
      omega
    · split
      · simp only [reduceCtorEq, false_iff]
        omega
      · split
        · simp only [reduceCtorEq, false_iff]
          omega
        · simp only [Option.some.injEq]
          omega

/-- When it gives none (R211). -/
theorem entryCount_eq_none (off arLen : Nat) :
    entryCount off arLen = none ↔ off < 18 ∨ (off - 18) % 4 ≠ 0 ∨ 256 < (off - 18) / 4 ∨ arLen < off := by
  unfold entryCount
  simp only [Config.hdrSize, Config.entrySize, Config.nsym]
  split
  · simp only [true_iff]
    omega
  · split
    · simp only [true_iff]
      omega
    · split
      · simp only [true_iff]
        omega
      · split
        · simp only [true_iff]
          omega
        · simp only [reduceCtorEq, false_iff]
          omega

/-- Everything the body of TDESER can do, in the order of its checks (spec/45_huffman_decoder.md R210, R211). -/
theorem tdeserBody_cases (s : State) :
    (s.caps.abuf < s.arLen ∧ tdeserBody s = .raised .allocFailure s.arLen.toNat) ∨
    (¬ s.caps.abuf < s.arLen ∧ entryCount s.contentOff.toNat s.arLen.toNat = none ∧
      tdeserBody s = .raised .badEntryCount s.contentOff.toNat) ∨
    (∃ count, ¬ s.caps.abuf < s.arLen ∧ entryCount s.contentOff.toNat s.arLen.toNat = some count ∧
      tdeserBody s = .ok ((List.range count).foldl State.storeEntry
        { s.clearCodes.clearCandidate with entryCnt := BitVec.ofNat 16 count })) := by
  unfold tdeserBody
  split
  · exact .inl ⟨‹_›, rfl⟩
  · cases h : entryCount s.contentOff.toNat s.arLen.toNat with
    | none => exact .inr (.inl ⟨‹_›, rfl, rfl⟩)
    | some count => exact .inr (.inr ⟨count, ‹_›, rfl, rfl⟩)

/-- Storing entries writes the code table only. -/
theorem foldl_storeEntry_frame (l : List Nat) (s : State) :
    l.foldl State.storeEntry s = { s with code := (l.foldl State.storeEntry s).code } := by
  induction l generalizing s with
  | nil => rfl
  | cons i l ih =>
    rw [List.foldl_cons, ih]
    rfl

/-! ## SLOOKUP -/

/-- The scan finds the least symbol whose entry is the candidate (spec/45_huffman_decoder.md R216, R218). -/
theorem findSymbol_eq_some {code : CodeTable} {cand : BitVec 16} {clen : BitVec 8} {hit : Byte}
    (h : findSymbol code cand clen = some hit) :
    (tget code hit).len = clen ∧ (tget code hit).pat = cand ∧
      ∀ b : Byte, b < hit → ¬ ((tget code b).len = clen ∧ (tget code b).pat = cand) := by
  obtain ⟨i, hi, rfl⟩ := Option.map_eq_some_iff.1 h
  obtain ⟨hlt, hp, hmin⟩ := List.findIdx?_eq_some_iff_getElem.1 hi
  simp only [Vector.length_toList] at hlt
  have hn : (BitVec.ofNat 8 i).toNat = i := by simpa using hlt
  have hg : ∀ b : Byte, tget code b = code.toList[b.toNat]'(by simpa using b.isLt) := fun b => by simp [tget]
  have hhit : tget code (BitVec.ofNat 8 i) = code.toList[i]'(by simpa using hlt) := by
    rw [hg]
    simp only [hn]
  rw [hhit]
  simp only [Bool.and_eq_true, decide_eq_true_eq] at hp hmin
  refine ⟨hp.1, hp.2, fun b hb => ?_⟩
  have hbi : b.toNat < i := by
    have := BitVec.lt_def.1 hb
    omega
  rw [hg]
  exact hmin b.toNat hbi

/-- The scan finds nothing exactly when no entry is the candidate. -/
theorem findSymbol_eq_none {code : CodeTable} {cand : BitVec 16} {clen : BitVec 8} :
    findSymbol code cand clen = none ↔ ∀ b, ¬ ((tget code b).len = clen ∧ (tget code b).pat = cand) := by
  simp only [findSymbol, Option.map_eq_none_iff, List.findIdx?_eq_none_iff, Bool.and_eq_false_iff, decide_eq_false_iff_not,
    not_and_or]
  constructor
  · intro h b
    exact h _ (by simp [tget])
  · intro h e he
    obtain ⟨i, hi, rfl⟩ := List.mem_iff_getElem.1 he
    simp only [Vector.length_toList] at hi
    have hn : (BitVec.ofNat 8 i).toNat = i := by simpa using hi
    have := h (BitVec.ofNat 8 i)
    simp only [tget, hn] at this
    simpa using this

/-- Everything the body of SLOOKUP can do (spec/45_huffman_decoder.md R216). -/
theorem slookupBody_cases (bit : Bool) (s : State) :
    (∃ hit, findSymbol s.code (shiftIn s.cand bit) (s.clen + 1) = some hit ∧
      slookupBody bit s = .ok { s with rdata := hit, matched := true, cand := 0, clen := 0 }) ∨
    (findSymbol s.code (shiftIn s.cand bit) (s.clen + 1) = none ∧ 16 ≤ (s.clen + 1).toNat ∧
      slookupBody bit s = .raised .unboundedDecode s.emitCnt.toNat) ∨
    (findSymbol s.code (shiftIn s.cand bit) (s.clen + 1) = none ∧ ¬ 16 ≤ (s.clen + 1).toNat ∧
      slookupBody bit s = .ok { s with cand := shiftIn s.cand bit, clen := s.clen + 1, matched := false }) := by
  unfold slookupBody
  cases h : findSymbol s.code (shiftIn s.cand bit) (s.clen + 1) with
  | some hit => exact .inl ⟨hit, rfl, by simp only [h]; rfl⟩
  | none =>
    by_cases hc : 16 ≤ (s.clen + 1).toNat
    · exact .inr (.inl ⟨rfl, hc, by simp only [h]; exact if_pos hc⟩)
    · exact .inr (.inr ⟨rfl, hc, by simp only [h]; exact if_neg hc⟩)

/-- SLOOKUP writes RDATA, MATCH and the candidate only. -/
theorem slookupBody_frame {bit : Bool} {s t : State} (h : slookupBody bit s = .ok t) :
    t = { s with rdata := t.rdata, matched := t.matched, cand := t.cand, clen := t.clen } := by
  rcases slookupBody_cases bit s with ⟨hit, -, h'⟩ | ⟨-, -, h'⟩ | ⟨-, -, h'⟩ <;> rw [h'] at h
  · injection h with h
    subst h
    rfl
  · cases h
  · injection h with h
    subst h
    rfl

/-! ## DECODE -/

/-- One turn of the loop of R220: a bit is read and looked up. -/
theorem decodeLoop_succ (turns : Nat) (s : State) (h : s.emitCnt < s.origSize) :
    decodeLoop (turns + 1) s = (rbitBody s).andThen fun s =>
      if s.eod then .raised .truncatedContent s.emitCnt.toNat
      else (slookupBody (s.rdata.getLsbD 0) s).andThen fun s => decodeLoop turns (if s.matched then s.emit else s) := by
  rw [decodeLoop, if_pos h]

theorem decodeLoop_done (turns : Nat) (s : State) (h : ¬ s.emitCnt < s.origSize) : decodeLoop turns s = .ok s := by
  cases turns <;> rw [decodeLoop, if_neg h]

/-- DECODE's loop writes OBUF, EMIT_CNT, the unpacker's cursor, the candidate, RDATA, EOD and MATCH only. -/
theorem decodeLoop_frame {turns : Nat} {s t : State} (h : decodeLoop turns s = .ok t) :
    t = { s with
      obuf := t.obuf, emitCnt := t.emitCnt, buByte := t.buByte, buBit := t.buBit, cand := t.cand, clen := t.clen,
      rdata := t.rdata, eod := t.eod, matched := t.matched } := by
  induction turns generalizing s with
  | zero =>
    rw [decodeLoop] at h
    split at h
    · cases h
    · injection h with h
      subst h
      rfl
  | succ turns ih =>
    by_cases hs : s.emitCnt < s.origSize
    · rw [decodeLoop_succ _ _ hs] at h
      obtain ⟨u, hu, h⟩ := Result.andThen_ok.1 h
      split at h
      · cases h
      · obtain ⟨v, hv, h⟩ := Result.andThen_ok.1 h
        have h1 := rbitBody_frame hu
        have h2 := slookupBody_frame hv
        have h3 := ih h
        split at h3
        · rw [h3, h2, h1]
          rfl
        · rw [h3, h2, h1]
    · rw [decodeLoop_done _ _ hs] at h
      injection h with h
      subst h
      rfl

/-- Everything the body of DECODE can do before its loop, in the order of its checks (spec/45_huffman_decoder.md
R221). -/
theorem decodeBody_cases (s : State) :
    (s.caps.pbuf < s.pkLen ∧ decodeBody s = .raised .allocFailure s.pkLen.toNat) ∨
    (¬ s.caps.pbuf < s.pkLen ∧ s.caps.obuf < s.origSize ∧ decodeBody s = .raised .allocFailure s.origSize.toNat) ∨
    (¬ s.caps.pbuf < s.pkLen ∧ ¬ s.caps.obuf < s.origSize ∧
      decodeBody s = (decodeLoop (8 * s.pkLen.toNat + 1) s.startDecode).andThen
        fun s => .ok { s with outLen := s.origSize }) := by
  unfold decodeBody
  by_cases hp : s.caps.pbuf < s.pkLen
  · exact .inl ⟨hp, if_pos hp⟩
  · by_cases ho : s.caps.obuf < s.origSize
    · exact .inr (.inl ⟨hp, ho, (if_neg hp).trans (if_pos ho)⟩)
    · exact .inr (.inr ⟨hp, ho, (if_neg hp).trans (if_neg ho)⟩)

/-- What DECODE never changes. -/
theorem decodeBody_frame {s t : State} (h : decodeBody s = .ok t) :
    t = { s with
      obuf := t.obuf, outLen := t.outLen, emitCnt := t.emitCnt, buByte := t.buByte, buBit := t.buBit, cand := t.cand, clen := t.clen,
      rdata := t.rdata, eod := t.eod, matched := t.matched } := by
  rcases decodeBody_cases s with ⟨-, h'⟩ | ⟨-, -, h'⟩ | ⟨-, -, h'⟩ <;> rw [h'] at h
  · cases h
  · cases h
  · obtain ⟨u, hu, h⟩ := Result.andThen_ok.1 h
    injection h with h
    subst h
    have := decodeLoop_frame hu
    rw [this]
    rfl

end Sys2Proof.Machine
end

