-- ==== Sys2Proof/Laws/Encoder.lean ====
section
/-! SUPPORT. What the bodies of FREQ, TBUILD, CASSIGN and ENCODE can do. -/

namespace Sys2Proof.Machine

/-! ## FREQ -/

/-- Everything the body of FREQ can do (spec/40_frequency_table.md R131). -/
theorem freqBody_cases (s : State) :
    (s.caps.ibuf < s.inLen ∧ freqBody s = .raised .allocFailure s.inLen.toNat) ∨
    (¬ s.caps.ibuf < s.inLen ∧ freqBody s = .ok { s with freq := countBytes s.input }) := by
  unfold freqBody
  split
  · exact .inl ⟨‹_›, rfl⟩
  · exact .inr ⟨‹_›, rfl⟩

theorem tget_bump_same (f : FreqTable) (b : Byte) : tget (bump f b) b = tget f b + 1 := by
  simp [bump]

theorem tget_bump_other (f : FreqTable) {b c : Byte} (h : c ≠ b) : tget (bump f b) c = tget f c := by
  simp [bump, tget_tset_other _ _ h]

/-- Counting adds to each counter the number of occurrences of its symbol. -/
theorem tget_foldl_bump (f : FreqTable) (bs : List Byte) (b : Byte) :
    tget (bs.foldl bump f) b = tget f b + BitVec.ofNat 64 (bs.count b) := by
  induction bs generalizing f with
  | nil => simp
  | cons c bs ih =>
    rw [List.foldl_cons, ih]
    by_cases h : c = b
    · subst h
      rw [tget_bump_same, List.count_cons_self, BitVec.add_assoc]
      congr 1
      rw [Nat.add_comm, BitVec.ofNat_add]
      rfl
    · rw [tget_bump_other _ (Ne.symm h), List.count_cons_of_ne h]

theorem tget_countBytes (bs : List Byte) (b : Byte) : tget (countBytes bs) b = BitVec.ofNat 64 (bs.count b) := by
  simp [countBytes, tget_foldl_bump]

/-! ## TBUILD: the order of the work list (spec/41_tree_builder.md R144) -/

theorem before_iff (x y : Item) :
    before x y = true ↔ y.freq.toNat < x.freq.toNat ∨ (x.freq.toNat = y.freq.toNat ∧ x.id.toNat < y.id.toNat) := by
  simp [before, BitVec.lt_def, BitVec.toNat_eq]

theorem before_irrefl (x : Item) : before x x = false := by
  rw [← Bool.not_eq_true, before_iff]
  omega

theorem before_trans {x y z : Item} (h : before x y = true) (k : before y z = true) : before x z = true := by
  rw [before_iff] at *
  omega

/-- The order is total on items with different identifiers. -/
theorem before_total {x y : Item} (h : x.id ≠ y.id) : before x y = true ∨ before y x = true := by
  rw [before_iff, before_iff]
  have : x.id.toNat ≠ y.id.toNat := fun e => h (BitVec.eq_of_toNat_eq e)
  omega

theorem insertItem_perm (x : Item) (l : List Item) : (insertItem x l).Perm (x :: l) := by
  induction l with
  | nil => exact List.Perm.refl _
  | cons y l ih =>
    unfold insertItem
    split
    · exact List.Perm.refl _
    · exact (ih.cons y).trans (List.Perm.swap x y l)

@[simp] theorem length_insertItem (x : Item) (l : List Item) : (insertItem x l).length = l.length + 1 :=
  (insertItem_perm x l).length_eq

theorem sortItems_perm (l : List Item) : (sortItems l).Perm l := by
  induction l with
  | nil => exact List.Perm.refl _
  | cons x l ih => exact (insertItem_perm x _).trans (ih.cons x)

/-- Putting an item with a new identifier at its place keeps the work list sorted. -/
theorem insertItem_sorted {x : Item} {l : List Item} (h : l.Pairwise fun a b => before a b = true)
    (hx : ∀ y ∈ l, y.id ≠ x.id) : (insertItem x l).Pairwise fun a b => before a b = true := by
  induction l with
  | nil => simp [insertItem]
  | cons y l ih =>
    rw [List.pairwise_cons] at h
    unfold insertItem
    split
    · rename_i hb
      exact List.pairwise_cons.2 ⟨fun z hz => (List.mem_cons.1 hz).elim (fun e => e ▸ hb)
        fun hz => before_trans hb (h.1 z hz), List.pairwise_cons.2 h⟩
    · rename_i hb
      have hyx : before y x = true := (before_total (hx y List.mem_cons_self)).resolve_right hb
      refine List.pairwise_cons.2 ⟨fun z hz => ?_, ih h.2 fun z hz => hx z (List.mem_cons_of_mem _ hz)⟩
      rcases List.mem_cons.1 ((insertItem_perm x l).subset hz) with rfl | hz
      · exact hyx
      · exact h.1 z hz

/-! ## TBUILD: the merge step (spec/41_tree_builder.md R145) -/

/-- The merge step on a work list whose last two items are `a` and `b`. -/
theorem mergeStep_eq (t : Build) (front : List Item) (a b : Item) (h : t.items = front ++ [a, b]) :
    mergeStep t =
      { node := t.node.setIfInBounds (BitVec.ofNat 9 (256 + t.mergeCnt.toNat)).toNat
          ⟨true, .internal, 0, a.freq + b.freq, a.id, b.id⟩
        items := insertItem ⟨BitVec.ofNat 9 (256 + t.mergeCnt.toNat), a.freq + b.freq⟩ front
        mergeCnt := t.mergeCnt + 1 } := by
  simp [mergeStep, h]

/-- A merge step shortens a work list of two or more items by one. -/
theorem length_mergeStep (t : Build) (h : 2 ≤ t.items.length) :
    (mergeStep t).items.length + 1 = t.items.length := by
  unfold mergeStep
  have hr : t.items.reverse.length = t.items.length := List.length_reverse
  split
  · rename_i b a rest hrev
    have := congrArg List.length hrev
    simp only [List.length_cons] at this
    simp only [length_insertItem, List.length_reverse]
    omega
  · rename_i hno
    exfalso
    match hrev : t.items.reverse with
    | [] => rw [hrev] at hr; simp at hr; omega
    | [_] => rw [hrev] at hr; simp at hr; omega
    | b :: a :: rest => exact hno b a rest hrev

/-- Everything the body of TBUILD can do (spec/41_tree_builder.md R140): it always succeeds. -/
theorem tbuildBody_cases (s : State) :
    (sortItems (leafItems s.freq) = [] ∧ tbuildBody s = .ok (s.clearTree.setNodata true)) ∨
    (∃ x xs t, sortItems (leafItems s.freq) = x :: xs ∧ t = mergeAll ⟨leafArena s.freq, x :: xs, 0⟩ ∧
      tbuildBody s = .ok ({ s with
        node := t.node
        wl := t.items.map Item.id
        mergeCnt := t.mergeCnt
        rootValid := true
        root := (t.items.headD x).id }.setNodata false)) := by
  unfold tbuildBody
  split
  · exact .inl ⟨‹_›, rfl⟩
  · exact .inr ⟨_, _, _, ‹_›, rfl, rfl⟩

/-- The items of the leaves are none exactly when every counter is 0. -/
theorem sortItems_eq_nil (l : List Item) : sortItems l = [] ↔ l = [] := by
  constructor
  · intro h
    have := (sortItems_perm l).length_eq
    rw [h] at this
    exact List.length_eq_zero_iff.1 this.symm
  · rintro rfl
    rfl

/-! ## CASSIGN and ENCODE -/

/-- Everything the body of CASSIGN can do (spec/42_code_assigner.md R160, R165, R166). -/
theorem cassignBody_cases (s : State) :
    (∃ code, assignCodes s = .done code ∧ cassignBody s = .ok { s with code := code }.clearTree) ∨
    (∃ sym len, assignCodes s = .tooLong sym len ∧ cassignBody s = .raised .codeTooLong (sym.toNat + 256 * len)) ∨
    (assignCodes s = .stuck ∧ cassignBody s = .stuck .walkStuck) := by
  unfold cassignBody
  cases h : assignCodes s with
  | done code => exact .inl ⟨code, rfl, by simp⟩
  | tooLong sym len => exact .inr (.inl ⟨sym, len, rfl, by simp⟩)
  | stuck => exact .inr (.inr ⟨rfl, by simp⟩)

/-- The length a walk reports is above 16 (spec/42_code_assigner.md R165). -/
theorem walk_tooLong (node : Arena) (fuel : Nat) (n : NodeId) (bits len : Nat) (code : CodeTable) {sym : Byte} {l : Nat}
    (h : walk node fuel n bits len code = .tooLong sym l) : 16 < l := by
  induction fuel generalizing n bits len code with
  | zero => simp [walk] at h
  | succ fuel ih =>
    unfold walk at h
    split at h
    · cases h
    · split at h
      · split at h
        · rename_i hl
          cases h
          exact hl
        · cases h
      · split at h
        · exact ih _ _ _ _ h
        · rename_i heq
          cases h
          exact ih _ _ _ _ heq
        · cases h

/-- ENCODE is the sequence of the three bodies, associated either way (spec/42_code_assigner.md R170). -/
theorem encodeBody_eq (s : State) :
    encodeBody s = (freqBody s).andThen fun a => (tbuildBody a).andThen cassignBody :=
  Result.andThen_assoc _ _ _

end Sys2Proof.Machine
end

