-- ==== Sys2Proof/Laws/Container.lean ====
section
/-! SUPPORT. What the bodies of COMPRESS and DECOMPRESS can do, step by step. -/

namespace Sys2Proof.Machine

/-! ## COMPRESS -/

/-- Everything step C1 can do (spec/46_container_codec.md R237, R238). -/
theorem compressCount_cases (s : State) :
    (∃ e, overlong s.code = some e ∧
      compressCount s = .raised .codeTooLong (e.1.toNat + 256 * e.2.len.toNat)) ∨
    (overlong s.code = none ∧ compressCount s = .ok { s with
      entryCnt := BitVec.ofNat 16 (presentCodes s.code).length,
      maxLen := BitVec.ofNat 8 (greatestLen (presentCodes s.code)) }) := by
  unfold compressCount
  cases h : overlong s.code with
  | some e => exact .inl ⟨e, rfl, rfl⟩
  | none => exact .inr ⟨rfl, rfl⟩

/-- Everything steps C2 and C3 can do (R239, R240). -/
theorem compressHeader_cases (s : State) :
    (s.caps.abuf.toNat < contentStart (presentCodes s.code).length ∧
      compressHeader s = .raised .allocFailure (contentStart (presentCodes s.code).length)) ∨
    (¬ s.caps.abuf.toNat < contentStart (presentCodes s.code).length ∧
      ∃ t, compressHeader s = .ok t ∧
        t = { s with
          abuf := t.abuf, origSize := s.inLen,
          contentOff := BitVec.ofNat 32 (contentStart (presentCodes s.code).length) } ∧
        t.abuf = ((s.writeBytes .abuf 0 (headerBytes s.inLen.toNat (contentStart (presentCodes s.code).length))).writeBytes
          .abuf Config.hdrSize ((presentCodes s.code).flatMap entryBytes)).abuf) := by
  have hw : ∀ (vs : List Byte) (u : State) (a : Nat),
      u.writeBytes .abuf a vs = { u with abuf := (u.writeBytes .abuf a vs).abuf } := by
    intro vs
    induction vs with
    | nil => intro u a; rfl
    | cons v vs ih =>
      intro u a
      rw [State.writeBytes, ih]
      rfl
  have hc : ∀ (vs : List Byte) (u : State) (a : Nat) (x : Reg64) (y : BitVec 32),
      ({ u with origSize := x, contentOff := y }.writeBytes .abuf a vs).abuf = (u.writeBytes .abuf a vs).abuf := by
    intro vs
    induction vs with
    | nil => intro u a x y; rfl
    | cons v vs ih =>
      intro u a x y
      exact ih (u.writeByte .abuf a v) (a + 1) x y
  unfold compressHeader
  by_cases h : s.caps.abuf.toNat < contentStart (presentCodes s.code).length
  · exact .inl ⟨h, if_pos h⟩
  · refine .inr ⟨h, _, if_neg h, ?_, ?_⟩
    · refine (hw _ _ _).trans ?_
      generalize State.abuf _ = m
      obtain ⟨k, hk⟩ : ∃ k, s.writeBytes .abuf 0
          (headerBytes s.inLen.toNat (contentStart (presentCodes s.code).length)) = { s with abuf := k } := ⟨_, hw _ _ _⟩
      rw [hk]
    · exact hc _ _ _ _ _

/-- Packing writes PBUF and the packer's cursor only (R241). -/
theorem packLoop_frame {i : Nat} {bs : List Byte} {s t : State} (h : packLoop i bs s = .ok t) :
    t = { s with bpBit := t.bpBit, bpByte := t.bpByte, pbuf := t.pbuf } := by
  induction bs generalizing i s with
  | nil => cases h; rfl
  | cons b bs ih =>
    rw [packLoop] at h
    split at h
    · cases h
    · obtain ⟨u, hu, h⟩ := Result.andThen_ok.1 h
      rcases wbitsBody_cases (tget s.code b).pat (tget s.code b).len.toNat s with ⟨-, h'⟩ | ⟨-, -, h'⟩ | ⟨-, -, h'⟩
      · rw [h'] at hu
        cases hu
      · rw [h'] at hu
        cases hu
      · rw [h'] at hu
        have := ih h
        rw [this, writeBits_frame hu]

/-- The packing loop faults at the first byte without a code (R242), or in the packer. -/
theorem packLoop_cons (i : Nat) (b : Byte) (bs : List Byte) (s : State) :
    ((tget s.code b).len = 0 ∧ packLoop i (b :: bs) s = .raised .unencodableSymbol i) ∨
    ((tget s.code b).len ≠ 0 ∧ packLoop i (b :: bs) s =
      (wbitsBody (tget s.code b).pat (tget s.code b).len.toNat s).andThen (packLoop (i + 1) bs)) := by
  by_cases h : (tget s.code b).len = 0
  · exact .inl ⟨h, if_pos h⟩
  · exact .inr ⟨h, if_neg h⟩

/-- Everything the end of step C4 can do (R241). -/
theorem compressAppend_cases (s : State) :
    (s.caps.abuf.toNat < contentStart (presentCodes s.code).length + s.touched ∧
      compressAppend s = .raised .allocFailure (contentStart (presentCodes s.code).length + s.touched)) ∨
    (¬ s.caps.abuf.toNat < contentStart (presentCodes s.code).length + s.touched ∧
      compressAppend s = .ok { s.writeBytes .abuf (contentStart (presentCodes s.code).length)
          (s.readBytes .pbuf 0 s.touched) with
        arLen := BitVec.ofNat 64 (contentStart (presentCodes s.code).length + s.touched) }) := by
  by_cases h : s.caps.abuf.toNat < contentStart (presentCodes s.code).length + s.touched
  · exact .inl ⟨h, if_pos h⟩
  · exact .inr ⟨h, if_neg h⟩

/-- COMPRESS after its first check (R235, R236). -/
theorem compressBody_cases (s : State) :
    (s.caps.ibuf < s.inLen ∧ compressBody s = .raised .allocFailure s.inLen.toNat) ∨
    (¬ s.caps.ibuf < s.inLen ∧
      compressBody s = ((compressCount s).andThen compressHeader).andThen compressPack) := by
  by_cases h : s.caps.ibuf < s.inLen
  · exact .inl ⟨h, if_pos h⟩
  · exact .inr ⟨h, if_neg h⟩

@[simp] theorem length_headerBytes (size off : Nat) : (headerBytes size off).length = 18 := by
  simp [headerBytes, Config.magic]

@[simp] theorem length_entryBytes (e : Byte × CodeEntry) : (entryBytes e).length = 4 := by
  simp [entryBytes]

/-! ## DECOMPRESS -/

/-- Everything steps D0 and D1 can do, in the order of the checks (R251). -/
theorem checkMagic_cases (s : State) :
    (s.caps.abuf < s.arLen ∧ checkMagic s = .raised .allocFailure s.arLen.toNat) ∨
    (¬ s.caps.abuf < s.arLen ∧ s.arLen.toNat < 6 ∧ checkMagic s = .raised .truncatedHeader s.arLen.toNat) ∨
    (∃ k, ¬ s.caps.abuf < s.arLen ∧ ¬ s.arLen.toNat < 6 ∧ firstBadMagic s = some k ∧
      checkMagic s = .raised .badMagic k) ∨
    (¬ s.caps.abuf < s.arLen ∧ ¬ s.arLen.toNat < 6 ∧ firstBadMagic s = none ∧ checkMagic s = .ok s) := by
  unfold checkMagic
  by_cases h : s.caps.abuf < s.arLen
  · exact .inl ⟨h, if_pos h⟩
  · by_cases h6 : s.arLen.toNat < 6
    · exact .inr (.inl ⟨h, h6, (if_neg h).trans (if_pos h6)⟩)
    · cases hm : firstBadMagic s with
      | some k => exact .inr (.inr (.inl ⟨k, h, h6, rfl, (if_neg h).trans (if_neg h6)⟩))
      | none => exact .inr (.inr (.inr ⟨h, h6, rfl, (if_neg h).trans (if_neg h6)⟩))

/-- Everything step D2 can do (R252). -/
theorem readHeader_cases (s : State) :
    (s.arLen.toNat < 18 ∧ readHeader s = .raised .truncatedHeader s.arLen.toNat) ∨
    (¬ s.arLen.toNat < 18 ∧ readHeader s = .ok { s with
      origSize := BitVec.ofNat 64 (s.memRead .abuf 6 8),
      contentOff := BitVec.ofNat 32 (s.memRead .abuf 14 4) }) := by
  by_cases h : s.arLen.toNat < 18
  · exact .inl ⟨h, if_pos h⟩
  · exact .inr ⟨h, if_neg h⟩

/-- Everything step D4 can do (R253). -/
theorem copyContent_cases (s : State) :
    (s.caps.pbuf.toNat < s.arLen.toNat - s.contentOff.toNat ∧
      copyContent s = .raised .allocFailure (s.arLen.toNat - s.contentOff.toNat)) ∨
    (¬ s.caps.pbuf.toNat < s.arLen.toNat - s.contentOff.toNat ∧
      copyContent s = .ok { s.writeBytes .pbuf 0
          (s.readBytes .abuf s.contentOff.toNat (s.arLen.toNat - s.contentOff.toNat)) with
        pkLen := BitVec.ofNat 64 (s.arLen.toNat - s.contentOff.toNat) }) := by
  by_cases h : s.caps.pbuf.toNat < s.arLen.toNat - s.contentOff.toNat
  · exact .inl ⟨h, if_pos h⟩
  · exact .inr ⟨h, if_neg h⟩

/-- DECOMPRESS is its five parts in order; the first that ends in a fault ends it (R250). -/
theorem decompressBody_eq (s : State) :
    decompressBody s = (checkMagic s).andThen fun s => (readHeader s).andThen fun s =>
      (tdeserBody s).andThen fun s => (copyContent s).andThen decodeBody := by
  simp only [decompressBody, Result.andThen_assoc]

end Sys2Proof.Machine
end

