-- ==== Sys2Proof/Laws/Step.lean ====
section
/-! SUPPORT. What a step, an issued word and a host access can do. -/

namespace Sys2Proof.Machine

/-! ## The step -/

theorem step_waits {s : State} (h : s.pending = []) : step s = .next s := by
  simp [step, h]

theorem step_transacts {s : State} {t : Transaction} {rest : List Transaction} (h : s.pending = t :: rest) :
    step s = transact t { s with pending := rest } := by
  simp [step, h]

/-- A write to address 0 is the issue of the low 32 bits of the value (spec/47_system.md R270). -/
theorem transact_cmd (v : Reg64) (s : State) : transact (.writeReg 0 v) s = issue (v.truncate 32) s := rfl

theorem issue_ok {w : Word} {i : Instr} (h : decode w = .ok i) (s : State) : issue w s = exec i { s with cmd := w } := by
  simp [issue, h]

theorem issue_illegal {w : Word} {e : Illegal} (h : decode w = .error e) (s : State) :
    issue w s = illegalWord w { s with cmd := w } := by
  simp [issue, h]

/-! ## Commands by phase -/

/-- Every command but CLR is a body under the envelope of spec/47_system.md R271. -/
theorem exec_eq_command {i : Instr} (h : i ≠ .clr) : ∃ body : State → Result, ∀ s, exec i s = command body s := by
  cases i with
  | clr => exact absurd rfl h
  | freq => exact ⟨freqBody, fun _ => rfl⟩
  | tbuild => exact ⟨tbuildBody, fun _ => rfl⟩
  | cassign => exact ⟨cassignBody, fun _ => rfl⟩
  | encode => exact ⟨encodeBody, fun _ => rfl⟩
  | bpinit => exact ⟨bpinitBody, fun _ => rfl⟩
  | wbits p l => exact ⟨wbitsBody p l, fun _ => rfl⟩
  | buinit => exact ⟨buinitBody, fun _ => rfl⟩
  | rbit => exact ⟨rbitBody, fun _ => rfl⟩
  | tdeser => exact ⟨tdeserBody, fun _ => rfl⟩
  | slookup b => exact ⟨slookupBody b, fun _ => rfl⟩
  | decode => exact ⟨decodeBody, fun _ => rfl⟩
  | compress => exact ⟨compressBody, fun _ => rfl⟩
  | decompress => exact ⟨decompressBody, fun _ => rfl⟩

theorem exec_clr {s : State} (h : s.phase ≠ .run) : exec .clr s = .next s.softReset := by
  cases hp : s.phase with
  | idle => simp [exec, execClr, hp]
  | faulted => simp [exec, execClr, hp]
  | run => exact absurd hp h

theorem exec_faulted {i : Instr} (hi : i ≠ .clr) {s : State} (h : s.phase = .faulted) : exec i s = .next s := by
  obtain ⟨body, hb⟩ := exec_eq_command hi
  rw [hb, command_faulted body h]

/-! ## Host accesses (spec/10_state.md R39, spec/20_memory.md R63) -/

theorem hostReadBuf_cases (sp : Space) (index : Reg64) {s : State} (h : s.phase ≠ .run) :
    (s.caps.of sp ≤ index ∧ hostReadBuf sp index s = .fault (.outsideBuffer sp index.toNat)) ∨
    (¬ s.caps.of sp ≤ index ∧
      hostReadBuf sp index s = .next (s.reply ((s.readByte sp index.toNat).zeroExtend 64))) := by
  unfold hostReadBuf
  by_cases hc : s.caps.of sp ≤ index
  · exact .inl ⟨hc, if_pos hc⟩
  · refine .inr ⟨hc, (if_neg hc).trans ?_⟩
    cases hp : s.phase with
    | idle => rfl
    | faulted => rfl
    | run => exact absurd hp h

theorem hostWriteBuf_cases (sp : Space) (index : Reg64) (v : Byte) {s : State} (h : s.phase ≠ .run) :
    (s.caps.of sp ≤ index ∧ hostWriteBuf sp index v s = .fault (.outsideBuffer sp index.toNat)) ∨
    (¬ s.caps.of sp ≤ index ∧ (s.phase = .faulted ∨ sp = .obuf) ∧ hostWriteBuf sp index v s = .next s) ∨
    (¬ s.caps.of sp ≤ index ∧ s.phase = .idle ∧ sp ≠ .obuf ∧
      hostWriteBuf sp index v s = .next (s.writeByte sp index.toNat v)) := by
  unfold hostWriteBuf
  by_cases hc : s.caps.of sp ≤ index
  · exact .inl ⟨hc, if_pos hc⟩
  · refine .inr ?_
    rw [if_neg hc]
    cases hp : s.phase with
    | run => exact absurd hp h
    | faulted => exact .inl ⟨hc, .inl rfl, rfl⟩
    | idle =>
      by_cases ho : sp = .obuf
      · exact .inl ⟨hc, .inr ho, if_pos ho⟩
      · exact .inr ⟨hc, rfl, ho, if_neg ho⟩

/-- A host write of a register changes no buffer and nothing of the host's side. -/
theorem writeReg_frame (s : State) (r : RegName) (v : Reg64) :
    s.writeReg r v = { s with
      inLen := (s.writeReg r v).inLen, arLen := (s.writeReg r v).arLen, pkLen := (s.writeReg r v).pkLen,
      origSize := (s.writeReg r v).origSize, contentOff := (s.writeReg r v).contentOff,
      code := (s.writeReg r v).code } := by
  cases r <;> rfl

end Sys2Proof.Machine
end

