-- ==== Sys2Proof/Machine/HostPrograms.lean ====
section
/-! DEFINITION. The host's programs as the spec writes them: the lines of spec/30_encoding.md R115 and R116, and the
pseudo-commands `c` and `d` of R118. The block's own step uses none of them. -/

namespace Sys2Proof.Machine

/-! ## Lines -/

/-- A command as the spec writes it: the mnemonic in capitals, then the operands as numbers (R115). -/
def commandText : Instr → String
  | .clr => "CLR"
  | .freq => "FREQ"
  | .tbuild => "TBUILD"
  | .cassign => "CASSIGN"
  | .encode => "ENCODE"
  | .bpinit => "BPINIT"
  | .wbits pattern length => "WBITS " ++ toString pattern.toNat ++ ", " ++ toString length
  | .buinit => "BUINIT"
  | .rbit => "RBIT"
  | .tdeser => "TDESER"
  | .slookup bit => "SLOOKUP " ++ toString bit.toNat
  | .decode => "DECODE"
  | .compress => "COMPRESS"
  | .decompress => "DECOMPRESS"

/-- `WR CMD, w`: what a command line stands for (R116). -/
def issueOf (w : Word) : Transaction := .writeReg cmdAddr (w.zeroExtend 64)

/-- `LOAD BUF, bytes`: from index 0; it sets no length register (R116). -/
def loadBuf (sp : Space) (bs : List Byte) : List Transaction :=
  (List.range bs.length).zipWith (fun k v => .writeBuf sp (BitVec.ofNat 64 k) v) bs

/-- `DUMP BUF, n`: BUF[0], …, BUF[n - 1] (R116). -/
def dumpBuf (sp : Space) (n : Nat) : List Transaction :=
  (List.range n).map fun k => .readBuf sp (BitVec.ofNat 64 k)

/-! ## Running them -/

/-- The next `n` steps, up to the first stop. -/
def runSteps : Nat → State → Host.Outcome State Fault Refusal
  | 0, s => .next s
  | n + 1, s =>
    match step s with
    | .next t => runSteps n t
    | .fault r => .fault r
    | .refused r => .refused r

/-- The host does these transactions next, and the machine makes as many steps (assumption 5). -/
def hostDoes (ts : List Transaction) (s : State) : Host.Outcome State Fault Refusal :=
  runSteps ts.length { s with pending := ts ++ s.pending }

/-- What the host's last read returned. -/
def State.lastReply (s : State) : Nat :=
  match s.replies with
  | [] => 0
  | v :: _ => v.toNat

/-- `DUMP BUF, LEN` after the line `RD LEN`: as many bytes as that read returned. Where a command of the expansion has
faulted the result is the fault and there is nothing to dump (R118). -/
def dumpAnswered (sp : Space) (s : State) : Host.Outcome State Fault Refusal :=
  match s.phase with
  | .faulted => .next s
  | .idle | .run => hostDoes (dumpBuf sp s.lastReply) s

/-- The lines of an expansion up to its `RD`, then its `DUMP` (R118). -/
def expansion (ts : List Transaction) (sp : Space) (s : State) : Host.Outcome State Fault Refusal :=
  match hostDoes ts s with
  | .next t => dumpAnswered sp t
  | .fault r => .fault r
  | .refused r => .refused r

/-! ## The pseudo-commands (R118) -/

/-- The lines of `c` up to its `DUMP`: `LOAD IBUF, input`, `WR IN_LEN, n`, `ENCODE`, `COMPRESS`, `RD AR_LEN`. -/
def compressLines (input : List Byte) : List Transaction :=
  loadBuf .ibuf input ++
    [.writeReg 0x0028 (BitVec.ofNat 64 input.length), issueOf (encode .encode), issueOf (encode .compress),
      .readReg 0x0030]

/-- The lines of `d` up to its `DUMP`: `LOAD ABUF, archive`, `WR AR_LEN, n`, `DECOMPRESS`, `RD OUT_LEN`. -/
def decompressLines (archive : List Byte) : List Transaction :=
  loadBuf .abuf archive ++
    [.writeReg 0x0030 (BitVec.ofNat 64 archive.length), issueOf (encode .decompress), .readReg 0x0040]

/-- The pseudo-command `c`: its lines, then `DUMP ABUF, AR_LEN`. -/
def pseudoCompress (input : List Byte) (s : State) : Host.Outcome State Fault Refusal :=
  expansion (compressLines input) .abuf s

/-- The pseudo-command `d`: its lines, then `DUMP OBUF, OUT_LEN`. -/
def pseudoDecompress (archive : List Byte) (s : State) : Host.Outcome State Fault Refusal :=
  expansion (decompressLines archive) .obuf s

end Sys2Proof.Machine
end

