-- ==== Sys2Proof/Laws/HostPrograms.lean ====
section
/-! SUPPORT. What the lines of the host's programs do (spec/30_encoding.md R116, R118). -/

namespace Sys2Proof.Machine

theorem runSteps_transacts {s t : State} {x : Transaction} {rest : List Transaction} (n : Nat)
    (hp : s.pending = x :: rest) (h : transact x { s with pending := rest } = .next t) :
    runSteps (n + 1) s = runSteps n t := by
  simp only [runSteps, step_transacts hp, h]

theorem toNat_index {sp : Space} {s : State} {k : Nat} (h : k < (s.caps.of sp).toNat) :
    (BitVec.ofNat 64 k).toNat = k :=
  (BitVec.toNat_ofNat _ _).trans (Nat.mod_eq_of_lt (Nat.lt_trans h (s.caps.of sp).isLt))

theorem index_inside {sp : Space} {s : State} {k : Nat} (h : k < (s.caps.of sp).toNat) :
    ¬ s.caps.of sp ≤ BitVec.ofNat 64 k := by
  rw [BitVec.le_def, toNat_index h]
  omega

/-- Reads inside the capacity answer their bytes one after the other. -/
theorem runSteps_reads (sp : Space) (rest : List Transaction) (idx : List Nat) :
    ∀ s : State, s.phase ≠ .run → (∀ k ∈ idx, k < (s.caps.of sp).toNat) →
      s.pending = (idx.map fun k => .readBuf sp (BitVec.ofNat 64 k)) ++ rest →
      runSteps idx.length s = .next { s with
        pending := rest
        replies := (idx.map fun k => (s.readByte sp k).zeroExtend 64).reverse ++ s.replies } := by
  induction idx with
  | nil =>
    intro s _ _ hp
    rw [List.map_nil, List.nil_append] at hp
    subst hp
    rfl
  | cons k ks ih =>
    intro s hs hk hp
    have hlt := hk k (.head _)
    rcases hostReadBuf_cases sp (BitVec.ofNat 64 k)
      (s := { s with pending := (ks.map fun k => .readBuf sp (BitVec.ofNat 64 k)) ++ rest }) hs with ⟨h, -⟩ | ⟨-, h⟩
    · exact absurd h (index_inside (s := s) hlt)
    · refine (runSteps_transacts _ hp h).trans
        ((ih (State.reply { s with pending := _ } _) hs (fun j hj => hk j (.tail _ hj)) rfl).trans ?_)
      rw [toNat_index hlt, List.map_cons, List.reverse_cons, List.append_assoc]
      rfl

/-- `DUMP` inside the capacity: the buffer's bytes are the last answers, and nothing else changes. -/
theorem hostDoes_dumpBuf (sp : Space) (n : Nat) (s : State) (hs : s.phase ≠ .run) (hn : n ≤ (s.caps.of sp).toNat) :
    hostDoes (dumpBuf sp n) s = .next { s with
      replies := ((s.readBytes sp 0 n).map (BitVec.zeroExtend 64)).reverse ++ s.replies } := by
  have h := runSteps_reads sp s.pending (List.range n) { s with pending := dumpBuf sp n ++ s.pending } hs
    (fun k hk => Nat.lt_of_lt_of_le (List.mem_range.1 hk) hn) rfl
  rw [hostDoes, dumpBuf, List.length_map]
  refine h.trans ?_
  simp only [State.readBytes, List.map_map, Function.comp_def, Nat.zero_add]
  rfl

/-- Writing bytes and replacing what is pending commute. -/
theorem writeBytes_setPending (sp : Space) (q : List Transaction) (bs : List Byte) :
    ∀ (a : Nat) (s : State), State.writeBytes { s with pending := q } sp a bs =
      { s.writeBytes sp a bs with pending := q } := by
  induction bs with
  | nil => exact fun _ _ => rfl
  | cons b bs ih =>
    intro a s
    refine Eq.trans ?_ (ih (a + 1) (s.writeByte sp a b))
    cases sp <;> rfl

/-- Writes inside the capacity of a buffer the host may write store their bytes from the index on. -/
theorem runSteps_writes (sp : Space) (hsp : sp ≠ .obuf) (rest : List Transaction) (bs : List Byte) :
    ∀ (a : Nat) (s : State), s.phase = .idle → a + bs.length ≤ (s.caps.of sp).toNat →
      s.pending =
        (List.range' a bs.length).zipWith (fun k v => .writeBuf sp (BitVec.ofNat 64 k) v) bs ++ rest →
      runSteps bs.length s = .next { s.writeBytes sp a bs with pending := rest } := by
  induction bs with
  | nil =>
    intro a s _ _ hp
    simp only [List.zipWith_nil_right, List.nil_append] at hp
    subst hp
    rfl
  | cons b bs ih =>
    intro a s hs hl hp
    rw [List.length_cons] at hl
    have hlt : a < (s.caps.of sp).toNat := by omega
    rw [List.length_cons, List.range'_succ, List.zipWith_cons_cons, List.cons_append] at hp
    rcases hostWriteBuf_cases sp (BitVec.ofNat 64 a) b
      (s := { s with pending :=
        (List.range' (a + 1) bs.length).zipWith (fun k v => .writeBuf sp (BitVec.ofNat 64 k) v) bs ++ rest })
      (by simp [hs]) with ⟨h, -⟩ | ⟨-, h, -⟩ | ⟨-, -, -, h⟩
    · exact absurd h (index_inside (s := s) hlt)
    · rcases h with h | h
      · simp [hs] at h
      · exact absurd h hsp
    · rw [toNat_index hlt] at h
      refine (runSteps_transacts _ hp h).trans
        ((ih (a + 1) (State.writeByte { s with pending := _ } sp a b) ?_ ?_ ?_).trans ?_)
      · simpa using hs
      · simpa using (by omega : a + 1 + bs.length ≤ (s.caps.of sp).toNat)
      · simp
      · exact congrArg (fun t : State => Host.Outcome.next { t with pending := rest })
          (writeBytes_setPending sp _ (b :: bs) a s)

/-- `LOAD` inside the capacity, in IDLE: the bytes stand in the buffer from index 0 on, and nothing else changes. -/
theorem hostDoes_loadBuf (sp : Space) (hsp : sp ≠ .obuf) (bs : List Byte) (s : State) (hs : s.phase = .idle)
    (hl : bs.length ≤ (s.caps.of sp).toNat) : hostDoes (loadBuf sp bs) s = .next (s.writeBytes sp 0 bs) := by
  have h := runSteps_writes sp hsp s.pending bs 0 { s with pending := loadBuf sp bs ++ s.pending } hs
    (by simpa using hl) (by rw [loadBuf, List.range_eq_range'])
  have hlen : (loadBuf sp bs).length = bs.length := by simp [loadBuf]
  rw [hostDoes, hlen, h, writeBytes_setPending]
  have hp := State.writeBytes_pending s sp 0 bs
  rw [← hp]

/-- An expansion whose lines end in FAULTED ends there: the result is the fault (R118). -/
theorem expansion_faulted {ts : List Transaction} {sp : Space} {s t : State} (h : hostDoes ts s = .next t)
    (ht : t.phase = .faulted) : expansion ts sp s = .next t := by
  simp only [expansion, h, dumpAnswered, ht]

/-- An expansion whose lines end in IDLE with a length that fits the buffer dumps that many bytes (R118). -/
theorem expansion_idle {ts : List Transaction} {sp : Space} {s t : State} (h : hostDoes ts s = .next t)
    (ht : t.phase = .idle) (hn : t.lastReply ≤ (t.caps.of sp).toNat) :
    expansion ts sp s = .next { t with
      replies := ((t.readBytes sp 0 t.lastReply).map (BitVec.zeroExtend 64)).reverse ++ t.replies } := by
  refine Eq.trans ?_ (hostDoes_dumpBuf sp _ t (by simp [ht]) hn)
  simp only [expansion, h, dumpAnswered, ht]

end Sys2Proof.Machine
end

