-- ==== Sys2Proof/Laws/PerInstr.lean ====
section
/-! SUPPORT. The per-command family: the encoder and the decoder agree (spec/30_encoding.md R90 to R94). The
first three lemmas read the fields of a word back. -/

namespace Sys2Proof

theorem opField_wordOf (op len : BitVec 8) (pat : BitVec 16) : opField (wordOf op len pat) = op := by
  simp only [opField, wordOf]
  apply BitVec.eq_of_getLsbD_eq
  intro i hi
  simp only [BitVec.getLsbD_extractLsb', BitVec.getLsbD_append, hi, decide_true, Bool.true_and]
  rw [if_neg (by omega), if_neg (by omega)]
  congr 1
  omega

theorem lenField_wordOf (op len : BitVec 8) (pat : BitVec 16) : lenField (wordOf op len pat) = len := by
  simp only [lenField, wordOf]
  apply BitVec.eq_of_getLsbD_eq
  intro i hi
  simp only [BitVec.getLsbD_extractLsb', BitVec.getLsbD_append, hi, decide_true, Bool.true_and]
  rw [if_neg (by omega), if_pos (by omega)]
  congr 1
  omega

theorem patField_wordOf (op len : BitVec 8) (pat : BitVec 16) : patField (wordOf op len pat) = pat := by
  simp only [patField, wordOf]
  apply BitVec.eq_of_getLsbD_eq
  intro i hi
  simp only [BitVec.getLsbD_extractLsb', BitVec.getLsbD_append, hi, decide_true, Bool.true_and]
  rw [if_pos (by omega)]
  congr 1
  omega

end Sys2Proof

namespace Sys2Proof.Laws.RoundTrip

/-- The word of a well-formed command decodes to that command. -/
def Statement (i : Instr) : Prop := i.wellFormed = true → decode (encode i) = .ok i

theorem clr : Statement .clr := fun _ => by decide

theorem freq : Statement .freq := fun _ => by decide

theorem tbuild : Statement .tbuild := fun _ => by decide

theorem cassign : Statement .cassign := fun _ => by decide

theorem encode : Statement .encode := fun _ => by decide

theorem bpinit : Statement .bpinit := fun _ => by decide

theorem wbits (pattern : BitVec 16) (length : Nat) : Statement (.wbits pattern length) := fun h => by
  have hl : length < 256 := by simpa [Instr.wellFormed] using h
  simp [Sys2Proof.encode, Sys2Proof.decode, opField_wordOf, lenField_wordOf, patField_wordOf, Nat.mod_eq_of_lt hl]

theorem buinit : Statement .buinit := fun _ => by decide

theorem rbit : Statement .rbit := fun _ => by decide

theorem tdeser : Statement .tdeser := fun _ => by decide

theorem slookup (bit : Bool) : Statement (.slookup bit) := fun _ => by cases bit <;> decide

theorem decode : Statement .decode := fun _ => by decide

theorem compress : Statement .compress := fun _ => by decide

theorem decompress : Statement .decompress := fun _ => by decide

end Sys2Proof.Laws.RoundTrip
end

