-- ==== Sys2Proof/Tests/Slice0.lean ====
section
/-! SUPPORT. Tests. Expected values come from the spec's encodings, examples and vectors (spec/95_test_vectors.md and the
Example bullets of the command rules), as each test says. After them, for each statement with hypotheses, a state and
operands that meet them together. -/

namespace Sys2Proof.Tests

open Sys2Proof Sys2Proof.Machine

set_option Elab.async false

/-! ## Helpers -/

/-- An instance with 64 bytes in each buffer. -/
def base : State := State.resetWith ⟨64, 64, 64, 64⟩

/-- A faulted state. -/
def broken : State := { base with phase := .faulted, fault := true, faultCode := 0x02, faultInfo := 3 }

/-- Bytes from index 0 of a buffer on. -/
def listed (bs : List Byte) : Memory := (List.range bs.length).zip bs

/-- The next state, if the outcome is one. -/
def nextOf : Host.Outcome State Fault Refusal → Option State
  | .next t => some t
  | .fault _ => none
  | .refused _ => none

/-- The next state has a property. -/
def ends (i : Instr) (s : State) (p : State → Bool) : Bool := (nextOf (exec i s)).any p

theorem exists_of_any {o : Host.Outcome State Fault Refusal} {p : State → Bool} (h : (nextOf o).any p = true) :
    ∃ t, o = .next t ∧ p t = true := by
  cases o with
  | next t => exact ⟨t, rfl, by simpa [nextOf] using h⟩
  | fault r => simp [nextOf] at h
  | refused r => simp [nextOf] at h

theorem exists_of_ends {i : Instr} {s : State} {p : State → Bool} (h : ends i s p = true) :
    ∃ t, exec i s = .next t ∧ p t = true := exists_of_any h

theorem exists_of_runAll {is : List Instr} {s : State} {p : State → Bool} (h : (runAll is s).any p = true) :
    ∃ t, runAll is s = some t ∧ p t = true := (Option.any_eq_true _ _).1 h

/-- Whether the outcome is the model's fault of a walk without end. -/
def isStuck : Host.Outcome State Fault Refusal → Bool
  | .fault .walkStuck => true
  | _ => false

/-- The input of the known vector, 5 x A, 3 x B, 2 x C (spec/95_test_vectors.md). -/
def knownInput : List Byte := [0x41, 0x41, 0x41, 0x41, 0x41, 0x42, 0x42, 0x42, 0x43, 0x43]

def knownState : State := { base with ibuf := listed knownInput, inLen := 10 }

/-- Counters 5, 3, 2 (spec/40_frequency_table.md R131). -/
def knownFreq : FreqTable := tset (tset (tset (Vector.replicate 256 0) 0x41 5) 0x42 3) 0x43 2

/-- The code of spec/42_code_assigner.md R160. -/
def knownCode : CodeTable := tset (tset (tset noCodes 0x41 ⟨0, 1⟩) 0x42 ⟨2, 2⟩) 0x43 ⟨3, 2⟩

/-- Its present codes, in order. -/
def knownPresent : List (Byte × CodeEntry) := [(0x41, ⟨0, 1⟩), (0x42, ⟨2, 2⟩), (0x43, ⟨3, 2⟩)]

/-- The archive of spec/46_container_codec.md R235. -/
def knownArchive : List Byte :=
  [0x00, 0x6C, 0x62, 0x63, 0x61, 0x00, 0x0A, 0x00, 0x00, 0x00, 0x00, 0x00, 0x00, 0x00, 0x1E, 0x00, 0x00, 0x00] ++
    [0x41, 0x00, 0x00, 0x01, 0x42, 0x02, 0x00, 0x02, 0x43, 0x03, 0x00, 0x02] ++ [0x05, 0x5E]

def archiveState : State := { base with abuf := listed knownArchive, arLen := 32 }

/-! ## WellFormed and decoding -/

/-- The one check refuses a length that the 8-bit field cannot hold. -/
theorem test_wellFormed_refuses : Instr.wellFormed (.wbits 0 256) = false := by decide

theorem test_wellFormed_limit : Instr.wellFormed (.wbits 0 255) = true := by decide

/-- The words written from the opcode map: `op` in bits 31:24, `len` in 23:16, `pat` in 15:0 (R90, R91). -/
theorem test_decode_words :
    decode 0b00000001_00000000_0000000000000000 = .ok .clr ∧
    decode 0b00000010_00000000_0000000000000000 = .ok .freq ∧
    decode 0b00000011_00000000_0000000000000000 = .ok .tbuild ∧
    decode 0b00000100_00000000_0000000000000000 = .ok .cassign ∧
    decode 0b00000101_00000000_0000000000000000 = .ok .encode ∧
    decode 0b00000110_00000000_0000000000000000 = .ok .bpinit ∧
    decode 0b00000111_00000011_0000000000000101 = .ok (.wbits 0b101 3) ∧
    decode 0b00001000_00000000_0000000000000000 = .ok .buinit ∧
    decode 0b00001001_00000000_0000000000000000 = .ok .rbit ∧
    decode 0b00001010_00000000_0000000000000000 = .ok .tdeser ∧
    decode 0b00001011_00000000_0000000000000001 = .ok (.slookup true) ∧
    decode 0b00001011_00000000_0000000000000000 = .ok (.slookup false) ∧
    decode 0b00001100_00000000_0000000000000000 = .ok .decode ∧
    decode 0b00001101_00000000_0000000000000000 = .ok .compress ∧
    decode 0b00001110_00000000_0000000000000000 = .ok .decompress := by
  decide

/-- The three fields of WBITS are read apart: every bit of the pattern set, then every bit of the length. -/
theorem test_decode_wbits_fields :
    decode 0x0700FFFF = .ok (.wbits 0xFFFF 0) ∧ decode 0x07FF0000 = .ok (.wbits 0 255) := by
  decide

/-- Illegal words (R93). -/
theorem test_decode_illegal :
    decode 0x00000000 = .error (.unassignedOpcode 0x00) ∧ decode 0x0F000000 = .error (.unassignedOpcode 0x0F) ∧
    decode 0xFF000000 = .error (.unassignedOpcode 0xFF) ∧ decode 0x02000001 = .error (.mustBeZero 0x02) ∧
    decode 0x01010000 = .error (.mustBeZero 0x01) ∧ decode 0x0B000002 = .error (.mustBeZero 0x0B) ∧
    decode 0x0B010000 = .error (.mustBeZero 0x0B) := by
  decide

/-- R115's examples. -/
theorem test_text : commandText (.wbits 0b101 3) = "WBITS 5, 3" ∧ commandText (.slookup true) = "SLOOKUP 1" := by
  decide +kernel

/-- The table's numbering is the word's own. -/
theorem test_decodeTableWord : decodeTableWord 32 0x07030005 = some (.wbits 0b101 3) := by decide

/-- `withFetchWord` makes the next step issue the word: `CMD` holds it, and the command has ended. -/
theorem test_withFetchWord :
    ((nextOf (step (State.reset.withFetchWord 32 0x02000000))).any fun t =>
      t.cmd == 0x02000000 && t.done && t.pending.isEmpty) = true := by
  decide +kernel

/-! ## Commands -/

/-- R273's example: after CLR in FAULTED the phase is IDLE, the status 0, `CMD` the CLR word. -/
theorem test_clr : ends .clr broken (fun t => decide (t.phase = .idle ∧ t.status = 0 ∧ t.faultCode = 0 ∧
    t.cmd = 0x01000000)) = true := by decide +kernel

/-- R131's example. -/
theorem test_freq : ends .freq knownState (fun t => decide (tget t.freq 0x41 = 5 ∧ tget t.freq 0x42 = 3 ∧
    tget t.freq 0x43 = 2 ∧ tget t.freq 0x44 = 0 ∧ t.done = true)) = true := by decide +kernel

/-- R131: an input above the capacity is ALLOC_FAILURE. -/
theorem test_freq_alloc : ends .freq { base with inLen := 65 } (fun t => decide (t.phase = .faulted ∧
    t.faultCode = 0x01 ∧ t.faultInfo = 65)) = true := by decide +kernel

/-- R140's example: root 257 = (65, 256), 256 = (66, 67). -/
theorem test_tbuild : ends .tbuild { base with freq := knownFreq } (fun t => decide (t.root = 257 ∧ t.mergeCnt = 2 ∧
    t.wl = [257] ∧ t.node[257]? = some ⟨true, .internal, 0, 10, 65, 256⟩ ∧
    t.node[256]? = some ⟨true, .internal, 0, 5, 66, 67⟩)) = true := by decide +kernel

/-- R143: no leaf. -/
theorem test_tbuild_empty : ends .tbuild base (fun t => decide (t.nodata = true ∧ t.rootValid = false ∧
    t.done = true)) = true := by decide +kernel

/-- R160's example. -/
theorem test_cassign : ((runAll [.tbuild, .cassign] { base with freq := knownFreq }).any fun t =>
    decide (presentCodes t.code = knownPresent ∧ t.rootValid = false)) = true := by decide +kernel

/-- R170's example. -/
theorem test_encode : ends .encode knownState (fun t => decide (presentCodes t.code = knownPresent ∧ tget t.freq 0x42 = 3 ∧
    t.nodata = false)) = true := by decide +kernel

/-- R181's example: PBUF = FF FF FF becomes 00 FF FF. -/
theorem test_bpinit : ends .bpinit { base with pkLen := 3, pbuf := listed [0xFF, 0xFF, 0xFF], bpByte := 2, bpBit := 5 }
    (fun t => decide (t.pbuf = listed [0x00, 0xFF, 0xFF] ∧ t.bpByte = 0 ∧ t.bpBit = 0)) = true := by decide +kernel

/-- R183's example: A0 at (0, 3), then BF F0 at (1, 4). -/
theorem test_wbits : ((runAll [.bpinit, .wbits 0b101 3, .wbits 0x1FF 9] { base with pkLen := 2 }).any fun t =>
    decide (t.pbuf = listed [0xBF, 0xF0] ∧ t.bpByte = 1 ∧ t.bpBit = 4)) = true := by decide +kernel

/-- R289: length 17. -/
theorem test_wbits_illegal : ends (.wbits 0 17) base (fun t => decide (t.faultCode = 0x0B ∧ t.faultInfo = 17)) = true := by
  decide +kernel

/-- R196's example. -/
theorem test_buinit : ends .buinit { base with buByte := 5, buBit := 3, eod := true } (fun t => decide (t.buByte = 0 ∧
    t.buBit = 0 ∧ t.eod = false)) = true := by decide +kernel

/-- R199's example: the third bit of A0 is 1. -/
theorem test_rbit : ((runAll [.buinit, .rbit, .rbit, .rbit] { base with pkLen := 1, pbuf := listed [0xA0] }).any fun t =>
    decide (t.rdata = 1 ∧ t.buByte = 0 ∧ t.buBit = 3 ∧ t.eod = false)) = true := by decide +kernel

/-- R199's example: at (1, 0) the next bit is end of data. -/
theorem test_rbit_eod : ends .rbit { base with pkLen := 1, buByte := 1, rdata := 7 } (fun t => decide (t.rdata = 0 ∧
    t.eod = true ∧ t.buByte = 1 ∧ t.buBit = 0 ∧ t.done = true)) = true := by decide +kernel

/-- R210's example. -/
theorem test_tdeser : ends .tdeser { archiveState with contentOff := 30 } (fun t => decide (presentCodes t.code = knownPresent ∧
    t.entryCnt = 3)) = true := by decide +kernel

/-- R322: TDESER on the state of reset raises BAD_ENTRY_COUNT(0). -/
theorem test_tdeser_reset : ends .tdeser base (fun t => decide (t.faultCode = 0x04 ∧ t.faultInfo = 0)) = true := by
  decide +kernel

/-- R215's example: 1 is no match, 10 is 0x42. -/
theorem test_slookup : ((runAll [.slookup true, .slookup false] { base with code := knownCode }).any fun t =>
    decide (t.rdata = 0x42 ∧ t.matched = true ∧ t.cand = 0 ∧ t.clen = 0)) = true := by decide +kernel

/-- R216: the sixteenth bit without a match. -/
theorem test_slookup_unbounded : ends (.slookup true) { base with clen := 15, emitCnt := 9 } (fun t =>
    decide (t.faultCode = 0x06 ∧ t.faultInfo = 9)) = true := by decide +kernel

/-- R220's example. -/
theorem test_decode : ends .decode { base with code := knownCode, origSize := 10, pkLen := 2, pbuf := listed [0x05, 0x5E] }
    (fun t => decide (t.obuf = listed knownInput ∧ t.outLen = 10 ∧ t.emitCnt = 10 ∧ t.buByte = 1 ∧ t.buBit = 7)) = true := by
  decide +kernel

/-- R222: content that ends early. -/
theorem test_decode_truncated : ends .decode
    { base with code := knownCode, origSize := 12, pkLen := 2, pbuf := listed [0x05, 0x5E] } (fun t => decide (t.faultCode = 0x08 ∧ t.faultInfo = 11)) = true := by decide +kernel

/-- R235's example. -/
theorem test_compress : ends .compress { knownState with code := knownCode } (fun t => decide (t.abuf = listed
    knownArchive ∧ t.arLen = 32 ∧ t.pkLen = 4 ∧ t.maxLen = 2 ∧ t.entryCnt = 3)) = true := by decide +kernel

/-- R244: non-empty input, empty table. -/
theorem test_compress_unencodable : ends .compress knownState (fun t => decide (t.faultCode = 0x05 ∧
    t.faultInfo = 0)) = true := by decide +kernel

/-- R250's example. -/
theorem test_decompress : ends .decompress archiveState (fun t => decide (t.obuf = listed knownInput ∧ t.outLen = 10 ∧
    t.pkLen = 2 ∧ t.origSize = 10)) = true := by decide +kernel

/-- R251: a wrong first byte. -/
theorem test_decompress_magic : ends .decompress { archiveState with abuf := listed (0xFF :: knownArchive.tail) }
    (fun t => decide (t.faultCode = 0x02 ∧ t.faultInfo = 0)) = true := by decide +kernel

/-- R30, R32: NODE_LINK and TREE_ROOT as the host reads them after R140's example. -/
theorem test_tree_registers : ends .tbuild { base with freq := knownFreq } (fun t =>
    decide (t.readReg (.nodeLink 257) = 0xC0410100 ∧ t.readReg (.nodeLink 65) = 0x80000041 ∧
      t.readReg .treeRoot = 0x8101 ∧ t.readReg .wlLen = 1)) = true := by decide +kernel

/-- R33: CODE[i] as the host writes and reads it; bits above 23 are ignored. -/
theorem test_code_register : ((nextOf (hostWriteReg (0x1800 + 8 * 0x41) 0xFFFFFFFFFF020003 base)).any fun t =>
    decide (t.readReg (.code 0x41) = 0x020003)) = true := by decide +kernel

/-! ## The pseudo-commands (R118) -/

/-- R118 with R235's example: the last answers are the archive's bytes, and before them the answer to `RD AR_LEN`. -/
theorem test_pseudo_c : ((nextOf (pseudoCompress knownInput base)).any fun t =>
    decide (t.replies.reverse = 32 :: knownArchive.map (BitVec.zeroExtend 64) ∧ t.pending = [])) = true := by
  decide +kernel

/-- R118 with R250's example: the length and the bytes of the original. -/
theorem test_pseudo_d : ((nextOf (pseudoDecompress knownArchive base)).any fun t =>
    decide (t.replies.reverse = 10 :: knownInput.map (BitVec.zeroExtend 64) ∧ t.pending = [])) = true := by
  decide +kernel

/-- R118 with R251: an archive with a wrong first byte; the result is the fault, and nothing is dumped. -/
theorem test_pseudo_d_faults : ((nextOf (pseudoDecompress (0xFF :: knownArchive.tail) base)).any fun t =>
    decide (t.phase = .faulted ∧ t.faultCode = 0x02 ∧ t.replies.length = 1 ∧ t.pending = [])) = true := by
  decide +kernel

/-! ## States and operands that meet the statements' hypotheses

One theorem per statement with hypotheses; where a statement has several clauses, each clause at a boundary value. -/

/-! ### Encoding and phases -/

theorem meets_DecodeOfEncode : Instr.wellFormed (.wbits 0xFFFF 255) = true ∧ Instr.wellFormed (.slookup true) = true := by
  decide

theorem meets_EncodeOfDecode : decode 0x07FFFFFF = .ok (.wbits 0xFFFF 255) ∧ decode 0x0B000001 = .ok (.slookup true) := by
  decide

theorem meets_IllegalWords :
    base.phase = .idle ∧ decode 0x00FFFFFF = .error (.unassignedOpcode 0x00) ∧
    decode 0x0F000000 = .error (.unassignedOpcode 0x0F) ∧ decode 0x0B000002 = .error (.mustBeZero 0x0B) ∧
    decode 0x0E000001 = .error (.mustBeZero 0x0E) := by
  decide

theorem meets_StepRunsTheDecodedCommand :
    base.pending = [] ∧
    ({ base with pending := [.writeReg 0x0000 0xFFFFFFFF01000000] } : State).pending =
      .writeReg 0x0000 0xFFFFFFFF01000000 :: [] ∧
    decode ((0xFFFFFFFF01000000 : Reg64).truncate 32) = .ok .clr := by
  decide

theorem meets_FaultedIgnoresAllButClr : broken.phase = .faulted ∧ (0x02000000 : Word) ≠ 0x01000000 := by decide

theorem meets_ClrResets : base.phase = .idle ∧ broken.phase = .faulted := by decide

theorem meets_FaultEntryRecords :
    ({ base with inLen := 65 } : State).phase = .idle ∧
    freqBody (State.accept { base with inLen := 65 }) = .raised .allocFailure 65 := by
  decide +kernel

/-- An input one byte too long. -/
def overfull : State := { base with inLen := 65 }

theorem meets_AfterAFaultNothingIsKnown :
    overfull.phase = .idle ∧ ∃ t t' : State,
      exec .freq overfull = .next t ∧ exec .encode { overfull with freq := knownFreq } = .next t' ∧
      t.phase = .faulted ∧ t'.phase = .faulted ∧ t.faultCode = t'.faultCode ∧ t.faultInfo = t'.faultInfo :=
  ⟨rfl, _, _,
    (show exec .freq overfull = command freqBody overfull from rfl).trans
      (command_raised (f := .allocFailure) (n := 65) rfl (by decide +kernel)),
    (show exec .encode { overfull with freq := knownFreq } = command encodeBody { overfull with freq := knownFreq }
      from rfl).trans (command_raised (f := .allocFailure) (n := 65) rfl (by decide +kernel)),
    rfl, rfl, rfl, rfl⟩

theorem base_treeOk : base.treeOk := fun _ => ⟨fun _ => ⟨rfl, rfl, rfl, rfl⟩, fun h => absurd h (by decide)⟩

theorem meets_EveryCommandEnds : base.phase = .idle ∧ (Instr.cassign = .cassign → base.treeOk) :=
  ⟨rfl, fun _ => base_treeOk⟩

theorem meets_OnlyClrOrResetLeavesFaulted :
    broken.phase = .faulted ∧ step broken = .next broken ∧
    (∃ t, step { broken with pending := [.writeReg 0x0000 0x01000000] } = .next t) ∧
    ∃ t, step { broken with pending := [.reset] } = .next t :=
  ⟨rfl, rfl, ⟨_, rfl⟩, _, rfl⟩

/-! ### The encoder -/

theorem meets_FreqCountsTheInput :
    base.phase = .idle ∧ base.caps.ibuf < ({ base with inLen := 65 } : State).inLen ∧
    ({ base with inLen := 64 } : State).inLen ≤ base.caps.ibuf := by
  decide

theorem meets_TbuildWithoutLeaves : base.phase = .idle ∧ ∀ b : Byte, tget base.freq b = 0 :=
  ⟨rfl, fun b => tget_replicate 0 b⟩

/-- One symbol, counted once. -/
def lone : State := { base with freq := tset (Vector.replicate 256 0) 0xFF 1 }

theorem meets_TbuildOneLeaf :
    lone.phase = .idle ∧ tget lone.freq 0xFF ≠ 0 ∧ ∀ c : Byte, c ≠ 0xFF → tget lone.freq c = 0 :=
  ⟨rfl, by decide +kernel, fun c h => (tget_tset_other _ _ h).trans (tget_replicate 0 c)⟩

theorem lone_leaves : (leafSymbols lone.freq).length = 1 := by decide +kernel

/-- Two symbols with equal counts. -/
def pair : State := { base with freq := tset (tset (Vector.replicate 256 0) 0x00 1) 0xFF 1 }

theorem pair_leaves : (leafSymbols pair.freq).length = 2 := by decide +kernel

theorem pair_has_leaves : leafSymbols pair.freq ≠ [] := fun h => by simpa [h] using pair_leaves

theorem pair_codes : ∃ t, runAll [.tbuild, .cassign] pair = some t ∧ decide (present t.code 0xFF) = true :=
  exists_of_runAll (by decide +kernel)

theorem meets_TbuildBuildsATree :
    pair.phase = .idle ∧ (leafSymbols pair.freq).length = 2 ∧ lone.phase = .idle ∧
    (leafSymbols lone.freq).length = 1 ∧ 0 < 1 :=
  ⟨rfl, pair_leaves, rfl, lone_leaves, by decide⟩

theorem meets_RootFrequencyIsTheSum :
    pair.phase = .idle ∧ freqSum pair.freq < 2 ^ 64 ∧ leafSymbols pair.freq ≠ [] ∧
    ∃ t, exec .tbuild pair = .next t ∧
      decide (t.node[256]? = some ⟨true, .internal, 0, 2, 0, 255⟩ ∧
        t.node[0]? = some ⟨true, .leaf, 0, 1, 0, 0⟩ ∧ t.node[255]? = some ⟨true, .leaf, 255, 1, 0, 0⟩) = true :=
  ⟨rfl, by decide +kernel, pair_has_leaves, exists_of_ends (by decide +kernel)⟩

/-- The work list of `pair`. -/
def pairItems : List Item := [⟨0, 1⟩, ⟨255, 1⟩]

theorem meets_MergeStepKeepsTheOrder :
    pairItems = [] ++ [⟨0, 1⟩, ⟨255, 1⟩] ∧ pairItems.Pairwise (fun x y => before x y = true) ∧
    (∀ x ∈ pairItems, x.id.toNat < 256 + (254 : BitVec 8).toNat) ∧ (254 : BitVec 8).toNat < 255 ∧
    pair.phase = .idle ∧ leafSymbols pair.freq ≠ [] :=
  ⟨rfl, by decide, by decide, by decide, rfl, pair_has_leaves⟩

theorem meets_CassignWithoutTree : base.phase = .idle ∧ base.rootValid = false := by decide

/-- An arena with a left-to-right chain of `n` internal nodes: leaf k at depth k + 1, the last two at depth n. -/
def chain (n : Nat) : Arena := tableOf 511 fun i =>
  if i ≤ n then ⟨true, .leaf, BitVec.ofNat 8 i, 1, 0, 0⟩
  else if 256 ≤ i ∧ i < 256 + n then
    ⟨true, .internal, 0, 1, BitVec.ofNat 9 (i - 256), if i + 1 = 256 + n then BitVec.ofNat 9 n else BitVec.ofNat 9 (i + 1)⟩
  else Node.empty

def chained (n : Nat) : State := { base with node := chain n, rootValid := true, root := 256, wl := [256] }

theorem meets_CassignOneLeaf :
    ({ chained 0 with root := 0 } : State).phase = .idle ∧ ({ chained 0 with root := 0 } : State).rootValid = true ∧
    (chained 0).node[(0 : NodeId).toNat]? = some ⟨true, .leaf, 0, 1, 0, 0⟩ := by
  decide +kernel

/-- Depth 16 is accepted and depth 17 is not: the first leaf of the chain of 17 that is too deep is symbol 16. -/
theorem meets_CassignReadsThePaths :
    ∃ nd leaves nd' leaves',
      (chained 16).phase = .idle ∧ (chained 16).rootValid = true ∧
      (chained 16).node[(chained 16).root.toNat]? = some nd ∧ nd.kind = .internal ∧
      treeLeaves (chained 16).node 511 (chained 16).root = some leaves ∧ (leaves.map Prod.snd).Nodup ∧
      (∀ x ∈ leaves, x.1.length ≤ 16) ∧
      (chained 17).node[(chained 17).root.toNat]? = some nd' ∧ nd'.kind = .internal ∧
      treeLeaves (chained 17).node 511 (chained 17).root = some leaves' ∧ (leaves'.map Prod.snd).Nodup ∧
      leaves'.find? (fun y => decide (16 < y.1.length)) = some (List.replicate 16 true ++ [false], 16) :=
  ⟨⟨true, .internal, 0, 1, 0, 257⟩, (treeLeaves (chained 16).node 511 (chained 16).root).getD [],
    ⟨true, .internal, 0, 1, 0, 257⟩, (treeLeaves (chained 17).node 511 (chained 17).root).getD [], by decide +kernel⟩

/-- A root whose left child, 511, names no node. -/
def torn : State := { chained 1 with
  node := (chain 1).setIfInBounds 256 ⟨true, .internal, 0, 1, 511, 1⟩ }

theorem meets_CassignStopsOnABrokenTree :
    torn.phase = .idle ∧ torn.rootValid = true ∧ treeLeaves torn.node 511 torn.root = none := by
  decide +kernel

/-- It stops there. -/
theorem test_cassign_stuck : isStuck (exec .cassign torn) = true := by decide +kernel

theorem meets_CassignConsumesTheTree :
    (chained 1).phase = .idle ∧ ∃ t, exec .cassign (chained 1) = .next t ∧ decide (t.phase = .idle) = true :=
  ⟨rfl, exists_of_ends (by decide +kernel)⟩

theorem meets_CodesArePrefixFree :
    pair.phase = .idle ∧ (∃ t, runAll [.tbuild, .cassign] pair = some t ∧ decide (present t.code 0xFF) = true) ∧
    (leafSymbols lone.freq).length = 1 ∧
    ∃ t, runAll [.tbuild, .cassign] lone = some t ∧ decide (present t.code 0xFF) = true :=
  ⟨rfl, pair_codes, lone_leaves, exists_of_runAll (by decide +kernel)⟩

theorem meets_CodesAreComplete :
    pair.phase = .idle ∧ 2 ≤ (leafSymbols pair.freq).length ∧
    ∃ t, runAll [.tbuild, .cassign] pair = some t ∧ decide (present t.code 0xFF) = true :=
  ⟨rfl, Nat.le_of_eq pair_leaves.symm, pair_codes⟩

theorem meets_MoreFrequentIsNeverLonger :
    ({ base with freq := knownFreq } : State).phase = .idle ∧ freqSum knownFreq < 2 ^ 64 ∧
    tget knownFreq 0x43 < tget knownFreq 0x42 ∧ tget knownFreq 0x43 ≠ 0 ∧
    ∃ t, runAll [.tbuild, .cassign] { base with freq := knownFreq } = some t ∧ t.done = true :=
  ⟨rfl, by decide +kernel, by decide +kernel, by decide +kernel, exists_of_runAll (by decide +kernel)⟩

theorem meets_EncodeIsItsThreeCommands :
    base.phase = .idle ∧ base.caps.ibuf < ({ base with inLen := 65 } : State).inLen ∧
    ({ base with inLen := 64 } : State).inLen ≤ base.caps.ibuf ∧
    ∃ t, exec .encode base = .next t ∧ decide (t.done = true) = true :=
  ⟨rfl, by decide, by decide, exists_of_ends (by decide +kernel)⟩

/-- Seventeen distinct bytes, the bound itself. -/
def wide : State := { base with ibuf := listed ((List.range 17).map (BitVec.ofNat 8)), inLen := 17 }

theorem meets_EncodeCompletes :
    wide.phase = .idle ∧ wide.inLen ≤ wide.caps.ibuf ∧
    (allSymbols.filter fun b => decide (b ∈ wide.input)).length = 17 := by
  decide +kernel

/-! ### The packer and the unpacker -/

theorem meets_BpinitStartsPacking :
    base.phase = .idle ∧ base.caps.pbuf < ({ base with pkLen := 65 } : State).pkLen ∧
    ({ base with pkLen := 64 } : State).pkLen ≤ base.caps.pbuf ∧ base.pkLen = 0 ∧ 0 < 1 ∧ 1 ≤ 16 := by
  decide

/-- The last sixteen bits of the declared capacity, and a cursor that stands behind it. -/
theorem meets_WbitsAppendsBits :
    ({ base with pkLen := 3, bpByte := 1 } : State).phase = .idle ∧
    ({ base with pkLen := 3, bpByte := 1 } : State).pkLen ≤ base.caps.pbuf ∧
    ({ base with pkLen := 3, bpByte := 1 } : State).packPos + 16 =
      8 * ({ base with pkLen := 3, bpByte := 1 } : State).pkLen.toNat ∧
    ({ base with bpByte := 9 } : State).pkLen ≤ base.caps.pbuf := by
  decide

theorem meets_WbitsIllegalOperand : base.phase = .idle ∧ 16 < 17 := by decide

theorem meets_WbitsOverrun :
    base.phase = .idle ∧ 16 ≤ 16 ∧ base.caps.pbuf < ({ base with pkLen := 65 } : State).pkLen ∧
    ({ base with pkLen := 3, bpByte := 1, bpBit := 1 } : State).pkLen ≤ base.caps.pbuf ∧
    8 * ({ base with pkLen := 3, bpByte := 1, bpBit := 1 } : State).pkLen.toNat <
      ({ base with pkLen := 3, bpByte := 1, bpBit := 1 } : State).packPos + 16 ∧
    8 * ({ base with pkLen := 3, bpByte := 5 } : State).pkLen.toNat <
      ({ base with pkLen := 3, bpByte := 5 } : State).packPos + 1 := by
  decide

theorem meets_PackingFitsExactly :
    ({ base with pkLen := 1 } : State).phase = .idle ∧ ({ base with pkLen := 1 } : State).pkLen ≤ base.caps.pbuf ∧
    (operandBits [(0x1F, 5), (0x7, 3)]).length = 8 ∧
    ∃ t, runAll (.bpinit :: packAll [(0x1F, 5), (0x7, 3)]) { base with pkLen := 1 } = some t ∧ t.done = true :=
  ⟨rfl, by decide, by decide, exists_of_runAll (by decide +kernel)⟩

theorem meets_BuinitStartsUnpacking :
    base.phase = .idle ∧ base.caps.pbuf < ({ base with pkLen := 65 } : State).pkLen ∧
    ({ base with pkLen := 64 } : State).pkLen ≤ base.caps.pbuf ∧ base.pkLen = 0 ∧ base.pkLen ≤ base.caps.pbuf := by
  decide

theorem meets_RbitReadsTheNextBit :
    base.phase = .idle ∧ base.caps.pbuf < ({ base with pkLen := 65 } : State).pkLen ∧
    ({ base with pkLen := 64, buByte := 64 } : State).pkLen ≤ ({ base with pkLen := 64, buByte := 64 } : State).buByte ∧
    ({ base with pkLen := 64, buByte := 63, buBit := 7 } : State).pkLen ≤ base.caps.pbuf ∧
    ({ base with pkLen := 64, buByte := 63, buBit := 7 } : State).buByte <
      ({ base with pkLen := 64, buByte := 63, buBit := 7 } : State).pkLen := by
  decide

theorem meets_UnpackerReturnsThePackedBits :
    ({ base with pkLen := 1 } : State).phase = .idle ∧ ({ base with pkLen := 1 } : State).pkLen ≤ base.caps.pbuf ∧
    7 < 8 * (((operandBits [(0x5, 3)]).length + 7) / 8) ∧
    ∃ t, runAll (.bpinit :: packAll [(0x5, 3)]) { base with pkLen := 1 } = some t ∧ t.done = true :=
  ⟨rfl, by decide, by decide, exists_of_runAll (by decide +kernel)⟩

/-! ### The decoder -/

/-- An instance whose archive buffer holds a full table. -/
def roomy : State := State.resetWith ⟨64, 2048, 64, 64⟩

/-- A content offset and an archive length. -/
def offset (off len : Nat) : State :=
  { roomy with contentOff := BitVec.ofNat 32 off, arLen := BitVec.ofNat 64 len }

/-- A full table, and the three entries of distinct symbols of the known archive. -/
theorem meets_TdeserStoresTheEntries :
    (offset 1042 1042).phase = .idle ∧ (offset 1042 1042).arLen ≤ (offset 1042 1042).caps.abuf ∧ 256 ≤ 256 ∧
    (offset 1042 1042).contentOff.toNat = 18 + 4 * 256 ∧
    (offset 1042 1042).contentOff.toNat ≤ (offset 1042 1042).arLen.toNat ∧
    ∀ i, i < 3 → ∀ j, j < 3 → i < j →
      archiveState.readByte .abuf (18 + 4 * j) ≠ archiveState.readByte .abuf (18 + 4 * i) := by
  decide +kernel

/-- Each of the checks at its boundary. -/
theorem meets_TdeserChecks :
    roomy.phase = .idle ∧ roomy.caps.abuf < (offset 18 2049).arLen ∧ (offset 18 2048).arLen ≤ roomy.caps.abuf ∧
    (offset 17 2048).contentOff.toNat < 18 ∧ ((offset 19 2048).contentOff.toNat - 18) % 4 ≠ 0 ∧
    256 < ((offset 1046 2048).contentOff.toNat - 18) / 4 ∧
    (offset 1042 1041).arLen.toNat < (offset 1042 1041).contentOff.toNat ∧
    (offset 1042 1042).contentOff.toNat = 18 + 4 * 256 ∧ (offset 18 18).contentOff.toNat = 18 + 4 * 0 := by
  decide

theorem base_candidateOk : base.candidateOk := fun _ => by decide

/-- The fifteenth bit read, the table without and with a matching entry. -/
def late : State := { base with clen := 15, cand := 0x7FFF }

theorem late_candidateOk : late.candidateOk := fun _ => by decide

theorem meets_SlookupScansTheTable :
    base.phase = .idle ∧ base.candidateOk ∧ late.candidateOk ∧
    (CodeEntry.mk 0xFFFF 16).pat.toNat = 2 * late.cand.toNat + true.toNat ∧
    (CodeEntry.mk 0xFFFF 16).len.toNat = late.clen.toNat + 1 ∧
    (tget (tset noCodes 0x00 ⟨0xFFFF, 16⟩) 0x00 = ⟨0xFFFF, 16⟩ ∧ ∀ b : Byte, b < 0x00 → False) ∧
    (∀ b : Byte, tget late.code b ≠ ⟨0xFFFF, 16⟩) ∧ late.clen.toNat = 15 ∧
    (CodeEntry.mk 1 1).pat.toNat = 2 * base.cand.toNat + true.toNat ∧
    (CodeEntry.mk 1 1).len.toNat = base.clen.toNat + 1 ∧ (∀ b : Byte, tget base.code b ≠ ⟨1, 1⟩) ∧
    base.clen.toNat < 15 :=
  ⟨rfl, base_candidateOk, late_candidateOk, by decide, by decide, by decide +kernel,
    fun b => by simp [late, base, State.resetWith, CodeEntry.absent], rfl, by decide, by decide,
    fun b => by simp [base, State.resetWith, CodeEntry.absent], by decide⟩

theorem meets_SlookupMatchesProperEntriesOnly :
    ({ base with code := knownCode } : State).phase = .idle ∧ ({ base with code := knownCode } : State).candidateOk ∧
    ∃ t, exec (.slookup false) { base with code := knownCode } = .next t ∧
      decide (t.phase = .idle ∧ t.matched = true) = true :=
  ⟨rfl, fun _ => by decide, exists_of_ends (by decide +kernel)⟩

theorem meets_DecodeStart :
    base.phase = .idle ∧ base.caps.pbuf < ({ base with pkLen := 65 } : State).pkLen ∧
    ({ base with pkLen := 64 } : State).pkLen ≤ base.caps.pbuf ∧
    base.caps.obuf < ({ base with origSize := 65 } : State).origSize ∧ base.origSize = 0 := by
  decide

theorem tget_known {b : Byte} (h1 : b ≠ 0x41) (h2 : b ≠ 0x42) (h3 : b ≠ 0x43) : tget knownCode b = ⟨0, 0⟩ := by
  rw [knownCode, tget_tset_other _ _ h3, tget_tset_other _ _ h2, tget_tset_other _ _ h1]
  exact tget_replicate _ b

theorem known_cases (b : Byte) : b = 0x41 ∨ b = 0x42 ∨ b = 0x43 ∨ tget knownCode b = ⟨0, 0⟩ := by
  by_cases h1 : b = 0x41
  · exact .inl h1
  · by_cases h2 : b = 0x42
    · exact .inr (.inl h2)
    · by_cases h3 : b = 0x43
      · exact .inr (.inr (.inl h3))
      · exact .inr (.inr (.inr (tget_known h1 h2 h3)))

theorem known_present (b : Byte) (h : present knownCode b) : b = 0x41 ∨ b = 0x42 ∨ b = 0x43 := by
  rcases known_cases b with h1 | h2 | h3 | h0
  · exact .inl h1
  · exact .inr (.inl h2)
  · exact .inr (.inr h3)
  · exact absurd (by rw [h0]) h

theorem known_len (b : Byte) : (tget knownCode b).len.toNat ≤ 2 := by
  rcases known_cases b with rfl | rfl | rfl | h0
  · decide +kernel
  · decide +kernel
  · decide +kernel
  · rw [h0]
    decide

theorem known_proper : properCodes knownCode := by
  intro b hb
  rcases known_present b hb with rfl | rfl | rfl <;> decide +kernel

theorem known_prefixFree : prefixFree knownCode := by
  intro b c hb hc hne
  rcases known_present b hb with rfl | rfl | rfl <;> rcases known_present c hc with rfl | rfl | rfl <;>
    first
    | exact absurd rfl hne
    | decide +kernel

/-- The content of R220's example. -/
def coded : State := { base with code := knownCode, pkLen := 2, pbuf := listed [0x05, 0x5E], origSize := 10 }

theorem known_content (bits : List Bool) (h : ((List.range bits.length).all fun k =>
    decide (bits[k]? = some (coded.streamBit .pbuf k))) = true) : coded.contentIs bits := by
  intro k hk
  have := List.all_eq_true.1 h k (List.mem_range.2 hk)
  simp only [List.getElem?_eq_getElem hk, Option.some.injEq, decide_eq_true_eq] at this
  exact this.symm

theorem meets_DecodeReconstructs :
    coded.phase = .idle ∧ coded.pkLen ≤ coded.caps.pbuf ∧ coded.origSize ≤ coded.caps.obuf ∧
    properCodes coded.code ∧ prefixFree coded.code ∧ (∀ b ∈ knownInput, present coded.code b) ∧
    knownInput.length = coded.origSize.toNat ∧ (codeString coded.code knownInput).length ≤ 8 * coded.pkLen.toNat ∧
    coded.contentIs (codeString coded.code knownInput) :=
  ⟨rfl, by decide, by decide, known_proper, known_prefixFree, by decide +kernel, by decide +kernel, by decide +kernel,
    known_content _ (by decide +kernel)⟩

/-- The one present code is (0, 1), and no 1 bit begins it. -/
def single : State := { base with code := tset noCodes 0x41 ⟨0, 1⟩, pbuf := listed [0xFF, 0xFF], origSize := 5 }

/-- Symbols with a bit left, fewer than sixteen bits without a code at the end of the content, and sixteen. -/
theorem meets_DecodeIsGreedyDecoding :
    coded.phase = .idle ∧ coded.pkLen ≤ coded.caps.pbuf ∧ coded.origSize ≤ coded.caps.obuf ∧
    greedy coded.code coded.origSize.toNat coded.packedBits [] [] = .symbols knownInput [false] ∧
    single.phase = .idle ∧ (2 : Reg64) ≤ single.caps.pbuf ∧ single.origSize ≤ single.caps.obuf ∧
    greedy single.code 5 ({ single with pkLen := 1 } : State).packedBits [] [] = .truncated 0 ∧
    greedy single.code 5 ({ single with pkLen := 2 } : State).packedBits [] [] = .unbounded 0 := by
  decide +kernel

/-! ### The container -/

/-- R235's example in buffers that are just large enough: PBUF has W = 4 bytes and ABUF the archive's 32. -/
def tight : State := { State.resetWith ⟨10, 32, 4, 10⟩ with ibuf := listed knownInput, inLen := 10, code := knownCode }

theorem known_greatest : isGreatestLen knownCode 2 :=
  ⟨known_len, .inr ⟨0x42, by decide +kernel⟩⟩

/-- The same code with one of 17 bits. -/
def longCode : CodeTable := tset knownCode 0x44 ⟨0, 17⟩

theorem long_len (b : Byte) (h : b ≠ 0x44) : (tget longCode b).len.toNat ≤ 2 := by
  rw [longCode, tget_tset_other _ _ h]
  exact known_len b

theorem long_greatest : isGreatestLen longCode 17 := by
  refine ⟨fun b => ?_, .inr ⟨0x44, by decide +kernel⟩⟩
  by_cases h : b = 0x44
  · subst h
    decide +kernel
  · exact Nat.le_trans (long_len b h) (by decide)

theorem meets_CompressWritesTheArchive :
    tight.phase = .idle ∧ tight.inLen ≤ tight.caps.ibuf ∧ isGreatestLen tight.code 2 ∧ 2 ≤ 16 ∧
    (∀ b ∈ tight.input, present tight.code b) ∧ 3 = (presentSymbols tight.code).length ∧ 30 = 18 + 4 * 3 ∧
    15 = (codeString tight.code tight.input).length ∧ 4 = (tight.inLen.toNat * 2 + 7) / 8 + 1 ∧ 2 = (15 + 7) / 8 ∧
    4 ≤ tight.caps.pbuf.toNat ∧ 30 + 2 ≤ tight.caps.abuf.toNat :=
  ⟨rfl, by decide, known_greatest, by decide, by decide +kernel, by decide +kernel, rfl, by decide +kernel, rfl, rfl,
    by decide, by decide⟩

/-- Each capacity one byte short, a byte without a code, and a code of 17 bits. -/
theorem meets_CompressFaultsInOrder :
    tight.phase = .idle ∧ isGreatestLen tight.code 2 ∧
    tight.caps.ibuf < ({ tight with inLen := 11 } : State).inLen ∧
    isGreatestLen longCode 17 ∧
    (16 < (tget longCode 0x44).len.toNat ∧ ∀ c : Byte, c < 0x44 → (tget longCode c).len.toNat ≤ 16) ∧
    ({ tight with caps := ⟨10, 29, 4, 10⟩ } : State).caps.abuf.toNat < 30 ∧
    ({ tight with caps := ⟨10, 30, 3, 10⟩ } : State).caps.pbuf.toNat < (tight.inLen.toNat * 2 + 7) / 8 + 1 ∧
    ({ tight with caps := ⟨10, 31, 4, 10⟩ } : State).caps.abuf.toNat < 30 + (15 + 7) / 8 ∧
    ((∀ j, j < 8 → present (tset knownCode 0x43 ⟨0, 0⟩) (tight.readByte .ibuf j)) ∧
      ¬ present (tset knownCode 0x43 ⟨0, 0⟩) (tight.readByte .ibuf 8)) :=
  ⟨rfl, known_greatest, by decide, long_greatest,
    ⟨by decide +kernel, fun c hc => Nat.le_trans (long_len c fun e => absurd (e ▸ hc) (by decide)) (by decide)⟩, by decide, by decide, by decide,
    by decide +kernel⟩

theorem meets_EmptyInputArchive :
    (State.resetWith ⟨0, 18, 1, 0⟩).phase = .idle ∧ (State.resetWith ⟨0, 18, 1, 0⟩).inLen = 0 ∧
    18 ≤ (State.resetWith ⟨0, 18, 1, 0⟩).caps.abuf.toNat ∧ 1 ≤ (State.resetWith ⟨0, 18, 1, 0⟩).caps.pbuf.toNat := by
  decide

theorem meets_DecompressChecksTheMagic :
    archiveState.phase = .idle ∧ archiveState.caps.abuf < ({ archiveState with arLen := 65 } : State).arLen ∧
    ({ archiveState with arLen := 5 } : State).arLen.toNat < 6 ∧
    6 ≤ ({ base with arLen := 6, abuf := listed [0x00, 0x6C, 0x62, 0x63, 0x61, 0xFF] } : State).arLen.toNat ∧
    (∀ j, j < 5 → signature[j]? = some (({ base with abuf := listed [0x00, 0x6C, 0x62, 0x63, 0x61, 0xFF] } :
      State).readByte .abuf j)) ∧
    signature[5]? ≠ some (({ base with abuf := listed [0x00, 0x6C, 0x62, 0x63, 0x61, 0xFF] } : State).readByte .abuf 5) := by
  decide +kernel

theorem meets_DecompressTruncatedHeader :
    archiveState.phase = .idle ∧ ({ archiveState with arLen := 17 } : State).arLen ≤ archiveState.caps.abuf ∧
    ({ archiveState with arLen := 17 } : State).arLen.toNat < 18 ∧
    ({ archiveState with arLen := 17 } : State).hasMagic ∧
    ({ archiveState with arLen := 5 } : State).arLen.toNat < 6 := by
  decide +kernel

/-- The two ways TDESER ends in it, and the content one byte too long for PBUF. -/
theorem meets_DecompressIsItsSteps :
    archiveState.phase = .idle ∧ archiveState.arLen ≤ archiveState.caps.abuf ∧ 18 ≤ archiveState.arLen.toNat ∧
    archiveState.hasMagic ∧ 18 ≤ ({ archiveState with arLen := 18 } : State).arLen.toNat ∧
    ends .tdeser { archiveState with origSize := archiveState.headerSize, contentOff := archiveState.headerOff }
      (fun b => b.done) = true ∧
    ends .tdeser { archiveState with
      arLen := 18, origSize := archiveState.headerSize, contentOff := archiveState.headerOff } (fun b => !b.done) = true ∧
    ({ archiveState with caps := ⟨64, 64, 1, 64⟩ } : State).caps.pbuf.toNat <
      archiveState.arLen.toNat - archiveState.headerOff.toNat := by
  decide +kernel

theorem meets_DecompressReadsAnArchive :
    archiveState.phase = .idle ∧ archiveState.arLen ≤ archiveState.caps.abuf ∧ archiveState.hasMagic ∧ 3 ≤ 256 ∧
    archiveState.headerOff.toNat = 18 + 4 * 3 ∧ archiveState.headerOff.toNat ≤ archiveState.arLen.toNat ∧
    archiveState.arLen.toNat - archiveState.headerOff.toNat ≤ archiveState.caps.pbuf.toNat ∧
    archiveState.headerSize ≤ archiveState.caps.obuf ∧ knownInput.length = archiveState.headerSize.toNat ∧
    (∀ i, i < 3 → tget knownCode (archiveState.readByte .abuf (18 + 4 * i)) = archiveState.entryCode i) ∧
    (∀ b : Byte, (∀ i, i < 3 → archiveState.readByte .abuf (18 + 4 * i) ≠ b) → ¬ present knownCode b) ∧
    properCodes knownCode ∧ prefixFree knownCode ∧ (∀ b ∈ knownInput, present knownCode b) ∧
    (codeString knownCode knownInput).length ≤ 8 * (archiveState.arLen.toNat - archiveState.headerOff.toNat) ∧
    ∀ k (h : k < (codeString knownCode knownInput).length),
      archiveState.streamBit .abuf (8 * archiveState.headerOff.toNat + k) = (codeString knownCode knownInput)[k] := by
  refine ⟨rfl, by decide, by decide +kernel, by decide, by decide +kernel, by decide +kernel, by decide +kernel,
    by decide +kernel, by decide +kernel, by decide +kernel, ?_, known_proper, known_prefixFree, by decide +kernel,
    by decide +kernel, by decide +kernel⟩
  intro b h hb
  rcases known_present b hb with rfl | rfl | rfl
  · exact h 0 (by decide) (by decide +kernel)
  · exact h 1 (by decide) (by decide +kernel)
  · exact h 2 (by decide) (by decide +kernel)

theorem meets_RoundTrip :
    tight.phase = .idle ∧ tight.inLen ≤ tight.caps.obuf ∧
    ∃ c, runAll [.encode, .compress] tight = some c ∧ c.done = true :=
  ⟨rfl, by decide, exists_of_runAll (by decide +kernel)⟩

/-! ### The host, the frames and the invariants -/

theorem meets_HostRegisterAccess :
    base.phase = .idle ∧ broken.phase = .faulted ∧ regAt 0x0028 = some .inLen ∧ hostWidth .inLen = some 64 ∧
    regAt 0x0050 = some .contentOff ∧ regAt 0x1FF8 = some (.code 0xFF) ∧ regAt 0x0008 = some .status ∧
    hostWidth .status = none ∧ regAt 0x2FF8 = none ∧ regAt 0x3FF0 = some (.nodeLink 510) ∧ regAt 0x0001 = none ∧
    (0x0001 : BitVec 16) ≠ 0x0000 := by
  decide +kernel

theorem meets_HostBufferAccess :
    base.phase ≠ .run ∧ (63 : Reg64) < base.caps.of .ibuf ∧ base.caps.of .ibuf ≤ 64 ∧ base.phase = .idle ∧
    broken.phase = .faulted ∧ Space.ibuf ≠ .obuf := by
  decide

/-- The registers, the table and the buffers of R235's and R250's examples together. -/
def loaded : State := { archiveState with
  ibuf := listed knownInput, inLen := 10, code := knownCode, pbuf := listed [0x05, 0x5E], pkLen := 2, origSize := 10,
  contentOff := 30 }

/-- Every command succeeds, and for each that stores a byte the first byte outside what it stores. -/
theorem meets_CommandsKeepTheRest :
    (∀ i ∈ [Instr.clr, .freq, .tbuild, .cassign, .encode, .bpinit, .wbits 0x5 3, .buinit, .rbit, .tdeser,
      .slookup true, .decode, .compress, .decompress],
        ∃ t, exec i loaded = .next t ∧ decide (t.phase = .idle) = true) ∧
    (0 ≠ 1 ∨ loaded.pkLen = 0) ∧ (loaded.packPos + 3) / 8 < 1 ∧ loaded.pkLen.toNat ≤ 2 ∧
    loaded.origSize.toNat ≤ 10 ∧
    18 + 4 * (presentSymbols loaded.code).length + ((codeString loaded.code loaded.input).length + 7) / 8 ≤ 32 ∧
    (codeString loaded.code loaded.input).length / 8 < 2 ∧ loaded.arLen.toNat - loaded.headerOff.toNat ≤ 2 ∧
    loaded.headerSize.toNat ≤ 10 := by
  refine ⟨fun i hi => exists_of_ends ?_, by decide +kernel⟩
  revert hi i
  decide +kernel

theorem meets_FlagsTable :
    (∃ t, exec .tdeser { archiveState with contentOff := 30 } = .next t ∧ decide (t.phase = .idle) = true) ∧
    ∃ t, exec .decompress archiveState = .next t ∧ decide (t.phase = .idle) = true :=
  ⟨exists_of_ends (by decide +kernel), exists_of_ends (by decide +kernel)⟩

theorem base_buffersOk : base.buffersOk := State.buffersOk_of_empty (fun sp => by cases sp <;> rfl)

theorem meets_StepKeepsTheBuffers :
    ({ base with pending := [.writeBuf .ibuf 63 0xFF] } : State).buffersOk ∧
    ∃ t, step { base with pending := [.writeBuf .ibuf 63 0xFF] } = .next t :=
  ⟨State.buffersOk_of_empty (fun sp => by cases sp <;> rfl), _, rfl⟩

theorem meets_StepKeepsTheControlState :
    base.controlOk ∧ broken.controlOk ∧ base.candidateOk ∧ base.countsOk ∧
    ∃ t, step { base with pending := [.writeReg 0x0000 0x02000000] } = .next t ∧ decide (t.phase = .idle) = true :=
  ⟨⟨rfl, rfl, rfl, rfl⟩, ⟨rfl, rfl, rfl, by decide, by decide⟩, base_candidateOk, fun _ => by decide +kernel,
    exists_of_any (by decide +kernel)⟩

theorem meets_StepKeepsTheTree :
    base.treeOk ∧ ∃ t, step { pair with pending := [.writeReg 0x0000 0x03000000] } = .next t ∧
      decide (t.rootValid = true) = true :=
  ⟨base_treeOk, exists_of_any (by decide +kernel)⟩

end Sys2Proof.Tests
end

namespace Sys2Proof.Machine

/-! ## The state of reset -/

theorem freqSum_replicate_zero : freqSum (Vector.replicate 256 0) = 0 := by
  rw [freqSum, Vector.toList_replicate, List.map_replicate, List.sum_replicate]
  rfl

theorem treeOk_of_clear {s : State} (hv : s.rootValid = false) (hwl : s.wl = []) (hm : s.mergeCnt = 0)
    (hr : s.root = 0) (hn : s.node = Vector.replicate 511 Node.empty) : s.treeOk :=
  fun _ => ⟨fun _ => ⟨hwl, hm, hr, hn⟩, fun h => absurd (hv.symm.trans h) Bool.false_ne_true⟩

/-- The candidate has at most 15 bits and no bit above its length. -/
def State.CandidateFits (s : State) : Prop := s.cand.toNat < 2 ^ s.clen.toNat ∧ s.clen.toNat ≤ 15

theorem candidateFits_of_clear {s : State} (hc : s.cand = 0) (hl : s.clen = 0) : s.CandidateFits := by
  rw [State.CandidateFits, hc, hl]
  decide

theorem candidateOk_of_clear {s : State} (hc : s.cand = 0) (hl : s.clen = 0) : s.candidateOk :=
  fun _ => candidateFits_of_clear hc hl

theorem countsOk_of_zero {s : State} (hf : s.freq = Vector.replicate 256 0) (he : s.entryCnt = 0)
    (hm : s.maxLen = 0) (ho : s.outLen = 0) : s.countsOk := by
  intro _
  rw [hf, he, hm, ho, freqSum_replicate_zero]
  simp

/-- Settles O9: every register is 0 and nothing is listed in any buffer. -/
theorem resetMeetsTheInvariants : Obligations.ResetMeetsTheInvariants := by
  intro caps
  refine ⟨State.buffersOk_of_empty fun sp => ?_, ⟨rfl, rfl, rfl, rfl⟩, candidateOk_of_clear rfl rfl,
    treeOk_of_clear rfl rfl rfl rfl rfl, countsOk_of_zero rfl rfl rfl rfl⟩
  cases sp <;> rfl

/-! ## The register map (spec/10_state.md R38) -/

/-- The slot of a register in the map: its byte address divided by 8. -/
def RegName.slot : RegName → Nat
  | .cmd => 0
  | .status => 1
  | .faultCode => 2
  | .faultInfo => 3
  | .rdata => 4
  | .inLen => 5
  | .arLen => 6
  | .pkLen => 7
  | .outLen => 8
  | .origSize => 9
  | .contentOff => 10
  | .entryCnt => 11
  | .maxLen => 12
  | .treeRoot => 13
  | .mergeCnt => 14
  | .wlLen => 15
  | .bpByte => 16
  | .bpBit => 17
  | .buByte => 18
  | .buBit => 19
  | .cand => 20
  | .clen => 21
  | .emitCnt => 22
  | .phase => 23
  | .freq i => 0x200 + i.toNat
  | .code i => 0x300 + i.toNat
  | .nodeFreq i => 0x400 + i.val
  | .nodeLink i => 0x600 + i.val

theorem RegName.slot_lt (r : RegName) : r.slot < 0x800 := by
  cases r with
  | freq i | code i => have := i.isLt; simp only [slot]; omega
  | nodeFreq i | nodeLink i => have := i.isLt; simp only [slot]; omega
  | _ => decide

theorem slot_lowRegs : ∀ (n : Nat) (h : n < lowRegs.length), lowRegs[n].slot = n := by decide

theorem nodeSlot_eq_some {n : Nat} {i : Fin 511} : nodeSlot n = some i ↔ n = i.val := by
  unfold nodeSlot
  split
  · simp only [Option.some.injEq, Fin.ext_iff]
  · have := i.isLt
    simp only [reduceCtorEq, false_iff]
    omega

/-- A mapped address is the slot of its register, times 8. -/
theorem toNat_of_regAt {a : BitVec 16} {r : RegName} (h : regAt a = some r) : a.toNat = 8 * r.slot := by
  have ha := a.isLt
  simp only [regAt] at h
  split at h
  · cases h
  · split at h
    · obtain ⟨hn, rfl⟩ := List.getElem?_eq_some_iff.1 h
      rw [slot_lowRegs]
      omega
    · split at h
      · cases h
        simp only [RegName.slot, BitVec.toNat_ofNat]
        omega
      · split at h
        · cases h
          simp only [RegName.slot, BitVec.toNat_ofNat]
          omega
        · split at h
          · obtain ⟨i, hi, rfl⟩ := Option.map_eq_some_iff.1 h
            rw [nodeSlot_eq_some] at hi
            simp only [RegName.slot]
            omega
          · split at h
            · obtain ⟨i, hi, rfl⟩ := Option.map_eq_some_iff.1 h
              rw [nodeSlot_eq_some] at hi
              simp only [RegName.slot]
              omega
            · cases h

/-- What is mapped at a multiple of 8, by its slot number. -/
theorem regAt_of_slot {a : BitVec 16} {n : Nat} (h : a.toNat = 8 * n) :
    regAt a =
      if n < 0x200 then lowRegs[n]?
      else if n < 0x300 then some (.freq (BitVec.ofNat 8 (n - 0x200)))
      else if n < 0x400 then some (.code (BitVec.ofNat 8 (n - 0x300)))
      else if n < 0x600 then (nodeSlot (n - 0x400)).map .nodeFreq
      else if n < 0x800 then (nodeSlot (n - 0x600)).map .nodeLink
      else none := by
  simp only [regAt, h]
  rw [Nat.mul_mod_right, Nat.mul_div_cancel_left _ (by decide)]
  rfl

/-- The address at a register's slot is mapped to it. -/
theorem regAt_of_toNat {a : BitVec 16} {r : RegName} (h : a.toNat = 8 * r.slot) : regAt a = some r := by
  rw [regAt_of_slot h]
  clear h
  cases r with
  | freq i =>
    have := i.isLt
    simp [RegName.slot, show 512 + i.toNat < 768 by omega]
  | code i =>
    have := i.isLt
    simp [RegName.slot, show ¬ 768 + i.toNat < 512 by omega, show 768 + i.toNat < 1024 by omega]
  | nodeFreq i =>
    have := i.isLt
    simp [RegName.slot, show ¬ 1024 + i.val < 512 by omega, show ¬ 1024 + i.val < 768 by omega,
      show 1024 + i.val < 1536 by omega, nodeSlot_eq_some]
  | nodeLink i =>
    have := i.isLt
    simp [RegName.slot, show ¬ 1536 + i.val < 512 by omega, show ¬ 1536 + i.val < 768 by omega,
      show ¬ 1536 + i.val < 1024 by omega, show 1536 + i.val < 2048 by omega, nodeSlot_eq_some]
  | _ => rfl

/-- The register map is the slots: an address is mapped to a register exactly if it is the register's slot times 8. -/
theorem regAt_eq_some {a : BitVec 16} {r : RegName} : regAt a = some r ↔ a.toNat = 8 * r.slot :=
  ⟨toNat_of_regAt, regAt_of_toNat⟩

/-- The byte address of a register. -/
def RegName.addr (r : RegName) : BitVec 16 := BitVec.ofNat 16 (8 * r.slot)

theorem RegName.toNat_addr (r : RegName) : r.addr.toNat = 8 * r.slot := by
  have := r.slot_lt
  rw [addr, BitVec.toNat_ofNat]
  omega

/-- Settles O53: by `regAt_eq_some` the address of a register is its slot times 8 and no other. -/
theorem registerMap : Obligations.RegisterMap := by
  refine ⟨fun r => ⟨r.addr, regAt_of_toNat r.toNat_addr, ?_, fun a h => ?_⟩, by decide, fun i => ?_, fun i => ?_⟩
  · rw [r.toNat_addr, Nat.mul_mod_right]
  · exact BitVec.eq_of_toNat_eq ((toNat_of_regAt h).trans r.toNat_addr.symm)
  · have hi := i.isLt
    simp only [regAt_eq_some, RegName.slot]
    constructor <;> simp <;> omega
  · have hi := i.isLt
    simp only [regAt_eq_some, RegName.slot, BitVec.toNat_ofNat]
    omega

/-! ## The host's register accesses (spec/10_state.md R39) -/

theorem writeReg_readOnly {s : State} {r : RegName} (v : Reg64) (h : hostWidth r = none) : s.writeReg r v = s := by
  cases r with
  | inLen | arLen | pkLen | origSize | contentOff | code i => cases h
  | _ => rfl

/-- `CODE[i]` holds the low 24 bits a host writes there. -/
theorem word_of_host (v : Reg64) : CodeEntry.word ⟨v.truncate 16, v.extractLsb' 16 8⟩ = v.truncate 24 := by
  apply BitVec.eq_of_getLsbD_eq
  intro i hi
  simp only [CodeEntry.word, BitVec.getLsbD_append, BitVec.truncate_eq_setWidth, BitVec.getLsbD_setWidth,
    BitVec.getLsbD_extractLsb']
  split
  · simp [*]
  · rw [show 16 + (i - 16) = i by omega]
    simp [hi, show i - 16 < 8 by omega]

theorem toNat_readReg_writeReg_same {s : State} {r : RegName} {w : Nat} (v : Reg64) (h : hostWidth r = some w) :
    ((s.writeReg r v).readReg r).toNat = v.toNat % 2 ^ w := by
  have hv := v.isLt
  cases r with
  | inLen | arLen | pkLen | origSize =>
    cases h
    exact (Nat.mod_eq_of_lt hv).symm
  | contentOff =>
    cases h
    simp [State.writeReg, State.readReg]
    omega
  | code i =>
    cases h
    simp only [State.writeReg, State.readReg, tget_tset_same, word_of_host]
    simp
    omega
  | _ => cases h

theorem readReg_writeReg_other (s : State) {r r' : RegName} (v : Reg64) (h : r' ≠ r) :
    (s.writeReg r v).readReg r' = s.readReg r' := by
  cases r with
  | inLen =>
    cases r' with
    | inLen => exact absurd rfl h
    | _ => rfl
  | arLen =>
    cases r' with
    | arLen => exact absurd rfl h
    | _ => rfl
  | pkLen =>
    cases r' with
    | pkLen => exact absurd rfl h
    | _ => rfl
  | origSize =>
    cases r' with
    | origSize => exact absurd rfl h
    | _ => rfl
  | contentOff =>
    cases r' with
    | contentOff => exact absurd rfl h
    | _ => rfl
  | code i =>
    cases r' with
    | code j =>
      have hij : j ≠ i := fun e => h (e ▸ rfl)
      simp only [State.writeReg, State.readReg, tget_tset_other _ _ hij]
    | _ => rfl
  | _ => rfl

theorem hostWriteReg_idle {s : State} {a : BitVec 16} {r : RegName} (v : Reg64) (hs : s.phase = .idle)
    (ha : regAt a = some r) (hr : r ≠ .cmd) : hostWriteReg a v s = .next (s.writeReg r v) := by
  simp only [hostWriteReg, ha]
  cases r with
  | cmd => exact absurd rfl hr
  | _ => simp only [hs]

theorem hostWriteReg_unmapped {s : State} {a : BitVec 16} (v : Reg64) (hs : s.phase ≠ .run) (ha : regAt a = none) :
    hostWriteReg a v s = .next s := by
  simp only [hostWriteReg, ha]
  cases hp : s.phase with
  | run => exact absurd hp hs
  | _ => rfl

theorem hostWriteReg_faulted {s : State} {a : BitVec 16} (v : Reg64) (hs : s.phase = .faulted) (ha : a ≠ 0) :
    hostWriteReg a v s = .next s := by
  cases hr : regAt a with
  | none => exact hostWriteReg_unmapped v (by simp [hs]) hr
  | some r =>
    have hcmd : r ≠ .cmd := by
      rintro rfl
      exact ha (BitVec.eq_of_toNat_eq (toNat_of_regAt hr))
    simp only [hostWriteReg, hr]
    cases r with
    | cmd => exact absurd rfl hcmd
    | _ => simp only [hs]

theorem hostReadReg_mapped {s : State} {a : BitVec 16} {r : RegName} (hs : s.phase ≠ .run) (ha : regAt a = some r) :
    hostReadReg a s = .next (s.reply (s.readReg r)) := by
  simp only [hostReadReg, ha]
  cases hp : s.phase with
  | run => exact absurd hp hs
  | _ => rfl

theorem hostReadReg_unmapped {s : State} {a : BitVec 16} (hs : s.phase ≠ .run) (ha : regAt a = none) :
    hostReadReg a s = .refused (.unmappedRead a.toNat) := by
  simp only [hostReadReg, ha]
  cases hp : s.phase with
  | run => exact absurd hp hs
  | _ => rfl

/-- Settles O54, by what a register holds after a write to it and after a write to another one. -/
theorem hostRegisterAccess : Obligations.HostRegisterAccess := by
  intro s a v
  refine ⟨fun hs r ha hr => ⟨_, hostWriteReg_idle v hs ha hr, writeReg_readOnly v,
      fun w => toNat_readReg_writeReg_same v, fun r' => readReg_writeReg_other s v, ?_⟩,
    fun hs => hostWriteReg_unmapped v (by simp [hs]), hostWriteReg_faulted v, fun hs r => hostReadReg_mapped hs,
    hostReadReg_unmapped⟩
  rw [writeReg_frame]
  refine ⟨fun sp b => State.readByte_congr ?_ rfl b, rfl, rfl, rfl, rfl, rfl⟩
  cases sp <;> rfl

end Sys2Proof.Machine

namespace Sys2Proof.Machine

/-! ## What the commands' bodies write -/

/-- Writing bytes to a space replaces the listed bytes of that space and nothing else. -/
theorem State.writeBytes_eq_setBuf (s : State) (sp : Space) (a : Nat) (vs : List Byte) :
    s.writeBytes sp a vs = s.setBuf sp ((s.writeBytes sp a vs).buf sp) := by
  induction vs generalizing s a with
  | nil => cases sp <;> rfl
  | cons v vs ih =>
    rw [State.writeBytes, ih]
    cases sp <;> rfl

theorem freqBody_frame {s t : State} (h : freqBody s = .ok t) : t = { s with freq := t.freq } := by
  rcases freqBody_cases s with ⟨-, h'⟩ | ⟨-, h'⟩ <;> rw [h'] at h <;> cases h
  rfl

theorem tbuildBody_frame {s t : State} (h : tbuildBody s = .ok t) :
    t = { s with
      node := t.node, wl := t.wl, mergeCnt := t.mergeCnt, rootValid := t.rootValid, root := t.root,
      nodata := t.nodata } := by
  rcases tbuildBody_cases s with ⟨-, h'⟩ | ⟨_, _, _, -, -, h'⟩ <;> rw [h'] at h <;> cases h <;> rfl

theorem cassignBody_frame {s t : State} (h : cassignBody s = .ok t) : t = { s with code := t.code }.clearTree := by
  rcases cassignBody_cases s with ⟨_, -, h'⟩ | ⟨_, _, -, h'⟩ | ⟨-, h'⟩ <;> rw [h'] at h <;> cases h
  rfl

/-- ENCODE that succeeds is FREQ, TBUILD and CASSIGN that succeed (spec/42_code_assigner.md R170). -/
theorem encodeBody_ok {s t : State} (h : encodeBody s = .ok t) :
    ∃ a b, freqBody s = .ok a ∧ tbuildBody a = .ok b ∧ cassignBody b = .ok t := by
  rw [encodeBody_eq] at h
  obtain ⟨a, ha, h⟩ := Result.andThen_ok.1 h
  obtain ⟨b, hb, h⟩ := Result.andThen_ok.1 h
  exact ⟨a, b, ha, hb, h⟩

theorem encodeBody_frame {s t : State} (h : encodeBody s = .ok t) :
    t = { s with freq := t.freq, code := t.code, nodata := t.nodata }.clearTree := by
  obtain ⟨a, b, ha, hb, ht⟩ := encodeBody_ok h
  rw [cassignBody_frame ht, tbuildBody_frame hb, freqBody_frame ha]
  rfl

theorem bpinitBody_frame {s t : State} (h : bpinitBody s = .ok t) :
    t = { s with bpByte := 0, bpBit := 0, pbuf := t.pbuf } := by
  rcases bpinitBody_cases s with ⟨-, h'⟩ | ⟨-, -, h'⟩ | ⟨-, -, h'⟩ <;> rw [h'] at h <;> cases h <;> rfl

theorem wbitsBody_frame {pattern : BitVec 16} {length : Nat} {s t : State} (h : wbitsBody pattern length s = .ok t) :
    t = { s with bpBit := t.bpBit, bpByte := t.bpByte, pbuf := t.pbuf } := by
  rcases wbitsBody_cases pattern length s with ⟨-, h'⟩ | ⟨-, -, h'⟩ | ⟨-, -, h'⟩ <;> rw [h'] at h
  · cases h
  · cases h
  · exact writeBits_frame h

theorem buinitBody_ok {s t : State} (h : buinitBody s = .ok t) : t = s.startUnpacker := by
  rcases buinitBody_cases s with ⟨-, h'⟩ | ⟨-, h'⟩ <;> rw [h'] at h <;> cases h
  rfl

/-- What TDESER leaves, with the entry count its checks let through (spec/45_huffman_decoder.md R211). -/
theorem tdeserBody_ok {s t : State} (h : tdeserBody s = .ok t) :
    ∃ count, count ≤ 256 ∧
      t = { s.clearCandidate with code := t.code, entryCnt := BitVec.ofNat 16 count } := by
  rcases tdeserBody_cases s with ⟨-, h'⟩ | ⟨-, -, h'⟩ | ⟨count, -, hc, h'⟩ <;> rw [h'] at h <;> cases h
  refine ⟨count, ((entryCount_eq_some _ _ _).1 hc).2.1, ?_⟩
  rw [foldl_storeEntry_frame]
  rfl

theorem tdeserBody_frame {s t : State} (h : tdeserBody s = .ok t) :
    t = { s.clearCandidate with code := t.code, entryCnt := t.entryCnt } := by
  obtain ⟨count, -, ht⟩ := tdeserBody_ok h
  rw [ht]

/-! ### DECODE -/

/-- DECODE that succeeds is its loop, from a start whose original size fits OBUF (R221). -/
theorem decodeBody_ok {s t : State} (h : decodeBody s = .ok t) :
    s.origSize ≤ s.caps.obuf ∧ ∃ turns u, decodeLoop turns s.startDecode = .ok u ∧
      t = { u with outLen := s.origSize } := by
  rcases decodeBody_cases s with ⟨-, h'⟩ | ⟨-, -, h'⟩ | ⟨-, ho, h'⟩ <;> rw [h'] at h
  · cases h
  · cases h
  · obtain ⟨u, hu, h⟩ := Result.andThen_ok.1 h
    cases h
    refine ⟨BitVec.not_lt.1 ho, _, u, hu, ?_⟩
    rw [decodeLoop_frame hu]
    rfl

/-- What every turn of DECODE's loop keeps holds when the loop ends in success, and then all symbols are emitted. A
turn is an RBIT that finds a bit and an SLOOKUP of it, whose symbol is emitted on a match (R220, R222). -/
theorem decodeLoop_induction {P : State → Prop} {turns : Nat} {s t : State} (h : decodeLoop turns s = .ok t)
    (hs : P s)
    (turn : ∀ s u v : State, P s → s.emitCnt < s.origSize → rbitBody s = .ok u → u.eod = false →
      slookupBody (u.rdata.getLsbD 0) u = .ok v → P (if v.matched then v.emit else v)) :
    P t ∧ ¬ t.emitCnt < t.origSize := by
  induction turns generalizing s with
  | zero =>
    rw [decodeLoop] at h
    split at h
    · cases h
    · rename_i hd
      cases h
      exact ⟨hs, hd⟩
  | succ turns ih =>
    by_cases hd : s.emitCnt < s.origSize
    · rw [decodeLoop_succ _ _ hd] at h
      obtain ⟨u, hu, h⟩ := Result.andThen_ok.1 h
      split at h
      · cases h
      · rename_i he
        obtain ⟨v, hv, h⟩ := Result.andThen_ok.1 h
        exact ih h (turn s u v hs hd hu (Bool.not_eq_true _ ▸ he) hv)
    · rw [decodeLoop_done _ _ hd] at h
      cases h
      exact ⟨hs, hd⟩

/-! ### COMPRESS -/

theorem length_presentCodes_le (code : CodeTable) : (presentCodes code).length ≤ 256 := by
  refine (List.length_filter_le _ _).trans ?_
  simp [allSymbols]

theorem overlong_eq_none {code : CodeTable} (h : overlong code = none) :
    ∀ e ∈ presentCodes code, e.2.len.toNat ≤ 16 := by
  intro e he
  simpa using List.find?_eq_none.1 h e (List.mem_filter.1 he).1

theorem greatestLen_le {l : List (Byte × CodeEntry)} {m : Nat} (h : ∀ e ∈ l, e.2.len.toNat ≤ m) :
    greatestLen l ≤ m := by
  suffices ∀ k, k ≤ m → l.foldl (fun m e => max m e.2.len.toNat) k ≤ m from this 0 (Nat.zero_le m)
  induction l with
  | nil => exact fun k hk => hk
  | cons e l ih =>
    intro k hk
    exact ih (fun x hx => h x (List.mem_cons_of_mem _ hx)) _ (max_le hk (h e List.mem_cons_self))

/-- Step C1 that succeeds: the count and the greatest length within the bounds of spec/10_state.md R28. -/
theorem compressCount_ok {s t : State} (h : compressCount s = .ok t) :
    t = { s with entryCnt := t.entryCnt, maxLen := t.maxLen } ∧ t.entryCnt.toNat ≤ 256 ∧ t.maxLen.toNat ≤ 16 := by
  rcases compressCount_cases s with ⟨_, -, h'⟩ | ⟨ho, h'⟩ <;> rw [h'] at h <;> cases h
  have hl := length_presentCodes_le s.code
  have hg := greatestLen_le (overlong_eq_none ho)
  refine ⟨rfl, ?_, ?_⟩
  · simp only [BitVec.toNat_ofNat]
    omega
  · simp only [BitVec.toNat_ofNat]
    omega

theorem compressHeader_frame {s t : State} (h : compressHeader s = .ok t) :
    t = { s with abuf := t.abuf, origSize := t.origSize, contentOff := t.contentOff } := by
  rcases compressHeader_cases s with ⟨-, h'⟩ | ⟨-, u, h', hu, -⟩ <;> rw [h'] at h <;> cases h
  rw [hu]

theorem compressAppend_frame {s t : State} (h : compressAppend s = .ok t) :
    t = { s with abuf := t.abuf, arLen := t.arLen } := by
  rcases compressAppend_cases s with ⟨-, h'⟩ | ⟨-, h'⟩ <;> rw [h'] at h <;> cases h
  rw [State.writeBytes_eq_setBuf]
  rfl

theorem compressPack_frame {s t : State} (h : compressPack s = .ok t) :
    t = { s with
      abuf := t.abuf, arLen := t.arLen, pkLen := t.pkLen, pbuf := t.pbuf, bpByte := t.bpByte, bpBit := t.bpBit } := by
  simp only [compressPack] at h
  split at h
  · cases h
  · obtain ⟨b, hb, h⟩ := Result.andThen_ok.1 h
    obtain ⟨a, ha, hb⟩ := Result.andThen_ok.1 hb
    rw [compressAppend_frame h, packLoop_frame hb, bpinitBody_frame ha]

theorem compressBody_ok {s t : State} (h : compressBody s = .ok t) :
    ∃ a b, compressCount s = .ok a ∧ compressHeader a = .ok b ∧ compressPack b = .ok t := by
  rcases compressBody_cases s with ⟨-, h'⟩ | ⟨-, h'⟩ <;> rw [h'] at h
  · cases h
  · obtain ⟨b, hb, h⟩ := Result.andThen_ok.1 h
    obtain ⟨a, ha, hb⟩ := Result.andThen_ok.1 hb
    exact ⟨a, b, ha, hb, h⟩

theorem compressBody_frame {s t : State} (h : compressBody s = .ok t) :
    t = { s with
      abuf := t.abuf, arLen := t.arLen, origSize := t.origSize, contentOff := t.contentOff, entryCnt := t.entryCnt,
      maxLen := t.maxLen, pkLen := t.pkLen, pbuf := t.pbuf, bpByte := t.bpByte, bpBit := t.bpBit } := by
  obtain ⟨a, b, ha, hb, ht⟩ := compressBody_ok h
  rw [compressPack_frame ht, compressHeader_frame hb, (compressCount_ok ha).1]

/-! ### DECOMPRESS -/

theorem checkMagic_ok {s t : State} (h : checkMagic s = .ok t) : t = s := by
  rcases checkMagic_cases s with ⟨-, h'⟩ | ⟨-, -, h'⟩ | ⟨_, -, -, -, h'⟩ | ⟨-, -, -, h'⟩ <;> rw [h'] at h <;> cases h
  rfl

theorem readHeader_frame {s t : State} (h : readHeader s = .ok t) :
    t = { s with origSize := t.origSize, contentOff := t.contentOff } := by
  rcases readHeader_cases s with ⟨-, h'⟩ | ⟨-, h'⟩ <;> rw [h'] at h <;> cases h
  rfl

theorem copyContent_frame {s t : State} (h : copyContent s = .ok t) :
    t = { s with pbuf := t.pbuf, pkLen := t.pkLen } := by
  rcases copyContent_cases s with ⟨-, h'⟩ | ⟨-, h'⟩ <;> rw [h'] at h <;> cases h
  rw [State.writeBytes_eq_setBuf]
  rfl

/-- DECOMPRESS that succeeds is its header, TDESER, the copy and DECODE that succeed (R250). -/
theorem decompressBody_ok {s t : State} (h : decompressBody s = .ok t) :
    ∃ a b c, readHeader s = .ok a ∧ tdeserBody a = .ok b ∧ copyContent b = .ok c ∧ decodeBody c = .ok t := by
  rw [decompressBody_eq] at h
  obtain ⟨m, hm, h⟩ := Result.andThen_ok.1 h
  obtain ⟨a, ha, h⟩ := Result.andThen_ok.1 h
  obtain ⟨b, hb, h⟩ := Result.andThen_ok.1 h
  obtain ⟨c, hc, h⟩ := Result.andThen_ok.1 h
  exact ⟨a, b, c, checkMagic_ok hm ▸ ha, hb, hc, h⟩

theorem decompressBody_frame {s t : State} (h : decompressBody s = .ok t) :
    t = { s with
      origSize := t.origSize, contentOff := t.contentOff, entryCnt := t.entryCnt, code := t.code, pbuf := t.pbuf,
      pkLen := t.pkLen, obuf := t.obuf, outLen := t.outLen, emitCnt := t.emitCnt, buByte := t.buByte,
      buBit := t.buBit, cand := t.cand, clen := t.clen, rdata := t.rdata, eod := t.eod, matched := t.matched } := by
  obtain ⟨a, b, c, ha, hb, hc, ht⟩ := decompressBody_ok h
  rw [decodeBody_frame ht, copyContent_frame hc, tdeserBody_frame hb, readHeader_frame ha]
  rfl

/-! ## What a command and a step can do -/

/-- The body of a command; CLR, which is no body under the envelope, has the empty one. -/
def bodyOf : Instr → State → Result
  | .clr => .ok
  | .freq => freqBody
  | .tbuild => tbuildBody
  | .cassign => cassignBody
  | .encode => encodeBody
  | .bpinit => bpinitBody
  | .wbits pattern length => wbitsBody pattern length
  | .buinit => buinitBody
  | .rbit => rbitBody
  | .tdeser => tdeserBody
  | .slookup bit => slookupBody bit
  | .decode => decodeBody
  | .compress => compressBody
  | .decompress => decompressBody

theorem exec_eq_bodyOf {i : Instr} (h : i ≠ .clr) (s : State) : exec i s = command (bodyOf i) s := by
  cases i with
  | clr => exact absurd rfl h
  | _ => rfl

/-- What one transaction can do to a state. -/
inductive Effect (s : State) : State → Prop
  /-- Waiting, and a host write that changes nothing. -/
  | nothing : Effect s s
  | reply (v : Reg64) : Effect s (s.reply v)
  | hardReset : Effect s s.hardReset
  | softReset : Effect s s.softReset
  | success (i : Instr) (u : State) (hs : s.phase = .idle) (hi : i ≠ .clr) (hu : bodyOf i s.accept = .ok u) :
      Effect s u.finish
  | fault (f : CmdFault) (info : Nat) (hs : s.phase = .idle) : Effect s (s.faultEntry f info)
  | writeReg (r : RegName) (v : Reg64) (hs : s.phase = .idle) : Effect s (s.writeReg r v)
  | writeByte (sp : Space) (a : Nat) (v : Byte) (hs : s.phase = .idle) (hsp : sp ≠ .obuf)
      (ha : a < (s.caps.of sp).toNat) : Effect s (s.writeByte sp a v)

theorem exec_effect {i : Instr} {s t : State} (h : exec i s = .next t) : Effect s t := by
  by_cases hi : i = .clr
  · subst hi
    by_cases hp : s.phase = .run
    · simp [exec, execClr, hp] at h
    · rw [exec_clr hp] at h
      cases h
      exact .softReset
  · rw [exec_eq_bodyOf hi] at h
    rcases command_next h with ⟨hp, u, hu, rfl⟩ | ⟨hp, f, n, -, rfl⟩ | ⟨-, rfl⟩
    · exact .success i u hp hi hu
    · exact .fault f n hp
    · exact .nothing

theorem illegalWord_effect {w : Word} {s t : State} (h : illegalWord w s = .next t) : Effect s t := by
  unfold illegalWord at h
  split at h <;> cases h
  · exact .fault _ _ ‹_›
  · exact .nothing

/-- An issued word stands in `CMD` before anything else happens (spec/47_system.md R270). -/
theorem issue_effect {w : Word} {s t : State} (h : issue w s = .next t) : Effect { s with cmd := w } t := by
  unfold issue at h
  split at h
  · exact exec_effect h
  · exact illegalWord_effect h

theorem hostWriteReg_effect {a : BitVec 16} {v : Reg64} {s t : State} (h : hostWriteReg a v s = .next t) :
    ∃ w, Effect { s with cmd := w } t := by
  unfold hostWriteReg at h
  split at h
  · split at h <;> cases h <;> exact ⟨s.cmd, .nothing⟩
  · exact ⟨_, issue_effect h⟩
  · split at h <;> cases h
    · exact ⟨s.cmd, .writeReg _ v ‹_›⟩
    · exact ⟨s.cmd, .nothing⟩

theorem hostReadReg_effect {a : BitVec 16} {s t : State} (h : hostReadReg a s = .next t) : Effect s t := by
  by_cases hs : s.phase = .run
  · simp [hostReadReg, hs] at h
  · cases ha : regAt a with
    | none => rw [hostReadReg_unmapped hs ha] at h; cases h
    | some r => rw [hostReadReg_mapped hs ha] at h; cases h; exact .reply _

theorem hostReadBuf_effect {sp : Space} {index : Reg64} {s t : State} (h : hostReadBuf sp index s = .next t) :
    Effect s t := by
  unfold hostReadBuf at h
  split at h
  · cases h
  · split at h <;> cases h <;> exact .reply _

theorem hostWriteBuf_effect {sp : Space} {index : Reg64} {v : Byte} {s t : State}
    (h : hostWriteBuf sp index v s = .next t) : Effect s t := by
  unfold hostWriteBuf at h
  split at h
  · cases h
  · rename_i ha
    split at h
    · cases h
    · cases h
      exact .nothing
    · split at h <;> cases h
      · exact .nothing
      · exact .writeByte sp _ v ‹_› ‹_› (BitVec.lt_def.1 (BitVec.not_le.1 ha))

theorem transact_effect {x : Transaction} {s t : State} (h : transact x s = .next t) :
    ∃ w, Effect { s with cmd := w } t := by
  cases x with
  | writeReg a v => exact hostWriteReg_effect h
  | readReg a => exact ⟨s.cmd, hostReadReg_effect h⟩
  | writeBuf sp k v => exact ⟨s.cmd, hostWriteBuf_effect h⟩
  | readBuf sp k => exact ⟨s.cmd, hostReadBuf_effect h⟩
  | reset => cases h; exact ⟨s.cmd, .hardReset⟩

/-- Everything a step can do: beside taking a transaction off the list and storing a word in `CMD`, one effect. -/
theorem step_effect {s t : State} (h : step s = .next t) : ∃ w p, Effect { s with cmd := w, pending := p } t := by
  cases hp : s.pending with
  | nil =>
    rw [step_waits hp] at h
    cases h
    exact ⟨s.cmd, s.pending, .nothing⟩
  | cons x rest =>
    rw [step_transacts hp] at h
    obtain ⟨w, hw⟩ := transact_effect h
    exact ⟨w, rest, hw⟩

/-- An invariant of the steps: what does not depend on `CMD` and the host's side, holds after CLR and reset, and is
kept by fault entry, by the host's writes in IDLE and by every command that succeeds, is kept by every step. -/
theorem step_keeps {P : State → Prop}
    (side : ∀ (s : State) w p q, P s → P { s with cmd := w, pending := p, replies := q })
    (softReset : ∀ s : State, P s.softReset) (hardReset : ∀ s : State, P s.hardReset)
    (fault : ∀ (s : State) f info, P (s.faultEntry f info))
    (writeReg : ∀ (s : State) r v, P s → P (s.writeReg r v))
    (writeByte : ∀ (s : State) sp a v, P s → a < (s.caps.of sp).toNat → P (s.writeByte sp a v))
    (success : ∀ (i : Instr) (s u : State), P s → s.phase = .idle → bodyOf i s.accept = .ok u → P u.finish)
    {s t : State} (hs : P s) (h : step s = .next t) : P t := by
  obtain ⟨w, p, h⟩ := step_effect h
  have hs := side s w p s.replies hs
  cases h with
  | nothing => exact hs
  | reply v => exact side _ w p _ hs
  | hardReset => exact hardReset _
  | softReset => exact softReset _
  | success i u hp hi hu => exact success i _ u hs hp hu
  | fault f info hp => exact fault _ f info
  | writeReg r v hp => exact writeReg _ r v hs
  | writeByte sp a v hp hsp ha => exact writeByte _ sp a v hs ha

/-- The same for what the registers and buffers the host writes have no part in. -/
theorem step_keeps_of_host {P : State → Prop}
    (host : ∀ s t : State, P s → t = { s with
      cmd := t.cmd, pending := t.pending, replies := t.replies, inLen := t.inLen, arLen := t.arLen, pkLen := t.pkLen,
      origSize := t.origSize, contentOff := t.contentOff, code := t.code, ibuf := t.ibuf, abuf := t.abuf,
      pbuf := t.pbuf, obuf := t.obuf } → P t)
    (softReset : ∀ s : State, P s.softReset) (hardReset : ∀ s : State, P s.hardReset)
    (fault : ∀ (s : State) f info, P (s.faultEntry f info))
    (success : ∀ (i : Instr) (s u : State), P s → s.phase = .idle → bodyOf i s.accept = .ok u → P u.finish)
    {s t : State} (hs : P s) (h : step s = .next t) : P t :=
  step_keeps (fun s _ _ _ hs => host s _ hs rfl) softReset hardReset fault
    (fun s r v hs => host s _ hs (by rw [writeReg_frame]))
    (fun s sp _ _ hs _ => host s _ hs (by cases sp <;> rfl)) success hs h

end Sys2Proof.Machine

namespace Sys2Proof.Machine

/-! ## The leaves TBUILD starts from (spec/41_tree_builder.md R141) -/

/-- The item of a symbol's leaf. -/
def leafItem (freq : FreqTable) (b : Byte) : Item := ⟨b.zeroExtend 9, tget freq b⟩

theorem toNat_leafItem_id (freq : FreqTable) (b : Byte) : (leafItem freq b).id.toNat = b.toNat := by
  have := b.isLt
  simp [leafItem]
  omega

theorem leafItems_eq (freq : FreqTable) : leafItems freq = (leafSymbols freq).map (leafItem freq) := by
  have hz : List.zipWith (fun i f => Item.mk (BitVec.ofNat 9 i) f) (List.range 256) freq.toList =
      allSymbols.map (leafItem freq) := by
    apply List.ext_getElem
    · simp [allSymbols]
    · intro i h _
      have hi : i < 256 := by simpa using h
      have hi8 : (BitVec.ofNat 8 i).toNat = i := by
        rw [BitVec.toNat_ofNat]
        omega
      simp only [List.getElem_zipWith, List.getElem_range, Vector.getElem_toList, allSymbols, List.map_map,
        List.getElem_map, Function.comp_apply, leafItem, tget, hi8, Item.mk.injEq, and_true]
      apply BitVec.eq_of_toNat_eq
      simp
      omega
  rw [leafItems, hz, List.filter_map, leafSymbols]
  rfl

theorem allSymbols_nodup : allSymbols.Nodup := by
  refine List.Nodup.map_on (fun x hx y hy h => ?_) List.nodup_range
  have := congrArg BitVec.toNat h
  simp only [BitVec.toNat_ofNat] at this
  have := List.mem_range.1 hx
  have := List.mem_range.1 hy
  omega

theorem leafSymbols_nodup (freq : FreqTable) : (leafSymbols freq).Nodup := allSymbols_nodup.filter _

theorem length_leafSymbols_le (freq : FreqTable) : (leafSymbols freq).length ≤ 256 := by
  refine (List.length_filter_le _ _).trans ?_
  simp [allSymbols]

theorem mem_leafSymbols {freq : FreqTable} {b : Byte} : b ∈ leafSymbols freq ↔ tget freq b ≠ 0 := by
  simp [leafSymbols, mem_allSymbols]

/-- There is no item to merge exactly if every counter is 0. -/
theorem sortItems_leafItems_eq_nil (freq : FreqTable) : sortItems (leafItems freq) = [] ↔ leafSymbols freq = [] := by
  rw [sortItems_eq_nil, leafItems_eq, List.map_eq_nil_iff]

theorem leafArena_leaf {freq : FreqTable} {b : Byte} (h : tget freq b ≠ 0) :
    (leafArena freq)[b.toNat]? = some ⟨true, .leaf, b, tget freq b, 0, 0⟩ := by
  have hb := b.isLt
  have hf : freq[b.toNat] = tget freq b := rfl
  rw [Vector.getElem?_eq_getElem (by omega), leafArena, getElem_tableOf, dif_pos hb, hf, leafNode, if_neg h]
  simp

theorem leafArena_kind {freq : FreqTable} {n : Nat} {nd : Node} (h : (leafArena freq)[n]? = some nd) :
    nd.kind = .leaf := by
  obtain ⟨hn, rfl⟩ := Vector.getElem?_eq_some_iff.1 h
  rw [leafArena, getElem_tableOf]
  split
  · unfold leafNode
    split <;> rfl
  · rfl

/-! ## Trees in an arena -/

theorem treeLeaves_leaf {node : Arena} {n : NodeId} {nd : Node} (bound : Nat) (h : node[n.toNat]? = some nd)
    (hk : nd.kind = .leaf) : treeLeaves node (bound + 1) n = some [([], nd.sym)] := by
  simp only [treeLeaves, h, hk]

theorem treeLeaves_internal {node : Arena} {n : NodeId} {nd : Node} {bound : Nat} {l r : List (List Bool × Byte)}
    (h : node[n.toNat]? = some nd) (hk : nd.kind = .internal) (hl : treeLeaves node bound nd.left = some l)
    (hr : treeLeaves node bound nd.right = some r) :
    treeLeaves node (bound + 1) n =
      some (l.map (fun x => (false :: x.1, x.2)) ++ r.map (fun x => (true :: x.1, x.2))) := by
  simp only [treeLeaves, h, hk, hl, hr]

/-- What a whole tree below a node can be: a leaf, or an internal node over two whole trees. -/
theorem treeLeaves_cases {node : Arena} {bound : Nat} {n : NodeId} {ls : List (List Bool × Byte)}
    (h : treeLeaves node (bound + 1) n = some ls) :
    ∃ nd, node[n.toNat]? = some nd ∧
      ((nd.kind = .leaf ∧ ls = [([], nd.sym)]) ∨
        (nd.kind = .internal ∧ ∃ l r, treeLeaves node bound nd.left = some l ∧
          treeLeaves node bound nd.right = some r ∧
          ls = l.map (fun x => (false :: x.1, x.2)) ++ r.map (fun x => (true :: x.1, x.2)))) := by
  rw [treeLeaves] at h
  split at h
  · cases h
  · rename_i nd hnd
    refine ⟨nd, hnd, ?_⟩
    split at h
    · rename_i hk
      cases h
      exact .inl ⟨hk, rfl⟩
    · rename_i hk
      split at h
      · rename_i l r hl hr
        cases h
        exact .inr ⟨hk, l, r, hl, hr, rfl⟩
      · cases h

/-- No internal node below `N` has a child at or above `N`, so that a tree below `N` stays below `N`. -/
def Arena.ClosedBelow (node : Arena) (N : Nat) : Prop :=
  ∀ (n : Nat) (nd : Node), n < N → node[n]? = some nd → nd.kind = .internal → nd.left.toNat < N ∧ nd.right.toNat < N

/-- A whole tree stays the same under a greater bound and in an arena that agrees below `N`. -/
theorem treeLeaves_of_agree {node node' : Arena} {N bound bound' : Nat} {n : NodeId} {ls : List (List Bool × Byte)}
    (hc : node.ClosedBelow N) (ha : ∀ k, k < N → node'[k]? = node[k]?) (hb : bound ≤ bound') (hn : n.toNat < N)
    (h : treeLeaves node bound n = some ls) : treeLeaves node' bound' n = some ls := by
  induction bound generalizing n ls bound' with
  | zero => cases h
  | succ bound ih =>
    obtain ⟨m, rfl⟩ : ∃ m, bound' = m + 1 := ⟨bound' - 1, by omega⟩
    obtain ⟨nd, hnd, ⟨hk, rfl⟩ | ⟨hk, l, r, hl, hr, rfl⟩⟩ := treeLeaves_cases h
    · exact treeLeaves_leaf m ((ha _ hn).trans hnd) hk
    · obtain ⟨hnl, hnr⟩ := hc _ _ hn hnd hk
      exact treeLeaves_internal ((ha _ hn).trans hnd) hk (ih (by omega) hnl hl) (ih (by omega) hnr hr)

/-! ## The merge loop keeps a forest over the same symbols (spec/41_tree_builder.md R145, R146) -/

/-- The symbols of the leaves below a node, left before right; none where the tree is not whole. -/
def symbolsBelow (node : Arena) (bound : Nat) (n : NodeId) : List Byte :=
  ((treeLeaves node bound n).getD []).map Prod.snd

theorem symbolsBelow_eq {node : Arena} {bound : Nat} {n : NodeId} {ls : List (List Bool × Byte)}
    (h : treeLeaves node bound n = some ls) : symbolsBelow node bound n = ls.map Prod.snd := by
  rw [symbolsBelow, h]
  rfl

/-- After `k` merges the items are the roots of whole trees of at most `k + 1` nodes on a path, whose leaves together
carry the given symbols. -/
structure Build.Forest (syms : List Byte) (k : Nat) (t : Build) : Prop where
  count : t.mergeCnt.toNat = k
  length : t.items.length + k = syms.length
  below : ∀ x ∈ t.items, x.id.toNat < 256 + k
  closed : t.node.ClosedBelow (256 + k)
  whole : ∀ x ∈ t.items, ∃ ls, treeLeaves t.node (k + 1) x.id = some ls
  symbols : (t.items.flatMap fun x => symbolsBelow t.node (k + 1) x.id).Perm syms

/-- The leaves are a forest of one-node trees. -/
theorem forest_leaves (freq : FreqTable) :
    Build.Forest (leafSymbols freq) 0 ⟨leafArena freq, sortItems (leafItems freq), 0⟩ := by
  have hperm : (sortItems (leafItems freq)).Perm ((leafSymbols freq).map (leafItem freq)) :=
    leafItems_eq freq ▸ sortItems_perm _
  have hmem : ∀ x ∈ sortItems (leafItems freq), ∃ b ∈ leafSymbols freq, leafItem freq b = x :=
    fun x hx => List.mem_map.1 (hperm.subset hx)
  have htree : ∀ b ∈ leafSymbols freq, treeLeaves (leafArena freq) 1 (leafItem freq b).id = some [([], b)] := by
    intro b hb
    have hnd := leafArena_leaf (mem_leafSymbols.1 hb)
    rw [← toNat_leafItem_id freq b] at hnd
    exact treeLeaves_leaf 0 hnd rfl
  refine ⟨rfl, ?_, fun x hx => ?_, fun n nd _ hnd hk => ?_, fun x hx => ?_, ?_⟩
  · simpa using hperm.length_eq
  · obtain ⟨b, -, rfl⟩ := hmem x hx
    have := b.isLt
    rw [toNat_leafItem_id]
    omega
  · rw [leafArena_kind hnd] at hk
    cases hk
  · obtain ⟨b, hb, rfl⟩ := hmem x hx
    exact ⟨_, htree b hb⟩
  · refine (hperm.flatMap_right _).trans (.of_eq ?_)
    rw [List.flatMap_map]
    conv_rhs => rw [← List.flatMap_singleton' (leafSymbols freq)]
    exact List.flatMap_congr fun b hb => symbolsBelow_eq (htree b hb)

/-- The arena with a new node at `N` whose children lie below `N`. -/
theorem closedBelow_succ {node node' : Arena} {N : Nat} {nd : Node} (hc : node.ClosedBelow N)
    (ha : ∀ j, j < N → node'[j]? = node[j]?) (hN : node'[N]? = some nd) (hl : nd.left.toNat < N)
    (hr : nd.right.toNat < N) : node'.ClosedBelow (N + 1) := by
  intro n x hn hx hk
  rcases Nat.lt_succ_iff_lt_or_eq.1 hn with hn | rfl
  · obtain ⟨h1, h2⟩ := hc n x hn (ha n hn ▸ hx) hk
    exact ⟨Nat.lt_succ_of_lt h1, Nat.lt_succ_of_lt h2⟩
  · cases hN.symm.trans hx
    exact ⟨Nat.lt_succ_of_lt hl, Nat.lt_succ_of_lt hr⟩

theorem exists_last_two {α : Type} {l : List α} (h : 2 ≤ l.length) : ∃ front a b, l = front ++ [a, b] := by
  rcases l.eq_nil_or_concat' with rfl | ⟨l, b, rfl⟩
  · simp at h
  · rcases l.eq_nil_or_concat' with rfl | ⟨front, a, rfl⟩
    · simp at h
    · exact ⟨front, a, b, by simp⟩

/-- Joining the last two trees of a forest under a new node at `256 + k` gives a forest. -/
theorem forest_join {syms : List Byte} {k : Nat} {t : Build} {front : List Item} {a b c : Item} {node' : Arena}
    {nd : Node} (h : t.Forest syms k) (hitems : t.items = front ++ [a, b]) (hk : k < 255)
    (hc : c.id.toNat = 256 + k) (hold : ∀ j, j < 256 + k → node'[j]? = t.node[j]?)
    (hnew : node'[256 + k]? = some nd) (hkind : nd.kind = .internal) (hleft : nd.left = a.id)
    (hright : nd.right = b.id) : Build.Forest syms (k + 1) ⟨node', insertItem c front, t.mergeCnt + 1⟩ := by
  obtain ⟨hcount, hlength, hbelow, hclosed, hwhole, hsyms⟩ := h
  have ha : a ∈ t.items := by simp [hitems]
  have hb : b ∈ t.items := by simp [hitems]
  have hfront : ∀ x ∈ front, x ∈ t.items := fun x hx => by simp [hitems, hx]
  have hperm := insertItem_perm c front
  have hkeep : ∀ x ∈ t.items, ∀ ls bound, k + 1 ≤ bound → treeLeaves t.node (k + 1) x.id = some ls →
      treeLeaves node' bound x.id = some ls :=
    fun x hx ls bound hle => treeLeaves_of_agree hclosed hold hle (hbelow x hx)
  have hkeepSyms : ∀ x ∈ t.items,
      symbolsBelow node' (k + 1 + 1) x.id = symbolsBelow t.node (k + 1) x.id := fun x hx => by
    obtain ⟨ls, hls⟩ := hwhole x hx
    rw [symbolsBelow_eq hls, symbolsBelow_eq (hkeep x hx ls _ (Nat.le_succ _) hls)]
  obtain ⟨la, hla⟩ := hwhole a ha
  obtain ⟨lb, hlb⟩ := hwhole b hb
  have hjoin := treeLeaves_internal (n := c.id) (hc ▸ hnew) hkind (hleft ▸ hkeep a ha la _ le_rfl hla)
    (hright ▸ hkeep b hb lb _ le_rfl hlb)
  have hjoinSyms : symbolsBelow node' (k + 1 + 1) c.id =
      symbolsBelow t.node (k + 1) a.id ++ symbolsBelow t.node (k + 1) b.id := by
    rw [symbolsBelow_eq hjoin, symbolsBelow_eq hla, symbolsBelow_eq hlb, List.map_append, List.map_map, List.map_map]
    rfl
  refine ⟨?_, ?_, fun x hx => ?_, ?_, fun x hx => ?_, ?_⟩
  · have h1 : (1 : BitVec 8).toNat = 1 := rfl
    simp only [BitVec.toNat_add, hcount, h1]
    omega
  · simp only [hitems, List.length_append, List.length_cons, List.length_nil] at hlength
    simp only [length_insertItem]
    omega
  · rcases List.mem_cons.1 (hperm.subset hx) with rfl | hx
    · omega
    · exact Nat.lt_succ_of_lt (hbelow x (hfront x hx))
  · exact closedBelow_succ hclosed hold hnew (hleft ▸ hbelow a ha) (hright ▸ hbelow b hb)
  · rcases List.mem_cons.1 (hperm.subset hx) with rfl | hx
    · exact ⟨_, hjoin⟩
    · obtain ⟨ls, hls⟩ := hwhole x (hfront x hx)
      exact ⟨ls, hkeep x (hfront x hx) ls _ (Nat.le_succ _) hls⟩
  · refine (hperm.flatMap_right _).trans (.trans ?_ hsyms)
    rw [List.flatMap_cons, hjoinSyms, List.flatMap_congr fun x hx => hkeepSyms x (hfront x hx), hitems,
      List.flatMap_append, List.flatMap_cons, List.flatMap_singleton]
    exact List.perm_append_comm

/-- A merge step joins two trees of the forest into one. -/
theorem forest_mergeStep {syms : List Byte} {k : Nat} {t : Build} (h : t.Forest syms k) (hs : syms.length ≤ 256)
    (hl : 2 ≤ t.items.length) : (mergeStep t).Forest syms (k + 1) := by
  have hlength := h.length
  have hk : k < 255 := by omega
  obtain ⟨front, a, b, hitems⟩ := exists_last_two hl
  have hm : (BitVec.ofNat 9 (256 + t.mergeCnt.toNat)).toNat = 256 + k := by
    rw [BitVec.toNat_ofNat, h.count]
    omega
  rw [mergeStep_eq t front a b hitems, hm]
  exact forest_join h hitems hk hm (fun j hj => Vector.getElem?_setIfInBounds_ne (by omega))
    (by rw [Vector.getElem?_setIfInBounds_self, if_pos (by omega)]) rfl rfl rfl

theorem forest_mergeTimes {syms : List Byte} {k n : Nat} {t : Build} (h : t.Forest syms k) (hs : syms.length ≤ 256)
    (hn : n < t.items.length) : (mergeTimes n t).Forest syms (k + n) := by
  induction n generalizing k t with
  | zero => exact h
  | succ n ih =>
    have hlen := length_mergeStep t (by omega)
    have := ih (forest_mergeStep h hs (by omega)) (by omega)
    rwa [Nat.add_right_comm] at this

/-- The tree TBUILD leaves: one item, whose tree carries each symbol of nonzero count once (R146, R147). -/
theorem mergeAll_tree {freq : FreqTable} {x : Item} {xs : List Item} {t : Build}
    (hx : sortItems (leafItems freq) = x :: xs) (ht : t = mergeAll ⟨leafArena freq, x :: xs, 0⟩) :
    ∃ y ls, t.items = [y] ∧ treeLeaves t.node 511 y.id = some ls ∧
      (ls.map Prod.snd).Perm (leafSymbols freq) ∧ t.mergeCnt.toNat + 1 = (leafSymbols freq).length := by
  have hs := length_leafSymbols_le freq
  have h0 := forest_leaves freq
  rw [hx] at h0
  have h := forest_mergeTimes (n := xs.length) h0 hs (by simp)
  rw [Nat.zero_add, show mergeTimes xs.length _ = t from ht.symm] at h
  obtain ⟨hcount, hlength, hbelow, hclosed, hwhole, hsyms⟩ := h
  have hlen := h0.length
  rw [List.length_cons] at hlen
  obtain ⟨y, hy⟩ := List.length_eq_one_iff.1 (by omega : t.items.length = 1)
  have hmem : y ∈ t.items := hy ▸ List.mem_singleton_self y
  obtain ⟨ls, hls⟩ := hwhole y hmem
  refine ⟨y, ls, hy, treeLeaves_of_agree hclosed (fun _ _ => rfl) (by omega) (hbelow y hmem) hls, ?_, by omega⟩
  simpa [hy, symbolsBelow_eq hls] using hsyms

/-! ## The invariant of trees (spec/10_state.md R42) -/

theorem tbuildBody_finish_treeOk {s t : State} (h : tbuildBody s = .ok t) : t.finish.treeOk := by
  rcases tbuildBody_cases s with ⟨-, h'⟩ | ⟨x, xs, b, hx, hb, h'⟩ <;> rw [h'] at h <;> cases h
  · exact treeOk_of_clear rfl rfl rfl rfl rfl
  · obtain ⟨y, ls, hy, hls, hperm, hcount⟩ := mergeAll_tree hx hb
    refine fun _ => ⟨fun hr => absurd hr (by simp), fun _ => ?_⟩
    simp only [State.finish_wl, State.setNodata_wl, State.finish_root, State.setNodata_root, State.finish_node,
      State.setNodata_node, State.finish_mergeCnt, State.setNodata_mergeCnt, hy]
    refine ⟨rfl, ls, hls, hperm.nodup_iff.2 (leafSymbols_nodup s.freq), ?_⟩
    simpa [hcount] using hperm.length_eq

theorem clearTree_finish_treeOk (s : State) : s.clearTree.finish.treeOk := treeOk_of_clear rfl rfl rfl rfl rfl

/-- A command that succeeds leaves no tree, or the whole tree of TBUILD, or the tree it found. -/
theorem treeOk_of_success {i : Instr} {s u : State} (hs : s.treeOk) (hp : s.phase = .idle)
    (h : bodyOf i s.accept = .ok u) : u.finish.treeOk := by
  cases i with
  | tbuild => exact tbuildBody_finish_treeOk h
  | cassign => rw [cassignBody_frame h]; exact clearTree_finish_treeOk _
  | encode => rw [encodeBody_frame h]; exact clearTree_finish_treeOk _
  | clr => cases h; exact fun _ => hs hp
  | freq => rw [freqBody_frame h]; exact fun _ => hs hp
  | bpinit => rw [bpinitBody_frame h]; exact fun _ => hs hp
  | wbits pattern length => rw [wbitsBody_frame h]; exact fun _ => hs hp
  | buinit => rw [buinitBody_ok h]; exact fun _ => hs hp
  | rbit => rw [rbitBody_frame h]; exact fun _ => hs hp
  | tdeser => rw [tdeserBody_frame h]; exact fun _ => hs hp
  | slookup bit => rw [slookupBody_frame h]; exact fun _ => hs hp
  | decode => rw [decodeBody_frame h]; exact fun _ => hs hp
  | compress => rw [compressBody_frame h]; exact fun _ => hs hp
  | decompress => rw [decompressBody_frame h]; exact fun _ => hs hp

/-- Settles O60: only TBUILD leaves a tree, whose merges keep a forest over the symbols counted; CASSIGN and ENCODE
leave none. -/
theorem stepKeepsTheTree : Obligations.StepKeepsTheTree := by
  intro s t hs h
  exact step_keeps_of_host (P := State.treeOk) (fun s t hs ht => by rw [ht]; exact hs)
    (fun _ => treeOk_of_clear rfl rfl rfl rfl rfl) (fun _ => treeOk_of_clear rfl rfl rfl rfl rfl)
    (fun _ _ _ => by rintro ⟨⟩) (fun _ _ _ => treeOk_of_success) hs h

end Sys2Proof.Machine

namespace Sys2Proof.Machine

/-! ## `PHASE`, the flags and the fault registers (spec/10_state.md R22, R23, R25) -/

theorem faultEntry_controlOk (s : State) (f : CmdFault) (info : Nat) : (s.faultEntry f info).controlOk :=
  ⟨rfl, rfl, rfl, f.code_range⟩

/-- No body writes FAULT or a fault register. -/
theorem bodyOf_keeps_fault {i : Instr} {s u : State} (h : bodyOf i s = .ok u) :
    u.fault = s.fault ∧ u.faultCode = s.faultCode ∧ u.faultInfo = s.faultInfo := by
  cases i with
  | clr => cases h; exact ⟨rfl, rfl, rfl⟩
  | freq => rw [freqBody_frame h]; exact ⟨rfl, rfl, rfl⟩
  | tbuild => rw [tbuildBody_frame h]; exact ⟨rfl, rfl, rfl⟩
  | cassign => rw [cassignBody_frame h]; exact ⟨rfl, rfl, rfl⟩
  | encode => rw [encodeBody_frame h]; exact ⟨rfl, rfl, rfl⟩
  | bpinit => rw [bpinitBody_frame h]; exact ⟨rfl, rfl, rfl⟩
  | wbits pattern length => rw [wbitsBody_frame h]; exact ⟨rfl, rfl, rfl⟩
  | buinit => rw [buinitBody_ok h]; exact ⟨rfl, rfl, rfl⟩
  | rbit => rw [rbitBody_frame h]; exact ⟨rfl, rfl, rfl⟩
  | tdeser => rw [tdeserBody_frame h]; exact ⟨rfl, rfl, rfl⟩
  | slookup bit => rw [slookupBody_frame h]; exact ⟨rfl, rfl, rfl⟩
  | decode => rw [decodeBody_frame h]; exact ⟨rfl, rfl, rfl⟩
  | compress => rw [compressBody_frame h]; exact ⟨rfl, rfl, rfl⟩
  | decompress => rw [decompressBody_frame h]; exact ⟨rfl, rfl, rfl⟩

theorem controlOk_of_success {i : Instr} {s u : State} (hs : s.controlOk) (hp : s.phase = .idle)
    (h : bodyOf i s.accept = .ok u) : u.finish.controlOk := by
  obtain ⟨hf, hc, hi⟩ := bodyOf_keeps_fault h
  have hs := hs.2
  simp only [hp] at hs
  exact ⟨rfl, hf.trans hs.1, hc.trans hs.2.1, hi.trans hs.2.2⟩

theorem step_keeps_controlOk {s t : State} (hs : s.controlOk) (h : step s = .next t) : t.controlOk :=
  step_keeps_of_host (P := State.controlOk) (fun s t hs ht => by rw [ht]; exact hs)
    (fun _ => ⟨rfl, rfl, rfl, rfl⟩) (fun _ => ⟨rfl, rfl, rfl, rfl⟩) faultEntry_controlOk
    (fun _ _ _ => controlOk_of_success) hs h

/-! ## The lookup's candidate (spec/10_state.md R36) -/

theorem shiftIn_lt {cand : BitVec 16} {n : Nat} (bit : Bool) (h : cand.toNat < 2 ^ n) :
    (shiftIn cand bit).toNat < 2 ^ (n + 1) := by
  have hb := bit.toNat_lt
  refine (Nat.mod_le _ _).trans_lt ?_
  rw [pow_succ]
  omega

/-- SLOOKUP shifts one bit into the candidate and faults where that makes it 16 bits
(spec/45_huffman_decoder.md R216). -/
theorem slookupBody_candidateFits {bit : Bool} {s t : State} (hs : s.CandidateFits) (h : slookupBody bit s = .ok t) :
    t.CandidateFits := by
  rcases slookupBody_cases bit s with ⟨hit, -, h'⟩ | ⟨-, -, h'⟩ | ⟨-, hlen, h'⟩ <;> rw [h'] at h <;> cases h
  · exact candidateFits_of_clear rfl rfl
  · obtain ⟨hc, hl⟩ := hs
    have h1 : (s.clen + 1).toNat = s.clen.toNat + 1 := by
      have h1 : (1 : BitVec 8).toNat = 1 := rfl
      rw [BitVec.toNat_add, h1]
      omega
    refine ⟨?_, Nat.lt_succ_iff.1 (Nat.not_le.1 hlen)⟩
    rw [h1]
    exact shiftIn_lt bit hc

theorem decodeBody_candidateFits {s t : State} (h : decodeBody s = .ok t) : t.CandidateFits := by
  obtain ⟨-, turns, u, hu, rfl⟩ := decodeBody_ok h
  refine (decodeLoop_induction (P := State.CandidateFits) hu (candidateFits_of_clear rfl rfl) ?_).1
  intro s a b hs _ ha _ hb
  have ha : a.CandidateFits := by
    rw [rbitBody_frame ha]
    exact hs
  have hb := slookupBody_candidateFits ha hb
  split
  · exact hb
  · exact hb

theorem bodyOf_candidateFits {i : Instr} {s u : State} (hs : s.CandidateFits) (h : bodyOf i s = .ok u) :
    u.CandidateFits := by
  cases i with
  | slookup bit => exact slookupBody_candidateFits hs h
  | tdeser => rw [tdeserBody_frame h]; exact candidateFits_of_clear rfl rfl
  | decode => exact decodeBody_candidateFits h
  | decompress =>
    obtain ⟨_, _, _, -, -, -, h⟩ := decompressBody_ok h
    exact decodeBody_candidateFits h
  | clr => cases h; exact hs
  | freq => rw [freqBody_frame h]; exact hs
  | tbuild => rw [tbuildBody_frame h]; exact hs
  | cassign => rw [cassignBody_frame h]; exact hs
  | encode => rw [encodeBody_frame h]; exact hs
  | bpinit => rw [bpinitBody_frame h]; exact hs
  | wbits pattern length => rw [wbitsBody_frame h]; exact hs
  | buinit => rw [buinitBody_ok h]; exact hs
  | rbit => rw [rbitBody_frame h]; exact hs
  | compress => rw [compressBody_frame h]; exact hs

theorem candidateOk_of_success {i : Instr} {s u : State} (hs : s.candidateOk) (hp : s.phase = .idle)
    (h : bodyOf i s.accept = .ok u) : u.finish.candidateOk :=
  fun _ => bodyOf_candidateFits (s := s.accept) (u := u) (hs hp) h

theorem step_keeps_candidateOk {s t : State} (hs : s.candidateOk) (h : step s = .next t) : t.candidateOk :=
  step_keeps_of_host (P := State.candidateOk) (fun s t hs ht => by rw [ht]; exact hs)
    (fun _ => candidateOk_of_clear rfl rfl) (fun _ => candidateOk_of_clear rfl rfl)
    (fun _ _ _ => by rintro ⟨⟩) (fun _ _ _ => candidateOk_of_success) hs h

/-! ## The bounds of the counts (spec/10_state.md R28, spec/40_frequency_table.md R132) -/

/-- Replacing one counter changes the sum by that counter's change. -/
theorem freqSum_tset (f : FreqTable) (b : Byte) (x : Reg64) :
    freqSum (tset f b x) + (tget f b).toNat = freqSum f + x.toNat := by
  have hb : b.toNat < (f.toList.map BitVec.toNat).length := by simpa using b.isLt
  have hset : (tset f b x).toList.map BitVec.toNat = (f.toList.map BitVec.toNat).set b.toNat x.toNat := by
    rw [tset, Vector.toList_set, List.map_set]
  have hsum := List.sum_take_add_sum_drop (f.toList.map BitVec.toNat) b.toNat
  rw [List.drop_eq_getElem_cons hb, List.sum_cons, List.getElem_map, Vector.getElem_toList] at hsum
  have hget : tget f b = f[b.toNat]'b.isLt := rfl
  rw [freqSum, freqSum, hset, List.sum_set, if_pos hb, hget]
  omega

theorem tget_le_freqSum (f : FreqTable) (b : Byte) : (tget f b).toNat ≤ freqSum f :=
  List.le_sum_of_mem (List.mem_map_of_mem (by simp [tget]))

/-- Counting one byte adds one to the sum, which does not wrap (R132). -/
theorem freqSum_bump {f : FreqTable} (b : Byte) (h : freqSum f + 1 < 2 ^ 64) :
    freqSum (bump f b) = freqSum f + 1 := by
  have hle := tget_le_freqSum f b
  have hset := freqSum_tset f b (tget f b + 1)
  have h1 : (1 : Reg64).toNat = 1 := rfl
  rw [BitVec.toNat_add, h1, Nat.mod_eq_of_lt (by omega)] at hset
  rw [bump]
  omega

theorem freqSum_foldl_bump {f : FreqTable} {bs : List Byte} (h : freqSum f + bs.length < 2 ^ 64) :
    freqSum (bs.foldl bump f) = freqSum f + bs.length := by
  induction bs generalizing f with
  | nil => rfl
  | cons b bs ih =>
    rw [List.length_cons] at h
    have hb := freqSum_bump b (f := f) (by omega)
    rw [List.foldl_cons, ih (by omega), hb, List.length_cons]
    omega

theorem freqSum_countBytes {bs : List Byte} (h : bs.length < 2 ^ 64) : freqSum (countBytes bs) = bs.length := by
  rw [countBytes, freqSum_foldl_bump (by rwa [freqSum_replicate_zero, Nat.zero_add]), freqSum_replicate_zero,
    Nat.zero_add]

@[simp] theorem length_input (s : State) : s.input.length = s.inLen.toNat := State.length_readBytes ..

/-- The counters of FREQ add up to the input's length. -/
theorem freqBody_freqSum {s t : State} (h : freqBody s = .ok t) : freqSum t.freq = s.inLen.toNat := by
  rcases freqBody_cases s with ⟨-, h'⟩ | ⟨-, h'⟩ <;> rw [h'] at h <;> cases h
  refine (freqSum_countBytes ?_).trans (length_input s)
  rw [length_input]
  exact s.inLen.isLt

/-- The bounds of the counts, as a fact about the registers. -/
def State.CountsFit (s : State) : Prop :=
  freqSum s.freq < 2 ^ 64 ∧ s.entryCnt.toNat ≤ 256 ∧ s.maxLen.toNat ≤ 16 ∧ s.outLen.toNat ≤ s.caps.obuf.toNat

theorem tdeserBody_countsFit {s t : State} (hs : s.CountsFit) (h : tdeserBody s = .ok t) : t.CountsFit := by
  obtain ⟨hf, -, hm, ho⟩ := hs
  obtain ⟨count, hc, ht⟩ := tdeserBody_ok h
  rw [ht]
  refine ⟨hf, ?_, hm, ho⟩
  simp only [BitVec.toNat_ofNat]
  omega

theorem compressBody_countsFit {s t : State} (hs : s.CountsFit) (h : compressBody s = .ok t) : t.CountsFit := by
  obtain ⟨hf, -, -, ho⟩ := hs
  obtain ⟨a, b, ha, hb, ht⟩ := compressBody_ok h
  obtain ⟨hframe, hentry, hmax⟩ := compressCount_ok ha
  rw [compressPack_frame ht, compressHeader_frame hb]
  rw [hframe] at hentry hmax ⊢
  exact ⟨hf, hentry, hmax, ho⟩

theorem decodeBody_countsFit {s t : State} (hs : s.CountsFit) (h : decodeBody s = .ok t) : t.CountsFit := by
  obtain ⟨hf, he, hm, -⟩ := hs
  obtain ⟨ho, turns, u, hu, rfl⟩ := decodeBody_ok h
  rw [decodeLoop_frame hu]
  exact ⟨hf, he, hm, ho⟩

theorem bodyOf_countsFit {i : Instr} {s u : State} (hs : s.CountsFit) (h : bodyOf i s = .ok u) : u.CountsFit := by
  cases i with
  | freq =>
    have hsum := freqBody_freqSum h
    rw [freqBody_frame h]
    exact ⟨hsum ▸ s.inLen.isLt, hs.2⟩
  | encode =>
    obtain ⟨a, b, ha, hb, ht⟩ := encodeBody_ok h
    have hsum := freqBody_freqSum ha
    rw [cassignBody_frame ht, tbuildBody_frame hb]
    rw [freqBody_frame ha] at hsum ⊢
    exact ⟨hsum ▸ s.inLen.isLt, hs.2⟩
  | tdeser => exact tdeserBody_countsFit hs h
  | decode => exact decodeBody_countsFit hs h
  | compress => exact compressBody_countsFit hs h
  | decompress =>
    obtain ⟨a, b, c, ha, hb, hc, ht⟩ := decompressBody_ok h
    have ha : a.CountsFit := by
      rw [readHeader_frame ha]
      exact hs
    have hb := tdeserBody_countsFit ha hb
    have hc : c.CountsFit := by
      rw [copyContent_frame hc]
      exact hb
    exact decodeBody_countsFit hc ht
  | clr => cases h; exact hs
  | tbuild => rw [tbuildBody_frame h]; exact hs
  | cassign => rw [cassignBody_frame h]; exact hs
  | bpinit => rw [bpinitBody_frame h]; exact hs
  | wbits pattern length => rw [wbitsBody_frame h]; exact hs
  | buinit => rw [buinitBody_ok h]; exact hs
  | rbit => rw [rbitBody_frame h]; exact hs
  | slookup bit => rw [slookupBody_frame h]; exact hs

theorem countsOk_of_success {i : Instr} {s u : State} (hs : s.countsOk) (hp : s.phase = .idle)
    (h : bodyOf i s.accept = .ok u) : u.finish.countsOk :=
  fun _ => bodyOf_countsFit (s := s.accept) (u := u) (hs hp) h

theorem step_keeps_countsOk {s t : State} (hs : s.countsOk) (h : step s = .next t) : t.countsOk :=
  step_keeps_of_host (P := State.countsOk) (fun s t hs ht => by rw [ht]; exact hs)
    (fun _ => countsOk_of_zero rfl rfl rfl rfl) (fun _ => countsOk_of_zero rfl rfl rfl rfl)
    (fun _ _ _ => by rintro ⟨⟩) (fun _ _ _ => countsOk_of_success) hs h

/-- Settles O59: each of the three is an invariant on its own. -/
theorem stepKeepsTheControlState : Obligations.StepKeepsTheControlState := fun _ _ h =>
  ⟨fun hs => step_keeps_controlOk hs h, fun hs => step_keeps_candidateOk hs h, fun hs => step_keeps_countsOk hs h⟩

end Sys2Proof.Machine

namespace Sys2Proof.Machine

/-! ## The table of the flags (spec/10_state.md R43) -/

/-- A command that starts and ends in IDLE is its body, ended in success. -/
theorem exec_success {i : Instr} {s t : State} (hi : i ≠ .clr) (hs : s.phase = .idle) (h : exec i s = .next t)
    (ht : t.phase = .idle) : ∃ u, bodyOf i s.accept = .ok u ∧ t = u.finish :=
  command_next_idle hs ((exec_eq_bodyOf hi s).symm.trans h) ht

/-! ### NODATA -/

theorem tbuildBody_nodata {s t : State} (h : tbuildBody s = .ok t) :
    t.nodata = decide (leafSymbols s.freq = []) := by
  have hnil := sortItems_leafItems_eq_nil s.freq
  rcases tbuildBody_cases s with ⟨hn, h'⟩ | ⟨x, xs, _, hx, -, h'⟩ <;> rw [h'] at h <;> cases h
  · exact (decide_eq_true (hnil.1 hn)).symm
  · exact (decide_eq_false fun hn => List.cons_ne_nil x xs (hx.symm.trans (hnil.2 hn))).symm

/-- No symbol is counted exactly if there is no input. -/
theorem leafSymbols_countBytes_eq_nil {bs : List Byte} (h : bs.length < 2 ^ 64) :
    leafSymbols (countBytes bs) = [] ↔ bs = [] := by
  constructor
  · intro hn
    cases bs with
    | nil => rfl
    | cons b bs =>
      have hle := List.count_le_length (a := b) (l := b :: bs)
      have hpos := List.count_pos_iff.2 (List.mem_cons_self (a := b) (l := bs))
      have hb : b ∈ leafSymbols (countBytes (b :: bs)) := by
        rw [mem_leafSymbols, tget_countBytes, ne_eq, ← BitVec.toNat_inj, BitVec.toNat_ofNat,
          Nat.mod_eq_of_lt (hle.trans_lt h)]
        exact hpos.ne'
      rw [hn] at hb
      cases hb
  · rintro rfl
    exact List.filter_eq_nil_iff.2 fun b _ => by simp [tget_countBytes]

theorem encodeBody_nodata {s t : State} (h : encodeBody s = .ok t) : t.nodata = decide (s.inLen = 0) := by
  obtain ⟨a, b, ha, hb, ht⟩ := encodeBody_ok h
  rw [cassignBody_frame ht]
  refine (tbuildBody_nodata hb).trans (decide_eq_decide.2 ?_)
  rcases freqBody_cases s with ⟨-, h'⟩ | ⟨-, h'⟩ <;> rw [h'] at ha <;> cases ha
  refine (leafSymbols_countBytes_eq_nil ?_).trans ?_
  · rw [length_input]
    exact s.inLen.isLt
  · rw [← List.length_eq_zero_iff, length_input]
    exact (BitVec.toNat_eq (y := 0)).symm

/-! ### EOD and MATCH -/

theorem rbitBody_eod {s t : State} (h : rbitBody s = .ok t) : t.eod = decide (s.pkLen ≤ s.buByte) := by
  rcases rbitBody_cases s with ⟨-, h'⟩ | ⟨-, he, h'⟩ | ⟨-, he, h'⟩ <;> rw [h'] at h <;> cases h
  · exact (decide_eq_true he).symm
  · rw [advanceUnpacker_frame]
    exact (decide_eq_false (BitVec.not_le.2 he)).symm

theorem slookupBody_matched {bit : Bool} {s t : State} (h : slookupBody bit s = .ok t) :
    t.matched = decide (∃ b : Byte, tget s.code b = ⟨shiftIn s.cand bit, s.clen + 1⟩) := by
  rcases slookupBody_cases bit s with ⟨hit, hf, h'⟩ | ⟨-, -, h'⟩ | ⟨hf, -, h'⟩ <;> rw [h'] at h <;> cases h
  · obtain ⟨hlen, hpat, -⟩ := findSymbol_eq_some hf
    exact (decide_eq_true ⟨hit, by rw [← hlen, ← hpat]⟩).symm
  · refine (decide_eq_false ?_).symm
    rintro ⟨b, hb⟩
    exact findSymbol_eq_none.1 hf b (by rw [hb]; exact ⟨rfl, rfl⟩)

/-- A turn of DECODE's loop that reads a bit leaves EOD clear. -/
theorem decodeBody_eod {s t : State} (h : decodeBody s = .ok t) : t.eod = false := by
  obtain ⟨-, turns, u, hu, rfl⟩ := decodeBody_ok h
  refine (decodeLoop_induction (P := fun s => s.eod = false) hu rfl ?_).1
  intro s a b _ _ _ ha hb
  have hb : b.eod = false := (congrArg State.eod (slookupBody_frame hb)).trans ha
  split
  · exact hb
  · exact hb

/-- The last turn of DECODE's loop is a match, since only a match counts a symbol; without a symbol to decode MATCH
stays cleared (R221). -/
theorem decodeBody_matched {s t : State} (h : decodeBody s = .ok t) : t.matched = decide (t.origSize ≠ 0) := by
  obtain ⟨-, turns, u, hu, rfl⟩ := decodeBody_ok h
  have horig : u.origSize = s.origSize := (congrArg State.origSize (decodeLoop_frame hu) :)
  by_cases h0 : s.origSize = 0
  · rw [decodeLoop_done _ _ (by simp [h0])] at hu
    cases hu
    exact (decide_eq_false (not_not.2 h0)).symm
  · have hstart : (0 : Reg64) < s.origSize := (BitVec.pos_iff_ne_zero _).2 h0
    obtain ⟨hP, hdone⟩ := decodeLoop_induction
      (P := fun s => s.emitCnt < s.origSize ∨ s.matched = true) hu (.inl hstart) fun s a b _ hlt ha _ hb => by
        split
        · exact .inr ‹_›
        · rw [slookupBody_frame hb, rbitBody_frame ha]
          exact .inl hlt
    exact (hP.resolve_left hdone).trans (decide_eq_true (horig ▸ h0)).symm

/-- Settles O57, by the flags each body writes and the frame of what it leaves. -/
theorem flagsTable : Obligations.FlagsTable := by
  intro i s t hs h ht
  by_cases hi : i = .clr
  · subst hi
    rw [exec_clr (by simp [hs])] at h
    cases h
    exact ⟨rfl, rfl, rfl, rfl, rfl⟩
  obtain ⟨u, hu, rfl⟩ := exec_success hi hs h ht
  refine ⟨by simp [hi], by simp [hi, (bodyOf_keeps_fault hu).1], ?_⟩
  clear h ht
  cases i with
  | clr => exact absurd rfl hi
  | freq => rw [freqBody_frame hu]; exact ⟨rfl, rfl, rfl⟩
  | tbuild =>
    have hframe := tbuildBody_frame hu
    exact ⟨(tbuildBody_nodata hu :), (congrArg State.eod hframe :), (congrArg State.matched hframe :)⟩
  | cassign => rw [cassignBody_frame hu]; exact ⟨rfl, rfl, rfl⟩
  | encode =>
    have hframe := encodeBody_frame hu
    exact ⟨(encodeBody_nodata hu :), (congrArg State.eod hframe :), (congrArg State.matched hframe :)⟩
  | bpinit => rw [bpinitBody_frame hu]; exact ⟨rfl, rfl, rfl⟩
  | wbits pattern length => rw [wbitsBody_frame hu]; exact ⟨rfl, rfl, rfl⟩
  | buinit => rw [buinitBody_ok hu]; exact ⟨rfl, rfl, rfl⟩
  | rbit =>
    have hframe := rbitBody_frame hu
    exact ⟨(congrArg State.nodata hframe :), (rbitBody_eod hu :), (congrArg State.matched hframe :)⟩
  | tdeser => rw [tdeserBody_frame hu]; exact ⟨rfl, rfl, rfl⟩
  | slookup bit =>
    have hframe := slookupBody_frame hu
    exact ⟨(congrArg State.nodata hframe :), (congrArg State.eod hframe :), (slookupBody_matched hu :)⟩
  | decode => exact ⟨(congrArg State.nodata (decodeBody_frame hu) :), (decodeBody_eod hu :), (decodeBody_matched hu :)⟩
  | compress => rw [compressBody_frame hu]; exact ⟨rfl, rfl, rfl⟩
  | decompress =>
    obtain ⟨_, _, _, -, -, -, hd⟩ := decompressBody_ok hu
    exact ⟨(congrArg State.nodata (decompressBody_frame hu) :), (decodeBody_eod hd :), (decodeBody_matched hd :)⟩

end Sys2Proof.Machine

namespace Sys2Proof.Machine

/-! ## The host's buffer accesses (spec/20_memory.md R63) -/

/-- Replacing the listed bytes of a space other than OBUF changes IBUF, ABUF and PBUF only. -/
theorem State.setBuf_frame_of_ne_obuf (s : State) {sp : Space} (m : Memory) (h : sp ≠ .obuf) :
    s.setBuf sp m = { s with
      ibuf := (s.setBuf sp m).ibuf, abuf := (s.setBuf sp m).abuf, pbuf := (s.setBuf sp m).pbuf } := by
  cases sp with
  | obuf => exact absurd rfl h
  | _ => rfl

theorem transact_readBuf_inside {s : State} {sp : Space} {index : Reg64} (hs : s.phase ≠ .run)
    (hi : index < s.caps.of sp) :
    transact (.readBuf sp index) s = .next (s.reply ((s.readByte sp index.toNat).zeroExtend 64)) := by
  rcases hostReadBuf_cases sp index hs with ⟨ho, -⟩ | ⟨-, h⟩
  · exact absurd hi (BitVec.not_lt.2 ho)
  · exact h

theorem transact_readBuf_outside {s : State} {sp : Space} {index : Reg64} (hs : s.phase ≠ .run)
    (ho : s.caps.of sp ≤ index) : transact (.readBuf sp index) s = .fault (.outsideBuffer sp index.toNat) := by
  rcases hostReadBuf_cases sp index hs with ⟨-, h⟩ | ⟨hi, -⟩
  · exact h
  · exact absurd ho hi

theorem transact_writeBuf_ignored {s : State} {sp : Space} {index : Reg64} (v : Byte) (hs : s.phase ≠ .run)
    (hi : index < s.caps.of sp) (hno : s.phase = .faulted ∨ sp = .obuf) :
    transact (.writeBuf sp index v) s = .next s := by
  rcases hostWriteBuf_cases sp index v hs with ⟨ho, -⟩ | ⟨-, -, h⟩ | ⟨-, hidle, hsp, -⟩
  · exact absurd hi (BitVec.not_lt.2 ho)
  · exact h
  · exact absurd hno (by simp [hidle, hsp])

theorem transact_writeBuf_stored {s : State} {sp : Space} {index : Reg64} (v : Byte) (hs : s.phase = .idle)
    (hi : index < s.caps.of sp) (hsp : sp ≠ .obuf) :
    transact (.writeBuf sp index v) s = .next (s.writeByte sp index.toNat v) := by
  rcases hostWriteBuf_cases sp index v (s := s) (by simp [hs]) with ⟨ho, -⟩ | ⟨-, hno, -⟩ | ⟨-, -, -, h⟩
  · exact absurd hi (BitVec.not_lt.2 ho)
  · exact absurd hno (by simp [hs, hsp])
  · exact h

theorem transact_writeBuf_outside {s : State} {sp : Space} {index : Reg64} (v : Byte) (hs : s.phase ≠ .run)
    (ho : s.caps.of sp ≤ index) : transact (.writeBuf sp index v) s = .fault (.outsideBuffer sp index.toNat) := by
  rcases hostWriteBuf_cases sp index v hs with ⟨-, h⟩ | ⟨hi, -⟩ | ⟨hi, -⟩
  · exact h
  · exact absurd ho hi
  · exact absurd ho hi

/-- Settles O55, by what each access does inside and outside the capacity and what a byte reads as after a write. -/
theorem hostBufferAccess : Obligations.HostBufferAccess := by
  intro s sp index v hs
  refine ⟨fun hi => ⟨transact_readBuf_inside hs hi, transact_writeBuf_ignored v hs hi, fun hidle hsp =>
      ⟨_, transact_writeBuf_stored v hidle hi hsp, State.setBuf_frame_of_ne_obuf s _ hsp, fun sq a =>
        State.readByte_writeByte s sp sq index.toNat a v⟩⟩,
    fun ho => ⟨transact_readBuf_outside hs ho, transact_writeBuf_outside v hs ho⟩⟩

end Sys2Proof.Machine

namespace Sys2Proof.Machine

/-! ## The buffers stay canonical and inside their capacities (spec/20_memory.md R61) -/


/-! ### The packer -/

/-- The bytes the packer zeroes lie below `PK_LEN` (spec/43_bit_packer.md R181). -/
theorem bpinitBody_buffersOk {s t : State} (hs : s.buffersOk) (h : bpinitBody s = .ok t) : t.buffersOk := by
  rcases bpinitBody_cases s with ⟨-, h'⟩ | ⟨hcap, hpos, h'⟩ | ⟨-, -, h'⟩ <;> rw [h'] at h <;> cases h
  · have hcap := BitVec.le_def.1 (BitVec.not_lt.1 hcap)
    exact State.buffersOk_writeByte (s := { s with bpByte := 0, bpBit := 0 }) hs 0 (hpos.trans_le hcap)
  · exact hs

theorem advancePacker_buffersOk {s : State} (hs : s.buffersOk) (hcap : s.pkLen ≤ s.caps.pbuf) :
    s.advancePacker.buffersOk := by
  rcases advancePacker_cases s with ⟨-, h⟩ | ⟨-, hlt, h⟩ | ⟨-, -, h⟩ <;> rw [h]
  · exact hs
  · exact State.buffersOk_writeByte (s := { s with bpBit := 0, bpByte := s.bpByte + 1 }) hs 0
      ((BitVec.lt_def.1 hlt).trans_le (BitVec.le_def.1 hcap))
  · exact hs

/-- The bit goes to a byte below `PK_LEN` (R184). -/
theorem writeBit_buffersOk {b : Bool} {s t : State} (hs : s.buffersOk) (hcap : s.pkLen ≤ s.caps.pbuf)
    (h : writeBit b s = .ok t) : t.buffersOk := by
  rcases writeBit_cases b s with ⟨-, h'⟩ | ⟨hlt, h'⟩ <;> rw [h'] at h <;> cases h
  have hin : s.bpByte.toNat < (s.caps.of .pbuf).toNat := (BitVec.lt_def.1 hlt).trans_le (BitVec.le_def.1 hcap)
  exact advancePacker_buffersOk (State.buffersOk_writeByte hs _ hin) (by simpa using hcap)

theorem writeBits_buffersOk {bs : List Bool} {s t : State} (hs : s.buffersOk) (hcap : s.pkLen ≤ s.caps.pbuf)
    (h : writeBits bs s = .ok t) : t.buffersOk := by
  induction bs generalizing s with
  | nil => cases h; exact hs
  | cons b bs ih =>
    obtain ⟨u, hu, h⟩ := Result.andThen_ok.1 h
    refine ih (writeBit_buffersOk hs hcap hu) ?_ h
    rw [writeBit_frame hu]
    exact hcap

theorem wbitsBody_buffersOk {pattern : BitVec 16} {length : Nat} {s t : State} (hs : s.buffersOk)
    (h : wbitsBody pattern length s = .ok t) : t.buffersOk := by
  rcases wbitsBody_cases pattern length s with ⟨-, h'⟩ | ⟨-, -, h'⟩ | ⟨-, hcap, h'⟩ <;> rw [h'] at h
  · cases h
  · cases h
  · exact writeBits_buffersOk hs (BitVec.not_lt.1 hcap) h

/-! ### DECODE -/

/-- A symbol is emitted below the original size, which fits OBUF (spec/45_huffman_decoder.md R221). -/
theorem emit_buffersOk {s : State} (hs : s.buffersOk) (hlt : s.emitCnt < s.origSize)
    (hcap : s.origSize ≤ s.caps.obuf) : s.emit.buffersOk :=
  State.buffersOk_writeByte (sp := .obuf) hs s.rdata ((BitVec.lt_def.1 hlt).trans_le (BitVec.le_def.1 hcap))

theorem decodeBody_buffersOk {s t : State} (hs : s.buffersOk) (h : decodeBody s = .ok t) : t.buffersOk := by
  obtain ⟨hcap, turns, u, hu, rfl⟩ := decodeBody_ok h
  refine (decodeLoop_induction (P := fun s => s.buffersOk ∧ s.origSize ≤ s.caps.obuf) hu ⟨hs, hcap⟩ ?_).1.1
  intro s a b ⟨hs, hcap⟩ hlt ha _ hb
  rw [slookupBody_frame hb, rbitBody_frame ha]
  split
  · exact ⟨emit_buffersOk hs hlt hcap, hcap⟩
  · exact ⟨hs, hcap⟩

/-! ### COMPRESS -/

@[simp] theorem length_flatMap_entryBytes (l : List (Byte × CodeEntry)) :
    (l.flatMap entryBytes).length = 4 * l.length := by
  simp [List.length_flatMap, Nat.mul_comm]

/-- The header and the entries end where the content starts, inside ABUF (spec/46_container_codec.md R239). -/
theorem compressHeader_buffersOk {s t : State} (hs : s.buffersOk) (h : compressHeader s = .ok t) : t.buffersOk := by
  rcases compressHeader_cases s with ⟨-, h'⟩ | ⟨hcap, u, h', hu, habuf⟩ <;> rw [h'] at h <;> cases h
  have hcap : 18 + 4 * (presentCodes s.code).length ≤ (s.caps.of .abuf).toNat := Nat.not_lt.1 hcap
  have hheader : (s.writeBytes .abuf 0
      (headerBytes s.inLen.toNat (contentStart (presentCodes s.code).length))).buffersOk :=
    State.buffersOk_writeBytes hs _ (by rw [length_headerBytes]; omega)
  have hentries := State.buffersOk_writeBytes hheader (sp := .abuf) (a := Config.hdrSize)
    ((presentCodes s.code).flatMap entryBytes)
    (by simpa only [State.writeBytes_caps, length_flatMap_entryBytes])
  refine State.buffersOk_congr hentries (fun sp => ?_) (by rw [hu]; simp)
  by_cases hsp : sp = .abuf
  · subst hsp
    exact habuf
  · rw [State.buf_writeBytes_other _ _ _ hsp, State.buf_writeBytes_other _ _ _ hsp, hu]
    cases sp with
    | abuf => exact absurd rfl hsp
    | _ => rfl

theorem packLoop_buffersOk {i : Nat} {bs : List Byte} {s t : State} (hs : s.buffersOk)
    (h : packLoop i bs s = .ok t) : t.buffersOk := by
  induction bs generalizing i s with
  | nil => cases h; exact hs
  | cons b bs ih =>
    rcases packLoop_cons i b bs s with ⟨-, h'⟩ | ⟨-, h'⟩ <;> rw [h'] at h
    · cases h
    · obtain ⟨u, hu, h⟩ := Result.andThen_ok.1 h
      exact ih (wbitsBody_buffersOk hs hu) h

/-- The content ends inside ABUF (R241). -/
theorem compressAppend_buffersOk {s t : State} (hs : s.buffersOk) (h : compressAppend s = .ok t) : t.buffersOk := by
  rcases compressAppend_cases s with ⟨-, h'⟩ | ⟨hcap, h'⟩ <;> rw [h'] at h <;> cases h
  exact State.buffersOk_writeBytes (sp := .abuf) hs _ (by rw [State.length_readBytes]; exact Nat.not_lt.1 hcap)

theorem compressPack_buffersOk {s t : State} (hs : s.buffersOk) (h : compressPack s = .ok t) : t.buffersOk := by
  simp only [compressPack] at h
  split at h
  · cases h
  · obtain ⟨b, hb, h⟩ := Result.andThen_ok.1 h
    obtain ⟨a, ha, hb⟩ := Result.andThen_ok.1 hb
    refine compressAppend_buffersOk (packLoop_buffersOk (bpinitBody_buffersOk ?_ ha) hb) h
    exact hs

theorem compressBody_buffersOk {s t : State} (hs : s.buffersOk) (h : compressBody s = .ok t) : t.buffersOk := by
  obtain ⟨a, b, ha, hb, ht⟩ := compressBody_ok h
  have ha : a.buffersOk := by
    rw [(compressCount_ok ha).1]
    exact hs
  exact compressPack_buffersOk (compressHeader_buffersOk ha hb) ht

/-! ### DECOMPRESS -/

/-- The content fits PBUF (R253). -/
theorem copyContent_buffersOk {s t : State} (hs : s.buffersOk) (h : copyContent s = .ok t) : t.buffersOk := by
  rcases copyContent_cases s with ⟨-, h'⟩ | ⟨hcap, h'⟩ <;> rw [h'] at h <;> cases h
  refine State.buffersOk_writeBytes (sp := .pbuf) hs _ ?_
  rw [State.length_readBytes, Nat.zero_add]
  exact Nat.not_lt.1 hcap

theorem decompressBody_buffersOk {s t : State} (hs : s.buffersOk) (h : decompressBody s = .ok t) :
    t.buffersOk := by
  obtain ⟨a, b, c, ha, hb, hc, ht⟩ := decompressBody_ok h
  have hb : b.buffersOk := by
    rw [tdeserBody_frame hb, readHeader_frame ha]
    exact hs
  exact decodeBody_buffersOk (copyContent_buffersOk hb hc) ht

/-! ### The commands and the step -/

/-- Of the commands, BPINIT, WBITS, DECODE, COMPRESS and DECOMPRESS store bytes, each below a bound that its checks
hold inside the capacity. -/
theorem bodyOf_buffersOk {i : Instr} {s u : State} (hs : s.buffersOk) (h : bodyOf i s = .ok u) : u.buffersOk := by
  cases i with
  | bpinit => exact bpinitBody_buffersOk hs h
  | wbits pattern length => exact wbitsBody_buffersOk hs h
  | decode => exact decodeBody_buffersOk hs h
  | compress => exact compressBody_buffersOk hs h
  | decompress => exact decompressBody_buffersOk hs h
  | clr => cases h; exact hs
  | freq => rw [freqBody_frame h]; exact hs
  | tbuild => rw [tbuildBody_frame h]; exact hs
  | cassign => rw [cassignBody_frame h]; exact hs
  | encode => rw [encodeBody_frame h]; exact hs
  | buinit => rw [buinitBody_ok h]; exact hs
  | rbit => rw [rbitBody_frame h]; exact hs
  | tdeser => rw [tdeserBody_frame h]; exact hs
  | slookup bit => rw [slookupBody_frame h]; exact hs

/-- CLR keeps the buffers, reset and a fault empty them, and every byte the host or a command stores lies inside the
capacity. -/
theorem effect_buffersOk {s t : State} (hs : s.buffersOk) (h : Effect s t) : t.buffersOk := by
  cases h with
  | nothing => exact hs
  | reply v => exact hs
  | hardReset => exact State.buffersOk_of_empty (State.buf_hardReset s)
  | softReset => exact State.buffersOk_congr hs (State.buf_softReset s) rfl
  | success i u hp hi hu => exact bodyOf_buffersOk (s := s.accept) (u := u) hs hu
  | fault f info hp => exact State.buffersOk_of_empty (State.buf_faultEntry s f info)
  | writeReg r v hp => rw [writeReg_frame]; exact hs
  | writeByte sp a v hp hsp ha => exact State.buffersOk_writeByte hs v ha

/-- Settles O58, by what a step can do beside taking a transaction off the list and storing a word in `CMD`. -/
theorem stepKeepsTheBuffers : Obligations.StepKeepsTheBuffers := by
  intro s t hs h
  obtain ⟨w, p, h⟩ := step_effect h
  exact effect_buffersOk (s := { s with cmd := w, pending := p }) hs h

end Sys2Proof.Machine

namespace Sys2Proof

/-! ## The command word (spec/30_encoding.md R90 to R94) -/

/-- The word of every well-formed command decodes to it, command by command. -/
theorem decode_encode (i : Instr) (h : i.wellFormed = true) : decode (encode i) = .ok i := by
  cases i with
  | clr => exact Laws.RoundTrip.clr h
  | freq => exact Laws.RoundTrip.freq h
  | tbuild => exact Laws.RoundTrip.tbuild h
  | cassign => exact Laws.RoundTrip.cassign h
  | encode => exact Laws.RoundTrip.encode h
  | bpinit => exact Laws.RoundTrip.bpinit h
  | wbits pattern length => exact Laws.RoundTrip.wbits pattern length h
  | buinit => exact Laws.RoundTrip.buinit h
  | rbit => exact Laws.RoundTrip.rbit h
  | tdeser => exact Laws.RoundTrip.tdeser h
  | slookup bit => exact Laws.RoundTrip.slookup bit h
  | decode => exact Laws.RoundTrip.decode h
  | compress => exact Laws.RoundTrip.compress h
  | decompress => exact Laws.RoundTrip.decompress h

/-- Settles O1: each command's opcode and operands are read back from the fields they were put in. -/
theorem decodeOfEncode : Obligations.DecodeOfEncode := decode_encode

/-! ### The fields as digits of the word -/

theorem toNat_opField (w : Word) : (opField w).toNat = w.toNat / 2 ^ 24 := by
  have := w.isLt
  simp only [opField, BitVec.extractLsb'_toNat, Nat.shiftRight_eq_div_pow]
  omega

theorem toNat_lenField (w : Word) : (lenField w).toNat = w.toNat / 2 ^ 16 % 2 ^ 8 := by
  simp only [lenField, BitVec.extractLsb'_toNat, Nat.shiftRight_eq_div_pow]

theorem toNat_patField (w : Word) : (patField w).toNat = w.toNat % 2 ^ 16 := by
  simp only [patField, BitVec.extractLsb'_toNat, Nat.shiftRight_zero]

theorem toNat_wordOf (op len : BitVec 8) (pat : BitVec 16) :
    (wordOf op len pat).toNat = 2 ^ 24 * op.toNat + 2 ^ 16 * len.toNat + pat.toNat := by
  have hl := len.isLt
  have hp := pat.isLt
  simp only [wordOf, BitVec.toNat_append]
  rw [← Nat.shiftLeft_add_eq_or_of_lt hl, ← Nat.shiftLeft_add_eq_or_of_lt hp]
  simp only [Nat.shiftLeft_eq]
  omega

/-- A word is its three fields. -/
theorem wordOf_fields (w : Word) : wordOf (opField w) (lenField w) (patField w) = w := by
  apply BitVec.eq_of_toNat_eq
  rw [toNat_wordOf, toNat_opField, toNat_lenField, toNat_patField]
  omega

/-- The fields that must be 0 for a command without operands. -/
theorem operandFields_eq_zero (w : Word) : (lenField w = 0 ∧ patField w = 0) ↔ w.toNat % 2 ^ 24 = 0 := by
  simp only [BitVec.toNat_eq, toNat_lenField, toNat_patField]
  simp only [BitVec.ofNat_eq_ofNat, BitVec.toNat_ofNat]
  omega

/-- The fields that must be 0 for SLOOKUP, whose operand is bit 0. -/
theorem slookupFields_eq_zero (w : Word) :
    (lenField w = 0 ∧ (patField w).extractLsb' 1 15 = 0) ↔ w.toNat % 2 ^ 24 / 2 = 0 := by
  simp only [BitVec.toNat_eq, toNat_lenField, toNat_patField, BitVec.extractLsb'_toNat, Nat.shiftRight_eq_div_pow]
  simp only [BitVec.ofNat_eq_ofNat, BitVec.toNat_ofNat]
  omega

/-! ### The decoder's cases -/

/-- The opcode map names the opcode of the command's word. -/
theorem decodePlain_eq_some {op : BitVec 8} {i : Instr} (h : decodePlain op = some i) :
    i.wellFormed = true ∧ encode i = wordOf op 0 0 := by
  unfold decodePlain at h
  split at h <;> cases h <;>
    exact ⟨rfl, congrArg (wordOf · 0 0) (BitVec.eq_of_toNat_eq (Eq.symm ‹op.toNat = _›))⟩

theorem decodePlain_eq_none (op : BitVec 8) :
    decodePlain op = none ↔ op.toNat = 0 ∨ op.toNat = 0x07 ∨ op.toNat = 0x0B ∨ 0x0E < op.toNat := by
  unfold decodePlain
  split
  case h_13 =>
    simp only [imp_false, true_iff] at *
    omega
  all_goals
    simp only [reduceCtorEq, false_iff]
    omega

/-- Everything the decoder can answer (R94): WBITS whatever the other fields, SLOOKUP with its bit alone, and a command
whose other fields are 0. -/
theorem decode_cases (w : Word) :
    (opField w = 0x07 ∧ decode w = .ok (.wbits (patField w) (lenField w).toNat)) ∨
    (opField w = 0x0B ∧ (lenField w = 0 ∧ (patField w).extractLsb' 1 15 = 0) ∧
      decode w = .ok (.slookup ((patField w).getLsbD 0))) ∨
    (opField w = 0x0B ∧ ¬ (lenField w = 0 ∧ (patField w).extractLsb' 1 15 = 0) ∧
      decode w = .error (.mustBeZero (opField w))) ∨
    (∃ i, decodePlain (opField w) = some i ∧ (lenField w = 0 ∧ patField w = 0) ∧ decode w = .ok i) ∨
    (∃ i, decodePlain (opField w) = some i ∧ ¬ (lenField w = 0 ∧ patField w = 0) ∧
      decode w = .error (.mustBeZero (opField w))) ∨
    (opField w ≠ 0x07 ∧ opField w ≠ 0x0B ∧ decodePlain (opField w) = none ∧
      decode w = .error (.unassignedOpcode (opField w))) := by
  unfold decode
  by_cases h7 : opField w = 0x07
  · exact .inl ⟨h7, if_pos h7⟩
  · refine .inr ?_
    rw [if_neg h7]
    by_cases hB : opField w = 0x0B
    · rw [if_pos hB]
      by_cases hz : lenField w = 0 ∧ (patField w).extractLsb' 1 15 = 0
      · exact .inl ⟨hB, hz, if_pos hz⟩
      · exact .inr (.inl ⟨hB, hz, if_neg hz⟩)
    · rw [if_neg hB]
      refine .inr (.inr ?_)
      cases hi : decodePlain (opField w) with
      | none => exact .inr (.inr ⟨h7, hB, rfl, rfl⟩)
      | some i =>
        by_cases hz : lenField w = 0 ∧ patField w = 0
        · exact .inl ⟨i, rfl, hz, if_pos hz⟩
        · exact .inr (.inl ⟨i, rfl, hz, if_neg hz⟩)

/-- SLOOKUP's pattern field is its bit, where the other bits are 0. -/
theorem patField_of_bit {pat : BitVec 16} (h : pat.extractLsb' 1 15 = 0) :
    (BitVec.ofBool (pat.getLsbD 0)).zeroExtend 16 = pat := by
  apply BitVec.eq_of_getLsbD_eq
  intro k hk
  cases k with
  | zero => simp
  | succ k =>
    have := congrArg (BitVec.getLsbD · k) h
    simp only [BitVec.getLsbD_extractLsb', show k < 15 by omega, decide_true, Bool.true_and, Nat.add_comm 1] at this
    simp [this]

/-- Settles O2: each form of a legal word is put together again from its fields. -/
theorem encodeOfDecode : Obligations.EncodeOfDecode := by
  intro w i h
  rcases decode_cases w with ⟨hop, h'⟩ | ⟨hop, ⟨hlen, hpat⟩, h'⟩ | ⟨-, -, h'⟩ | ⟨j, hj, ⟨hlen, hpat⟩, h'⟩ |
    ⟨j, -, -, h'⟩ | ⟨-, -, -, h'⟩ <;> rw [h'] at h <;> cases h
  · refine ⟨by simpa [Instr.wellFormed] using (lenField w).isLt, ?_⟩
    rw [encode, BitVec.ofNat_toNat, BitVec.setWidth_eq, ← hop, wordOf_fields]
  · refine ⟨rfl, ?_⟩
    rw [encode, patField_of_bit hpat, ← hop, ← hlen, wordOf_fields]
  · obtain ⟨hwf, henc⟩ := decodePlain_eq_some hj
    refine ⟨hwf, henc.trans ?_⟩
    conv_rhs => rw [← wordOf_fields w, hlen, hpat]

open Machine in
/-- In IDLE an illegal word is ILLEGAL_COMMAND with the word as its information (spec/60_exceptions.md R288). -/
theorem issue_illegal_idle {w : Word} {e : Illegal} {s : State} (h : decode w = .error e) (hs : s.phase = .idle) :
    issue w s = .next (State.faultEntry .illegalCommand w.toNat { s with cmd := w }) := by
  rw [issue_illegal h, illegalWord]
  simp only [hs]

/-- An opcode of the map is in its range and neither WBITS's nor SLOOKUP's. -/
theorem decodePlain_range {op : BitVec 8} {i : Instr} (h : decodePlain op = some i) :
    op.toNat ≠ 0 ∧ op.toNat ≠ 0x07 ∧ op.toNat ≠ 0x0B ∧ op.toNat ≤ 0x0E := by
  have := mt (decodePlain_eq_none op).2 (by simp [h])
  omega

/-- The illegal words by their digits (R93). -/
theorem decode_eq_error (w : Word) :
    (∃ e, decode w = .error e) ↔
      (w.toNat / 2 ^ 24 = 0 ∨ 0x0E < w.toNat / 2 ^ 24 ∨
        (w.toNat / 2 ^ 24 = 0x0B ∧ w.toNat % 2 ^ 24 / 2 ≠ 0) ∨
        (w.toNat / 2 ^ 24 ≠ 0x07 ∧ w.toNat / 2 ^ 24 ≠ 0x0B ∧ w.toNat % 2 ^ 24 ≠ 0)) := by
  have h7 : opField w = 0x07 ↔ w.toNat / 2 ^ 24 = 0x07 := BitVec.toNat_eq.trans (by rw [toNat_opField]; rfl)
  have hB : opField w = 0x0B ↔ w.toNat / 2 ^ 24 = 0x0B := BitVec.toNat_eq.trans (by rw [toNat_opField]; rfl)
  rcases decode_cases w with ⟨hop, h⟩ | ⟨hop, hz, h⟩ | ⟨hop, hz, h⟩ | ⟨i, hi, hz, h⟩ | ⟨i, hi, hz, h⟩ |
    ⟨hn7, hnB, hn, h⟩ <;>
    simp only [h, reduceCtorEq, exists_false, false_iff, Except.error.injEq, exists_eq', true_iff]
  · rw [h7] at hop
    omega
  iterate 2
    · rw [hB] at hop
      rw [slookupFields_eq_zero] at hz
      omega
  iterate 2
    · have := decodePlain_range hi
      rw [toNat_opField] at this
      rw [operandFields_eq_zero] at hz
      omega
  · rw [decodePlain_eq_none, toNat_opField] at hn
    rw [ne_eq, h7] at hn7
    rw [ne_eq, hB] at hnB
    omega

/-- Settles O3: the fields of an illegal word are read off its digits. -/
theorem illegalWords : Obligations.IllegalWords := fun w =>
  ⟨decode_eq_error w, fun _ _ he hs => ⟨_, issue_illegal_idle he hs, Machine.faultEntry_faultedFrom _ _ _⟩⟩

/-- Settles O4, by evaluating the decoder on each word. -/
theorem tableWordsDecode : Obligations.TableWordsDecode := by
  unfold Obligations.TableWordsDecode
  decide

end Sys2Proof

namespace Sys2Proof.Machine

/-! ## Running commands one after the other -/

theorem runAll_cons {i : Instr} {is : List Instr} {s t : State} :
    runAll (i :: is) s = some t ↔ ∃ u, exec i s = .next u ∧ u.done = true ∧ runAll is u = some t := by
  rw [runAll]
  cases exec i s with
  | next u => by_cases hd : u.done = true <;> simp [hd]
  | fault r => simp
  | refused r => simp

/-- A command that starts in IDLE and leaves DONE set is its body, ended in success (spec/47_system.md R271). -/
theorem exec_done {i : Instr} {s t : State} (hi : i ≠ .clr) (hs : s.phase = .idle) (h : exec i s = .next t)
    (ht : t.done = true) : ∃ u, bodyOf i s.accept = .ok u ∧ t = u.finish := by
  rw [exec_eq_bodyOf hi] at h
  rcases command_next h with ⟨-, h⟩ | ⟨-, f, n, -, rfl⟩ | ⟨hp, -⟩
  · exact h
  · cases ht
  · rw [hs] at hp
    cases hp

/-! ## Codes as bit strings (spec/30_encoding.md R108) -/

theorem pathValue_concat (p : List Bool) (b : Bool) : pathValue (p ++ [b]) = 2 * pathValue p + b.toNat := by
  simp [pathValue]

theorem pathValue_lt (p : List Bool) : pathValue p < 2 ^ p.length := by
  induction p using List.reverseRecOn with
  | nil => simp [pathValue]
  | append_singleton p b ih =>
    have := b.toNat_lt
    rw [pathValue_concat, List.length_append, List.length_singleton, pow_succ]
    omega

/-- The steps of a path are the bits of its value, the first step the highest. -/
theorem testBit_pathValue (p : List Bool) {j : Nat} (h : j < p.length) :
    (pathValue p).testBit (p.length - 1 - j) = p[j] := by
  induction p using List.reverseRecOn with
  | nil => cases h
  | append_singleton p b ih =>
    rw [pathValue_concat, List.length_append, List.length_singleton, Nat.add_sub_cancel]
    rw [List.length_append, List.length_singleton] at h
    by_cases hj : j = p.length
    · subst hj
      cases b <;> simp [Nat.testBit_zero]
    · rw [List.getElem_append_left (by omega), ← ih (by omega), show p.length - j = p.length - 1 - j + 1 by omega,
        Nat.testBit_succ]
      congr 1
      have := b.toNat_lt
      omega

/-- The entry CASSIGN gives a leaf at the end of the path `p` below a node with the given bits and length
(spec/42_code_assigner.md R163). -/
def pathEntry (bits len : Nat) (p : List Bool) : CodeEntry :=
  ⟨BitVec.ofNat 16 (p.foldl (fun n b => 2 * n + b.toNat) bits), BitVec.ofNat 8 (len + p.length)⟩

theorem pathEntry_cons (bits len : Nat) (b : Bool) (p : List Bool) :
    pathEntry bits len (b :: p) = pathEntry (2 * bits + b.toNat) (len + 1) p := by
  simp only [pathEntry, List.foldl_cons, List.length_cons, Nat.add_assoc, Nat.add_comm 1]

theorem toNat_pathEntry_len {p : List Bool} (h : p.length ≤ 16) : (pathEntry 0 0 p).len.toNat = p.length := by
  simp only [pathEntry, BitVec.toNat_ofNat]
  omega

theorem toNat_pathEntry_pat {p : List Bool} (h : p.length ≤ 16) : (pathEntry 0 0 p).pat.toNat = pathValue p := by
  have := (pathValue_lt p).trans_le (Nat.pow_le_pow_right (n := 2) (by decide) h)
  exact Nat.mod_eq_of_lt this

/-- The bit string of the entry is the path. -/
theorem string_pathEntry {p : List Bool} (h : p.length ≤ 16) : (pathEntry 0 0 p).string = p := by
  apply List.ext_getElem
  · simp [CodeEntry.string, toNat_pathEntry_len h]
  · intro j h1 h2
    simp only [CodeEntry.string, List.getElem_map, List.getElem_range, CodeEntry.bit, BitVec.getLsbD,
      toNat_pathEntry_len h, toNat_pathEntry_pat h, testBit_pathValue p h2]

/-! ## The walk of CASSIGN stores the paths of the leaves (spec/42_code_assigner.md R160 to R167) -/

/-- The code table after the leaves, each with its path, are stored one after the other. -/
def storePaths (bits len : Nat) (ls : List (List Bool × Byte)) (code : CodeTable) : CodeTable :=
  ls.foldl (fun c x => tset c x.2 (pathEntry bits len x.1)) code

theorem storePaths_append (bits len : Nat) (l r : List (List Bool × Byte)) (code : CodeTable) :
    storePaths bits len (l ++ r) code = storePaths bits len r (storePaths bits len l code) := List.foldl_append

/-- Paths that share their first step are stored as the paths below it. -/
theorem storePaths_cons_step (bits len : Nat) (b : Bool) (l : List (List Bool × Byte)) (code : CodeTable) :
    storePaths bits len (l.map fun x => (b :: x.1, x.2)) code = storePaths (2 * bits + b.toNat) (len + 1) l code := by
  simp only [storePaths, List.foldl_map, pathEntry_cons]

theorem tget_storePaths_other {bits len : Nat} {ls : List (List Bool × Byte)} {b : Byte} (code : CodeTable)
    (h : b ∉ ls.map Prod.snd) : tget (storePaths bits len ls code) b = tget code b := by
  induction ls generalizing code with
  | nil => rfl
  | cons x ls ih =>
    rw [List.map_cons, List.mem_cons, not_or] at h
    exact (ih _ h.2).trans (tget_tset_other _ _ h.1)

theorem tget_storePaths {bits len : Nat} {ls : List (List Bool × Byte)} {x : List Bool × Byte} (code : CodeTable)
    (hn : (ls.map Prod.snd).Nodup) (hx : x ∈ ls) : tget (storePaths bits len ls code) x.2 = pathEntry bits len x.1 := by
  induction ls generalizing code with
  | nil => cases hx
  | cons y ls ih =>
    rw [List.map_cons, List.nodup_cons] at hn
    rcases List.mem_cons.1 hx with rfl | hx
    · exact (tget_storePaths_other _ hn.1).trans (tget_tset_same _ _ _)
    · exact ih _ hn.2 hx

/-- A walk that ends has met no leaf deeper than 16 and has stored every leaf's path. -/
theorem walk_done {node : Arena} {fuel : Nat} {n : NodeId} {bits len : Nat} {code code' : CodeTable}
    {ls : List (List Bool × Byte)} (ht : treeLeaves node fuel n = some ls)
    (h : walk node fuel n bits len code = .done code') :
    (∀ x ∈ ls, len + x.1.length ≤ 16) ∧ code' = storePaths bits len ls code := by
  induction fuel generalizing n bits len code code' ls with
  | zero => cases ht
  | succ fuel ih =>
    obtain ⟨nd, hnd, ⟨hk, rfl⟩ | ⟨hk, l, r, hl, hr, rfl⟩⟩ := treeLeaves_cases ht
    · simp only [walk, hnd, hk] at h
      split at h
      · cases h
      · cases h
        exact ⟨by simpa using ‹¬ 16 < len›, rfl⟩
    · simp only [walk, hnd, hk] at h
      split at h
      · rename_i mid hmid
        obtain ⟨hdl, rfl⟩ := ih hl hmid
        obtain ⟨hdr, rfl⟩ := ih hr h
        refine ⟨List.forall_mem_append.2 ⟨List.forall_mem_map.2 fun y hy => ?_, List.forall_mem_map.2 fun y hy => ?_⟩,
          ?_⟩
        · exact (Nat.add_right_comm len 1 y.1.length).symm.trans_le (hdl y hy)
        · exact (Nat.add_right_comm len 1 y.1.length).symm.trans_le (hdr y hy)
        · rw [storePaths_append, storePaths_cons_step, storePaths_cons_step]
          rfl
      · cases h
      · cases h

/-! ## The paths of a tree's leaves -/

theorem treeLeaves_ne_nil {node : Arena} {bound : Nat} {n : NodeId} {ls : List (List Bool × Byte)}
    (h : treeLeaves node bound n = some ls) : ls ≠ [] := by
  induction bound generalizing n ls with
  | zero => cases h
  | succ bound ih =>
    obtain ⟨nd, -, ⟨-, rfl⟩ | ⟨-, l, r, hl, -, rfl⟩⟩ := treeLeaves_cases h
    · simp
    · simp [ih hl]

/-- No leaf stands on the path to a leaf of another symbol. -/
theorem treeLeaves_prefixFree {node : Arena} {bound : Nat} {n : NodeId} {ls : List (List Bool × Byte)}
    (h : treeLeaves node bound n = some ls) : ∀ x ∈ ls, ∀ y ∈ ls, x.2 ≠ y.2 → ¬ x.1 <+: y.1 := by
  induction bound generalizing n ls with
  | zero => cases h
  | succ bound ih =>
    obtain ⟨nd, -, ⟨-, rfl⟩ | ⟨-, l, r, hl, hr, rfl⟩⟩ := treeLeaves_cases h
    · rintro x hx y hy hne
      rw [List.mem_singleton] at hx hy
      exact absurd (hx ▸ hy ▸ rfl) hne
    · intro x hx y hy hne
      rw [List.mem_append, List.mem_map, List.mem_map] at hx hy
      rcases hx with ⟨x, hx, rfl⟩ | ⟨x, hx, rfl⟩ <;> rcases hy with ⟨y, hy, rfl⟩ | ⟨y, hy, rfl⟩
      · simpa [List.cons_prefix_cons] using ih hl x hx y hy hne
      · simp [List.cons_prefix_cons]
      · simp [List.cons_prefix_cons]
      · simpa [List.cons_prefix_cons] using ih hr x hx y hy hne

/-! ## The codes of TBUILD and CASSIGN (spec/42_code_assigner.md R168) -/

/-- `code` gives each of the given symbols a path of 1 to 16 steps, none of them the beginning of another symbol's,
and a lone symbol the path of one step 0. -/
structure CodedByPaths (syms : List Byte) (code : CodeTable) (ps : List (List Bool × Byte)) : Prop where
  symbols : (ps.map Prod.snd).Perm syms
  length : ∀ p ∈ ps, 1 ≤ p.1.length ∧ p.1.length ≤ 16
  prefixFree : ∀ x ∈ ps, ∀ y ∈ ps, x.2 ≠ y.2 → ¬ x.1 <+: y.1
  lone : ps.length = 1 → ∀ p ∈ ps, p.1 = [false]
  table : code = storePaths 0 0 ps noCodes

/-- CASSIGN without a tree (R161). -/
theorem assignCodes_noTree {s : State} {code : CodeTable} (hr : s.rootValid = false)
    (h : assignCodes s = .done code) : CodedByPaths [] code [] := by
  simp only [assignCodes, hr] at h
  cases h
  exact ⟨.refl _, by simp, by simp, by simp, rfl⟩

/-- CASSIGN on a whole tree: the paths of its leaves, or the one step 0 for a root that is a leaf (R160, R164). -/
theorem assignCodes_tree {s : State} {code : CodeTable} {ls : List (List Bool × Byte)} (hr : s.rootValid = true)
    (ht : treeLeaves s.node 511 s.root = some ls) (h : assignCodes s = .done code) :
    ∃ ps, CodedByPaths (ls.map Prod.snd) code ps := by
  simp only [assignCodes, hr, if_true] at h
  obtain ⟨nd, hnd, ⟨hk, rfl⟩ | ⟨hk, l, r, hl, hr, hls⟩⟩ := treeLeaves_cases ht
  · simp only [hnd, hk] at h
    cases h
    exact ⟨[([false], nd.sym)], .refl _, by simp, by simp, by simp, rfl⟩
  · simp only [hnd, hk] at h
    obtain ⟨hdepth, hcode⟩ := walk_done ht h
    have hleft := List.length_pos_iff.2 (treeLeaves_ne_nil hl)
    have hright := List.length_pos_iff.2 (treeLeaves_ne_nil hr)
    refine ⟨ls, .refl _, fun p hp => ⟨?_, by simpa using hdepth p hp⟩, treeLeaves_prefixFree ht, fun h1 => ?_,
      hcode⟩
    · rw [hls, List.mem_append, List.mem_map, List.mem_map] at hp
      rcases hp with ⟨x, -, rfl⟩ | ⟨x, -, rfl⟩ <;> simp
    · rw [hls, List.length_append, List.length_map, List.length_map] at h1
      omega

theorem CodedByPaths.of_perm {syms syms' : List Byte} {code : CodeTable} {ps : List (List Bool × Byte)}
    (h : CodedByPaths syms code ps) (hp : syms.Perm syms') : CodedByPaths syms' code ps :=
  { h with symbols := h.symbols.trans hp }

/-- What TBUILD and then CASSIGN leave in the code table. -/
theorem codes_of_tbuild_cassign {s u v : State} (hu : tbuildBody s = .ok u)
    (hv : cassignBody u.finish.accept = .ok v) : ∃ ps, CodedByPaths (leafSymbols s.freq) v.code ps := by
  obtain ⟨code, hcode, hv'⟩ | ⟨_, _, -, hv'⟩ | ⟨-, hv'⟩ := cassignBody_cases u.finish.accept <;>
    rw [hv'] at hv <;> cases hv
  rcases tbuildBody_cases s with ⟨hnil, h'⟩ | ⟨x, xs, t, hx, ht, h'⟩ <;> rw [h'] at hu <;> cases hu
  · rw [(sortItems_leafItems_eq_nil _).1 hnil]
    exact ⟨[], assignCodes_noTree rfl hcode⟩
  · obtain ⟨y, ls, hy, hls, hperm, -⟩ := mergeAll_tree hx ht
    obtain ⟨ps, hps⟩ := assignCodes_tree rfl (by simpa [hy] using hls) hcode
    exact ⟨ps, hps.of_perm hperm⟩

section
variable {freq : FreqTable} {code : CodeTable} {ps : List (List Bool × Byte)}

/-- The entry of a symbol that has a path. -/
theorem CodedByPaths.tget_of_mem (h : CodedByPaths (leafSymbols freq) code ps) {p : List Bool} {b : Byte}
    (hp : (p, b) ∈ ps) : tget code b = pathEntry 0 0 p := by
  rw [h.table]
  exact tget_storePaths noCodes (h.symbols.nodup_iff.2 (leafSymbols_nodup freq)) hp

/-- The present symbols are those with a path, which are those with a nonzero count (R168 a). -/
theorem CodedByPaths.present_iff (h : CodedByPaths (leafSymbols freq) code ps) (b : Byte) :
    present code b ↔ ∃ p, (p, b) ∈ ps := by
  constructor
  · intro hb
    by_contra hno
    refine hb ?_
    rw [h.table, tget_storePaths_other _ (by simpa using hno), noCodes, tget_replicate]
    rfl
  · rintro ⟨p, hp⟩ h0
    obtain ⟨h1, h16⟩ := h.length _ hp
    rw [h.tget_of_mem hp, BitVec.toNat_eq, toNat_pathEntry_len h16] at h0
    exact absurd h0 (Nat.ne_of_gt h1)

theorem CodedByPaths.present_iff_freq (h : CodedByPaths (leafSymbols freq) code ps) (b : Byte) :
    present code b ↔ tget freq b ≠ 0 := by
  rw [h.present_iff, ← mem_leafSymbols, ← h.symbols.mem_iff]
  simp

theorem CodedByPaths.properCodes (h : CodedByPaths (leafSymbols freq) code ps) : properCodes code := by
  intro b hb
  obtain ⟨p, hp⟩ := (h.present_iff b).1 hb
  have h16 := (h.length _ hp).2
  rw [h.tget_of_mem hp, toNat_pathEntry_len h16, toNat_pathEntry_pat h16]
  exact ⟨h16, pathValue_lt p⟩

/-- The bit strings of the codes are the paths (R168 c). -/
theorem CodedByPaths.prefixFree_codes (h : CodedByPaths (leafSymbols freq) code ps) : Machine.prefixFree code := by
  intro b c hb hc hne
  obtain ⟨p, hp⟩ := (h.present_iff b).1 hb
  obtain ⟨q, hq⟩ := (h.present_iff c).1 hc
  rw [h.tget_of_mem hp, h.tget_of_mem hq, string_pathEntry (h.length _ hp).2, string_pathEntry (h.length _ hq).2]
  exact h.prefixFree _ hp _ hq hne

/-- A lone symbol has the code (0, 1) (R164). -/
theorem CodedByPaths.tget_of_lone (h : CodedByPaths (leafSymbols freq) code ps)
    (h1 : (leafSymbols freq).length = 1) {b : Byte} (hb : present code b) : tget code b = ⟨0, 1⟩ := by
  obtain ⟨p, hp⟩ := (h.present_iff b).1 hb
  have hlen : ps.length = 1 := by simpa [h1] using h.symbols.length_eq
  have hp1 : p = [false] := h.lone hlen _ hp
  rw [h.tget_of_mem hp, hp1]
  rfl

end

/-- Settles O25: the codes are the paths of a tree's leaves, and no leaf stands on the path to another. -/
theorem codesArePrefixFree : Obligations.CodesArePrefixFree := by
  intro s t hs h
  obtain ⟨u, hu, hud, h⟩ := runAll_cons.1 h
  obtain ⟨v, hv, hvd, h⟩ := runAll_cons.1 h
  cases h
  obtain ⟨a, ha, rfl⟩ := exec_done (by decide) hs hu hud
  obtain ⟨b, hb, rfl⟩ := exec_done (by decide) rfl hv hvd
  obtain ⟨ps, hps⟩ := codes_of_tbuild_cassign ha hb
  exact ⟨hps.present_iff_freq, hps.properCodes, hps.prefixFree_codes, fun h1 b hb => hps.tget_of_lone h1 hb⟩

end Sys2Proof.Machine

namespace Sys2Proof.Machine

/-! ## The packer's bits (spec/43_bit_packer.md R181 to R187) -/

/-- A bit of the stream is the bit of its byte at the cursor's offset (spec/20_memory.md R65). -/
theorem streamBit_eq_bitAt (s : State) (sp : Space) (q : Nat) :
    s.streamBit sp q = bitAt (s.readByte sp (q / 8)) (BitVec.ofNat 3 (q % 8)) := by
  rw [State.streamBit, bitAt, BitVec.toNat_ofNat, Nat.mod_mod]

theorem bpByte_eq_of_packPos {s : State} {n : Nat} (h : s.packPos = n) : s.bpByte.toNat = n / 8 := by
  have := s.bpBit.isLt
  rw [State.packPos] at h
  omega

theorem bpBit_eq_of_packPos {s : State} {n : Nat} (h : s.packPos = n) : s.bpBit.toNat = n % 8 := by
  have := s.bpBit.isLt
  rw [State.packPos] at h
  omega

/-- The touched bytes are those the bits up to the cursor stand in (R186). -/
theorem touched_of_packPos {s : State} {n : Nat} (h : s.packPos = n) : s.touched = (n + 7) / 8 := by
  rw [State.touched, bpByte_eq_of_packPos h, bpBit_eq_of_packPos h]
  split <;> omega

/-- The packer started in `s0` stands at bit `n` in `s`; inside the declared capacity the bytes up to the cursor's hold
`bits` and zeros after them, and the bytes after the cursor's are as before. -/
structure State.Packs (s0 : State) (bits : List Bool) (n : Nat) (s : State) : Prop where
  frame : s = { s0 with bpByte := s.bpByte, bpBit := s.bpBit, pbuf := s.pbuf }
  pos : s.packPos = n
  stream : ∀ q, q / 8 ≤ n / 8 → q / 8 < s0.pkLen.toNat → s.streamBit .pbuf q = bits[q]?.getD false
  above : ∀ a, n / 8 < a → s.readByte .pbuf a = s0.readByte .pbuf a

theorem streamBit_eq_false_of_readByte {s : State} {sp : Space} {q : Nat} (h : s.readByte sp (q / 8) = 0) :
    s.streamBit sp q = false := by
  rw [State.streamBit, h, BitVec.ofNat_eq_ofNat, BitVec.getLsbD_zero]

/-- BPINIT starts the packer with no bit packed (R181). -/
theorem bpinitBody_packs {s : State} (hcap : s.pkLen ≤ s.caps.pbuf) :
    ∃ t, bpinitBody s = .ok t ∧ s.Packs [] 0 t := by
  rcases bpinitBody_cases s with ⟨h, -⟩ | ⟨-, -, h⟩ | ⟨-, hz, h⟩
  · exact absurd hcap (BitVec.not_le.2 h)
  · refine ⟨_, h, rfl, rfl, fun q hq _ => streamBit_eq_false_of_readByte ?_, fun a ha => ?_⟩
    · rw [Nat.le_zero.1 hq, State.readByte_writeByte_same]
    · exact State.readByte_writeByte_other _ _ _ (by omega)
  · exact ⟨_, h, rfl, rfl, fun q _ hq => absurd hq (by omega), fun a _ => rfl⟩

section
variable {s0 s : State} {bits : List Bool} {n : Nat}

theorem State.Packs.pkLen_eq (h : s0.Packs bits n s) : s.pkLen = s0.pkLen := by rw [h.frame]

theorem State.Packs.caps_eq (h : s0.Packs bits n s) : s.caps = s0.caps := by rw [h.frame]

theorem State.Packs.code_eq (h : s0.Packs bits n s) : s.code = s0.code := by rw [h.frame]

/-- The advance moves the cursor one bit on, into a byte of zeros (R184, R185). -/
theorem State.Packs.advance (h : s0.Packs bits n s) (hbits : bits.length ≤ n + 1) (hn : n / 8 + 1 < 2 ^ 64) :
    s0.Packs bits (n + 1) s.advancePacker := by
  have hpk := h.pkLen_eq
  obtain ⟨hframe, hpos, hstream, habove⟩ := h
  have hbyte := bpByte_eq_of_packPos hpos
  have hbit := bpBit_eq_of_packPos hpos
  have hnext : (s.bpByte + 1).toNat = n / 8 + 1 := by
    have h1 : (1 : Reg64).toNat = 1 := rfl
    rw [BitVec.toNat_add, h1]
    omega
  have hframe' := (advancePacker_frame s).trans (by rw [hframe] :
    _ = { s0 with bpByte := s.advancePacker.bpByte, bpBit := s.advancePacker.bpBit, pbuf := s.advancePacker.pbuf })
  rcases advancePacker_cases s with ⟨h7, h'⟩ | ⟨h7, hlt, h'⟩ | ⟨h7, hge, h'⟩
  · have h1 : (1 : BitVec 3).toNat = 1 := rfl
    rw [h'] at hframe' ⊢
    refine ⟨hframe', ?_, fun q hq => hstream q (by omega), fun a ha => habove a (by omega)⟩
    simp only [State.packPos, BitVec.toNat_add, h1]
    omega
  · have h0 : (0 : BitVec 3).toNat = 0 := rfl
    rw [h'] at hframe' ⊢
    refine ⟨hframe', ?_, fun q hq hcap => ?_, fun a ha => ?_⟩
    · simp only [State.packPos, State.writeByte_bpByte, State.writeByte_bpBit, hnext, h0]
      omega
    · by_cases hqn : q / 8 = n / 8 + 1
      · rw [List.getElem?_eq_none (by omega)]
        refine streamBit_eq_false_of_readByte ?_
        rw [hqn, hnext, State.readByte_writeByte_same]
      · rw [State.streamBit, State.readByte_writeByte_other _ _ _ (by omega)]
        exact hstream q (by omega) hcap
    · rw [State.readByte_writeByte_other _ _ _ (by omega)]
      exact habove a (by omega)
  · have h0 : (0 : BitVec 3).toNat = 0 := rfl
    rw [BitVec.lt_def, hnext, hpk] at hge
    rw [h'] at hframe' ⊢
    refine ⟨hframe', ?_, fun q _ hcap => hstream q (by omega) hcap, fun a ha => habove a (by omega)⟩
    simp only [State.packPos, hnext, h0]
    omega

/-- The bit goes to the cursor's place, which held a zero (R184). -/
theorem State.Packs.store (h : s0.Packs bits bits.length s) (b : Bool) :
    s0.Packs (bits ++ [b]) bits.length
      (s.writeByte .pbuf s.bpByte.toNat (orBitAt (s.readByte .pbuf s.bpByte.toNat) s.bpBit b)) := by
  obtain ⟨hframe, hpos, hstream, habove⟩ := h
  have hbyte := bpByte_eq_of_packPos hpos
  have hbit := bpBit_eq_of_packPos hpos
  refine ⟨?_, ?_, fun q hq hcap => ?_, fun a ha => ?_⟩
  · rw [hframe]
    rfl
  · simpa only [State.packPos, State.writeByte_bpByte, State.writeByte_bpBit] using hpos
  · have hold := hstream q hq hcap
    rw [streamBit_eq_bitAt] at hold ⊢
    have hnew : (bits ++ [b])[q]?.getD false = (bits[q]?.getD false || (decide (q = bits.length) && b)) := by
      rcases Nat.lt_trichotomy q bits.length with h | h | h
      · rw [List.getElem?_append_left h, decide_eq_false (by omega), Bool.false_and, Bool.or_false]
      · simp [h]
      · rw [List.getElem?_eq_none (by simp; omega), List.getElem?_eq_none (by omega), decide_eq_false (by omega)]
        rfl
    rw [hnew]
    by_cases hqb : q / 8 = s.bpByte.toNat
    · have hq8 : BitVec.ofNat 3 (q % 8) = s.bpBit ↔ q = bits.length := by
        rw [BitVec.toNat_eq, BitVec.toNat_ofNat]
        omega
      rw [hqb] at hold ⊢
      rw [State.readByte_writeByte_same, bitAt_orBitAt, hold, decide_eq_decide.2 hq8]
    · rw [State.readByte_writeByte_other _ _ _ hqb, hold, decide_eq_false (by rintro rfl; omega), Bool.false_and,
        Bool.or_false]
  · rw [State.readByte_writeByte_other _ _ _ (by omega)]
    exact habove a ha

/-- A bit that has a byte inside the declared capacity is packed after the others. -/
theorem State.Packs.writeBit (h : s0.Packs bits bits.length s) (b : Bool) (hlt : bits.length < 8 * s0.pkLen.toNat) :
    ∃ t, Machine.writeBit b s = .ok t ∧ s0.Packs (bits ++ [b]) (bits ++ [b]).length t := by
  have hlen : (bits ++ [b]).length = bits.length + 1 := by simp
  have hpk := s0.pkLen.isLt
  rcases writeBit_cases b s with ⟨hge, -⟩ | ⟨-, h'⟩
  · rw [BitVec.le_def, h.pkLen_eq, bpByte_eq_of_packPos h.pos] at hge
    omega
  · exact ⟨_, h', hlen ▸ (h.store b).advance (by omega) (by omega)⟩

theorem State.Packs.writeBits (h : s0.Packs bits bits.length s) (bs : List Bool)
    (hle : bits.length + bs.length ≤ 8 * s0.pkLen.toNat) :
    ∃ t, Machine.writeBits bs s = .ok t ∧ s0.Packs (bits ++ bs) (bits ++ bs).length t := by
  induction bs generalizing bits s with
  | nil => exact ⟨s, rfl, by simpa using h⟩
  | cons b bs ih =>
    rw [List.length_cons] at hle
    obtain ⟨u, hu, h⟩ := h.writeBit b (by omega)
    obtain ⟨t, ht, h⟩ := ih h (by simp; omega)
    refine ⟨t, Result.andThen_ok.2 ⟨u, hu, ht⟩, by simpa using h⟩

/-- WBITS of a legal length whose bits fit packs them (R183). -/
theorem State.Packs.wbits (h : s0.Packs bits bits.length s) {pattern : BitVec 16} {length : Nat} (hl : length ≤ 16)
    (hcap : s0.pkLen ≤ s0.caps.pbuf) (hle : bits.length + length ≤ 8 * s0.pkLen.toNat) :
    ∃ t, wbitsBody pattern length s = .ok t ∧
      s0.Packs (bits ++ patternBits pattern length) (bits ++ patternBits pattern length).length t := by
  rcases wbitsBody_cases pattern length s with ⟨h16, -⟩ | ⟨-, hlt, -⟩ | ⟨-, -, h'⟩
  · omega
  · rw [h.pkLen_eq, h.caps_eq] at hlt
    exact absurd hcap (BitVec.not_le.2 hlt)
  · rw [h']
    exact h.writeBits _ (by rwa [length_patternBits])

/-- The packing loop packs the codes of the input (spec/46_container_codec.md R241). -/
theorem State.Packs.packLoop (h : s0.Packs bits bits.length s) {xs : List Byte} (i : Nat)
    (hpresent : ∀ b ∈ xs, present s0.code b) (hlen : ∀ b, (tget s0.code b).len.toNat ≤ 16)
    (hcap : s0.pkLen ≤ s0.caps.pbuf) (hle : bits.length + (codeString s0.code xs).length ≤ 8 * s0.pkLen.toNat) :
    ∃ t, Machine.packLoop i xs s = .ok t ∧
      s0.Packs (bits ++ codeString s0.code xs) (bits ++ codeString s0.code xs).length t := by
  induction xs generalizing bits s i with
  | nil => exact ⟨s, rfl, by simpa [codeString] using h⟩
  | cons b xs ih =>
    have hsplit : codeString s0.code (b :: xs) = (tget s0.code b).string ++ codeString s0.code xs := List.flatMap_cons
    have hstr : (tget s0.code b).string.length = (tget s0.code b).len.toNat := by simp [CodeEntry.string]
    rw [hsplit, List.length_append, hstr] at hle
    rw [hsplit, ← List.append_assoc]
    rcases packLoop_cons i b xs s with ⟨h0, -⟩ | ⟨-, h'⟩ <;> rw [h.code_eq] at *
    · exact absurd h0 (hpresent b List.mem_cons_self)
    · obtain ⟨u, hu, h⟩ := h.wbits (pattern := (tget s0.code b).pat) (hlen b) hcap (by omega)
      obtain ⟨t, ht, h⟩ := ih h (i + 1) (fun c hc => hpresent c (List.mem_cons_of_mem _ hc))
        (by rw [List.length_append, length_patternBits]; omega)
      exact ⟨t, h'.trans (Result.andThen_ok.2 ⟨u, hu, ht⟩), h⟩

end
end Sys2Proof.Machine

namespace Sys2Proof.Machine

/-! ## The present codes (spec/46_container_codec.md R237) -/

theorem zip_allSymbols (code : CodeTable) : allSymbols.zip code.toList = allSymbols.map fun b => (b, tget code b) := by
  apply List.ext_getElem
  · simp [allSymbols]
  · intro i h _
    have hi : i < 256 := by simpa [allSymbols] using h
    have hi8 : (BitVec.ofNat 8 i).toNat = i := by
      rw [BitVec.toNat_ofNat]
      omega
    simp only [List.getElem_zip, List.getElem_map, allSymbols, List.getElem_range, Vector.getElem_toList, tget, hi8]

theorem presentCodes_eq (code : CodeTable) :
    presentCodes code = (presentSymbols code).map fun b => (b, tget code b) := by
  rw [presentCodes, zip_allSymbols, List.filter_map]
  rfl

@[simp] theorem length_presentCodes (code : CodeTable) :
    (presentCodes code).length = (presentSymbols code).length := by
  rw [presentCodes_eq, List.length_map]

theorem mem_presentSymbols {code : CodeTable} {b : Byte} : b ∈ presentSymbols code ↔ present code b := by
  simp [presentSymbols, mem_allSymbols]

theorem overlong_eq_none_of_le {code : CodeTable} (h : ∀ b, (tget code b).len.toNat ≤ 16) : overlong code = none := by
  rw [overlong, zip_allSymbols, List.find?_eq_none]
  intro e he
  obtain ⟨b, -, rfl⟩ := List.mem_map.1 he
  simpa using h b

theorem le_greatestLen {l : List (Byte × CodeEntry)} {e : Byte × CodeEntry} (he : e ∈ l) :
    e.2.len.toNat ≤ greatestLen l := by
  suffices ∀ k, k ≤ l.foldl (fun m e => max m e.2.len.toNat) k ∧
      (e ∈ l → e.2.len.toNat ≤ l.foldl (fun m e => max m e.2.len.toNat) k) from (this 0).2 he
  clear he
  induction l with
  | nil => simp
  | cons x l ih =>
    intro k
    obtain ⟨hk, he⟩ := ih (max k x.2.len.toNat)
    refine ⟨(le_max_left _ _).trans hk, fun hx => ?_⟩
    rcases List.mem_cons.1 hx with rfl | hx
    · exact (le_max_right _ _).trans hk
    · exact he hx

theorem greatestLen_presentCodes {code : CodeTable} {m : Nat} (h : isGreatestLen code m) :
    greatestLen (presentCodes code) = m := by
  obtain ⟨hle, hmax⟩ := h
  refine le_antisymm (greatestLen_le fun e he => ?_) ?_
  · rw [presentCodes_eq] at he
    obtain ⟨b, -, rfl⟩ := List.mem_map.1 he
    exact hle b
  · rcases hmax with rfl | ⟨b, rfl⟩
    · exact Nat.zero_le _
    · by_cases hb : present code b
      · refine le_greatestLen (e := (b, tget code b)) ?_
        rw [presentCodes_eq]
        exact List.mem_map.2 ⟨b, mem_presentSymbols.2 hb, rfl⟩
      · rw [show (tget code b).len = 0 from not_not.1 hb]
        exact Nat.zero_le _

/-! ### The order of the entries (R240) -/

theorem allSymbols_sorted : allSymbols.Pairwise (· < ·) := by
  refine List.pairwise_map.2 (List.pairwise_lt_range.imp_of_mem fun {i j} hi hj h => ?_)
  rw [List.mem_range] at hi hj
  rw [BitVec.lt_def, BitVec.toNat_ofNat, BitVec.toNat_ofNat]
  omega

/-- In a rising list the index of an element is the number of smaller ones. -/
theorem getElem?_length_filter_lt {l : List Byte} (hs : l.Pairwise (· < ·)) {b : Byte} (hb : b ∈ l) :
    l[(l.filter fun c => decide (c < b)).length]? = some b := by
  induction l with
  | nil => cases hb
  | cons x l ih =>
    obtain ⟨hx, hs⟩ := List.pairwise_cons.1 hs
    rcases List.mem_cons.1 hb with rfl | hb
    · have hnone : (b :: l).filter (fun c => decide (c < b)) = [] := by
        refine List.filter_eq_nil_iff.2 fun c hc => ?_
        rcases List.mem_cons.1 hc with rfl | hc
        · simp
        · simpa using BitVec.le_of_lt (hx c hc)
      rw [hnone]
      rfl
    · rw [List.filter_cons_of_pos (by simpa using hx b hb)]
      exact ih hs hb

theorem getElem?_entryIndex {code : CodeTable} {b : Byte} (hb : present code b) :
    (presentSymbols code)[entryIndex code b]? = some b :=
  getElem?_length_filter_lt (allSymbols_sorted.filter _) (mem_presentSymbols.2 hb)

/-- A byte of the entries, four to each (spec/30_encoding.md R104). -/
theorem getElem?_flatMap_entryBytes (l : List (Byte × CodeEntry)) (i : Nat) {j : Nat} (hj : j < 4) :
    (l.flatMap entryBytes)[4 * i + j]? = l[i]?.bind fun e => (entryBytes e)[j]? := by
  induction l generalizing i with
  | nil => simp
  | cons e l ih =>
    rw [List.flatMap_cons]
    cases i with
    | zero => rw [List.getElem?_append_left (by simpa using hj)]; simp
    | succ i =>
      rw [List.getElem?_append_right (by simp; omega), length_entryBytes, show 4 * (i + 1) + j - 4 = 4 * i + j by omega,
        ih]
      rfl

end Sys2Proof.Machine

namespace Sys2Proof.Machine

/-! ## COMPRESS on an input that has codes and fits (spec/46_container_codec.md R235 to R243) -/

/-- Bytes written from index 0 on. -/
theorem readByte_writeBytes_zero (s : State) (sp : Space) (vs : List Byte) (a : Nat) :
    (s.writeBytes sp 0 vs).readByte sp a = vs[a]?.getD (s.readByte sp a) := by
  by_cases ha : a < vs.length
  · have := State.readByte_writeBytes_inside s sp 0 vs ha
    rw [Nat.zero_add] at this
    rw [this, List.getElem?_eq_getElem ha, Option.getD_some]
  · rw [State.readByte_writeBytes_outside _ _ _ (by omega), List.getElem?_eq_none (by omega), Option.getD_none]

theorem length_codeString_le {code : CodeTable} {m : Nat} (h : ∀ b, (tget code b).len.toNat ≤ m) (xs : List Byte) :
    (codeString code xs).length ≤ xs.length * m := by
  induction xs with
  | nil => simp [codeString]
  | cons b xs ih =>
    have hb := h b
    rw [codeString, List.flatMap_cons, List.length_append, List.length_cons, Nat.succ_mul, ← codeString]
    simp only [CodeEntry.string, List.length_map, List.length_range]
    omega

/-- The archive up to its content: the header and the entries (spec/30_encoding.md R100, R104). -/
def archiveHead (code : CodeTable) (size : Nat) : List Byte :=
  headerBytes size (contentStart (presentSymbols code).length) ++ (presentCodes code).flatMap entryBytes

@[simp] theorem length_archiveHead (code : CodeTable) (size : Nat) :
    (archiveHead code size).length = 18 + 4 * (presentSymbols code).length := by
  rw [archiveHead, List.length_append, length_headerBytes, length_flatMap_entryBytes, length_presentCodes]

/-- The input's bits as COMPRESS packs them. -/
def State.inputBits (s : State) : List Bool := codeString s.code s.input

/-- What COMPRESS needs to succeed, `m` being the greatest code length: codes of at most 16 bits for every input byte,
and capacities for the input, the packed bits in the worst case, and the archive. -/
structure State.Compressible (s : State) (m : Nat) : Prop where
  input : s.inLen ≤ s.caps.ibuf
  greatest : isGreatestLen s.code m
  short : m ≤ 16
  present : ∀ b ∈ s.input, present s.code b
  packedFits : worstCase s.inLen.toNat m ≤ s.caps.pbuf.toNat
  archiveFits : contentStart (presentSymbols s.code).length + (s.inputBits.length + 7) / 8 ≤ s.caps.abuf.toNat

/-- Steps C2 and C3 write the archive's head (R239, R240). -/
theorem compressHeader_head {s : State} (h : contentStart (presentSymbols s.code).length ≤ s.caps.abuf.toNat) :
    ∃ t, compressHeader s = .ok t ∧
      t = { s with
        abuf := t.abuf, origSize := s.inLen,
        contentOff := BitVec.ofNat 32 (contentStart (presentSymbols s.code).length) } ∧
      ∀ a, t.readByte .abuf a = (archiveHead s.code s.inLen.toNat)[a]?.getD (s.readByte .abuf a) := by
  rcases compressHeader_cases s with ⟨hlt, -⟩ | ⟨-, t, ht, hframe, habuf⟩
  · rw [length_presentCodes] at hlt
    omega
  · rw [length_presentCodes] at hframe habuf
    refine ⟨t, ht, hframe, fun a => ?_⟩
    rw [← readByte_writeBytes_zero, archiveHead, State.writeBytes_append, length_headerBytes]
    exact State.readByte_congr (sp := .abuf) habuf (by rw [hframe]; simp) a

/-- In `t` PBUF holds the packed bits and ABUF the touched bytes of them from `off` on; after these, both are as in
`s`. -/
structure State.ContentAt (s : State) (off : Nat) (bits : List Bool) (t : State) : Prop where
  stream : ∀ q, q / 8 ≤ bits.length / 8 → t.streamBit .pbuf q = bits[q]?.getD false
  packedAfter : ∀ a, bits.length / 8 < a → t.readByte .pbuf a = s.readByte .pbuf a
  copied : ∀ a, a < (bits.length + 7) / 8 → t.readByte .abuf (off + a) = t.readByte .pbuf a
  archiveAfter : ∀ a, off + (bits.length + 7) / 8 ≤ a → t.readByte .abuf a = s.readByte .abuf a

/-- The worst case of R241 has room for every bit, and for the byte after the last full one. -/
theorem State.Compressible.length_inputBits {s : State} {m : Nat} (h : s.Compressible m) :
    s.inputBits.length / 8 < worstCase s.inLen.toNat m ∧ worstCase s.inLen.toNat m < 2 ^ 64 := by
  have hle := length_codeString_le h.greatest.1 s.input
  have hfits := h.packedFits.trans_lt s.caps.pbuf.isLt
  rw [length_input] at hle
  rw [State.inputBits, worstCase] at *
  omega

/-- BPINIT and the packing loop of step C4 (R241). -/
theorem packInput {s : State} {m : Nat} (h : s.Compressible m) :
    ∃ t, (bpinitBody { s with pkLen := BitVec.ofNat 64 (worstCase s.inLen.toNat m) }).andThen (packLoop 0 s.input) =
        .ok t ∧
      State.Packs { s with pkLen := BitVec.ofNat 64 (worstCase s.inLen.toNat m) } s.inputBits s.inputBits.length t := by
  obtain ⟨hroom, hW⟩ := h.length_inputBits
  have hpk : (BitVec.ofNat 64 (worstCase s.inLen.toNat m)).toNat = worstCase s.inLen.toNat m :=
    Nat.mod_eq_of_lt hW
  have hcap : BitVec.ofNat 64 (worstCase s.inLen.toNat m) ≤ s.caps.pbuf := by
    rw [BitVec.le_def, hpk]
    exact h.packedFits
  obtain ⟨u, hu, hpacks⟩ := bpinitBody_packs (s := { s with pkLen := BitVec.ofNat 64 (worstCase s.inLen.toNat m) }) hcap
  obtain ⟨t, ht, hpacks⟩ := hpacks.packLoop (bits := []) (xs := s.input) 0 h.present
    (fun b => (h.greatest.1 b).trans h.short) hcap (by
      simp only [hpk, List.length_nil, Nat.zero_add]
      rw [← State.inputBits]
      omega)
  exact ⟨t, Result.andThen_ok.2 ⟨u, hu, ht⟩, hpacks⟩

/-- The touched bytes are copied behind the archive's head (R241). -/
theorem compressAppend_content {s0 s : State} {bits : List Bool} (h : s0.Packs bits bits.length s)
    (hroom : bits.length / 8 < s0.pkLen.toNat)
    (hcap : contentStart (presentSymbols s0.code).length + (bits.length + 7) / 8 ≤ s0.caps.abuf.toNat) :
    ∃ t, compressAppend s = .ok t ∧
      t = { s with
        abuf := t.abuf,
        arLen := BitVec.ofNat 64 (contentStart (presentSymbols s0.code).length + (bits.length + 7) / 8) } ∧
      s0.ContentAt (contentStart (presentSymbols s0.code).length) bits t ∧
      ∀ a, a < contentStart (presentSymbols s0.code).length → t.readByte .abuf a = s0.readByte .abuf a := by
  have htouched := touched_of_packPos h.pos
  generalize hoff : contentStart (presentSymbols s0.code).length = off at *
  rcases compressAppend_cases s with ⟨hlt, -⟩ | ⟨-, ht⟩
  · rw [length_presentCodes, h.code_eq, htouched, hoff, h.caps_eq] at hlt
    omega
  · rw [length_presentCodes, h.code_eq, htouched, hoff] at ht
    generalize hw : s.writeBytes .abuf off (s.readBytes .pbuf 0 ((bits.length + 7) / 8)) = w at ht
    have hframe : w = s.setBuf .abuf (w.buf .abuf) := hw ▸ State.writeBytes_eq_setBuf ..
    have hpbuf : ∀ a, w.readByte .pbuf a = s.readByte .pbuf a := fun a =>
      hw ▸ State.readByte_writeBytes_space s off a _ (by decide)
    have hinside : ∀ a, a < (bits.length + 7) / 8 → w.readByte .abuf (off + a) = s.readByte .pbuf a := fun a ha => by
      rw [← hw, State.readByte_writeBytes_inside _ _ _ _ (by rwa [State.length_readBytes]), State.getElem_readBytes,
        Nat.zero_add]
    have houtside : ∀ a, a < off ∨ off + (bits.length + 7) / 8 ≤ a → w.readByte .abuf a = s0.readByte .abuf a :=
      fun a ha => by
        rw [← hw, State.readByte_writeBytes_outside _ _ _ (by rwa [State.length_readBytes]), h.frame]
        rfl
    refine ⟨_, ht, by rw [hframe]; rfl, ⟨fun q hq => ?_, fun a ha => (hpbuf a).trans (h.above a ha),
      fun a ha => (hinside a ha).trans (hpbuf a).symm, fun a ha => houtside a (.inr ha)⟩,
      fun a ha => houtside a (.inl ha)⟩
    exact (congrArg (BitVec.getLsbD · _) (hpbuf _)).trans (h.stream q hq (hq.trans_lt hroom))

/-- Step C4 packs the input and appends the touched bytes to the archive (R241). -/
theorem compressPack_content {s : State} {m : Nat} (h : s.Compressible m) :
    ∃ t, compressPack s = .ok t ∧
      t = { s with
        abuf := t.abuf, pbuf := t.pbuf
        arLen := BitVec.ofNat 64 (contentStart (presentSymbols s.code).length + (s.inputBits.length + 7) / 8)
        pkLen := BitVec.ofNat 64 (worstCase s.inLen.toNat m)
        bpByte := BitVec.ofNat 64 (s.inputBits.length / 8), bpBit := BitVec.ofNat 3 (s.inputBits.length % 8) } ∧
      s.ContentAt (contentStart (presentSymbols s.code).length) s.inputBits t ∧
      ∀ a, a < contentStart (presentSymbols s.code).length → t.readByte .abuf a = s.readByte .abuf a := by
  obtain ⟨hroom, hW⟩ := h.length_inputBits
  obtain ⟨u, hu, hpacks⟩ := packInput h
  obtain ⟨t, ht, hframe, ⟨hstream, hpafter, hcopied, hafter⟩, hbefore⟩ :=
    compressAppend_content hpacks (hroom.trans_eq (Nat.mod_eq_of_lt hW).symm) h.archiveFits
  have hbyte : u.bpByte = BitVec.ofNat 64 (s.inputBits.length / 8) := by
    rw [← bpByte_eq_of_packPos hpacks.pos, BitVec.ofNat_toNat, BitVec.setWidth_eq]
  have hbit : u.bpBit = BitVec.ofNat 3 (s.inputBits.length % 8) := by
    rw [← bpBit_eq_of_packPos hpacks.pos, BitVec.ofNat_toNat, BitVec.setWidth_eq]
  refine ⟨t, ?_, ?_, ⟨hstream, hpafter, hcopied, hafter⟩, hbefore⟩
  · rw [compressPack, greatestLen_presentCodes h.greatest]
    exact (if_neg (Nat.not_lt.2 h.packedFits)).trans (Result.andThen_ok.2 ⟨u, hu, ht⟩)
  · have hpbuf : u.pbuf = t.pbuf := (congrArg State.pbuf hframe).symm
    rw [hpacks.frame, hbyte, hbit, hpbuf] at hframe
    exact hframe

/-- COMPRESS of an input that has codes and fits: the archive's head, and behind it the packed input. -/
theorem compressBody_archive {s : State} {m : Nat} (h : s.Compressible m) :
    ∃ t, compressBody s = .ok t ∧
      t = { s with
        abuf := t.abuf, pbuf := t.pbuf
        arLen := BitVec.ofNat 64 (contentStart (presentSymbols s.code).length + (s.inputBits.length + 7) / 8)
        origSize := s.inLen
        contentOff := BitVec.ofNat 32 (contentStart (presentSymbols s.code).length)
        entryCnt := BitVec.ofNat 16 (presentSymbols s.code).length, maxLen := BitVec.ofNat 8 m
        pkLen := BitVec.ofNat 64 (worstCase s.inLen.toNat m)
        bpByte := BitVec.ofNat 64 (s.inputBits.length / 8), bpBit := BitVec.ofNat 3 (s.inputBits.length % 8) } ∧
      s.ContentAt (contentStart (presentSymbols s.code).length) s.inputBits t ∧
      t.readBytes .abuf 0 (contentStart (presentSymbols s.code).length) = archiveHead s.code s.inLen.toNat := by
  have hover := overlong_eq_none_of_le fun b => (h.greatest.1 b).trans h.short
  have hcount : compressCount s = .ok { s with
      entryCnt := BitVec.ofNat 16 (presentSymbols s.code).length, maxLen := BitVec.ofNat 8 m } := by
    rcases compressCount_cases s with ⟨e, he, -⟩ | ⟨-, h'⟩
    · cases hover.symm.trans he
    · rw [h', length_presentCodes, greatestLen_presentCodes h.greatest]
  obtain ⟨b, hb, hbframe, hbhead⟩ := compressHeader_head (s := { s with
      entryCnt := BitVec.ofNat 16 (presentSymbols s.code).length, maxLen := BitVec.ofNat 8 m })
    (Nat.le_trans (Nat.le_add_right _ _) h.archiveFits)
  have hbc : b.Compressible m := by
    rw [hbframe]
    exact ⟨h.input, h.greatest, h.short, h.present, h.packedFits, h.archiveFits⟩
  obtain ⟨t, ht, hframe, hcontent, hbefore⟩ := compressPack_content hbc
  have hcode : b.code = s.code := (congrArg State.code hbframe :)
  have hbits : b.inputBits = s.inputBits := by rw [hbframe]; rfl
  have hpbuf : ∀ a, b.readByte .pbuf a = s.readByte .pbuf a := fun a => by rw [hbframe]; rfl
  rw [hcode] at hbefore
  rw [hcode, hbits] at hcontent
  obtain ⟨hstream, hpafter, hcopied, hafter⟩ := hcontent
  refine ⟨t, ?_, ?_, ⟨hstream, fun a ha => (hpafter a ha).trans (hpbuf a), hcopied, fun a ha => ?_⟩, ?_⟩
  · rcases compressBody_cases s with ⟨hlt, -⟩ | ⟨-, h'⟩
    · exact absurd h.input (BitVec.not_le.2 hlt)
    · rw [h', hcount, Result.ok_andThen, hb, Result.ok_andThen, ht]
  · rw [hcode, hbits] at hframe
    rw [hframe, hbframe]
  · rw [hafter a ha, hbhead, List.getElem?_eq_none, Option.getD_none]
    · rfl
    · rw [length_archiveHead]
      exact Nat.le_trans (Nat.le_add_right _ _) ha
  · refine List.ext_getElem (by rw [State.length_readBytes, length_archiveHead]; rfl) fun k hk hk' => ?_
    rw [State.length_readBytes] at hk
    rw [State.getElem_readBytes, Nat.zero_add, hbefore k hk, hbhead, List.getElem?_eq_getElem hk', Option.getD_some]

end Sys2Proof.Machine

namespace Sys2Proof.Machine

/-! ## The archive's bytes (spec/30_encoding.md R100 to R106) -/

theorem State.readBytes_append (s : State) (sp : Space) (a m n : Nat) :
    s.readBytes sp a (m + n) = s.readBytes sp a m ++ s.readBytes sp (a + m) n := by
  simp only [State.readBytes, List.range_add, List.map_append, List.map_map, Function.comp_def, Nat.add_assoc]

theorem State.getElem?_readBytes (s : State) (sp : Space) (a : Nat) {n k : Nat} (h : k < n) :
    (s.readBytes sp a n)[k]? = some (s.readByte sp (a + k)) := by
  rw [List.getElem?_eq_getElem (by rwa [State.length_readBytes]), State.getElem_readBytes]

theorem toNat_append_byte {n : Nat} (x : BitVec n) (y : Byte) : (x ++ y).toNat = 256 * x.toNat + y.toNat := by
  rw [BitVec.toNat_append, ← Nat.shiftLeft_add_eq_or_of_lt y.isLt, Nat.shiftLeft_eq]
  omega

/-- The size field of the header is the little-endian number of its eight bytes (R102). -/
theorem toNat_headerSize (s : State) : s.headerSize.toNat = s.memRead .abuf 6 8 := by
  simp only [State.headerSize, toNat_append_byte, State.memRead, State.readBytes, List.range, List.range.loop,
    List.map_cons, List.map_nil, leNat, Nat.reduceAdd]
  omega

/-- The offset field of the header is the little-endian number of its four bytes (R103). -/
theorem toNat_headerOff (s : State) : s.headerOff.toNat = s.memRead .abuf 14 4 := by
  simp only [State.headerOff, toNat_append_byte, State.memRead, State.readBytes, List.range, List.range.loop,
    List.map_cons, List.map_nil, leNat, Nat.reduceAdd]
  omega

/-- ABUF begins with the header and the entries of an archive of `size` bytes under the table `code`. -/
structure State.HasHead (s : State) (code : CodeTable) (size : Nat) : Prop where
  magic : s.readBytes .abuf 0 6 = Config.magic
  size : s.readBytes .abuf 6 8 = leBytes 8 size
  off : s.readBytes .abuf 14 4 = leBytes 4 (contentStart (presentSymbols code).length)
  entries : s.readBytes .abuf 18 (4 * (presentSymbols code).length) = (presentCodes code).flatMap entryBytes

/-- The fields of the head, one after the other. -/
theorem hasHead_of_archiveHead {s : State} {code : CodeTable} {size : Nat}
    (h : s.readBytes .abuf 0 (contentStart (presentSymbols code).length) = archiveHead code size) :
    s.HasHead code size := by
  have hsplit : s.readBytes .abuf 0 (contentStart (presentSymbols code).length) =
      ((s.readBytes .abuf 0 6 ++ s.readBytes .abuf 6 8) ++ s.readBytes .abuf 14 4) ++
        s.readBytes .abuf 18 (4 * (presentSymbols code).length) := by
    rw [← State.readBytes_append s .abuf 0 6 8, ← State.readBytes_append s .abuf 0 14 4,
      ← State.readBytes_append s .abuf 0 18]
    rfl
  rw [hsplit, archiveHead, headerBytes] at h
  obtain ⟨h, hentries⟩ := List.append_inj h (by simp [Config.magic])
  obtain ⟨h, hoff⟩ := List.append_inj h (by simp [Config.magic])
  obtain ⟨hmagic, hsize⟩ := List.append_inj h (by simp [Config.magic])
  exact ⟨hmagic, hsize, hoff, hentries⟩

section
variable {s : State} {code : CodeTable} {size : Nat}

theorem State.HasHead.hasMagic (h : s.HasHead code size) : s.hasMagic := by
  intro k hk
  rw [← Nat.zero_add k, ← State.getElem?_readBytes s .abuf 0 hk, h.magic, Nat.zero_add]
  rfl

theorem State.HasHead.toNat_headerSize (h : s.HasHead code size) (hlt : size < 2 ^ 64) : s.headerSize.toNat = size := by
  rw [Machine.toNat_headerSize, State.memRead, h.size, leNat_leBytes]
  exact Nat.mod_eq_of_lt hlt

theorem length_presentSymbols_le (code : CodeTable) : (presentSymbols code).length ≤ 256 := by
  rw [← length_presentCodes]
  exact length_presentCodes_le code

theorem State.HasHead.toNat_headerOff (h : s.HasHead code size) :
    s.headerOff.toNat = contentStart (presentSymbols code).length := by
  have hle := length_presentSymbols_le code
  rw [Machine.toNat_headerOff, State.memRead, h.off, leNat_leBytes]
  refine Nat.mod_eq_of_lt ?_
  simp only [contentStart, Config.hdrSize, Config.entrySize]
  omega

/-- A byte of the entry of a present symbol (R104). -/
theorem State.HasHead.entryByte (h : s.HasHead code size) {b : Byte} (hb : present code b) {j : Nat} (hj : j < 4) :
    (entryBytes (b, tget code b))[j]? = some (s.readByte .abuf (18 + 4 * entryIndex code b + j)) := by
  have hindex := getElem?_entryIndex hb
  have hlt := (List.getElem?_eq_some_iff.1 hindex).1
  have hbytes := getElem?_flatMap_entryBytes (presentCodes code) (entryIndex code b) hj
  rw [← h.entries, State.getElem?_readBytes _ _ _ (by omega), presentCodes_eq, List.getElem?_map, hindex] at hbytes
  rw [Nat.add_assoc]
  exact hbytes.symm

/-- The entry of a present symbol stands at its index in the ascending order (R240). -/
theorem State.HasHead.entry (h : s.HasHead code size) {b : Byte} (hb : present code b) :
    s.readByte .abuf (18 + 4 * entryIndex code b) = b ∧ s.entryCode (entryIndex code b) = tget code b := by
  have h0 := Option.some.inj (h.entryByte hb (j := 0) (by decide))
  have h1 := Option.some.inj (h.entryByte hb (j := 1) (by decide))
  have h2 := Option.some.inj (h.entryByte hb (j := 2) (by decide))
  have h3 := Option.some.inj (h.entryByte hb (j := 3) (by decide))
  refine ⟨h0.symm, ?_⟩
  rw [State.entryCode, ← h1, ← h2, ← h3]
  have hpat := (tget code b).pat.isLt
  have : BitVec.ofNat 8 ((tget code b).pat.toNat / 256) ++ BitVec.ofNat 8 (tget code b).pat.toNat =
      (tget code b).pat := by
    apply BitVec.eq_of_toNat_eq
    rw [toNat_append_byte, BitVec.toNat_ofNat, BitVec.toNat_ofNat]
    omega
  rw [this]

end

section
variable {s t : State} {off : Nat} {bits : List Bool}

/-- The content is the packed bits, with zeros up to the end of the last byte (R105, R106). -/
theorem State.ContentAt.archiveStream (h : s.ContentAt off bits t) {k : Nat} (hk : k < 8 * ((bits.length + 7) / 8)) :
    t.streamBit .abuf (8 * off + k) = bits[k]?.getD false := by
  rw [← h.stream k (by omega), State.streamBit, State.streamBit, ← h.copied (k / 8) (by omega),
    show (8 * off + k) / 8 = off + k / 8 by omega, show (8 * off + k) % 8 = k % 8 by omega]

/-- Where the last byte is full the packer has zeroed the next one (spec/43_bit_packer.md R185). -/
theorem State.ContentAt.zeroByte (h : s.ContentAt off bits t) (h8 : bits.length % 8 = 0) :
    t.readByte .pbuf (bits.length / 8) = 0 := by
  apply BitVec.eq_of_getLsbD_eq
  intro i hi
  have hstream := h.stream (bits.length + (7 - i)) (by omega)
  rw [State.streamBit, List.getElem?_eq_none (by omega), show (bits.length + (7 - i)) / 8 = bits.length / 8 by omega,
    show 7 - (bits.length + (7 - i)) % 8 = i by omega] at hstream
  simpa using hstream

end

/-- Settles O45: the archive's head, and the packed bits behind it. -/
theorem compressWritesTheArchive : Obligations.CompressWritesTheArchive := by
  rintro s m _ _ _ _ _ hs hin hgreatest hm hpresent rfl rfl rfl rfl rfl hpacked harchive
  have hc : s.accept.Compressible m := ⟨hin, hgreatest, hm, hpresent, hpacked, harchive⟩
  obtain ⟨u, hu, hframe, hcontent, hhead⟩ := compressBody_archive hc
  have hhead := hasHead_of_archiveHead (s := u) hhead
  refine ⟨u.finish, command_ok hs hu, ?_, hhead.hasMagic, ?_, hhead.toNat_headerOff, fun b hb => hhead.entry hb,
    fun k hk => hcontent.archiveStream hk, hcontent.archiveAfter, fun a ha => (hcontent.copied a ha).symm,
    hcontent.zeroByte, hcontent.packedAfter⟩
  · exact (congrArg State.finish hframe :)
  · exact BitVec.eq_of_toNat_eq (hhead.toNat_headerSize s.inLen.isLt)

end Sys2Proof.Machine

namespace Sys2Proof.Machine

/-! ## The empty input (spec/30_encoding.md R110, spec/46_container_codec.md R244) -/

theorem input_eq_nil {s : State} (h : s.inLen = 0) : s.input = [] := by
  rw [← List.length_eq_zero_iff, length_input, h]
  rfl

theorem leafSymbols_countBytes_nil : leafSymbols (countBytes []) = [] :=
  (leafSymbols_countBytes_eq_nil (by decide)).2 rfl

theorem tget_noCodes (b : Byte) : tget noCodes b = CodeEntry.absent := tget_replicate _ b

theorem presentSymbols_noCodes : presentSymbols noCodes = [] :=
  List.filter_eq_nil_iff.2 fun b _ => by simp [tget_noCodes, CodeEntry.absent]

/-- ENCODE of the empty input leaves no code and no tree (spec/42_code_assigner.md R161, R170). -/
theorem encodeBody_empty {s : State} (h : s.inLen = 0) :
    encodeBody s = .ok { s with freq := countBytes [], code := noCodes, nodata := true }.clearTree := by
  have hfreq : freqBody s = .ok { s with freq := countBytes [] } := by
    rcases freqBody_cases s with ⟨hlt, -⟩ | ⟨-, h'⟩
    · rw [h] at hlt
      exact absurd hlt (BitVec.not_lt_zero)
    · rw [h', input_eq_nil h]
  have htbuild : tbuildBody { s with freq := countBytes [] } =
      .ok ({ s with freq := countBytes [] }.clearTree.setNodata true) := by
    rcases tbuildBody_cases { s with freq := countBytes [] } with ⟨-, h'⟩ | ⟨x, xs, -, hx, -⟩
    · exact h'
    · rw [(sortItems_leafItems_eq_nil _).2 leafSymbols_countBytes_nil] at hx
      cases hx
  rw [encodeBody_eq, hfreq, Result.ok_andThen, htbuild, Result.ok_andThen]
  rfl

/-- A state with the empty input and no codes, and room for the archive of R110. -/
theorem compressible_empty {s : State} (h : s.inLen = 0) (hcode : s.code = noCodes)
    (habuf : 18 ≤ s.caps.abuf.toNat) (hpbuf : 1 ≤ s.caps.pbuf.toNat) : s.Compressible 0 := by
  refine ⟨?_, ⟨fun b => ?_, .inl rfl⟩, Nat.zero_le _, ?_, ?_, ?_⟩
  · rw [h]
    exact BitVec.le_def.2 (Nat.zero_le _)
  · rw [hcode, tget_noCodes]
    exact Nat.le_refl 0
  · simp [input_eq_nil h]
  · rwa [h]
  · rwa [State.inputBits, input_eq_nil h, hcode, presentSymbols_noCodes]

/-- The header's first checks and fields, where the head is an archive's (R251, R252). -/
theorem readHeader_of_hasHead {s : State} {code : CodeTable} {size : Nat} (hcap : s.arLen ≤ s.caps.abuf)
    (hlen : 18 ≤ s.arLen.toNat) (h : s.HasHead code size) :
    (checkMagic s).andThen readHeader = .ok { s with origSize := s.headerSize, contentOff := s.headerOff } := by
  have hmagic : firstBadMagic s = none := by
    rw [firstBadMagic, h.magic]
    decide
  have hcheck : checkMagic s = .ok s := by
    rcases checkMagic_cases s with ⟨hlt, -⟩ | ⟨-, hlt, -⟩ | ⟨k, -, -, hk, -⟩ | ⟨-, -, -, h'⟩
    · exact absurd hcap (BitVec.not_le.2 hlt)
    · omega
    · cases hmagic.symm.trans hk
    · exact h'
  rw [hcheck, Result.ok_andThen]
  rcases readHeader_cases s with ⟨hlt, -⟩ | ⟨-, h'⟩
  · omega
  · rw [h', ← toNat_headerSize, ← toNat_headerOff, BitVec.ofNat_toNat, BitVec.ofNat_toNat, BitVec.setWidth_eq,
      BitVec.setWidth_eq]

/-- DECODE of no symbol (spec/45_huffman_decoder.md R223). -/
theorem decodeBody_zero {s : State} (hcap : s.pkLen ≤ s.caps.pbuf) (h0 : s.origSize = 0) :
    decodeBody s = .ok { s.startDecode with outLen := s.origSize } := by
  rcases decodeBody_cases s with ⟨hlt, -⟩ | ⟨-, hlt, -⟩ | ⟨-, -, h'⟩
  · exact absurd hcap (BitVec.not_le.2 hlt)
  · rw [h0] at hlt
    exact absurd hlt BitVec.not_lt_zero
  · have hdone : ¬ s.startDecode.emitCnt < s.startDecode.origSize := by
      rw [State.startDecode_origSize, h0]
      exact BitVec.not_lt_zero
    rw [h', decodeLoop_done _ _ hdone]
    rfl

/-- TDESER of an archive without entries (R211). -/
theorem tdeserBody_noEntries {s : State} (hcap : s.arLen ≤ s.caps.abuf) (hoff : s.contentOff.toNat = 18)
    (hlen : 18 ≤ s.arLen.toNat) : ∃ t, tdeserBody s = .ok t := by
  have hcount := (entryCount_eq_some s.contentOff.toNat s.arLen.toNat 0).2 (by omega)
  rcases tdeserBody_cases s with ⟨hlt, -⟩ | ⟨-, hnone, -⟩ | ⟨_, -, -, h'⟩
  · exact absurd hcap (BitVec.not_le.2 hlt)
  · cases hcount.symm.trans hnone
  · exact ⟨_, h'⟩

/-- The copy of an empty content (R253). -/
theorem copyContent_empty {s : State} (h : s.arLen.toNat = s.contentOff.toNat) :
    ∃ t, copyContent s = .ok t ∧ t.pkLen = 0 := by
  rcases copyContent_cases s with ⟨hlt, -⟩ | ⟨-, h'⟩
  · omega
  · exact ⟨_, h', by simp [h]⟩

/-- DECOMPRESS of the archive of the empty input decodes no symbol (R252 to R254). -/
theorem decompressBody_empty {s : State} (harLen : s.arLen = 18) (habuf : 18 ≤ s.caps.abuf.toNat)
    (hhead : s.HasHead noCodes 0) : ∃ t, decompressBody s = .ok t ∧ t.outLen = 0 := by
  have hcap : s.arLen ≤ s.caps.abuf := by
    rw [harLen]
    exact BitVec.le_def.2 habuf
  have hsize : s.headerSize = 0 := BitVec.eq_of_toNat_eq (hhead.toNat_headerSize (by decide))
  have hoff : s.headerOff.toNat = 18 := by
    rw [hhead.toNat_headerOff, presentSymbols_noCodes]
    rfl
  have hlen : s.arLen.toNat = 18 := by
    rw [harLen]
    rfl
  have hheader := readHeader_of_hasHead hcap hlen.ge hhead
  obtain ⟨b, hb⟩ := tdeserBody_noEntries (s := { s with origSize := s.headerSize, contentOff := s.headerOff })
    hcap hoff hlen.ge
  have hbframe := tdeserBody_frame hb
  obtain ⟨c, hc, hpk⟩ := copyContent_empty (s := b) (by rw [hbframe]; exact hlen.trans hoff.symm)
  have hcframe := copyContent_frame hc
  have hzero : c.origSize = 0 := by
    rw [hcframe, hbframe]
    exact hsize
  refine ⟨{ c.startDecode with outLen := c.origSize }, ?_, hzero⟩
  rw [decompressBody, hheader, Result.ok_andThen, hb, Result.ok_andThen, hc, Result.ok_andThen]
  exact decodeBody_zero (by rw [hpk]; exact BitVec.le_def.2 (Nat.zero_le _)) hzero

/-- The archive of the empty input (R110). -/
theorem archiveHead_empty : archiveHead noCodes 0 =
    [0x00, 0x6C, 0x62, 0x63, 0x61, 0x00, 0x00, 0x00, 0x00, 0x00, 0x00, 0x00, 0x00, 0x00, 0x12, 0x00, 0x00, 0x00] := by
  rw [archiveHead, presentCodes_eq, presentSymbols_noCodes]
  rfl

/-- ENCODE and COMPRESS of the empty input leave the archive without entries and content. -/
theorem encode_compress_empty {s : State} (hs : s.phase = .idle) (h : s.inLen = 0) (habuf : 18 ≤ s.caps.abuf.toNat)
    (hpbuf : 1 ≤ s.caps.pbuf.toNat) :
    ∃ a t, exec .encode s = .next a ∧ a.done = true ∧ exec .compress a = .next t ∧ t.done = true ∧
      t.phase = .idle ∧ t.caps = s.caps ∧ t.arLen = 18 ∧ t.readBytes .abuf 0 18 = archiveHead noCodes 0 := by
  have hencode := command_ok hs (encodeBody_empty (s := s.accept) h)
  generalize ha : State.finish _ = a at hencode
  have hcode : a.code = noCodes := ha ▸ rfl
  have hlen : a.inLen = 0 := ha ▸ h
  have hcaps : a.caps = s.caps := ha ▸ rfl
  have hc : a.accept.Compressible 0 := compressible_empty hlen hcode (hcaps ▸ habuf) (hcaps ▸ hpbuf)
  obtain ⟨u, hu, hframe, -, hhead⟩ := compressBody_archive hc
  have hbits : a.accept.inputBits = [] := by rw [State.inputBits, input_eq_nil (s := a.accept) hlen]; rfl
  have hnone : presentSymbols a.accept.code = [] := by
    rw [State.accept_code, hcode, presentSymbols_noCodes]
  rw [hnone, State.accept_code, hcode, State.accept_inLen, hlen] at hhead
  rw [hnone, hbits] at hframe
  refine ⟨a, u.finish, hencode, ha ▸ rfl, command_ok (ha ▸ rfl) hu, rfl, rfl, ?_, ?_, hhead⟩
  · exact ((congrArg State.caps hframe).trans hcaps :)
  · exact (congrArg State.arLen hframe :)

/-- Settles O47: without a code the archive is its header, whose size field is 0. -/
theorem emptyInputArchive : Obligations.EmptyInputArchive := by
  intro s hs h habuf hpbuf
  obtain ⟨a, t, ha, had, ht, htd, hidle, hcaps, harLen, hbytes⟩ := encode_compress_empty hs h habuf hpbuf
  have hhead : t.accept.HasHead noCodes 0 :=
    hasHead_of_archiveHead (s := t.accept) (by rw [presentSymbols_noCodes]; exact hbytes)
  obtain ⟨u, hu, hout⟩ := decompressBody_empty (s := t.accept) harLen (hcaps ▸ habuf) hhead
  refine ⟨⟨t, ?_, harLen, hbytes.trans archiveHead_empty⟩, u.finish, ?_, hout⟩
  · exact runAll_cons.2 ⟨a, ha, had, runAll_cons.2 ⟨t, ht, htd, rfl⟩⟩
  · exact runAll_cons.2 ⟨a, ha, had, runAll_cons.2 ⟨t, ht, htd, runAll_cons.2 ⟨_, command_ok hidle hu, rfl, rfl⟩⟩⟩

end Sys2Proof.Machine

namespace Sys2Proof.Machine

/-! ## FREQ (spec/40_frequency_table.md) -/

/-- How often a byte occurs in the input, as the number of the indexes that hold it. -/
theorem count_input (s : State) (b : Byte) :
    s.input.count b = ((List.range s.inLen.toNat).filter fun k => decide (s.readByte .ibuf k = b)).length := by
  simp only [State.input, State.readBytes, Nat.zero_add, List.count, List.countP_map, ← List.countP_eq_length_filter]
  rfl

/-- The 64 bits of a counter hold the exact number of occurrences in an input whose length fits 64 bits (R132). -/
theorem toNat_tget_countBytes {bs : List Byte} (h : bs.length < 2 ^ 64) (b : Byte) :
    (tget (countBytes bs) b).toNat = bs.count b := by
  rw [tget_countBytes, BitVec.toNat_ofNat, Nat.mod_eq_of_lt (List.count_le_length.trans_lt h)]

theorem length_input_lt (s : State) : s.input.length < 2 ^ 64 :=
  (length_input s).trans_lt s.inLen.isLt

theorem freqSum_input (s : State) : freqSum (countBytes s.input) = s.inLen.toNat :=
  (freqSum_countBytes (length_input_lt s)).trans (length_input s)

/-- FREQ of an input that does not fit its buffer (R131). -/
theorem exec_freq_overfull {s : State} (hs : s.phase = .idle) (h : s.caps.ibuf < s.inLen) :
    exec .freq s = .next (s.faultEntry .allocFailure s.inLen.toNat) := by
  rcases freqBody_cases s.accept with ⟨-, hb⟩ | ⟨hfits, -⟩
  · exact command_raised hs hb
  · exact absurd h hfits

/-- FREQ of an input that fits its buffer writes the counters and nothing else (R131). -/
theorem exec_freq_fits {s : State} (hs : s.phase = .idle) (h : s.inLen ≤ s.caps.ibuf) :
    exec .freq s = .next { s with freq := countBytes s.input }.completed := by
  rcases freqBody_cases s.accept with ⟨hlt, -⟩ | ⟨-, hb⟩
  · exact absurd h (BitVec.not_le.2 hlt)
  · exact (command_ok hs hb :)

/-- Settles O14: the counters of the input are exact and add up to its length, which bounds each of them. -/
theorem freqCountsTheInput : Obligations.FreqCountsTheInput := by
  refine ⟨by decide, fun s hs => ⟨fun h => ⟨_, exec_freq_overfull hs h, faultEntry_faultedFrom ..⟩, fun h =>
    ⟨countBytes s.input, exec_freq_fits hs h, fun b => ?_, freqSum_input s, fun b => ?_⟩⟩⟩
  · rw [toNat_tget_countBytes (length_input_lt s), count_input]
  · exact BitVec.le_def.2 ((tget_le_freqSum _ b).trans_eq (freqSum_input s))

end Sys2Proof.Machine

namespace Sys2Proof.Machine

/-! ## The sorted work list (spec/41_tree_builder.md R144, R145) -/

/-- Sorting items with distinct identifiers sorts them. -/
theorem sortItems_sorted {l : List Item} (h : (l.map Item.id).Nodup) :
    (sortItems l).Pairwise fun x y => before x y = true := by
  induction l with
  | nil => exact List.Pairwise.nil
  | cons x l ih =>
    rw [List.map_cons, List.nodup_cons] at h
    refine insertItem_sorted (ih h.2) fun y hy e => h.1 ?_
    exact e ▸ List.mem_map_of_mem ((sortItems_perm l).subset hy)

theorem leafItem_id_injective (freq : FreqTable) : Function.Injective fun b => (leafItem freq b).id := by
  intro b c h
  apply BitVec.eq_of_toNat_eq
  rw [← toNat_leafItem_id freq b, ← toNat_leafItem_id freq c]
  exact congrArg BitVec.toNat h

theorem sortItems_leafItems_perm (freq : FreqTable) :
    (sortItems (leafItems freq)).Perm ((leafSymbols freq).map (leafItem freq)) :=
  leafItems_eq freq ▸ sortItems_perm _

theorem sortItems_leafItems_sorted (freq : FreqTable) :
    (sortItems (leafItems freq)).Pairwise fun x y => before x y = true := by
  refine sortItems_sorted ?_
  rw [leafItems_eq, List.map_map]
  exact (leafSymbols_nodup freq).map (leafItem_id_injective freq)

/-- An item with a greater identifier than the whole list's goes just before the first item of strictly smaller
frequency. -/
theorem insertItem_eq_of_newest {x : Item} {l : List Item} (h : ∀ y ∈ l, y.id.toNat < x.id.toNat) :
    insertItem x l =
      l.takeWhile (fun y => decide (x.freq ≤ y.freq)) ++ x :: l.dropWhile (fun y => decide (x.freq ≤ y.freq)) := by
  induction l with
  | nil => rfl
  | cons y l ih =>
    have hy := h y List.mem_cons_self
    have hbefore : before x y = true ↔ ¬ x.freq ≤ y.freq := by
      rw [before_iff, BitVec.le_def]
      omega
    by_cases hle : x.freq ≤ y.freq
    · rw [insertItem, if_neg (mt hbefore.1 (not_not.2 hle)), ih fun z hz => h z (List.mem_cons_of_mem _ hz),
        List.takeWhile_cons_of_pos (by simpa using hle), List.dropWhile_cons_of_pos (by simpa using hle)]
      rfl
    · rw [insertItem, if_pos (hbefore.2 hle), List.takeWhile_cons_of_neg (by simpa using hle),
        List.dropWhile_cons_of_neg (by simpa using hle)]
      rfl

theorem before_of_sorted {front : List Item} {a b : Item}
    (h : (front ++ [a, b]).Pairwise fun x y => before x y = true) : before a b = true := by
  simpa using (List.pairwise_append.1 h).2.1

/-- In a sorted list the last item has at most the frequency of the last but one. -/
theorem freq_le_of_sorted {front : List Item} {a b : Item}
    (h : (front ++ [a, b]).Pairwise fun x y => before x y = true) : b.freq ≤ a.freq := by
  have hab := (before_iff a b).1 (before_of_sorted h)
  rw [BitVec.le_def]
  omega

/-- The node a merge step makes of the last two items (R145). -/
def mergedNode (a b : Item) : Node := ⟨true, .internal, 0, a.freq + b.freq, a.id, b.id⟩

/-- The item of that node, the `k`-th internal one. -/
def mergedItem (k : Nat) (a b : Item) : Item := ⟨BitVec.ofNat 9 (256 + k), a.freq + b.freq⟩

theorem toNat_mergedItem_id {k : Nat} (h : k < 255) (a b : Item) : (mergedItem k a b).id.toNat = 256 + k := by
  rw [mergedItem, BitVec.toNat_ofNat]
  omega

/-- The merge step with its node at the place R145 gives it. -/
theorem mergeStep_eq_merged {t : Build} {front : List Item} {a b : Item} (hitems : t.items = front ++ [a, b])
    (hcount : t.mergeCnt.toNat < 255) :
    mergeStep t =
      { node := t.node.setIfInBounds (256 + t.mergeCnt.toNat) (mergedNode a b)
        items := insertItem (mergedItem t.mergeCnt.toNat a b) front
        mergeCnt := t.mergeCnt + 1 } := by
  have hid := toNat_mergedItem_id hcount a b
  rw [mergedItem] at hid
  rw [mergeStep_eq t front a b hitems, hid]
  rfl

/-- A merge step keeps the work list sorted. -/
theorem mergedItem_sorted {t : Build} {front : List Item} {a b : Item} (hitems : t.items = front ++ [a, b])
    (hcount : t.mergeCnt.toNat < 255) (hsorted : t.items.Pairwise fun x y => before x y = true)
    (hbelow : ∀ x ∈ t.items, x.id.toNat < 256 + t.mergeCnt.toNat) :
    (mergeStep t).items.Pairwise fun x y => before x y = true := by
  rw [mergeStep_eq_merged hitems hcount]
  rw [hitems] at hsorted hbelow
  refine insertItem_sorted (List.pairwise_append.1 hsorted).1 fun y hy e => ?_
  have hy := hbelow y (List.mem_append_left _ hy)
  rw [e, toNat_mergedItem_id hcount] at hy
  exact lt_irrefl _ hy

/-! ## TBUILD's run (spec/41_tree_builder.md R140) -/

/-- What the merge loop starts from: the leaves, in the order of the work list (R141, R144). -/
def leafBuild (freq : FreqTable) : Build := ⟨leafArena freq, sortItems (leafItems freq), 0⟩

/-- What the merge loop ends in. -/
def builtTree (freq : FreqTable) : Build := mergeAll (leafBuild freq)

theorem length_leafBuild_items (freq : FreqTable) : (leafBuild freq).items.length = (leafSymbols freq).length :=
  (sortItems_leafItems_perm freq).length_eq.trans (List.length_map _)

/-- TBUILD with at least one leaf leaves the merge loop's arena, its one item as work list and root, and NODATA 0. -/
theorem exec_tbuild_tree {s : State} (hs : s.phase = .idle) (h : leafSymbols s.freq ≠ []) :
    ∃ y, (builtTree s.freq).items = [y] ∧
      exec .tbuild s = .next { s with
        node := (builtTree s.freq).node
        wl := [y.id]
        mergeCnt := (builtTree s.freq).mergeCnt
        rootValid := true
        root := y.id
        nodata := false }.completed := by
  rcases tbuildBody_cases s.accept with ⟨hnil, -⟩ | ⟨x, xs, t, hx, ht, hb⟩
  · exact absurd ((sortItems_leafItems_eq_nil s.freq).1 hnil) h
  · obtain ⟨y, -, hy, -⟩ := mergeAll_tree hx ht
    have hbuilt : t = builtTree s.freq := by
      rw [ht, builtTree, leafBuild, ← hx]
      rfl
    rw [hbuilt] at hy hb
    refine ⟨y, hy, ?_⟩
    rw [hy] at hb
    exact (command_ok hs hb :)

/-- Settles O15: there is no item to merge, and TBUILD ends at once. -/
theorem tbuildWithoutLeaves : Obligations.TbuildWithoutLeaves := by
  intro s hs h
  have hleaves : leafSymbols s.freq = [] := List.filter_eq_nil_iff.2 fun b _ => by simp [h b]
  rcases tbuildBody_cases s.accept with ⟨-, hb⟩ | ⟨x, xs, -, hx, -⟩
  · exact (command_ok hs hb :)
  · exact absurd (hx.symm.trans ((sortItems_leafItems_eq_nil s.freq).2 hleaves)) (List.cons_ne_nil x xs)

/-- An identifier that no counted symbol has holds no node before the first merge. -/
theorem leafArena_unused {freq : FreqTable} {i : Nat} (hi : i < 511) (h : ∀ b : Byte, b.toNat = i → tget freq b = 0) :
    (leafArena freq)[i]? = some Node.empty := by
  rw [Vector.getElem?_eq_getElem hi, leafArena, getElem_tableOf]
  split
  · rename_i hlt
    have hb : (BitVec.ofNat 8 i).toNat = i := Nat.mod_eq_of_lt hlt
    have hzero : freq[i] = 0 := by simpa only [tget, hb] using h _ hb
    rw [leafNode, if_pos hzero]
  · rfl

/-- The arena of a lone leaf. -/
theorem leafArena_of_lone {freq : FreqTable} {b : Byte} (hb : tget freq b ≠ 0)
    (h : ∀ c : Byte, c ≠ b → tget freq c = 0) :
    leafArena freq =
      (Vector.replicate 511 Node.empty).setIfInBounds b.toNat ⟨true, .leaf, b, tget freq b, 0, 0⟩ := by
  refine Vector.ext fun i hi => Option.some_inj.1 ?_
  rw [← Vector.getElem?_eq_getElem, ← Vector.getElem?_eq_getElem]
  by_cases hib : b.toNat = i
  · subst hib
    rw [leafArena_leaf hb, Vector.getElem?_setIfInBounds_self, if_pos hi]
  · rw [Vector.getElem?_setIfInBounds_ne hib, Vector.getElem?_replicate, if_pos hi]
    exact leafArena_unused hi fun c hc => h c fun e => hib (e ▸ hc)

theorem leafSymbols_of_lone {freq : FreqTable} {b : Byte} (hb : tget freq b ≠ 0)
    (h : ∀ c : Byte, c ≠ b → tget freq c = 0) : leafSymbols freq = [b] := by
  refine List.perm_singleton.1 ((List.perm_ext_iff_of_nodup (leafSymbols_nodup freq) (List.nodup_singleton b)).2 ?_)
  intro c
  rw [mem_leafSymbols, List.mem_singleton]
  exact ⟨fun hc => by_contra fun hne => hc (h c hne), fun e => e ▸ hb⟩

/-- Settles O16: no merge step runs, and the root is the one leaf. -/
theorem tbuildOneLeaf : Obligations.TbuildOneLeaf := by
  intro s b hs hb h
  have hleaves := leafSymbols_of_lone hb h
  have hsorted : sortItems (leafItems s.freq) = [leafItem s.freq b] := by
    rw [leafItems_eq, hleaves]
    rfl
  have hbuilt : builtTree s.freq = ⟨leafArena s.freq, [leafItem s.freq b], 0⟩ := by
    rw [builtTree, leafBuild, hsorted]
    rfl
  obtain ⟨y, hy, hexec⟩ := exec_tbuild_tree hs (hleaves ▸ List.cons_ne_nil b [])
  rw [hbuilt] at hy hexec
  obtain rfl : leafItem s.freq b = y := List.singleton_inj.1 hy
  rw [hexec, leafArena_of_lone hb h]
  rfl

/-- Settles O19: the new node is the newest, so its place in the order is that of its frequency alone. -/
theorem mergeStepKeepsTheOrder : Obligations.MergeStepKeepsTheOrder := by
  refine ⟨fun t front a b hitems hsorted hbelow hcount => ⟨mergedItem_sorted hitems hcount hsorted hbelow,
    freq_le_of_sorted (hitems ▸ hsorted), ?_⟩, fun x y => by simp [before], fun s hs h => ?_⟩
  · have hnewest : ∀ x ∈ front, x.id.toNat < (mergedItem t.mergeCnt.toNat a b).id.toNat := fun x hx => by
      rw [toNat_mergedItem_id hcount]
      exact hbelow x (by simp [hitems, hx])
    rw [mergeStep_eq_merged hitems hcount, insertItem_eq_of_newest hnewest]
    rfl
  · obtain ⟨y, hy, hexec⟩ := exec_tbuild_tree hs h
    refine ⟨_, _, sortItems_leafItems_perm s.freq, sortItems_leafItems_sorted s.freq, hexec, rfl, ?_⟩
    exact (congrArg (List.map Item.id) hy).symm

end Sys2Proof.Machine

namespace Sys2Proof.Machine

/-! ## The tree TBUILD builds (spec/41_tree_builder.md R141 to R152) -/

/-- `m` is an internal node over two different nodes below `N`, the left one with the greater or equal frequency; its
own frequency is their sum, as a number too where the sum `fits` (R145, R149). -/
structure Arena.Joins (node : Arena) (fits : Prop) (N : Nat) (m l r : Node) : Prop where
  valid : m.valid = true
  kind : m.kind = .internal
  sym : m.sym = 0
  left_lt : m.left.toNat < N
  right_lt : m.right.toNat < N
  ne : m.left ≠ m.right
  left : node[m.left.toNat]? = some l
  right : node[m.right.toNat]? = some r
  left_valid : l.valid = true
  right_valid : r.valid = true
  freq : m.freq = l.freq + r.freq
  freq_le : r.freq ≤ l.freq
  noWrap : fits → m.freq.toNat = l.freq.toNat + r.freq.toNat

/-- What the arena and the work list hold after `k` merges, beside whole trees: the leaves as they were created, `k`
nodes that join earlier ones, and nothing else; items sorted, each with its node's frequency, which add up to the
counters' sum where that fits 64 bits; the newest node among them. -/
structure Build.Grown (freq : FreqTable) (k : Nat) (t : Build) : Prop where
  forest : t.Forest (leafSymbols freq) k
  sorted : t.items.Pairwise fun x y => before x y = true
  itemNode : ∀ x ∈ t.items, ∃ nd, t.node[x.id.toNat]? = some nd ∧ nd.valid = true ∧ nd.freq = x.freq
  total : freqSum freq < 2 ^ 64 → (t.items.map fun x => x.freq.toNat).sum = freqSum freq
  leaves : ∀ i, i < 256 → t.node[i]? = (leafArena freq)[i]?
  joined : ∀ j, j < k → ∃ m l r, t.node[256 + j]? = some m ∧ t.node.Joins (freqSum freq < 2 ^ 64) (256 + j) m l r
  unused : ∀ j, k ≤ j → 256 + j < 511 → t.node[256 + j]? = some Node.empty
  newest : 0 < k → ∃ x ∈ t.items, x.id.toNat = 256 + (k - 1)

theorem Arena.Joins.of_agree {node node' : Arena} {fits : Prop} {N : Nat} {m l r : Node}
    (h : node.Joins fits N m l r) (ha : ∀ i, i < N → node'[i]? = node[i]?) : node'.Joins fits N m l r :=
  { h with left := (ha _ h.left_lt).trans h.left, right := (ha _ h.right_lt).trans h.right }

/-- The counters' sum is that of the leaves' items. -/
theorem sum_leafItems (freq : FreqTable) :
    ((sortItems (leafItems freq)).map fun x => x.freq.toNat).sum = freqSum freq := by
  have htable : freq.toList.map BitVec.toNat = allSymbols.map fun b => (tget freq b).toNat := by
    refine List.ext_getElem (by simp [allSymbols]) fun i h _ => ?_
    have hi : i < 256 := by simpa using h
    simp [allSymbols, tget, Nat.mod_eq_of_lt hi]
  have hzero : ((allSymbols.filter fun b => ¬ tget freq b ≠ 0).map fun b => (tget freq b).toNat).sum = 0 :=
    List.sum_eq_zero fun n hn => by
      obtain ⟨b, hb, rfl⟩ := List.mem_map.1 hn
      have hb : tget freq b = 0 := by simpa using (List.mem_filter.1 hb).2
      rw [hb]
      rfl
  have hsplit := List.sum_map_filter_add_sum_map_filter_not (fun b => tget freq b ≠ 0)
    (fun b => (tget freq b).toNat) allSymbols
  rw [((sortItems_leafItems_perm freq).map _).sum_eq, List.map_map, freqSum, htable, ← hsplit, hzero]
  rfl

/-- Before the first merge there are the leaves. -/
theorem grown_leafBuild (freq : FreqTable) : (leafBuild freq).Grown freq 0 where
  forest := forest_leaves freq
  sorted := sortItems_leafItems_sorted freq
  itemNode := fun x hx => by
    obtain ⟨b, hb, rfl⟩ := List.mem_map.1 ((sortItems_leafItems_perm freq).subset hx)
    refine ⟨⟨true, .leaf, b, tget freq b, 0, 0⟩, ?_, rfl, rfl⟩
    rw [toNat_leafItem_id]
    exact leafArena_leaf (mem_leafSymbols.1 hb)
  total := fun _ => sum_leafItems freq
  leaves := fun _ _ => rfl
  joined := fun j hj => absurd hj (Nat.not_lt_zero j)
  unused := fun j _ hj => leafArena_unused hj fun b hb => by have := b.isLt; omega
  newest := fun h => absurd h (lt_irrefl 0)

section
variable {freq : FreqTable} {k : Nat} {t : Build} {front : List Item} {a b : Item}

/-- Different items have different nodes: equal identifiers would mean equal frequencies. -/
theorem Build.Grown.id_ne (h : t.Grown freq k) (hitems : t.items = front ++ [a, b]) : a.id ≠ b.id := by
  intro e
  obtain ⟨na, hna, -, hfa⟩ := h.itemNode a (by simp [hitems])
  obtain ⟨nb, hnb, -, hfb⟩ := h.itemNode b (by simp [hitems])
  have hnode : na = nb := Option.some_inj.1 (hna.symm.trans (e ▸ hnb))
  have hab := before_of_sorted (hitems ▸ h.sorted)
  rw [before_iff, ← hfa, ← hfb, hnode, e] at hab
  omega

/-- The sum of the work list's frequencies, the last two apart. -/
theorem Build.Grown.total_split (h : t.Grown freq k) (hitems : t.items = front ++ [a, b])
    (hfits : freqSum freq < 2 ^ 64) :
    (front.map fun x => x.freq.toNat).sum + (a.freq.toNat + b.freq.toNat) = freqSum freq := by
  simpa [hitems] using h.total hfits

/-- The sum of a merge step is part of the counters' sum, so it does not wrap where that fits (R149). -/
theorem Build.Grown.toNat_add (h : t.Grown freq k) (hitems : t.items = front ++ [a, b])
    (hfits : freqSum freq < 2 ^ 64) : (a.freq + b.freq).toNat = a.freq.toNat + b.freq.toNat := by
  have htotal := h.total_split hitems hfits
  rw [BitVec.toNat_add, Nat.mod_eq_of_lt (by omega)]

/-- The new node joins the nodes of the two items at the tail. -/
theorem Build.Grown.joins (h : t.Grown freq k) (hitems : t.items = front ++ [a, b]) :
    ∃ l r, t.node.Joins (freqSum freq < 2 ^ 64) (256 + k) (mergedNode a b) l r := by
  have ha : a ∈ t.items := by simp [hitems]
  have hb : b ∈ t.items := by simp [hitems]
  obtain ⟨l, hl, hlv, hlf⟩ := h.itemNode a ha
  obtain ⟨r, hr, hrv, hrf⟩ := h.itemNode b hb
  refine ⟨l, r, rfl, rfl, rfl, h.forest.below a ha, h.forest.below b hb, h.id_ne hitems, hl, hr, hlv, hrv, ?_, ?_,
    ?_⟩ <;> rw [hlf, hrf]
  · rfl
  · exact freq_le_of_sorted (hitems ▸ h.sorted)
  · exact h.toNat_add hitems

end

/-- A merge step adds one node and puts its item in the place of two. -/
theorem grown_mergeStep {freq : FreqTable} {k : Nat} {t : Build} (h : t.Grown freq k) (hl : 2 ≤ t.items.length) :
    (mergeStep t).Grown freq (k + 1) := by
  have hforest := forest_mergeStep h.forest (length_leafSymbols_le freq) hl
  obtain ⟨front, a, b, hitems⟩ := exists_last_two hl
  have hk : k < 255 := by
    have := h.forest.length
    have := length_leafSymbols_le freq
    omega
  have hcount := h.forest.count
  have hsorted := mergedItem_sorted hitems (hcount ▸ hk) h.sorted (hcount ▸ h.forest.below)
  have hstep := mergeStep_eq_merged hitems (hcount ▸ hk)
  rw [hcount] at hstep
  have hperm := insertItem_perm (mergedItem k a b) front
  have hold : ∀ i, i ≠ 256 + k → (t.node.setIfInBounds (256 + k) (mergedNode a b))[i]? = t.node[i]? :=
    fun i hi => Vector.getElem?_setIfInBounds_ne hi.symm
  have hnew : (t.node.setIfInBounds (256 + k) (mergedNode a b))[256 + k]? = some (mergedNode a b) := by
    rw [Vector.getElem?_setIfInBounds_self, if_pos (by omega)]
  have hid := toNat_mergedItem_id hk a b
  rw [hstep] at hforest hsorted ⊢
  refine ⟨hforest, hsorted, fun x hx => ?_, fun hfits => ?_, fun i hi => ?_, fun j hj => ?_, fun j hj hlt => ?_,
    fun _ => ⟨_, hperm.symm.subset List.mem_cons_self, hid⟩⟩
  · rcases List.mem_cons.1 (hperm.subset hx) with rfl | hx
    · exact ⟨mergedNode a b, by rwa [hid], rfl, rfl⟩
    · have hx : x ∈ t.items := by simp [hitems, hx]
      rw [hold _ (h.forest.below x hx).ne]
      exact h.itemNode x hx
  · have hadd : (mergedItem k a b).freq.toNat = a.freq.toNat + b.freq.toNat := h.toNat_add hitems hfits
    rw [(hperm.map _).sum_eq, List.map_cons, List.sum_cons, hadd, Nat.add_comm]
    exact h.total_split hitems hfits
  · exact (hold i (by omega)).trans (h.leaves i hi)
  · rcases Nat.lt_succ_iff_lt_or_eq.1 hj with hj | rfl
    · obtain ⟨m, l, r, hm, hjoins⟩ := h.joined j hj
      exact ⟨m, l, r, (hold _ (by omega)).trans hm, hjoins.of_agree fun i hi => hold i (by omega)⟩
    · obtain ⟨l, r, hjoins⟩ := h.joins hitems
      exact ⟨_, l, r, hnew, hjoins.of_agree fun i hi => hold i hi.ne⟩
  · exact (hold _ (by omega)).trans (h.unused j (by omega) hlt)

theorem grown_mergeTimes {freq : FreqTable} {k n : Nat} {t : Build} (h : t.Grown freq k) (hn : n < t.items.length) :
    (mergeTimes n t).Grown freq (k + n) := by
  induction n generalizing k t with
  | zero => exact h
  | succ n ih =>
    have hlen := length_mergeStep t (by omega)
    have := ih (grown_mergeStep h (by omega)) (by omega)
    rwa [Nat.add_right_comm] at this

/-- With L leaves the merge loop ends after L - 1 merges (R146). -/
theorem grown_builtTree {freq : FreqTable} (h : leafSymbols freq ≠ []) :
    (builtTree freq).Grown freq ((leafSymbols freq).length - 1) := by
  have hlen := length_leafBuild_items freq
  have hpos := List.length_pos_iff.2 h
  rw [← Nat.zero_add ((leafSymbols freq).length - 1), ← hlen]
  exact grown_mergeTimes (grown_leafBuild freq) (by omega)

/-- The leaf of a symbol, or no node (R141). -/
theorem leafArena_symbol (freq : FreqTable) (b : Byte) :
    (leafArena freq)[b.toNat]? =
      some (if tget freq b = 0 then Node.empty else ⟨true, .leaf, b, tget freq b, 0, 0⟩) := by
  split
  · have := b.isLt
    exact leafArena_unused (by omega) fun c hc => BitVec.eq_of_toNat_eq hc ▸ ‹_›
  · exact leafArena_leaf ‹_›

/-- A path in a tree of at most `bound` nodes on a path has fewer steps. -/
theorem treeLeaves_path_lt {node : Arena} {bound : Nat} {n : NodeId} {ls : List (List Bool × Byte)}
    (h : treeLeaves node bound n = some ls) : ∀ x ∈ ls, x.1.length < bound := by
  induction bound generalizing n ls with
  | zero => cases h
  | succ bound ih =>
    obtain ⟨nd, -, ⟨-, rfl⟩ | ⟨-, l, r, hl, hr, rfl⟩⟩ := treeLeaves_cases h
    · simp
    · exact List.forall_mem_append.2 ⟨List.forall_mem_map.2 fun y hy => Nat.succ_lt_succ (ih hl y hy),
        List.forall_mem_map.2 fun y hy => Nat.succ_lt_succ (ih hr y hy)⟩

/-- The tree below the one item of the merge loop's end: each counted symbol once, no path of more than L - 1 steps
(R146, R152). -/
theorem builtTree_leaves {freq : FreqTable} {y : Item} (h : leafSymbols freq ≠ [])
    (hy : (builtTree freq).items = [y]) :
    ∃ ls, treeLeaves (builtTree freq).node 511 y.id = some ls ∧ (ls.map Prod.snd).Perm (leafSymbols freq) ∧
      ∀ x ∈ ls, x.1.length ≤ (leafSymbols freq).length - 1 := by
  obtain ⟨-, -, hbelow, hclosed, hwhole, hsyms⟩ := (grown_builtTree h).forest
  have hle := length_leafSymbols_le freq
  have hmem : y ∈ (builtTree freq).items := hy ▸ List.mem_singleton_self y
  obtain ⟨ls, hls⟩ := hwhole y hmem
  refine ⟨ls, treeLeaves_of_agree hclosed (fun _ _ => rfl) (by omega) (hbelow y hmem) hls, ?_,
    fun x hx => Nat.le_of_lt_succ (treeLeaves_path_lt hls x hx)⟩
  simpa [hy, symbolsBelow_eq hls] using hsyms

/-- Settles O17, by what the arena and the work list hold after L - 1 merges. -/
theorem tbuildBuildsATree : Obligations.TbuildBuildsATree := by
  rintro s L hs rfl hL
  have hne := List.length_pos_iff.1 hL
  have h := grown_builtTree hne
  obtain ⟨y, hy, hexec⟩ := exec_tbuild_tree hs hne
  refine ⟨_, hexec, rfl, h.forest.count, rfl, fun hL => ?_, fun b => ?_, fun k hk => ?_, h.unused,
    builtTree_leaves hne hy⟩
  · obtain ⟨x, hx, hid⟩ := h.newest (by omega)
    rw [hy, List.mem_singleton] at hx
    exact (hx ▸ hid).trans (by omega)
  · exact (h.leaves _ b.isLt).trans (leafArena_symbol s.freq b)
  · obtain ⟨m, l, r, hm, hj⟩ := h.joined k hk
    exact ⟨m, l, r, hm, hj.valid, hj.kind, hj.sym, hj.left_lt, hj.right_lt, hj.ne, hj.left, hj.right, hj.left_valid,
      hj.right_valid, hj.freq, hj.freq_le⟩

/-- Every internal node in the arena is one that a merge made. -/
theorem Build.Grown.joins_of_internal {freq : FreqTable} {k n : Nat} {t : Build} {m : Node} (h : t.Grown freq k)
    (hm : t.node[n]? = some m) (hkind : m.kind = .internal) :
    ∃ l r, t.node.Joins (freqSum freq < 2 ^ 64) n m l r := by
  have hn := (Vector.getElem?_eq_some_iff.1 hm).1
  by_cases hleaf : n < 256
  · rw [leafArena_kind ((h.leaves n hleaf).symm.trans hm)] at hkind
    cases hkind
  · obtain ⟨j, rfl⟩ := Nat.exists_eq_add_of_le (Nat.le_of_not_lt hleaf)
    by_cases hj : j < k
    · obtain ⟨m', l, r, hm', hjoins⟩ := h.joined j hj
      obtain rfl : m' = m := Option.some_inj.1 (hm'.symm.trans hm)
      exact ⟨l, r, hjoins⟩
    · obtain rfl : Node.empty = m := Option.some_inj.1 ((h.unused j (by omega) hn).symm.trans hm)
      cases hkind

/-- Settles O18: the frequencies in the work list always add up to the counters' sum. -/
theorem rootFrequencyIsTheSum : Obligations.RootFrequencyIsTheSum := by
  intro s t hs hfits hne ht
  have h := grown_builtTree hne
  obtain ⟨y, hy, hexec⟩ := exec_tbuild_tree hs hne
  cases hexec.symm.trans ht
  constructor
  · obtain ⟨r, hr, -, hrf⟩ := h.itemNode y (hy ▸ List.mem_singleton_self y)
    refine ⟨r, hr, ?_⟩
    simpa [hy, hrf] using h.total hfits
  · intro n m l r hm _ hkind hl hr
    obtain ⟨l', r', hj⟩ := h.joins_of_internal hm hkind
    obtain rfl : l' = l := Option.some_inj.1 (hj.left.symm.trans hl)
    obtain rfl : r' = r := Option.some_inj.1 (hj.right.symm.trans hr)
    exact hj.noWrap hfits

end Sys2Proof.Machine

namespace Sys2Proof.Machine

/-! ## ENCODE of an input with few distinct bytes (spec/41_tree_builder.md R152, spec/42_code_assigner.md R165, R170) -/

/-- A walk of a tree without a leaf deeper than 16 ends, with every leaf's path stored. -/
theorem walk_of_shallow {node : Arena} {fuel : Nat} {n : NodeId} {bits len : Nat} {code : CodeTable}
    {ls : List (List Bool × Byte)} (ht : treeLeaves node fuel n = some ls)
    (hd : ∀ x ∈ ls, len + x.1.length ≤ 16) : walk node fuel n bits len code = .done (storePaths bits len ls code) := by
  induction fuel generalizing n bits len code ls with
  | zero => cases ht
  | succ fuel ih =>
    obtain ⟨nd, hnd, ⟨hk, rfl⟩ | ⟨hk, l, r, hl, hr, rfl⟩⟩ := treeLeaves_cases ht
    · have hlen : ¬ 16 < len := by simpa using hd
      simp only [walk, hnd, hk, if_neg hlen]
      rfl
    · obtain ⟨hdl, hdr⟩ := List.forall_mem_append.1 hd
      have hdl := List.forall_mem_map.1 hdl
      have hdr := List.forall_mem_map.1 hdr
      have hstep (x : List Bool × Byte) : len + 1 + x.1.length = len + (x.1.length + 1) := by omega
      simp only [walk, hnd, hk, ih hl fun x hx => (hstep x).trans_le (hdl x hx),
        ih hr fun x hx => (hstep x).trans_le (hdr x hx)]
      rw [storePaths_append, storePaths_cons_step, storePaths_cons_step]
      rfl

/-- CASSIGN succeeds on a tree without a leaf deeper than 16 (R165). -/
theorem cassignBody_of_shallow {s : State} {ls : List (List Bool × Byte)}
    (ht : treeLeaves s.node 511 s.root = some ls) (hd : ∀ x ∈ ls, x.1.length ≤ 16) : ∃ v, cassignBody s = .ok v := by
  have hdone : ∃ code, assignCodes s = .done code := by
    unfold assignCodes
    cases s.rootValid with
    | false => exact ⟨_, rfl⟩
    | true =>
      obtain ⟨nd, hnd, ⟨hk, -⟩ | ⟨hk, -⟩⟩ := treeLeaves_cases ht
      · simp only [hnd, hk, if_true]
        exact ⟨_, rfl⟩
      · simp only [hnd, hk, if_true]
        exact ⟨_, walk_of_shallow ht fun x hx => (Nat.zero_add _).trans_le (hd x hx)⟩
  obtain ⟨code, hcode⟩ := hdone
  exact ⟨_, by rw [cassignBody, hcode]⟩

/-- A tree of at most 17 leaves has no path of more than 16 steps. -/
theorem cassignBody_after_tbuildBody {s u : State} (hu : tbuildBody s = .ok u)
    (h17 : (leafSymbols s.freq).length ≤ 17) : ∃ v, cassignBody u = .ok v := by
  rcases tbuildBody_cases s with ⟨-, h'⟩ | ⟨x, xs, t, hx, ht, h'⟩ <;> rw [h'] at hu <;> cases hu
  · exact ⟨_, rfl⟩
  · have hne : leafSymbols s.freq ≠ [] := fun hnil =>
      List.cons_ne_nil x xs (hx.symm.trans ((sortItems_leafItems_eq_nil s.freq).2 hnil))
    obtain ⟨y, -, hy, -⟩ := mergeAll_tree hx ht
    obtain rfl : builtTree s.freq = t := by
      rw [ht, ← hx]
      rfl
    obtain ⟨ls, hls, -, hdepth⟩ := builtTree_leaves hne hy
    refine cassignBody_of_shallow (ls := ls) ?_ fun p hp => (hdepth p hp).trans (by omega)
    simpa [hy] using hls

/-- The counted symbols are those that occur. -/
theorem tget_countBytes_ne_zero {bs : List Byte} (h : bs.length < 2 ^ 64) (b : Byte) :
    tget (countBytes bs) b ≠ 0 ↔ b ∈ bs := by
  rw [ne_eq, ← BitVec.toNat_inj, toNat_tget_countBytes h, ← List.count_pos_iff, Nat.pos_iff_ne_zero]
  rfl

theorem leafSymbols_countBytes {bs : List Byte} (h : bs.length < 2 ^ 64) :
    leafSymbols (countBytes bs) = allSymbols.filter fun b => decide (b ∈ bs) :=
  List.filter_congr fun b _ => decide_eq_decide.2 (tget_countBytes_ne_zero h b)

/-- TBUILD in the middle of a command leaves the control state of its caller. -/
theorem tbuildBody_finish_accept {s u : State} (h : tbuildBody s.accept = .ok u) : u.finish.accept = u := by
  rw [tbuildBody_frame h]
  rfl

theorem tbuildBody_succeeds (s : State) : ∃ u, tbuildBody s = .ok u := by
  rcases tbuildBody_cases s with ⟨-, h⟩ | ⟨_, _, _, -, -, h⟩ <;> exact ⟨_, h⟩

/-- Settles O29: TBUILD's tree is too shallow for CASSIGN to fault, and the codes are the paths of its leaves. -/
theorem encodeCompletes : Obligations.EncodeCompletes := by
  intro s hs hfits h17
  have hlen := length_input_lt s
  have hfreq : freqBody s.accept = .ok { s with freq := countBytes s.input }.accept := by
    rcases freqBody_cases s.accept with ⟨hlt, -⟩ | ⟨-, hb⟩
    · exact absurd hfits (BitVec.not_le.2 hlt)
    · exact hb
  obtain ⟨u, hu⟩ := tbuildBody_succeeds { s with freq := countBytes s.input }.accept
  obtain ⟨v, hv⟩ := cassignBody_after_tbuildBody hu (leafSymbols_countBytes hlen ▸ h17)
  have henc : encodeBody s.accept = .ok v := by
    rw [encodeBody_eq, hfreq, Result.ok_andThen, hu, Result.ok_andThen, hv]
  obtain ⟨ps, hps⟩ := codes_of_tbuild_cassign hu ((tbuildBody_finish_accept hu).symm ▸ hv)
  refine ⟨v.finish, command_ok hs henc, ?_, fun b => ?_, hps.properCodes, hps.prefixFree_codes⟩
  · have hnodata := encodeBody_nodata henc
    rw [encodeBody_frame henc, hnodata]
    rfl
  · exact (hps.present_iff_freq b).trans (tget_countBytes_ne_zero hlen b)

end Sys2Proof.Machine

namespace Sys2Proof.Machine

/-! ## CASSIGN (spec/42_code_assigner.md R160 to R167) -/

/-- CASSIGN when the walk ends: the codes are stored and the tree is consumed (R160, R166). -/
theorem exec_cassign_done {s : State} {code : CodeTable} (hs : s.phase = .idle) (h : assignCodes s = .done code) :
    exec .cassign s = .next { s with code := code }.withoutTree.completed := by
  have hbody : cassignBody s.accept = .ok { s.accept with code := code }.clearTree := by
    rw [cassignBody, show assignCodes s.accept = _ from h]
  exact (command_ok hs hbody :)

/-- CASSIGN when the walk meets a leaf that is too deep (R165). -/
theorem faults_cassign {s : State} {sym : Byte} {len : Nat} (hs : s.phase = .idle)
    (h : assignCodes s = .tooLong sym len) : Faults .cassign s 0x07 (sym.toNat + 256 * len) := by
  have hbody : cassignBody s.accept = .raised .codeTooLong (sym.toNat + 256 * len) := by
    rw [cassignBody, show assignCodes s.accept = _ from h]
  exact ⟨_, command_raised hs hbody, faultEntry_faultedFrom ..⟩

/-- CASSIGN when the walk has no end. -/
theorem exec_cassign_stuck {s : State} (hs : s.phase = .idle) (h : assignCodes s = .stuck) :
    exec .cassign s = .fault .walkStuck := by
  have hbody : cassignBody s.accept = .stuck .walkStuck := by
    rw [cassignBody, show assignCodes s.accept = _ from h]
  exact command_stuck hs hbody

/-- No tree, no codes (R161). -/
theorem assignCodes_of_noTree {s : State} (hr : s.rootValid = false) : assignCodes s = .done noCodes := by
  rw [assignCodes, hr]
  rfl

/-- The code of a root that is a leaf (R164). -/
theorem assignCodes_of_leaf {s : State} {nd : Node} (hr : s.rootValid = true) (hn : s.node[s.root.toNat]? = some nd)
    (hk : nd.kind = .leaf) : assignCodes s = .done (tset noCodes nd.sym ⟨0, 1⟩) := by
  simp only [assignCodes, hr, if_true, hn, hk]
  rfl

/-- Below a root that is no leaf the codes are the walk's (R162, R163). -/
theorem assignCodes_of_internal {s : State} {nd : Node} (hr : s.rootValid = true)
    (hn : s.node[s.root.toNat]? = some nd) (hk : nd.kind = .internal) :
    assignCodes s = walk s.node 511 s.root 0 0 noCodes := by
  simp only [assignCodes, hr, if_true, hn, hk]
  rfl

/-- Settles O20: without a tree the cleared code table is the result. -/
theorem cassignWithoutTree : Obligations.CassignWithoutTree :=
  fun _ hs hr => exec_cassign_done hs (assignCodes_of_noTree hr)

/-- Settles O21: the code of one bit 0 stands for each copy of the symbol. -/
theorem cassignOneLeaf : Obligations.CassignOneLeaf := by
  intro s nd hs hr hn hk
  refine ⟨exec_cassign_done hs (assignCodes_of_leaf hr hn hk), fun n => ?_⟩
  have hstring : (⟨0, 1⟩ : CodeEntry).string = [false] := by decide
  rw [codeString, List.flatMap_replicate, tget_tset_same, hstring, List.flatten_replicate_singleton]

/-- Settles O24: the first CASSIGN clears the tree, and the second one finds none. -/
theorem cassignConsumesTheTree : Obligations.CassignConsumesTheTree := by
  intro s t hs h ht
  obtain ⟨u, hu, rfl⟩ := command_next_idle hs h ht
  rw [cassignBody_frame hu]
  refine ⟨fun i => ?_, rfl, rfl, rfl, rfl, ?_⟩
  · exact Vector.getElem_replicate i.isLt
  · exact exec_cassign_done rfl (assignCodes_of_noTree rfl)

/-! ### The walk of a tree with a leaf deeper than 16 (R165) -/

/-- The path of a leaf below a node of depth `len` makes a code of more than 16 bits. -/
def tooDeep (len : Nat) (x : List Bool × Byte) : Bool := decide (16 < len + x.1.length)

theorem tooDeep_zero : tooDeep 0 = fun x => decide (16 < x.1.length) := by
  funext x
  rw [tooDeep, Nat.zero_add]

theorem find?_tooDeep_eq_none {len : Nat} {ls : List (List Bool × Byte)} :
    ls.find? (tooDeep len) = none ↔ ∀ x ∈ ls, len + x.1.length ≤ 16 := by
  simp [tooDeep]

/-- Paths that share their first step are too deep exactly where the paths below it are. -/
theorem find?_tooDeep_cons_step (len : Nat) (b : Bool) (l : List (List Bool × Byte)) :
    (l.map fun x => (b :: x.1, x.2)).find? (tooDeep len) =
      (l.find? (tooDeep (len + 1))).map fun x => (b :: x.1, x.2) := by
  rw [List.find?_map]
  congr 2
  funext x
  simp only [Function.comp_apply, tooDeep, List.length_cons, Nat.add_assoc, Nat.add_comm 1]

/-- A walk stops at the first leaf deeper than 16, left before right (R165, R167). -/
theorem walk_of_tooDeep {node : Arena} {fuel : Nat} {n : NodeId} {bits len : Nat} {code : CodeTable}
    {ls : List (List Bool × Byte)} {x : List Bool × Byte} (ht : treeLeaves node fuel n = some ls)
    (hx : ls.find? (tooDeep len) = some x) :
    walk node fuel n bits len code = .tooLong x.2 (len + x.1.length) := by
  induction fuel generalizing n bits len code ls x with
  | zero => cases ht
  | succ fuel ih =>
    obtain ⟨nd, hnd, ⟨hk, rfl⟩ | ⟨hk, l, r, hl, hr, rfl⟩⟩ := treeLeaves_cases ht
    · obtain ⟨rfl, hdeep⟩ : ([], nd.sym) = x ∧ 16 < len := by simpa [tooDeep, and_comm] using hx
      simp only [walk, hnd, hk, if_pos hdeep]
      rfl
    · have hlen (b : Bool) (p : List Bool) : len + (b :: p).length = len + 1 + p.length := by
        rw [List.length_cons, Nat.add_assoc, Nat.add_comm 1]
      rw [List.find?_append, find?_tooDeep_cons_step, find?_tooDeep_cons_step] at hx
      simp only [walk, hnd, hk]
      cases hleft : l.find? (tooDeep (len + 1)) with
      | some y =>
        obtain rfl : (false :: y.1, y.2) = x := by simpa [hleft] using hx
        rw [ih hl hleft, hlen]
      | none =>
        obtain ⟨y, hright, rfl⟩ : ∃ y, r.find? (tooDeep (len + 1)) = some y ∧ (true :: y.1, y.2) = x := by
          simpa only [hleft, Option.map_none, Option.none_or, Option.map_eq_some_iff] using hx
        rw [walk_of_shallow hl (find?_tooDeep_eq_none.1 hleft)]
        exact (ih hr hright).trans (by rw [hlen])

theorem pathEntry_eq_pathValue (p : List Bool) :
    pathEntry 0 0 p = ⟨BitVec.ofNat 16 (pathValue p), BitVec.ofNat 8 p.length⟩ := by
  rw [pathEntry, Nat.zero_add]
  rfl

/-- Settles O22: the walk stores every path, or stops at the first one that is too long. -/
theorem cassignReadsThePaths : Obligations.CassignReadsThePaths := by
  intro s nd leaves hs hr hn hk ht hnodup
  have hwalk := assignCodes_of_internal hr hn hk
  refine ⟨fun hshallow => ⟨storePaths 0 0 leaves noCodes, ?_, fun x hx => ?_, fun b hb => ?_⟩, fun x hx => ?_⟩
  · exact exec_cassign_done hs (hwalk.trans (walk_of_shallow ht (by simpa using hshallow)))
  · rw [tget_storePaths noCodes hnodup hx, string_pathEntry (hshallow x hx)]
    exact ⟨pathEntry_eq_pathValue x.1, rfl⟩
  · rw [tget_storePaths_other noCodes hb, noCodes, tget_replicate]
    rfl
  · rw [← tooDeep_zero] at hx
    have h := faults_cassign hs (hwalk.trans (walk_of_tooDeep ht hx))
    rwa [Nat.zero_add] at h

/-! ### The walk of an arena that is no tree -/

/-- A walk that ends has seen a whole tree. -/
theorem treeLeaves_of_walk_done {node : Arena} {fuel : Nat} {n : NodeId} {bits len : Nat} {code code' : CodeTable}
    (h : walk node fuel n bits len code = .done code') : ∃ ls, treeLeaves node fuel n = some ls := by
  induction fuel generalizing n bits len code code' with
  | zero => cases h
  | succ fuel ih =>
    rw [walk] at h
    split at h
    · cases h
    · rename_i nd hnd
      split at h
      · exact ⟨_, treeLeaves_leaf fuel hnd ‹_›⟩
      · rename_i hk
        split at h
        · rename_i mid hmid
          obtain ⟨l, hl⟩ := ih hmid
          obtain ⟨r, hr⟩ := ih h
          exact ⟨_, treeLeaves_internal hnd hk hl hr⟩
        · cases h
        · cases h

/-- Codes for a root come from a whole tree below it. -/
theorem treeLeaves_of_assignCodes_done {s : State} {code : CodeTable} (hr : s.rootValid = true)
    (h : assignCodes s = .done code) : ∃ ls, treeLeaves s.node 511 s.root = some ls := by
  cases hn : s.node[s.root.toNat]? with
  | none => simp only [assignCodes, hr, if_true, hn, reduceCtorEq] at h
  | some nd =>
    cases hk : nd.kind with
    | leaf => exact ⟨_, treeLeaves_leaf 510 hn hk⟩
    | internal => exact treeLeaves_of_walk_done ((assignCodes_of_internal hr hn hk).symm.trans h)

/-- Settles O23: codes would come from a whole tree, so CASSIGN takes one of its other two ends. -/
theorem cassignStopsOnABrokenTree : Obligations.CassignStopsOnABrokenTree := by
  intro s hs hr ht
  cases h : assignCodes s with
  | done code =>
    obtain ⟨ls, hls⟩ := treeLeaves_of_assignCodes_done hr h
    cases ht.symm.trans hls
  | tooLong sym len => exact .inr ⟨_, faults_cassign hs h⟩
  | stuck => exact .inl (exec_cassign_stuck hs h)

end Sys2Proof.Machine

namespace Sys2Proof.Machine

/-! ## ENCODE and its three commands (spec/42_code_assigner.md R170) -/

/-- Commands whose bodies end alike end alike, in states that share what fault entry keeps. -/
theorem command_congr {body body' : State → Result} {s t : State} (hs : s.phase = .idle) (ht : t.phase = .idle)
    (hbody : body' t.accept = body s.accept)
    (hfault : ∀ f info, t.faultEntry f info = s.faultEntry f info) : command body' t = command body s := by
  rcases command_idle (body := body) hs with ⟨u, hb, hc⟩ | ⟨f, n, hb, hc⟩ | ⟨r, hb, hc⟩ <;> rw [hc]
  · exact command_ok ht (hbody.trans hb)
  · rw [command_raised ht (hbody.trans hb), hfault]
  · exact command_stuck ht (hbody.trans hb)

/-- TBUILD always ends in success (spec/41_tree_builder.md R140). -/
theorem exec_tbuild_succeeds {s : State} (hs : s.phase = .idle) :
    ∃ u, tbuildBody s.accept = .ok u ∧ exec .tbuild s = .next u.finish := by
  obtain ⟨u, hu⟩ := tbuildBody_succeeds s.accept
  exact ⟨u, hu, command_ok hs hu⟩

/-- ENCODE of an input that does not fit its buffer faults as FREQ does. -/
theorem exec_encode_overfull {s : State} (hs : s.phase = .idle) (h : s.caps.ibuf < s.inLen) :
    exec .encode s = .next (s.faultEntry .allocFailure s.inLen.toNat) := by
  rcases freqBody_cases s.accept with ⟨-, hb⟩ | ⟨hfits, -⟩
  · refine command_raised hs ?_
    rw [encodeBody, hb]
    rfl
  · exact absurd h hfits

/-- ENCODE of an input that fits its buffer ends as CASSIGN does after FREQ and TBUILD. -/
theorem exec_encode_fits {s u : State} (hs : s.phase = .idle) (h : s.inLen ≤ s.caps.ibuf)
    (hu : tbuildBody { s with freq := countBytes s.input }.completed.accept = .ok u) :
    exec .encode s = exec .cassign u.finish := by
  have hfreq : freqBody s.accept = .ok { s with freq := countBytes s.input }.completed.accept := by
    rcases freqBody_cases s.accept with ⟨hlt, -⟩ | ⟨-, hb⟩
    · exact absurd h (BitVec.not_le.2 hlt)
    · exact hb
  refine (command_congr (t := u.finish) hs rfl ?_ fun f info => ?_).symm
  · rw [tbuildBody_finish_accept hu, encodeBody_eq, hfreq, Result.ok_andThen, hu, Result.ok_andThen]
  · rw [tbuildBody_frame hu]
    rfl

/-- Settles O28: each command's body takes up the state the one before it left. -/
theorem encodeIsItsThreeCommands : Obligations.EncodeIsItsThreeCommands := by
  refine ⟨by decide, fun s hs => ⟨fun h => ?_, fun h => ?_, fun t ht hdone => ?_⟩⟩
  · exact ⟨_, exec_encode_overfull hs h, faultEntry_faultedFrom ..⟩
  · obtain ⟨u, hu, hexec⟩ := exec_tbuild_succeeds (s := { s with freq := countBytes s.input }.completed) rfl
    exact ⟨_, _, exec_freq_fits hs h, rfl, hexec, rfl, exec_encode_fits hs h hu⟩
  · obtain ⟨u, hu, rfl⟩ := exec_done (by decide) hs ht hdone
    have hnodata : u.nodata = decide (s.inLen = 0) := encodeBody_nodata (s := s.accept) hu
    rw [encodeBody_frame hu]
    exact ⟨rfl, rfl, by simp [hnodata]⟩

end Sys2Proof.Machine

namespace Sys2Proof.Machine

/-! ## The code of two or more leaves is complete (spec/42_code_assigner.md R168 d) -/

/-- In a tree of two or more leaves each of them is at least one step below the root. -/
theorem treeLeaves_path_pos {node : Arena} {bound : Nat} {n : NodeId} {ls : List (List Bool × Byte)}
    (h : treeLeaves node (bound + 1) n = some ls) (h2 : 2 ≤ ls.length) : ∀ x ∈ ls, 1 ≤ x.1.length := by
  obtain ⟨nd, -, ⟨-, rfl⟩ | ⟨-, l, r, -, -, rfl⟩⟩ := treeLeaves_cases h
  · exact absurd h2 (by simp)
  · exact List.forall_mem_append.2 ⟨List.forall_mem_map.2 fun y _ => Nat.succ_pos _,
      List.forall_mem_map.2 fun y _ => Nat.succ_pos _⟩

/-- CASSIGN on a whole tree of two or more leaves codes each symbol by its own path. -/
theorem assignCodes_paths {s : State} {code : CodeTable} {ls : List (List Bool × Byte)} (hr : s.rootValid = true)
    (ht : treeLeaves s.node 511 s.root = some ls) (h2 : 2 ≤ ls.length) (h : assignCodes s = .done code) :
    CodedByPaths (ls.map Prod.snd) code ls := by
  obtain ⟨nd, hnd, ⟨-, hls⟩ | ⟨hk, -⟩⟩ := treeLeaves_cases ht
  · exact absurd h2 (by simp [hls])
  · obtain ⟨hdepth, hcode⟩ := walk_done ht ((assignCodes_of_internal hr hnd hk).symm.trans h)
    exact ⟨.refl _, fun p hp => ⟨treeLeaves_path_pos ht h2 p hp, by simpa using hdepth p hp⟩,
      treeLeaves_prefixFree ht, fun h1 => by omega, hcode⟩

/-- With two or more leaves the codes TBUILD and CASSIGN leave are the paths of the tree that the merge loop built. -/
theorem codes_are_paths {s t : State} (hs : s.phase = .idle) (h2 : 2 ≤ (leafSymbols s.freq).length)
    (h : runAll [.tbuild, .cassign] s = some t) :
    ∃ y ls, (builtTree s.freq).items = [y] ∧ treeLeaves (builtTree s.freq).node 511 y.id = some ls ∧
      CodedByPaths (leafSymbols s.freq) t.code ls := by
  have hne : leafSymbols s.freq ≠ [] := List.length_pos_iff.1 (by omega)
  obtain ⟨u, hu, -, h⟩ := runAll_cons.1 h
  obtain ⟨v, hv, hdone, h⟩ := runAll_cons.1 h
  cases h
  obtain ⟨y, hy, hexec⟩ := exec_tbuild_tree hs hne
  cases hexec.symm.trans hu
  obtain ⟨ls, hls, hperm, -⟩ := builtTree_leaves hne hy
  obtain ⟨w, hw, rfl⟩ := exec_done (by decide) rfl hv hdone
  have hw : cassignBody _ = .ok w := hw
  obtain ⟨code, hcode, hw'⟩ | ⟨_, _, -, hw'⟩ | ⟨-, hw'⟩ := cassignBody_cases _ <;> rw [hw'] at hw <;> cases hw
  have hlen : ls.length = (leafSymbols s.freq).length := by simpa using hperm.length_eq
  exact ⟨y, ls, hy, hls, (assignCodes_paths rfl hls (hlen ▸ h2) hcode).of_perm hperm⟩

/-- Kraft's equality: each inner node's weight is split between its two children. -/
theorem treeLeaves_kraft {node : Arena} {bound : Nat} {n : NodeId} {ls : List (List Bool × Byte)} {K : Nat}
    (h : treeLeaves node bound n = some ls) (hK : ∀ x ∈ ls, x.1.length ≤ K) :
    (ls.map fun x => 2 ^ (K - x.1.length)).sum = 2 ^ K := by
  induction bound generalizing n ls K with
  | zero => cases h
  | succ bound ih =>
    obtain ⟨nd, -, ⟨-, rfl⟩ | ⟨-, l, r, hl, hr, rfl⟩⟩ := treeLeaves_cases h
    · simp
    · obtain ⟨hKl, hKr⟩ := List.forall_mem_append.1 hK
      have hKl := List.forall_mem_map.1 hKl
      have hKr := List.forall_mem_map.1 hKr
      obtain ⟨x, hx⟩ := List.exists_mem_of_ne_nil l (treeLeaves_ne_nil hl)
      obtain ⟨K, rfl⟩ : ∃ k, K = k + 1 := Nat.exists_eq_add_of_le' ((Nat.succ_pos _).trans_le (hKl x hx))
      have hsuml := ih hl fun y hy => Nat.le_of_succ_le_succ (hKl y hy)
      have hsumr := ih hr fun y hy => Nat.le_of_succ_le_succ (hKr y hy)
      rw [List.map_append, List.map_map, List.map_map, List.sum_append, pow_succ, Nat.mul_two]
      simpa [Function.comp_def] using congrArg₂ (· + ·) hsuml hsumr

/-- The present symbols are the counted ones (R168 a). -/
theorem CodedByPaths.presentSymbols_eq {freq : FreqTable} {code : CodeTable} {ps : List (List Bool × Byte)}
    (h : CodedByPaths (leafSymbols freq) code ps) : presentSymbols code = leafSymbols freq :=
  List.filter_congr fun b _ => decide_eq_decide.2 (h.present_iff_freq b)

/-- The length of a symbol's code is that of its path. -/
theorem CodedByPaths.toNat_len {freq : FreqTable} {code : CodeTable} {ps : List (List Bool × Byte)}
    (h : CodedByPaths (leafSymbols freq) code ps) {p : List Bool} {b : Byte} (hp : (p, b) ∈ ps) :
    (tget code b).len.toNat = p.length := by
  rw [h.tget_of_mem hp, toNat_pathEntry_len (h.length _ hp).2]

/-- Settles O26: the weights of the codes are those of the leaves' paths, which Kraft's equality adds up. -/
theorem codesAreComplete : Obligations.CodesAreComplete := by
  intro s t hs h2 h
  obtain ⟨y, ls, -, hls, hcodes⟩ := codes_are_paths hs h2 h
  have hweights : (ls.map Prod.snd).map (fun b => 2 ^ (16 - (tget t.code b).len.toNat)) =
      ls.map fun x => 2 ^ (16 - x.1.length) := by
    rw [List.map_map]
    exact List.map_congr_left fun x hx => by rw [Function.comp_apply, hcodes.toNat_len hx]
  rw [hcodes.presentSymbols_eq, ← (hcodes.symbols.map _).sum_eq, hweights]
  exact treeLeaves_kraft hls fun x hx => (hcodes.length x hx).2

end Sys2Proof.Machine

namespace Sys2Proof.Machine

/-! ## A more frequent symbol has no longer code (spec/42_code_assigner.md R168 f)

The merge loop takes items off the work list in the order of their frequencies, so that of two merges the earlier one
joins the less frequent nodes. From this, going down from the root, a deeper node is never more frequent. -/

/-! ### The order in which the merge loop uses the nodes -/

/-- `c` is the item of a child of the internal node `N`. -/
def Arena.IsChild (node : Arena) (N : Nat) (c : Item) : Prop :=
  ∃ m nd, node[N]? = some m ∧ m.kind = .internal ∧ (c.id = m.left ∨ c.id = m.right) ∧
    node[c.id.toNat]? = some nd ∧ nd.freq = c.freq

/-- The work list's order is the reverse order of use: a node that has been used stands behind every item, and behind
every node that was used in a later merge. -/
structure Build.Ranked (t : Build) : Prop where
  positive : ∀ x ∈ t.items, 0 < x.freq.toNat
  items : ∀ {N c}, t.node.IsChild N c → ∀ x ∈ t.items, before x c = true
  merges : ∀ {M N c d}, M < N → t.node.IsChild M c → t.node.IsChild N d → before d c = true

theorem ranked_leafBuild (freq : FreqTable) : (leafBuild freq).Ranked := by
  have hno : ∀ {N c}, ¬ (leafBuild freq).node.IsChild N c := by
    rintro N c ⟨m, -, hm, hk, -⟩
    rw [leafArena_kind hm] at hk
    cases hk
  refine ⟨fun x hx => ?_, fun h => absurd h hno, fun _ h => absurd h hno⟩
  obtain ⟨b, hb, rfl⟩ := List.mem_map.1 ((sortItems_leafItems_perm freq).subset hx)
  exact Nat.pos_of_ne_zero fun h0 => mem_leafSymbols.1 hb (BitVec.eq_of_toNat_eq h0)

section
variable {freq : FreqTable} {k : Nat} {t : Build}

/-- The internal nodes are below the next one's place. -/
theorem Build.Grown.internal_lt (h : t.Grown freq k) {n : Nat} {m : Node} (hm : t.node[n]? = some m)
    (hkind : m.kind = .internal) : n < 256 + k := by
  by_contra hn
  obtain ⟨j, rfl⟩ := Nat.exists_eq_add_of_le ((Nat.le_add_right 256 k).trans (Nat.le_of_not_lt hn))
  have hbound := (Vector.getElem?_eq_some_iff.1 hm).1
  obtain rfl : Node.empty = m := Option.some_inj.1 ((h.unused j (by omega) hbound).symm.trans hm)
  cases hkind

theorem Item.eq_of_id_freq {x z : Item} (hid : x.id = z.id) (hf : x.freq = z.freq) : x = z := by
  cases x
  cases z
  exact congrArg₂ Item.mk hid hf

/-- There are at most 255 merges. -/
theorem Build.Grown.merges_lt (h : t.Grown freq k) (hl : 2 ≤ t.items.length) : k < 255 := by
  have := h.forest.length
  have := length_leafSymbols_le freq
  omega

section
variable {front : List Item} {a b : Item}

/-- The merge step after `k` merges. -/
theorem Build.Grown.mergeStep_eq (h : t.Grown freq k) (hk : k < 255) (hitems : t.items = front ++ [a, b]) :
    mergeStep t =
      { node := t.node.setIfInBounds (256 + k) (mergedNode a b)
        items := insertItem (mergedItem k a b) front
        mergeCnt := t.mergeCnt + 1 } := by
  have hstep := mergeStep_eq_merged hitems (h.forest.count ▸ hk)
  rwa [h.forest.count] at hstep

/-- A child in the arena after a merge is one from before, or one of the two items merged. -/
theorem Build.Grown.isChild_merged (h : t.Grown freq k) (hk : k < 255) (hitems : t.items = front ++ [a, b]) {N : Nat}
    {c : Item} (hc : Arena.IsChild (t.node.setIfInBounds (256 + k) (mergedNode a b)) N c) :
    (N < 256 + k ∧ t.node.IsChild N c) ∨ (N = 256 + k ∧ (c = a ∨ c = b)) := by
  have hold : ∀ i, i ≠ 256 + k → (t.node.setIfInBounds (256 + k) (mergedNode a b))[i]? = t.node[i]? :=
    fun i hi => Vector.getElem?_setIfInBounds_ne hi.symm
  obtain ⟨m, nd, hm, hkind, hcm, hnd, hf⟩ := hc
  by_cases hN : N = 256 + k
  · subst hN
    rw [Vector.getElem?_setIfInBounds_self, if_pos (by omega), Option.some_inj] at hm
    subst hm
    have hitem : ∀ x ∈ t.items, c.id = x.id → c = x := fun x hx e => by
      obtain ⟨nx, hnx, -, hfx⟩ := h.itemNode x hx
      rw [e, hold _ (h.forest.below x hx).ne] at hnd
      obtain rfl : nd = nx := Option.some_inj.1 (hnd.symm.trans hnx)
      exact Item.eq_of_id_freq e (hf.symm.trans hfx)
    exact .inr ⟨rfl, hcm.imp (hitem a (by simp [hitems])) (hitem b (by simp [hitems]))⟩
  · rw [hold N hN] at hm
    obtain ⟨l, r, hj⟩ := h.joins_of_internal hm hkind
    have hlt := h.internal_lt hm hkind
    have hclt : c.id.toNat < N := hcm.elim (fun e => e ▸ hj.left_lt) fun e => e ▸ hj.right_lt
    rw [hold _ (hclt.trans hlt).ne] at hnd
    exact .inl ⟨hlt, m, nd, hm, hkind, hcm, hnd, hf⟩

/-- The new node is more frequent than both of the nodes it joins, so that its item stands before theirs. -/
theorem Build.Ranked.before_merged (hr : t.Ranked) (h : t.Grown freq k) (hfits : freqSum freq < 2 ^ 64)
    (hitems : t.items = front ++ [a, b]) :
    before (mergedItem k a b) a = true ∧ before (mergedItem k a b) b = true := by
  have hadd : (mergedItem k a b).freq.toNat = a.freq.toNat + b.freq.toNat := h.toNat_add hitems hfits
  have ha := hr.positive a (by simp [hitems])
  have hb := hr.positive b (by simp [hitems])
  exact ⟨(before_iff ..).2 (.inl (by omega)), (before_iff ..).2 (.inl (by omega))⟩

end

/-- A merge step uses the two items that stand behind all others. -/
theorem ranked_mergeStep (hfits : freqSum freq < 2 ^ 64) (h : t.Grown freq k) (hr : t.Ranked)
    (hl : 2 ≤ t.items.length) : (mergeStep t).Ranked := by
  obtain ⟨front, a, b, hitems⟩ := exists_last_two hl
  have hk := h.merges_lt hl
  have ha : a ∈ t.items := by simp [hitems]
  have hb : b ∈ t.items := by simp [hitems]
  have hfront : ∀ x ∈ front, x ∈ t.items := fun x hx => by simp [hitems, hx]
  obtain ⟨hnewa, hnewb⟩ := hr.before_merged h hfits hitems
  obtain ⟨-, -, hbehind⟩ := List.pairwise_append.1 (hitems ▸ h.sorted)
  have hmem : ∀ {x}, x ∈ insertItem (mergedItem k a b) front → x = mergedItem k a b ∨ x ∈ front :=
    fun hx => List.mem_cons.1 ((insertItem_perm _ front).subset hx)
  rw [h.mergeStep_eq hk hitems]
  refine ⟨fun x hx => ?_, fun {N c} hc x hx => ?_, fun {M N c d} hMN hc hd => ?_⟩
  · rcases hmem hx with rfl | hx
    · have hadd : (mergedItem k a b).freq.toNat = a.freq.toNat + b.freq.toNat := h.toNat_add hitems hfits
      have := hr.positive a ha
      omega
    · exact hr.positive x (hfront x hx)
  · rcases h.isChild_merged hk hitems hc with ⟨-, hc⟩ | ⟨-, hc⟩ <;> rcases hmem hx with rfl | hx
    · exact before_trans hnewa (hr.items hc a ha)
    · exact hr.items hc x (hfront x hx)
    · exact hc.elim (fun e => e ▸ hnewa) fun e => e ▸ hnewb
    · exact hbehind x hx c (by simpa using hc)
  · rcases h.isChild_merged hk hitems hd with ⟨hN, hd⟩ | ⟨rfl, hdab⟩ <;>
      obtain ⟨-, hc⟩ := (h.isChild_merged hk hitems hc).resolve_right (by omega)
    · exact hr.merges hMN hc hd
    · exact hr.items hc d (hdab.elim (fun e => e ▸ ha) fun e => e ▸ hb)

theorem ranked_mergeTimes {n : Nat} (hfits : freqSum freq < 2 ^ 64) (h : t.Grown freq k) (hr : t.Ranked)
    (hn : n < t.items.length) : (mergeTimes n t).Ranked := by
  induction n generalizing k t with
  | zero => exact hr
  | succ n ih =>
    have hlen := length_mergeStep t (by omega)
    exact ih (grown_mergeStep h (by omega)) (ranked_mergeStep hfits h hr (by omega)) (by omega)

end

theorem ranked_builtTree {freq : FreqTable} (hfits : freqSum freq < 2 ^ 64) (h : leafSymbols freq ≠ []) :
    (builtTree freq).Ranked := by
  have hlen := length_leafBuild_items freq
  have hpos := List.length_pos_iff.2 h
  exact ranked_mergeTimes hfits (grown_leafBuild freq) (ranked_leafBuild freq) (by omega)

/-! ### Depths -/

/-- The node of an item stands at a depth below the node of the item `root`. -/
inductive Arena.AtDepth (node : Arena) (root : Item) : Nat → Item → Prop
  | root : AtDepth node root 0 root
  | child {d : Nat} {x c : Item} (hx : AtDepth node root d x) (hc : node.IsChild x.id.toNat c) :
      AtDepth node root (d + 1) c

section
variable {freq : FreqTable} {k : Nat} {t : Build} {y : Item}

/-- A child of a node that joins two others, and the frequency of the two together. -/
theorem Build.Grown.sibling (h : t.Grown freq k) (hfits : freqSum freq < 2 ^ 64) {N : Nat} {c : Item} {m : Node}
    (hm : t.node[N]? = some m) (hc : t.node.IsChild N c) :
    ∃ c', t.node.IsChild N c' ∧ m.freq.toNat = c.freq.toNat + c'.freq.toNat := by
  obtain ⟨m', nd, hm', hkind, hcm, hnd, hf⟩ := hc
  obtain rfl : m' = m := Option.some_inj.1 (hm'.symm.trans hm)
  obtain ⟨l, r, hj⟩ := h.joins_of_internal hm hkind
  have hsum := hj.noWrap hfits
  rcases hcm with e | e <;> rw [e] at hnd
  · obtain rfl : nd = l := Option.some_inj.1 (hnd.symm.trans hj.left)
    exact ⟨⟨m'.right, r.freq⟩, ⟨m', r, hm, hkind, .inr rfl, hj.right, rfl⟩, hf ▸ hsum⟩
  · obtain rfl : nd = r := Option.some_inj.1 (hnd.symm.trans hj.right)
    exact ⟨⟨m'.left, l.freq⟩, ⟨m', l, hm, hkind, .inl rfl, hj.left, rfl⟩, hf ▸ hsum.trans (Nat.add_comm ..)⟩

/-- The items in a tree are those of its nodes. -/
theorem Build.Grown.node_of_atDepth (h : t.Grown freq k) (hy : y ∈ t.items) {d : Nat} {x : Item}
    (hx : t.node.AtDepth y d x) : ∃ nd, t.node[x.id.toNat]? = some nd ∧ nd.valid = true ∧ nd.freq = x.freq := by
  cases hx with
  | root => exact h.itemNode y hy
  | child _ hc =>
    obtain ⟨m, nd, hm, hkind, hcm, hnd, hf⟩ := hc
    obtain ⟨l, r, hj⟩ := h.joins_of_internal hm hkind
    refine ⟨nd, hnd, ?_, hf⟩
    rcases hcm with e | e <;> rw [e] at hnd
    · exact Option.some_inj.1 (hnd.symm.trans hj.left) ▸ hj.left_valid
    · exact Option.some_inj.1 (hnd.symm.trans hj.right) ▸ hj.right_valid

theorem Build.Grown.eq_of_id_eq (h : t.Grown freq k) (hy : y ∈ t.items) {d e : Nat} {x z : Item}
    (hx : t.node.AtDepth y d x) (hz : t.node.AtDepth y e z) (hid : x.id.toNat = z.id.toNat) : x = z := by
  obtain ⟨nx, hnx, -, hfx⟩ := h.node_of_atDepth hy hx
  obtain ⟨nz, hnz, -, hfz⟩ := h.node_of_atDepth hy hz
  obtain rfl : nx = nz := Option.some_inj.1 (hnx.symm.trans (hid ▸ hnz))
  exact Item.eq_of_id_freq (BitVec.eq_of_toNat_eq hid) (hfx.symm.trans hfz)

/-- A node is used in one merge only. -/
theorem Build.Ranked.parent_unique (hr : t.Ranked) {M N : Nat} {c : Item} (hM : t.node.IsChild M c)
    (hN : t.node.IsChild N c) : M = N := by
  rcases Nat.lt_trichotomy M N with hlt | rfl | hlt
  · exact absurd (hr.merges hlt hM hN) (by simp [before_irrefl])
  · rfl
  · exact absurd (hr.merges hlt hN hM) (by simp [before_irrefl])

/-- A node has one depth. -/
theorem Build.Ranked.depth_unique (hr : t.Ranked) (h : t.Grown freq k) (hy : y ∈ t.items) {d e : Nat} {x : Item}
    (hd : t.node.AtDepth y d x) (he : t.node.AtDepth y e x) : d = e := by
  induction hd generalizing e with
  | root =>
    cases he with
    | root => rfl
    | child _ hc => exact absurd (hr.items hc y hy) (by simp [before_irrefl])
  | child hp hc ih =>
    cases he with
    | root => exact absurd (hr.items hc y hy) (by simp [before_irrefl])
    | child hq hc' =>
      rw [ih (h.eq_of_id_eq hy hp hq (hr.parent_unique hc hc') ▸ hq)]

/-- A deeper node is never more frequent (R168 f): otherwise its parent was joined after the other's, of two nodes at
least as frequent, and has, not being more frequent either, just the same two frequencies. -/
theorem Build.Ranked.freq_le_of_deeper (hr : t.Ranked) (h : t.Grown freq k) (hfits : freqSum freq < 2 ^ 64)
    (hy : y ∈ t.items) {d e : Nat} {x z : Item} (hx : t.node.AtDepth y d x) (hz : t.node.AtDepth y e z)
    (hde : e < d) : x.freq.toNat ≤ z.freq.toNat := by
  have hle {u v : Item} (huv : before u v = true) : v.freq.toNat ≤ u.freq.toNat := by
    have := (before_iff u v).1 huv
    omega
  induction hz generalizing d x with
  | root =>
    cases hx with
    | root => exact le_rfl
    | child _ hc => exact hle (hr.items hc y hy)
  | @child e q z hq hzc ih =>
    cases hx with
    | root => omega
    | @child d p _ hp hxc =>
      have hparents := ih hp (by omega)
      rcases Nat.lt_trichotomy p.id.toNat q.id.toNat with hlt | heq | hlt
      · exact hle (hr.merges hlt hxc hzc)
      · have := hr.depth_unique h hy hp (h.eq_of_id_eq hy hp hq heq ▸ hq)
        omega
      · obtain ⟨np, hnp, -, hfp⟩ := h.node_of_atDepth hy hp
        obtain ⟨nq, hnq, -, hfq⟩ := h.node_of_atDepth hy hq
        obtain ⟨x', hx', hsump⟩ := h.sibling hfits hnp hxc
        obtain ⟨z', hz', hsumq⟩ := h.sibling hfits hnq hzc
        have hzx' := hle (hr.merges hlt hz' hx')
        rw [hfp] at hsump
        rw [hfq] at hsumq
        omega

/-- A leaf has the frequency of its symbol. -/
theorem Build.Grown.freq_of_leaf (h : t.Grown freq k) {n : Nat} {nd : Node} (hn : t.node[n]? = some nd)
    (hv : nd.valid = true) (hk : nd.kind = .leaf) : nd.freq = tget freq nd.sym := by
  have hbound := (Vector.getElem?_eq_some_iff.1 hn).1
  by_cases hlt : n < 256
  · have hb : (BitVec.ofNat 8 n).toNat = n := Nat.mod_eq_of_lt hlt
    have hsym := leafArena_symbol freq (BitVec.ofNat 8 n)
    rw [hb, ← h.leaves n hlt, hn, Option.some_inj] at hsym
    split at hsym <;> subst hsym
    · cases hv
    · rfl
  · obtain ⟨j, rfl⟩ := Nat.exists_eq_add_of_le (Nat.le_of_not_lt hlt)
    by_cases hj : j < k
    · obtain ⟨m, l, r, hm, hjoins⟩ := h.joined j hj
      obtain rfl : m = nd := Option.some_inj.1 (hm.symm.trans hn)
      cases hk.symm.trans hjoins.kind
    · obtain rfl : Node.empty = nd := Option.some_inj.1 ((h.unused j (by omega) hbound).symm.trans hn)
      cases hv

/-- A leaf of the tree stands as deep as its path is long. -/
theorem Build.Grown.atDepth_of_leaf (h : t.Grown freq k) (hy : y ∈ t.items) {bound : Nat} {n : Item}
    {ls : List (List Bool × Byte)} {p : List Bool} {b : Byte} {d : Nat}
    (ht : treeLeaves t.node bound n.id = some ls) (hn : t.node.AtDepth y d n) (hp : (p, b) ∈ ls) :
    ∃ x, t.node.AtDepth y (d + p.length) x ∧ x.freq = tget freq b := by
  induction bound generalizing n ls p d with
  | zero => cases ht
  | succ bound ih =>
    obtain ⟨nd, hnd, ⟨hk, rfl⟩ | ⟨hk, l, r, hl, hr, rfl⟩⟩ := treeLeaves_cases ht
    · obtain ⟨rfl, rfl⟩ : p = [] ∧ b = nd.sym := by simpa using hp
      obtain ⟨nd', hnd', hv, hf⟩ := h.node_of_atDepth hy hn
      obtain rfl : nd' = nd := Option.some_inj.1 (hnd'.symm.trans hnd)
      exact ⟨n, hn, hf ▸ h.freq_of_leaf hnd hv hk⟩
    · obtain ⟨nl, nr, hj⟩ := h.joins_of_internal hnd hk
      have hchild {c : Item} {ls : List (List Bool × Byte)} {q : List Bool} (hc : t.node.IsChild n.id.toNat c)
          (htc : treeLeaves t.node bound c.id = some ls) (hq : (q, b) ∈ ls) :
          ∃ x, t.node.AtDepth y (d + (q.length + 1)) x ∧ x.freq = tget freq b := by
        rw [Nat.add_comm q.length, ← Nat.add_assoc]
        exact ih htc (hn.child hc) hq
      rcases List.mem_append.1 hp with hp | hp <;> obtain ⟨⟨q, b⟩, hq, he⟩ := List.mem_map.1 hp <;> cases he
      · exact hchild (c := ⟨nd.left, nl.freq⟩) ⟨nd, nl, hnd, hk, .inl rfl, hj.left, rfl⟩ hl hq
      · exact hchild (c := ⟨nd.right, nr.freq⟩) ⟨nd, nr, hnd, hk, .inr rfl, hj.right, rfl⟩ hr hq

end

/-- Settles O27: were the more frequent symbol's path the longer one, its leaf would be deeper than the other. -/
theorem moreFrequentIsNeverLonger : Obligations.MoreFrequentIsNeverLonger := by
  intro s t a b hs hfits hrun hlt hb0
  have ha : a ∈ leafSymbols s.freq := mem_leafSymbols.2 fun h0 => BitVec.not_lt_zero (h0 ▸ hlt)
  have hb : b ∈ leafSymbols s.freq := mem_leafSymbols.2 hb0
  have hab : a ≠ b := fun e => BitVec.lt_irrefl _ (e ▸ hlt)
  have h2 : 2 ≤ (leafSymbols s.freq).length := by
    simpa using (List.subperm_of_subset (l₁ := [a, b]) (by simpa using hab) (by simp [ha, hb])).length_le
  have hne := List.ne_nil_of_mem ha
  have hgrown := grown_builtTree hne
  have hranked := ranked_builtTree hfits hne
  obtain ⟨y, ls, hy, hls, hcodes⟩ := codes_are_paths hs h2 hrun
  have hmem : y ∈ (builtTree s.freq).items := hy ▸ List.mem_singleton_self y
  obtain ⟨⟨p, a⟩, hp, rfl⟩ := List.mem_map.1 (hcodes.symbols.symm.subset ha)
  obtain ⟨⟨q, b⟩, hq, rfl⟩ := List.mem_map.1 (hcodes.symbols.symm.subset hb)
  obtain ⟨x, hx, hfx⟩ := hgrown.atDepth_of_leaf hmem hls .root hp
  obtain ⟨z, hz, hfz⟩ := hgrown.atDepth_of_leaf hmem hls .root hq
  rw [BitVec.le_def, hcodes.toNat_len hp, hcodes.toNat_len hq]
  by_contra hlonger
  have hfreq := hranked.freq_le_of_deeper hgrown hfits hmem hx hz (by omega)
  rw [hfx, hfz] at hfreq
  exact absurd hfreq (Nat.not_le.2 (BitVec.lt_def.1 hlt))

end Sys2Proof.Machine

namespace Sys2Proof.Machine

/-! ## What the packer adds to the bits in PBUF (spec/43_bit_packer.md R183 to R185) -/

/-- The bits of a space inside one byte are that byte's. -/
theorem State.readByte_eq_of_streamBit {s t : State} {sp : Space} {a : Nat}
    (h : ∀ q, q / 8 = a → t.streamBit sp q = s.streamBit sp q) : t.readByte sp a = s.readByte sp a := by
  refine BitVec.eq_of_getLsbD_eq fun i hi => ?_
  have hq := h (8 * a + (7 - i)) (by omega)
  rwa [State.streamBit, State.streamBit, show (8 * a + (7 - i)) / 8 = a by omega,
    show 7 - (8 * a + (7 - i)) % 8 = i by omega] at hq

theorem State.bpByte_eq (s : State) : s.bpByte.toNat = s.packPos / 8 := bpByte_eq_of_packPos rfl

theorem State.bpBit_eq (s : State) : s.bpBit.toNat = s.packPos % 8 := bpBit_eq_of_packPos rfl

/-- Bit `q` of a stream that holds `bits` from bit `p` on and zeros elsewhere. -/
def bitFrom (p : Nat) (bits : List Bool) (q : Nat) : Bool := decide (p ≤ q) && bits[q - p]?.getD false

theorem bitFrom_outside {p q : Nat} {bits : List Bool} (h : ¬ (p ≤ q ∧ q < p + bits.length)) :
    bitFrom p bits q = false := by
  by_cases hp : p ≤ q
  · rw [bitFrom, List.getElem?_eq_none (by omega)]
    exact Bool.and_false _
  · rw [bitFrom, decide_eq_false hp, Bool.false_and]

theorem bitFrom_add (p : Nat) {bits : List Bool} {k : Nat} (h : k < bits.length) :
    bitFrom p bits (p + k) = bits[k] := by
  rw [bitFrom, decide_eq_true (Nat.le_add_right p k), Bool.true_and, Nat.add_sub_cancel_left,
    List.getElem?_eq_getElem h, Option.getD_some]

theorem bitFrom_singleton (p : Nat) (b : Bool) (q : Nat) : bitFrom p [b] q = (decide (q = p) && b) := by
  by_cases hq : q = p
  · simp [bitFrom, hq]
  · rw [bitFrom_outside (by rw [List.length_singleton]; omega), decide_eq_false hq, Bool.false_and]

theorem bitFrom_append (p : Nat) (as bs : List Bool) (q : Nat) :
    bitFrom p (as ++ bs) q = (bitFrom p as q || bitFrom (p + as.length) bs q) := by
  by_cases hq : q < p + as.length
  · rw [bitFrom_outside (bits := bs) (by omega), Bool.or_false]
    by_cases hp : p ≤ q
    · rw [bitFrom, bitFrom, List.getElem?_append_left (by omega)]
    · rw [bitFrom_outside (by omega), bitFrom_outside (by omega)]
  · rw [bitFrom_outside (bits := as) (by omega), bitFrom, bitFrom, List.getElem?_append_right (by omega),
      decide_eq_true (by omega), decide_eq_true (by omega), Nat.sub_sub, Bool.false_or]

/-- The byte of bit `q` is one the packer has come to on its way from `s` to `t`, and so has zeroed (R185). -/
abbrev State.Zeroes (s t : State) (q : Nat) : Prop :=
  s.bpByte.toNat < q / 8 ∧ q / 8 ≤ t.bpByte.toNat ∧ q / 8 < s.pkLen.toNat

/-- In `t` the packer has added `bits` at its position in `s`, whatever PBUF held there: ORed into what the byte at the
cursor and the bytes zeroed after it hold. -/
structure State.Appends (s : State) (bits : List Bool) (t : State) : Prop where
  frame : t = { s with bpByte := t.bpByte, bpBit := t.bpBit, pbuf := t.pbuf }
  pos : t.packPos = s.packPos + bits.length
  stream : ∀ q, t.streamBit .pbuf q =
    ((!decide (s.Zeroes t q) && s.streamBit .pbuf q) || bitFrom s.packPos bits q)

theorem State.Appends.refl (s : State) : s.Appends [] s where
  frame := rfl
  pos := rfl
  stream q := by
    rw [decide_eq_false (p := s.Zeroes s q) (by omega), bitFrom_outside (by rw [List.length_nil]; omega)]
    simp

section
variable {s u t : State} {as bs : List Bool}

theorem State.Appends.pkLen_eq (h : s.Appends as t) : t.pkLen = s.pkLen := by rw [h.frame]

/-- A bit on which none is added is zeroed or kept. -/
theorem State.Appends.streamBit_outside (h : s.Appends as t) {q : Nat}
    (hq : ¬ (s.packPos ≤ q ∧ q < s.packPos + as.length)) :
    t.streamBit .pbuf q = if s.Zeroes t q then false else s.streamBit .pbuf q := by
  rw [h.stream, bitFrom_outside hq, Bool.or_false]
  by_cases hz : s.Zeroes t q <;> simp [hz]

/-- A bit that is added is ORed into a bit of the cursor's byte, and stands alone in a byte after it. -/
theorem State.Appends.streamBit_inside (h : s.Appends as t) (hfits : s.packPos + as.length ≤ 8 * s.pkLen.toNat)
    {k : Nat} (hk : k < as.length) :
    t.streamBit .pbuf (s.packPos + k) =
      ((decide ((s.packPos + k) / 8 = s.bpByte.toNat) && s.streamBit .pbuf (s.packPos + k)) || as[k]) := by
  have hs := s.bpByte_eq
  have ht := bpByte_eq_of_packPos h.pos
  have hz : ¬ s.Zeroes t (s.packPos + k) ↔ (s.packPos + k) / 8 = s.bpByte.toNat := by omega
  rw [h.stream, bitFrom_add _ hk, ← decide_not, decide_eq_decide.2 hz]

/-- The bytes before the cursor's first and after its last stay. -/
theorem State.Appends.readByte_outside (h : s.Appends as t) {a : Nat} (ha : a < s.bpByte.toNat ∨ t.bpByte.toNat < a) :
    t.readByte .pbuf a = s.readByte .pbuf a := by
  have hs := s.bpByte_eq
  have ht := bpByte_eq_of_packPos h.pos
  refine State.readByte_eq_of_streamBit fun q hq => ?_
  rw [h.streamBit_outside (by omega), if_neg (by omega)]

/-- Bits added after bits: a byte that the second part zeroes holds none of the first part. -/
theorem State.Appends.trans (h : s.Appends as u) (k : u.Appends bs t) : s.Appends (as ++ bs) t := by
  have hpk : u.pkLen.toNat = s.pkLen.toNat := by rw [h.pkLen_eq]
  obtain ⟨hframe, hpos, hstream⟩ := h
  obtain ⟨kframe, kpos, kstream⟩ := k
  have hs := s.bpByte_eq
  have hu := bpByte_eq_of_packPos hpos
  have ht := bpByte_eq_of_packPos kpos
  refine ⟨by rw [kframe, hframe], by rw [kpos, hpos, List.length_append, Nat.add_assoc], fun q => ?_⟩
  rw [kstream, hstream, bitFrom_append, ← hpos, ← Bool.or_assoc]
  congr 1
  by_cases hz : u.Zeroes t q
  · rw [decide_eq_true hz, decide_eq_true (p := s.Zeroes t q) (by omega), bitFrom_outside (by omega)]
    simp
  · have hz' : decide (s.Zeroes t q) = decide (s.Zeroes u q) := decide_eq_decide.2 (by omega)
    rw [decide_eq_false hz, hz']
    simp

end

/-- The state with the bit stored at the cursor (R184). -/
def State.storeBit (s : State) (b : Bool) : State :=
  s.writeByte .pbuf s.bpByte.toNat (orBitAt (s.readByte .pbuf s.bpByte.toNat) s.bpBit b)

theorem State.streamBit_storeBit (s : State) (b : Bool) (q : Nat) :
    (s.storeBit b).streamBit .pbuf q = (s.streamBit .pbuf q || (decide (q = s.packPos) && b)) := by
  have hbyte := s.bpByte_eq
  have hbit := s.bpBit_eq
  rw [State.storeBit, streamBit_eq_bitAt, streamBit_eq_bitAt]
  by_cases hq : q / 8 = s.bpByte.toNat
  · have hq8 : BitVec.ofNat 3 (q % 8) = s.bpBit ↔ q = s.packPos := by
      rw [BitVec.toNat_eq, BitVec.toNat_ofNat]
      omega
    rw [hq, State.readByte_writeByte_same, bitAt_orBitAt, decide_eq_decide.2 hq8]
  · rw [State.readByte_writeByte_other _ _ _ hq, decide_eq_false (by rintro rfl; omega), Bool.false_and, Bool.or_false]

theorem toNat_bpByte_succ {s : State} (h : s.bpByte < s.pkLen) : (s.bpByte + 1).toNat = s.bpByte.toNat + 1 := by
  have hlt := BitVec.lt_def.1 h
  have hpk := s.pkLen.isLt
  have h1 : (1 : Reg64).toNat = 1 := rfl
  rw [BitVec.toNat_add, h1]
  omega

theorem packPos_advancePacker {s : State} (h : s.bpByte < s.pkLen) : s.advancePacker.packPos = s.packPos + 1 := by
  have hnext := toNat_bpByte_succ h
  have h0 : (0 : BitVec 3).toNat = 0 := rfl
  rcases advancePacker_cases s with ⟨h7, h'⟩ | ⟨h7, -, h'⟩ | ⟨h7, -, h'⟩ <;> rw [h']
  · have h1 : (1 : BitVec 3).toNat = 1 := rfl
    simp only [State.packPos, BitVec.toNat_add, h1]
    omega
  · simp only [State.packPos, State.writeByte_bpByte, State.writeByte_bpBit, hnext, h0]
    omega
  · simp only [State.packPos, hnext, h0]
    omega

/-- The advance zeroes the byte it comes to inside the declared capacity (R185). -/
theorem streamBit_advancePacker {s : State} (h : s.bpByte < s.pkLen) (q : Nat) :
    s.advancePacker.streamBit .pbuf q = (!decide (s.Zeroes s.advancePacker q) && s.streamBit .pbuf q) := by
  have hnext := toNat_bpByte_succ h
  rcases advancePacker_cases s with ⟨h7, h'⟩ | ⟨h7, hlt, h'⟩ | ⟨h7, hge, h'⟩ <;> rw [h']
  · rw [decide_eq_false (by simp only [State.Zeroes]; omega)]
    rfl
  · rw [BitVec.lt_def, hnext] at hlt
    simp only [State.Zeroes, State.writeByte_bpByte, hnext]
    by_cases hq : q / 8 = s.bpByte.toNat + 1
    · rw [decide_eq_true (by omega), streamBit_eq_false_of_readByte (by rw [hq, State.readByte_writeByte_same])]
      rfl
    · rw [decide_eq_false (by omega), State.streamBit, State.readByte_writeByte_other _ _ _ hq]
      rfl
  · rw [BitVec.lt_def, hnext] at hge
    rw [decide_eq_false (by simp only [State.Zeroes, hnext]; omega)]
    rfl

/-- A bit that has a byte inside the declared capacity is added (R184). -/
theorem writeBit_appends {s : State} (b : Bool) (h : s.bpByte < s.pkLen) :
    ∃ t, writeBit b s = .ok t ∧ s.Appends [b] t := by
  rcases writeBit_cases b s with ⟨hge, -⟩ | ⟨-, h'⟩
  · exact absurd h (BitVec.not_lt.2 hge)
  · have hpos : (s.storeBit b).advancePacker.packPos = s.packPos + 1 := 
      packPos_advancePacker (s := s.storeBit b) h
    have hbyte := s.bpByte_eq
    have hbyte' := bpByte_eq_of_packPos hpos
    refine ⟨(s.storeBit b).advancePacker, h', writeBit_frame h', hpos, fun q => ?_⟩
    rw [streamBit_advancePacker (s := s.storeBit b) h, State.streamBit_storeBit, bitFrom_singleton,
      Bool.and_or_distrib_left]
    change ((!decide (s.Zeroes _ q) && _) || (!decide (s.Zeroes _ q) && _)) = _
    congr 1
    by_cases hq : q = s.packPos
    · rw [decide_eq_false (p := s.Zeroes _ q) (by omega)]
      simp
    · simp [hq]

theorem writeBits_appends {s : State} (bits : List Bool)
    (h : bits = [] ∨ s.packPos + bits.length ≤ 8 * s.pkLen.toNat) :
    ∃ t, writeBits bits s = .ok t ∧ s.Appends bits t := by
  induction bits generalizing s with
  | nil => exact ⟨s, rfl, .refl s⟩
  | cons b bs ih =>
    have hle : s.packPos + (bs.length + 1) ≤ 8 * s.pkLen.toNat := h.resolve_left (List.cons_ne_nil b bs)
    have hbyte := s.bpByte_eq
    obtain ⟨u, hu, hb⟩ := writeBit_appends b (BitVec.lt_def.2 (by omega) : s.bpByte < s.pkLen)
    obtain ⟨t, ht, hbs⟩ := ih (s := u) (.inr (by rw [hb.pos, hb.pkLen_eq, List.length_singleton]; omega))
    exact ⟨t, Result.andThen_ok.2 ⟨u, hu, ht⟩, hb.trans hbs⟩

/-- WBITS of a legal length is the writing of the pattern's bits (R183). -/
theorem wbitsBody_legal {s : State} {pattern : BitVec 16} {length : Nat} (hl : length ≤ 16)
    (hcap : s.pkLen ≤ s.caps.pbuf) : wbitsBody pattern length s = writeBits (patternBits pattern length) s := by
  rcases wbitsBody_cases pattern length s with ⟨h16, -⟩ | ⟨-, hlt, -⟩ | ⟨-, -, h⟩
  · omega
  · exact absurd hcap (BitVec.not_le.2 hlt)
  · exact h

/-- Settles O31: each bit is ORed in where the ones before it end. -/
theorem wbitsAppendsBits : Obligations.WbitsAppendsBits := by
  intro s pattern length hs hl hcap hfits
  have hlen := length_patternBits pattern length
  obtain ⟨u, hu, h⟩ := writeBits_appends (s := s.accept) (patternBits pattern length)
    (hfits.imp (fun h0 => List.eq_nil_of_length_eq_zero (hlen.trans h0)) (by rw [hlen]; exact id))
  refine ⟨u.finish, command_ok hs ((wbitsBody_legal (s := s.accept) hl hcap).trans hu),
    (congrArg State.finish h.frame :), hlen ▸ h.pos, fun q => ?_, fun a => h.readByte_outside⟩
  by_cases hq : s.packPos ≤ q ∧ q < s.packPos + length
  · obtain ⟨k, rfl⟩ := Nat.exists_eq_add_of_le hq.1
    rw [if_pos hq, Nat.add_sub_cancel_left, ← getElem_patternBits pattern length k (by omega)]
    exact h.streamBit_inside (by rw [hlen]; exact hfits.resolve_left (by omega)) (by omega)
  · rw [if_neg hq]
    exact h.streamBit_outside (by rwa [hlen])

/-! ## Bits that do not fit (spec/43_bit_packer.md R184, spec/60_exceptions.md R294) -/

theorem writeBits_overrun {s : State} {bits : List Bool} (hne : bits ≠ [])
    (h : 8 * s.pkLen.toNat < s.packPos + bits.length) :
    writeBits bits s = .raised .packOverrun (max s.bpByte.toNat s.pkLen.toNat) := by
  induction bits generalizing s with
  | nil => exact absurd rfl hne
  | cons b bs ih =>
    rcases writeBit_cases b s with ⟨hge, h'⟩ | ⟨hlt, -⟩
    · rw [writeBits, h', Result.raised_andThen, Nat.max_eq_left (BitVec.le_def.1 hge)]
    · obtain ⟨u, hu, hb⟩ := writeBit_appends b hlt
      have hpos : u.packPos = s.packPos + 1 := hb.pos
      have hbyte := s.bpByte_eq
      have hbyte' := bpByte_eq_of_packPos hpos
      rw [BitVec.lt_def] at hlt
      rw [List.length_cons] at h
      have hbs : bs ≠ [] := List.ne_nil_of_length_pos (by omega)
      rw [writeBits, hu, Result.ok_andThen, ih hbs (by rw [hpos, hb.pkLen_eq]; omega), hb.pkLen_eq,
        Nat.max_eq_right (by omega), Nat.max_eq_right (by omega)]

theorem wbitsBody_overrun {s : State} {pattern : BitVec 16} {length : Nat} (hl : length ≤ 16)
    (hcap : s.pkLen ≤ s.caps.pbuf) (hpos : 0 < length) (h : 8 * s.pkLen.toNat < s.packPos + length) :
    wbitsBody pattern length s = .raised .packOverrun (max s.bpByte.toNat s.pkLen.toNat) := by
  rw [wbitsBody_legal hl hcap]
  exact writeBits_overrun (List.ne_nil_of_length_pos (by rwa [length_patternBits])) (by rwa [length_patternBits])

/-- Settles O33: the bits that fit bring the cursor to the end of the declared capacity, unless it is behind it. -/
theorem wbitsOverrun : Obligations.WbitsOverrun := by
  intro s pattern length hs hl
  refine ⟨fun hcap => ?_, fun hcap hpos h => ?_⟩
  · rcases wbitsBody_cases pattern length s.accept with ⟨h16, -⟩ | ⟨-, -, hb⟩ | ⟨-, hle, -⟩
    · omega
    · exact ⟨_, command_raised hs hb, faultEntry_faultedFrom ..⟩
    · exact absurd hcap hle
  · exact ⟨_, command_raised hs (wbitsBody_overrun (s := s.accept) hl hcap hpos h), faultEntry_faultedFrom ..⟩

/-- Of PBUF, BPINIT writes the first byte only, and only inside the declared capacity (R181). -/
theorem bpinitBody_readByte {s t : State} (h : bpinitBody s = .ok t) (a : Nat) :
    t.readByte .pbuf a = if a = 0 ∧ s.pkLen ≠ 0 then 0 else s.readByte .pbuf a := by
  rcases bpinitBody_cases s with ⟨-, h'⟩ | ⟨-, hpos, h'⟩ | ⟨-, hzero, h'⟩ <;> rw [h'] at h <;> cases h
  · have hne : s.pkLen ≠ 0 := by
      rintro h0
      rw [h0] at hpos
      exact absurd hpos (by decide)
    by_cases ha : a = 0
    · rw [if_pos ⟨ha, hne⟩, ha, State.readByte_writeByte_same]
    · rw [if_neg fun h => ha h.1, State.readByte_writeByte_other _ _ _ ha]
      rfl
  · rw [if_neg fun h => h.2 (BitVec.eq_of_toNat_eq hzero)]
    rfl

/-- Settles O30: the cursor is at bit 0, where without a byte inside the declared capacity every WBITS overruns. -/
theorem bpinitStartsPacking : Obligations.BpinitStartsPacking := by
  refine ⟨by decide, fun s hs => ⟨fun hcap => ?_, fun hcap => ?_⟩⟩
  · rcases bpinitBody_cases s.accept with ⟨-, hb⟩ | ⟨hle, -⟩ | ⟨hle, -⟩
    · exact ⟨_, command_raised hs hb, faultEntry_faultedFrom ..⟩
    · exact absurd hcap hle
    · exact absurd hcap hle
  · obtain ⟨u, hu, hpacks⟩ := bpinitBody_packs (s := s.accept) hcap
    refine ⟨u.finish, command_ok hs hu, (congrArg State.finish (bpinitBody_frame hu) :), (bpinitBody_readByte hu :),
      fun h0 pattern length hpos hl => ?_⟩
    have hpk : u.finish.pkLen = 0 := hpacks.pkLen_eq.trans h0
    have hbyte : u.finish.bpByte.toNat = 0 := bpByte_eq_of_packPos hpacks.pos
    have hfaults := (wbitsOverrun u.finish pattern length rfl hl).2
    rw [hpk, hbyte] at hfaults
    exact hfaults (BitVec.le_def.2 (Nat.zero_le _)) hpos (by simp; omega)

/-! ## Packing after BPINIT (spec/43_bit_packer.md R186, R187) -/

/-- A command whose body succeeds hands its state on to the commands after it. -/
theorem runAll_of_ok {i : Instr} {is : List Instr} {s t : State} (hi : i ≠ .clr) (hs : s.phase = .idle)
    (h : bodyOf i s.accept = .ok t) : runAll (i :: is) s = runAll is t.finish := by
  rw [runAll, exec_eq_bodyOf hi, command_ok hs h]
  rfl

/-- A command whose body raises a fault ends the run. -/
theorem runAll_of_raised {i : Instr} {is : List Instr} {s : State} {f : CmdFault} {info : Nat} (hi : i ≠ .clr)
    (hs : s.phase = .idle) (h : bodyOf i s.accept = .raised f info) : runAll (i :: is) s = none := by
  rw [runAll, exec_eq_bodyOf hi, command_raised hs h]
  rfl

section
variable {s0 s : State} {bits : List Bool} {n : Nat}

/-- Between two commands PHASE, BUSY and DONE are those of a successful end, and the next command starts as the last
body left off (spec/47_system.md R271). -/
theorem State.Packs.accept_finish (h : s0.accept.Packs bits n s) : s.finish.accept = s := by
  rw [h.frame]
  rfl

/-- What WBITS does to a packer that holds `bits`. -/
theorem State.Packs.wbits_cases (h : s0.Packs bits bits.length s) (hcap : s0.pkLen ≤ s0.caps.pbuf)
    (hbits : bits.length ≤ 8 * s0.pkLen.toNat) (pattern : BitVec 16) (length : Nat) :
    (length ≤ 16 ∧ bits.length + length ≤ 8 * s0.pkLen.toNat ∧ ∃ t, wbitsBody pattern length s = .ok t ∧
      s0.Packs (bits ++ patternBits pattern length) (bits ++ patternBits pattern length).length t) ∨
    (¬ (length ≤ 16 ∧ bits.length + length ≤ 8 * s0.pkLen.toNat) ∧
      ∃ f info, wbitsBody pattern length s = .raised f info) := by
  by_cases hl : length ≤ 16
  · by_cases hle : bits.length + length ≤ 8 * s0.pkLen.toNat
    · exact .inl ⟨hl, hle, h.wbits hl hcap hle⟩
    · exact .inr ⟨fun hfits => hle hfits.2, _, _, wbitsBody_overrun hl (by rwa [h.pkLen_eq, h.caps_eq]) (by omega)
        (by rw [h.pos, h.pkLen_eq]; omega)⟩
  · rcases wbitsBody_cases pattern length s with ⟨-, hb⟩ | ⟨hle, -⟩ | ⟨hle, -⟩
    · exact .inr ⟨fun hfits => hl hfits.1, _, _, hb⟩
    · exact absurd hle hl
    · exact absurd hle hl

theorem operandBits_cons (w : BitVec 16 × Nat) (ws : List (BitVec 16 × Nat)) :
    operandBits (w :: ws) = patternBits w.1 w.2 ++ operandBits ws :=
  List.flatMap_cons

/-- A sequence of WBITS packs all its bits, or does not come to its end. -/
theorem runAll_packAll_cases {ws : List (BitVec 16 × Nat)} (hs : s.phase = .idle)
    (h : s0.accept.Packs bits bits.length s.accept) (hcap : s0.pkLen ≤ s0.caps.pbuf)
    (hbits : bits.length ≤ 8 * s0.pkLen.toNat) :
    ((∀ w ∈ ws, w.2 ≤ 16) ∧ bits.length + (operandBits ws).length ≤ 8 * s0.pkLen.toNat ∧
      ∃ t, runAll (packAll ws) s = some t ∧
        s0.accept.Packs (bits ++ operandBits ws) (bits ++ operandBits ws).length t.accept) ∨
    (¬ ((∀ w ∈ ws, w.2 ≤ 16) ∧ bits.length + (operandBits ws).length ≤ 8 * s0.pkLen.toNat) ∧
      runAll (packAll ws) s = none) := by
  induction ws generalizing bits s with
  | nil => exact .inl ⟨by simp, hbits, s, rfl, by simpa [operandBits] using h⟩
  | cons w ws ih =>
    rw [operandBits_cons, ← List.append_assoc, List.forall_mem_cons, List.length_append, length_patternBits, packAll,
      List.map_cons, ← packAll]
    rcases h.wbits_cases hcap hbits w.1 w.2 with ⟨hl, hle, u, hu, hpacks⟩ | ⟨hnot, f, info, hf⟩
    · have hlen : (bits ++ patternBits w.1 w.2).length = bits.length + w.2 := by simp
      rw [runAll_of_ok (i := .wbits w.1 w.2) (by simp) hs hu]
      rcases ih (s := u.finish) rfl (hpacks.accept_finish.symm ▸ hpacks) (hlen.trans_le hle) with
        ⟨hls, hles, ht⟩ | ⟨hnot, hnone⟩
      · exact .inl ⟨⟨hl, hls⟩, by omega, ht⟩
      · exact .inr ⟨fun hfits => hnot ⟨hfits.1.2, by omega⟩, hnone⟩
    · exact .inr ⟨fun hfits => hnot ⟨hfits.1.1, show _ ≤ 8 * s0.pkLen.toNat by omega⟩,
        runAll_of_raised (i := .wbits w.1 w.2) (by simp) hs hf⟩

end

/-- Settles O34: as long as the bits fit the packer holds them, and the first that does not fit ends the run. -/
theorem packingFitsExactly : Obligations.PackingFitsExactly := by
  intro s ws hs hcap
  obtain ⟨u, hu, hpacks⟩ := bpinitBody_packs (s := s.accept) hcap
  rw [runAll_of_ok (i := .bpinit) (by simp) hs hu]
  rcases runAll_packAll_cases (ws := ws) (s := u.finish) rfl (hpacks.accept_finish.symm ▸ hpacks) hcap (Nat.zero_le _)
    with ⟨hl, hle, t, ht, h⟩ | ⟨hnot, hnone⟩
  · rw [List.nil_append] at h
    rw [List.length_nil, Nat.zero_add] at hle
    refine ⟨iff_of_true ⟨t, ht⟩ ⟨hl, hle⟩, fun t' ht' => ?_⟩
    cases ht.symm.trans ht'
    refine ⟨h.pos, touched_of_packPos (s := t.accept) h.pos, fun k hk => ?_⟩
    have hbit := h.stream k (by omega) (by change _ < s.pkLen.toNat; omega)
    rwa [List.getElem?_eq_getElem hk] at hbit
  · rw [List.length_nil, Nat.zero_add] at hnot
    rw [hnone]
    exact ⟨iff_of_false (by simp) hnot, by simp⟩

end Sys2Proof.Machine

namespace Sys2Proof.Machine

/-! ## The unpacker (spec/44_bit_unpacker.md R196, R199) -/

/-- The unpacker's cursor is the byte of its position and the offset in it (spec/20_memory.md R65). -/
theorem cursor_eq_of_readPos {s : State} {n : Nat} (h : s.readPos = n) :
    s.buByte = BitVec.ofNat 64 (n / 8) ∧ s.buBit = BitVec.ofNat 3 (n % 8) := by
  have hbit := s.buBit.isLt
  rw [State.readPos] at h
  constructor
  · rw [show n / 8 = s.buByte.toNat by omega, BitVec.ofNat_toNat, BitVec.setWidth_eq]
  · rw [show n % 8 = s.buBit.toNat by omega, BitVec.ofNat_toNat, BitVec.setWidth_eq]

/-- The bit at the unpacker's cursor. -/
theorem bitAt_cursor (s : State) : bitAt (s.readByte .pbuf s.buByte.toNat) s.buBit = s.streamBit .pbuf s.readPos := by
  have hbit := s.buBit.isLt
  have hpos : s.readPos = 8 * s.buByte.toNat + s.buBit.toNat := rfl
  rw [streamBit_eq_bitAt, ← (cursor_eq_of_readPos rfl).2, show s.readPos / 8 = s.buByte.toNat by omega]

theorem buByte_lt_pkLen_iff {s : State} : s.buByte < s.pkLen ↔ s.readPos < 8 * s.pkLen.toNat := by
  have hbit := s.buBit.isLt
  rw [BitVec.lt_def, State.readPos]
  omega

/-- A bit as RDATA holds it. -/
theorem zeroExtend_ofBool (b : Bool) : (BitVec.ofBool b).zeroExtend 8 = if b then (1 : Byte) else 0 := by
  cases b <;> rfl

/-- The state in which RBIT has just read bit `n` of PBUF (R199). -/
def State.readTo (s : State) (n : Nat) : State := { s with
  rdata := if s.streamBit .pbuf n then 1 else 0
  eod := false
  buByte := BitVec.ofNat 64 ((n + 1) / 8)
  buBit := BitVec.ofNat 3 ((n + 1) % 8) }

theorem readPos_readTo {s : State} {n : Nat} (h : n < 8 * s.pkLen.toNat) : (s.readTo n).readPos = n + 1 := by
  have hpk := s.pkLen.isLt
  simp only [State.readPos, State.readTo, BitVec.toNat_ofNat]
  omega

/-- The unpacker's advance as a change of its position (R199). -/
theorem advanceUnpacker_eq {s : State} (h : s.buByte.toNat + 1 < 2 ^ 64) :
    s.advanceUnpacker = { s with
      buByte := BitVec.ofNat 64 ((s.readPos + 1) / 8), buBit := BitVec.ofNat 3 ((s.readPos + 1) % 8) } := by
  obtain ⟨hbyte, hbit⟩ := cursor_eq_of_readPos (readPos_advanceUnpacker s h)
  rw [advanceUnpacker_frame, hbyte, hbit]

/-- RBIT inside the declared capacity reads the bit at the cursor. -/
theorem rbitBody_inside {s : State} (hcap : s.pkLen ≤ s.caps.pbuf) (h : s.buByte < s.pkLen) :
    rbitBody s = .ok (s.readTo s.readPos) := by
  have hpk := s.pkLen.isLt
  rcases rbitBody_cases s with ⟨hlt, -⟩ | ⟨-, hge, -⟩ | ⟨-, -, hb⟩
  · exact absurd hcap (BitVec.not_le.2 hlt)
  · exact absurd hge (BitVec.not_le.2 h)
  · rw [BitVec.lt_def] at h
    have hfits : s.buByte.toNat + 1 < 2 ^ 64 := by omega
    rw [hb, bitAt_cursor, zeroExtend_ofBool]
    exact congrArg Result.ok (advanceUnpacker_eq hfits)

theorem rbitBody_atEnd {s : State} (hcap : s.pkLen ≤ s.caps.pbuf) (h : s.pkLen ≤ s.buByte) :
    rbitBody s = .ok { s with eod := true, rdata := 0 } := by
  rcases rbitBody_cases s with ⟨hlt, -⟩ | ⟨-, -, hb⟩ | ⟨-, hlt, -⟩
  · exact absurd hcap (BitVec.not_le.2 hlt)
  · exact hb
  · exact absurd h (BitVec.not_le.2 hlt)

theorem exec_rbit_inside {s : State} (hs : s.phase = .idle) (hcap : s.pkLen ≤ s.caps.pbuf)
    (h : s.readPos < 8 * s.pkLen.toNat) : exec .rbit s = .next (s.readTo s.readPos).completed :=
  (command_ok hs (rbitBody_inside (s := s.accept) hcap (buByte_lt_pkLen_iff.2 h)) :)

theorem exec_rbit_atEnd {s : State} (hs : s.phase = .idle) (hcap : s.pkLen ≤ s.caps.pbuf) (h : s.pkLen ≤ s.buByte) :
    exec .rbit s = .next { s with eod := true, rdata := 0 }.completed :=
  (command_ok hs (rbitBody_atEnd (s := s.accept) hcap h) :)

/-- Settles O36: the three cases of RBIT's body. -/
theorem rbitReadsTheNextBit : Obligations.RbitReadsTheNextBit := by
  refine fun s hs => ⟨fun hlt => ?_, exec_rbit_atEnd hs,
    fun hcap hlt => exec_rbit_inside hs hcap (buByte_lt_pkLen_iff.1 hlt)⟩
  rcases rbitBody_cases s.accept with ⟨-, hb⟩ | ⟨hle, -⟩ | ⟨hle, -⟩
  · exact ⟨_, command_raised hs hb, faultEntry_faultedFrom ..⟩
  · exact absurd hlt hle
  · exact absurd hlt hle

theorem exec_buinit {s : State} (hs : s.phase = .idle) (hcap : s.pkLen ≤ s.caps.pbuf) :
    exec .buinit s = .next s.startUnpacker.completed := by
  rcases buinitBody_cases s.accept with ⟨hlt, -⟩ | ⟨-, hb⟩
  · exact absurd hcap (BitVec.not_le.2 hlt)
  · exact (command_ok hs hb :)

/-- Settles O35: without a declared byte the cursor BUINIT sets is at the end of the data, which RBIT reports. -/
theorem buinitStartsUnpacking : Obligations.BuinitStartsUnpacking := by
  refine ⟨by decide, fun s hs => ⟨fun hlt => ?_, fun hcap => ⟨exec_buinit hs hcap, fun h0 => ?_⟩⟩⟩
  · rcases buinitBody_cases s.accept with ⟨-, hb⟩ | ⟨hle, -⟩
    · exact ⟨_, command_raised hs hb, faultEntry_faultedFrom ..⟩
    · exact absurd hlt hle
  · have hend : s.pkLen ≤ 0 := BitVec.le_def.2 (Nat.le_of_eq (congrArg BitVec.toNat h0))
    exact (exec_rbit_atEnd (s := s.startUnpacker.completed) rfl hcap hend :)

/-! ## Reading back what was packed (spec/44_bit_unpacker.md R200) -/

/-- RBIT after RBIT reads bit after bit, up to the end of the declared capacity. -/
theorem runAll_rbits {s : State} (hs : s.phase = .idle) (hcap : s.pkLen ≤ s.caps.pbuf) {k : Nat}
    (hk : s.readPos + k < 8 * s.pkLen.toNat) :
    runAll (List.replicate (k + 1) .rbit) s = some (s.readTo (s.readPos + k)).completed := by
  induction k generalizing s with
  | zero => exact runAll_cons.2 ⟨_, exec_rbit_inside hs hcap hk, rfl, rfl⟩
  | succ k ih =>
    have hlt : s.readPos < 8 * s.pkLen.toNat := by omega
    have hpos : (s.readTo s.readPos).completed.readPos = s.readPos + 1 := readPos_readTo hlt
    have hk' : (s.readTo s.readPos).completed.readPos + k < 8 * s.pkLen.toNat := by omega
    have hrest := ih (s := (s.readTo s.readPos).completed) rfl hcap hk'
    rw [hpos, Nat.add_assoc, Nat.add_comm 1 k] at hrest
    exact runAll_cons.2 ⟨_, exec_rbit_inside hs hcap hlt, rfl, hrest⟩

/-- BUINIT and `k + 1` RBIT read bit `k` of PBUF. -/
theorem runAll_buinit_rbits {s : State} (hs : s.phase = .idle) (hcap : s.pkLen ≤ s.caps.pbuf) {k : Nat}
    (hk : k < 8 * s.pkLen.toNat) :
    runAll (.buinit :: List.replicate (k + 1) .rbit) s = some (s.readTo k).completed := by
  have hpos : s.startUnpacker.completed.readPos = 0 := rfl
  have hread := runAll_rbits (s := s.startUnpacker.completed) rfl hcap (k := k) (by rwa [hpos, Nat.zero_add])
  rw [hpos, Nat.zero_add] at hread
  exact runAll_cons.2 ⟨_, exec_buinit hs hcap, rfl, hread⟩

/-- A sequence without CLR that comes to its end leaves the block in IDLE (spec/47_system.md R271). -/
theorem runAll_idle {is : List Instr} {s t : State} (hclr : .clr ∉ is) (hs : s.phase = .idle)
    (h : runAll is s = some t) : t.phase = .idle := by
  induction is generalizing s with
  | nil => cases h; exact hs
  | cons i is ih =>
    rw [List.mem_cons, not_or] at hclr
    obtain ⟨u, hu, hdone, h⟩ := runAll_cons.1 h
    obtain ⟨v, -, rfl⟩ := exec_done (Ne.symm hclr.1) hs hu hdone
    exact ih hclr.2 rfl h

theorem clr_notMem_packAll (ws : List (BitVec 16 × Nat)) : .clr ∉ packAll ws := by
  simp [packAll]

/-- After BPINIT a sequence of WBITS that comes to its end has packed its bits, and they fit (R186, R187). -/
theorem packs_of_runAll {s t : State} {ws : List (BitVec 16 × Nat)} (hs : s.phase = .idle)
    (hcap : s.pkLen ≤ s.caps.pbuf) (h : runAll (.bpinit :: packAll ws) s = some t) :
    (operandBits ws).length ≤ 8 * s.pkLen.toNat ∧
      s.accept.Packs (operandBits ws) (operandBits ws).length t.accept := by
  obtain ⟨u, hu, hpacks⟩ := bpinitBody_packs (s := s.accept) hcap
  rw [runAll_of_ok (i := .bpinit) (by simp) hs hu] at h
  rcases runAll_packAll_cases (ws := ws) (s := u.finish) rfl (hpacks.accept_finish.symm ▸ hpacks) hcap (Nat.zero_le _)
    with ⟨-, hle, t', ht', hpacked⟩ | ⟨-, hnone⟩
  · cases h.symm.trans ht'
    exact ⟨by simpa using hle, hpacked⟩
  · rw [hnone] at h
    cases h

/-- Settles O37: the unpacker's k-th bit is the packer's, and the last touched byte ends in zeros. -/
theorem unpackerReturnsThePackedBits : Obligations.UnpackerReturnsThePackedBits := by
  intro s t ws hs hcap h k hk
  have hidle := runAll_idle (by simp [clr_notMem_packAll]) hs h
  obtain ⟨hle, hpacks⟩ := packs_of_runAll hs hcap h
  have hpk : t.pkLen = s.pkLen := hpacks.pkLen_eq
  have hcaps : t.caps = s.caps := hpacks.caps_eq
  have hkt : k < 8 * t.pkLen.toNat := by rw [hpk]; omega
  have hbit : t.streamBit .pbuf k = (operandBits ws)[k]?.getD false :=
    hpacks.stream k (by omega) (by change k / 8 < s.pkLen.toNat; omega)
  exact ⟨(t.readTo k).completed, runAll_buinit_rbits hidle (by rwa [hpk, hcaps]) hkt, rfl,
    by rw [← hbit]; rfl, readPos_readTo hkt, rfl, rfl, rfl⟩

end Sys2Proof.Machine

namespace Sys2Proof.Machine

/-! ## TDESER (spec/45_huffman_decoder.md R210 to R213) -/

/-- An entry as TDESER stores it is the entry the archive holds (R104, R210). -/
theorem storeEntry_eq (s : State) (i : Nat) :
    s.storeEntry i = { s with code := tset s.code (s.readByte .abuf (18 + 4 * i)) (s.entryCode i) } := by
  have hpat : BitVec.ofNat 16 (s.memRead .abuf (18 + 4 * i + 1) 2) =
      s.readByte .abuf (18 + 4 * i + 2) ++ s.readByte .abuf (18 + 4 * i + 1) := by
    apply BitVec.eq_of_toNat_eq
    have hhigh := (s.readByte .abuf (18 + 4 * i + 2)).isLt
    have hlow := (s.readByte .abuf (18 + 4 * i + 1)).isLt
    simp only [BitVec.toNat_ofNat, toNat_append_byte, State.memRead, State.readBytes, List.range, List.range.loop,
      List.map_cons, List.map_nil, leNat, Nat.add_zero, Nat.add_assoc, Nat.reduceAdd]
    omega
  rw [State.entryCode, ← hpat]
  rfl

/-- The first `n` entries of the archive stored one after the other (R213). -/
def State.storeEntries (s : State) (n : Nat) : State := (List.range n).foldl State.storeEntry s

theorem code_storeEntries_succ (s : State) (n : Nat) :
    (s.storeEntries (n + 1)).code =
      tset (s.storeEntries n).code (s.readByte .abuf (18 + 4 * n)) (s.entryCode n) := by
  have hframe : s.storeEntries n = { s with code := (s.storeEntries n).code } := foldl_storeEntry_frame _ s
  rw [State.storeEntries, List.range_succ, List.foldl_append, List.foldl_cons, List.foldl_nil]
  change ((s.storeEntries n).storeEntry n).code = _
  rw [storeEntry_eq, hframe]
  rfl

/-- A slot that no entry names keeps what it held. -/
theorem tget_storeEntries_unnamed {s : State} {n : Nat} {b : Byte}
    (h : ∀ i, i < n → s.readByte .abuf (18 + 4 * i) ≠ b) : tget (s.storeEntries n).code b = tget s.code b := by
  induction n with
  | zero => rfl
  | succ n ih =>
    rw [code_storeEntries_succ, tget_tset_other _ _ (h n n.lt_succ_self).symm]
    exact ih fun i hi => h i (hi.trans n.lt_succ_self)

/-- The last entry that names a slot is what the slot holds. -/
theorem tget_storeEntries_last {s : State} {n i : Nat} (hi : i < n)
    (h : ∀ j, i < j → j < n → s.readByte .abuf (18 + 4 * j) ≠ s.readByte .abuf (18 + 4 * i)) :
    tget (s.storeEntries n).code (s.readByte .abuf (18 + 4 * i)) = s.entryCode i := by
  induction n with
  | zero => cases hi
  | succ n ih =>
    rw [code_storeEntries_succ]
    rcases Nat.lt_succ_iff_lt_or_eq.1 hi with hlt | rfl
    · rw [tget_tset_other _ _ (h n hlt n.lt_succ_self).symm]
      exact ih hlt fun j hj hjn => h j hj (hjn.trans n.lt_succ_self)
    · exact tget_tset_same ..

/-- TDESER before its first entry (R212). -/
def State.startEntries (s : State) (count : Nat) : State :=
  { s.clearCodes.clearCandidate with entryCnt := BitVec.ofNat 16 count }

/-- TDESER of a content offset that meets R211. -/
theorem exec_tdeser_fits {s : State} {count : Nat} (hs : s.phase = .idle) (hcap : s.arLen ≤ s.caps.abuf)
    (hcount : count ≤ 256) (hoff : s.contentOff.toNat = 18 + 4 * count)
    (hlen : s.contentOff.toNat ≤ s.arLen.toNat) :
    exec .tdeser s = .next { s with
      code := ((s.accept.startEntries count).storeEntries count).code, entryCnt := BitVec.ofNat 16 count, cand := 0,
      clen := 0, matched := false }.completed := by
  have hsome := (entryCount_eq_some _ _ _).2 ⟨hoff, hcount, hlen⟩
  rcases tdeserBody_cases s.accept with ⟨hlt, -⟩ | ⟨-, hnone, -⟩ | ⟨n, -, hn, hb⟩
  · exact absurd hcap (BitVec.not_le.2 hlt)
  · cases hsome.symm.trans hnone
  · cases hsome.symm.trans hn
    rw [foldl_storeEntry_frame] at hb
    exact (command_ok hs hb :)

/-- Settles O38: TDESER starts from an empty table, and of each slot the last entry that names it stays. -/
theorem tdeserStoresTheEntries : Obligations.TdeserStoresTheEntries := fun s count hs hcap hcount hoff hlen =>
  ⟨_, exec_tdeser_fits hs hcap hcount hoff hlen,
    fun _ hi hlast => tget_storeEntries_last (s := s.accept.startEntries count) hi hlast,
    fun b hb => (tget_storeEntries_unnamed (s := s.accept.startEntries count) hb).trans (tget_replicate _ b)⟩

/-- Settles O39: the three cases of TDESER's body, and when a content offset gives an entry count. -/
theorem tdeserChecks : Obligations.TdeserChecks := by
  refine fun s hs => ⟨fun hlt => ?_, fun hcap hbad => ?_, fun hcap count hcount hoff hlen => ?_⟩
  · rcases tdeserBody_cases s.accept with ⟨-, hb⟩ | ⟨hle, -⟩ | ⟨-, hle, -⟩
    · exact ⟨_, command_raised hs hb, faultEntry_faultedFrom ..⟩
    · exact absurd hlt hle
    · exact absurd hlt hle
  · have hnone := (entryCount_eq_none _ _).2 hbad
    rcases tdeserBody_cases s.accept with ⟨hlt, -⟩ | ⟨-, -, hb⟩ | ⟨count, -, hsome, -⟩
    · exact absurd hcap (BitVec.not_le.2 hlt)
    · exact ⟨_, command_raised hs hb, faultEntry_faultedFrom ..⟩
    · cases hnone.symm.trans hsome
  · exact ⟨_, exec_tdeser_fits hs hcap hcount hoff hlen, rfl, Nat.mod_eq_of_lt (by omega)⟩

end Sys2Proof.Machine

namespace Sys2Proof.Machine

/-! ## SLOOKUP (spec/45_huffman_decoder.md R215 to R218) -/

theorem CodeEntry.eq_mk_iff {e : CodeEntry} {pat : BitVec 16} {len : BitVec 8} :
    e = ⟨pat, len⟩ ↔ e.len = len ∧ e.pat = pat := by
  cases e
  rw [CodeEntry.mk.injEq, and_comm]

/-- The scan answers a symbol exactly when it is the least one with that entry (R218). -/
theorem findSymbol_eq_some_iff {code : CodeTable} {e : CodeEntry} {hit : Byte} :
    findSymbol code e.pat e.len = some hit ↔ tget code hit = e ∧ ∀ b : Byte, b < hit → tget code b ≠ e := by
  simp only [ne_eq, CodeEntry.eq_mk_iff (pat := e.pat) (len := e.len)]
  refine ⟨fun h => ?_, fun ⟨hhit, hleast⟩ => ?_⟩
  · obtain ⟨hlen, hpat, hleast⟩ := findSymbol_eq_some h
    exact ⟨⟨hlen, hpat⟩, hleast⟩
  · cases h : findSymbol code e.pat e.len with
    | none => exact absurd hhit (findSymbol_eq_none.1 h hit)
    | some found =>
      obtain ⟨hlen, hpat, hfound⟩ := findSymbol_eq_some h
      have hge : ¬ found < hit := fun hlt => hleast found hlt ⟨hlen, hpat⟩
      have hle : ¬ hit < found := fun hlt => hfound hit hlt hhit
      exact congrArg some (BitVec.le_antisymm (BitVec.not_lt.1 hle) (BitVec.not_lt.1 hge))

theorem findSymbol_eq_none_iff {code : CodeTable} {e : CodeEntry} :
    findSymbol code e.pat e.len = none ↔ ∀ b : Byte, tget code b ≠ e := by
  simp only [findSymbol_eq_none, ne_eq, CodeEntry.eq_mk_iff (pat := e.pat) (len := e.len)]

/-- The candidate with one more bit, as the entry SLOOKUP scans for (R216). -/
def State.nextCandidate (s : State) (bit : Bool) : CodeEntry := ⟨shiftIn s.cand bit, s.clen + 1⟩

section
variable {s : State} {bit : Bool}

theorem slookupBody_match {hit : Byte}
    (h : findSymbol s.code (s.nextCandidate bit).pat (s.nextCandidate bit).len = some hit) :
    slookupBody bit s = .ok { s with rdata := hit, matched := true, cand := 0, clen := 0 } := by
  rcases slookupBody_cases bit s with ⟨found, hf, hb⟩ | ⟨hf, -⟩ | ⟨hf, -⟩
  · cases hf.symm.trans h
    exact hb
  · cases hf.symm.trans h
  · cases hf.symm.trans h

theorem slookupBody_noMatch (h : findSymbol s.code (s.nextCandidate bit).pat (s.nextCandidate bit).len = none)
    (hlen : (s.nextCandidate bit).len.toNat < 16) :
    slookupBody bit s = .ok { s with
      cand := (s.nextCandidate bit).pat, clen := (s.nextCandidate bit).len, matched := false } := by
  rcases slookupBody_cases bit s with ⟨_, hf, -⟩ | ⟨-, hge, -⟩ | ⟨-, -, hb⟩
  · cases hf.symm.trans h
  · exact absurd hge (Nat.not_le.2 hlen)
  · exact hb

theorem slookupBody_unbounded (h : findSymbol s.code (s.nextCandidate bit).pat (s.nextCandidate bit).len = none)
    (hlen : 16 ≤ (s.nextCandidate bit).len.toNat) :
    slookupBody bit s = .raised .unboundedDecode s.emitCnt.toNat := by
  rcases slookupBody_cases bit s with ⟨_, hf, -⟩ | ⟨-, -, hb⟩ | ⟨-, hlt, -⟩
  · cases hf.symm.trans h
  · exact hb
  · exact absurd hlen hlt

/-- The candidate with one more bit, by its numbers: no bit of it is lost (spec/10_state.md R36). -/
theorem eq_nextCandidate {e : CodeEntry} (hpat : e.pat.toNat = 2 * s.cand.toNat + bit.toNat)
    (hlen : e.len.toNat = s.clen.toNat + 1) : e = s.nextCandidate bit := by
  refine CodeEntry.eq_mk_iff.2 ⟨BitVec.eq_of_toNat_eq ?_, BitVec.eq_of_toNat_eq ?_⟩
  · have h1 : (1 : BitVec 8).toNat = 1 := rfl
    rw [BitVec.toNat_add, h1, ← hlen, Nat.mod_eq_of_lt e.len.isLt]
  · rw [shiftIn, ← hpat, BitVec.toNat_ofNat, Nat.mod_eq_of_lt e.pat.isLt]

/-- The bounds of the candidate with one more bit. -/
theorem State.CandidateFits.nextCandidate (h : s.CandidateFits) (bit : Bool) :
    1 ≤ (s.nextCandidate bit).len.toNat ∧ (s.nextCandidate bit).len.toNat ≤ 16 ∧
      (s.nextCandidate bit).pat.toNat < 2 ^ (s.nextCandidate bit).len.toNat := by
  obtain ⟨hpat, hlen⟩ := h
  have h1 : (s.nextCandidate bit).len.toNat = s.clen.toNat + 1 := by
    have h1 : (1 : BitVec 8).toNat = 1 := rfl
    rw [State.nextCandidate, BitVec.toNat_add, h1]
    omega
  rw [h1]
  exact ⟨by omega, by omega, shiftIn_lt bit hpat⟩

end

/-- Settles O40: the entry in question is the candidate with the bit shifted in, and the scan finds it or not. -/
theorem slookupScansTheTable : Obligations.SlookupScansTheTable := by
  intro s bit e hs _ hpat hlen
  obtain rfl := eq_nextCandidate hpat hlen
  refine ⟨fun hit hhit hleast => ?_, fun hnone hlt => ?_, fun hnone h15 => ?_⟩
  · exact (command_ok hs (slookupBody_match (s := s.accept) (findSymbol_eq_some_iff.2 ⟨hhit, hleast⟩)) :)
  · have hshort : (s.nextCandidate bit).len.toNat < 16 := by omega
    exact (command_ok hs (slookupBody_noMatch (s := s.accept) (findSymbol_eq_none_iff.2 hnone) hshort) :)
  · have hfull : 16 ≤ (s.nextCandidate bit).len.toNat := by omega
    exact ⟨_, command_raised hs (slookupBody_unbounded (s := s.accept) (findSymbol_eq_none_iff.2 hnone) hfull),
      faultEntry_faultedFrom ..⟩

/-- Settles O41: what is matched is the candidate with one more bit, and the scan finds the least symbol. -/
theorem slookupMatchesProperEntriesOnly : Obligations.SlookupMatchesProperEntriesOnly := by
  intro s t bit hs hcand h ht hm
  obtain ⟨u, hu, rfl⟩ := exec_success (by simp) hs h ht
  obtain ⟨b, hb⟩ : ∃ b, tget s.code b = s.nextCandidate bit :=
    of_decide_eq_true ((slookupBody_matched hu).symm.trans hm)
  cases hfind : findSymbol s.code (s.nextCandidate bit).pat (s.nextCandidate bit).len with
  | none => exact absurd hb (findSymbol_eq_none_iff.1 hfind b)
  | some hit =>
    cases hu.symm.trans (slookupBody_match (s := s.accept) hfind)
    obtain ⟨hhit, hleast⟩ := findSymbol_eq_some_iff.1 hfind
    obtain ⟨hpos, hlen, hpat⟩ := State.CandidateFits.nextCandidate (hcand hs) bit
    change _ ≤ (tget s.code hit).len.toNat ∧ (tget s.code hit).len.toNat ≤ 16 ∧
      (tget s.code hit).pat.toNat < 2 ^ (tget s.code hit).len.toNat ∧
      ∀ b : Byte, b < hit → tget s.code b ≠ tget s.code hit
    rw [hhit]
    exact ⟨hpos, hlen, hpat, hleast⟩

end Sys2Proof.Machine

namespace Sys2Proof.Machine

/-! ## The scan over bit strings (spec/30_encoding.md R108, spec/45_huffman_decoder.md R215, R216) -/

theorem toList_eq_map_tget {α : Type} (t : Vector α 256) : t.toList = allSymbols.map (tget t) := by
  apply List.ext_getElem
  · simp [allSymbols]
  · intro i hi _
    have hi : i < 256 := by simpa using hi
    simp only [Vector.getElem_toList, List.getElem_map, allSymbols, List.getElem_range, tget, BitVec.toNat_ofNat,
      Nat.reducePow, Nat.mod_eq_of_lt hi]

/-- The scan as a search through the symbols in ascending order (R218). -/
theorem findSymbol_eq_find? (code : CodeTable) (e : CodeEntry) :
    findSymbol code e.pat e.len =
      allSymbols.find? fun b => decide ((tget code b).len = e.len) && decide ((tget code b).pat = e.pat) := by
  rw [findSymbol, toList_eq_map_tget, List.findIdx?_map, List.find?_eq_bind_findIdx?_getElem?, Option.map_eq_bind]
  refine Option.bind_congr fun i hi => ?_
  have hlt : i < 256 := by simpa [allSymbols] using (List.findIdx?_eq_some_iff_getElem.1 hi).1
  simp [allSymbols, hlt]

/-- Over bit strings the statements' scan is the machine's. -/
theorem symbolOf_eq_findSymbol {code : CodeTable} {bits : List Bool} (h : bits.length ≤ 16) :
    symbolOf code bits = findSymbol code (pathEntry 0 0 bits).pat (pathEntry 0 0 bits).len := by
  simp only [findSymbol_eq_find?, symbolOf, BitVec.toNat_eq, toNat_pathEntry_len h, toNat_pathEntry_pat h]

/-- The bit shifted in is appended to the candidate's bit string. -/
theorem nextCandidate_of_path {s : State} {cand : List Bool} (hpat : s.cand = (pathEntry 0 0 cand).pat)
    (hlen : s.clen = (pathEntry 0 0 cand).len) (bit : Bool) : s.nextCandidate bit = pathEntry 0 0 (cand ++ [bit]) := by
  rw [State.nextCandidate, hpat, hlen]
  simp only [pathEntry, shiftIn, List.foldl_append, List.foldl_cons, List.foldl_nil, List.length_append,
    List.length_singleton, Nat.zero_add, CodeEntry.mk.injEq]
  constructor
  · apply BitVec.eq_of_toNat_eq
    simp only [BitVec.toNat_ofNat]
    omega
  · exact (BitVec.ofNat_add ..).symm

@[simp] theorem length_string (e : CodeEntry) : e.string.length = e.len.toNat := by
  simp [CodeEntry.string]

/-- A code with no stray pattern bit is the entry of its bit string (R108, R168). -/
theorem pathEntry_string {e : CodeEntry} (hlen : e.len.toNat ≤ 16) (hpat : e.pat.toNat < 2 ^ e.len.toNat) :
    pathEntry 0 0 e.string = e := by
  have hlen' : e.string.length ≤ 16 := by rwa [length_string]
  refine CodeEntry.eq_mk_iff.2 ⟨BitVec.eq_of_toNat_eq ?_, BitVec.eq_of_toNat_eq ?_⟩
  · rw [toNat_pathEntry_len hlen', length_string]
  · rw [toNat_pathEntry_pat hlen']
    refine Nat.eq_of_testBit_eq fun i => ?_
    by_cases hi : i < e.len.toNat
    · obtain ⟨j, hj, rfl⟩ : ∃ j, j < e.string.length ∧ i = e.string.length - 1 - j :=
        ⟨e.string.length - 1 - i, by rw [length_string]; omega, by rw [length_string]; omega⟩
      rw [testBit_pathValue e.string hj, length_string]
      simp only [CodeEntry.string, List.getElem_map, List.getElem_range]
      rfl
    · have hpow : 2 ^ e.len.toNat ≤ 2 ^ i := Nat.pow_le_pow_right (by decide) (Nat.not_lt.1 hi)
      have hvalue := pathValue_lt e.string
      rw [length_string] at hvalue
      rw [Nat.testBit_lt_two_pow (hvalue.trans_le hpow), Nat.testBit_lt_two_pow (hpat.trans_le hpow)]

end Sys2Proof.Machine

namespace Sys2Proof.Machine

/-! ## DECODE's loop is greedy decoding (spec/45_huffman_decoder.md R220, R222) -/

/-- `s` is the loop's state after the symbols `out` and the unfinished candidate `cand` have been taken from the packed
bits of `s0`, with `rest` still to read. -/
structure State.Decoding (s0 : State) (cand rest : List Bool) (out : List Byte) (s : State) : Prop where
  frame : s = { s0 with
    obuf := s.obuf, emitCnt := s.emitCnt, buByte := s.buByte, buBit := s.buBit, cand := (pathEntry 0 0 cand).pat,
    clen := (pathEntry 0 0 cand).len, rdata := s.rdata, eod := false, matched := s.matched }
  rest_eq : rest = s0.packedBits.drop s.readPos
  position : s.readPos + rest.length = 8 * s0.pkLen.toNat
  cand_lt : cand.length < 16
  emitted : s.emitCnt.toNat = out.length
  out_le : out.length ≤ s0.origSize.toNat
  settled : out.length = s0.origSize.toNat → cand = []
  last : cand = [] → s.rdata = out.getLast?.getD s0.rdata ∧ s.matched = decide (out ≠ [])
  bytes : ∀ a, s.readByte .obuf a = out[a]?.getD (s0.readByte .obuf a)

theorem length_packedBits (s : State) : s.packedBits.length = 8 * s.pkLen.toNat := by
  simp [State.packedBits]

/-- DECODE's loop begins with no symbol, no candidate and every packed bit (R221). -/
theorem decoding_startDecode (s : State) : s.startDecode.Decoding [] s.packedBits [] s.startDecode where
  frame := rfl
  rest_eq := rfl
  position := (Nat.zero_add _).trans (length_packedBits s)
  cand_lt := Nat.zero_lt_succ _
  emitted := rfl
  out_le := Nat.zero_le _
  settled _ := rfl
  last _ := ⟨rfl, rfl⟩
  bytes _ := rfl

/-- A turn of the loop that reads a bit looks it up (R220). -/
theorem decodeLoop_bit {s : State} (turns : Nat) (hcap : s.pkLen ≤ s.caps.pbuf) (hmore : s.emitCnt < s.origSize)
    (hbit : s.readPos < 8 * s.pkLen.toNat) :
    decodeLoop (turns + 1) s = (slookupBody (s.streamBit .pbuf s.readPos) (s.readTo s.readPos)).andThen fun u =>
      decodeLoop turns (if u.matched then u.emit else u) := by
  rw [decodeLoop_succ _ _ hmore, rbitBody_inside hcap (buByte_lt_pkLen_iff.2 hbit), Result.ok_andThen]
  have hlow : (s.readTo s.readPos).rdata.getLsbD 0 = s.streamBit .pbuf s.readPos := by
    change (if s.streamBit .pbuf s.readPos then (1 : Byte) else 0).getLsbD 0 = _
    cases s.streamBit .pbuf s.readPos <;> rfl
  rw [hlow]
  rfl

/-- A turn of the loop at the end of the content (R222). -/
theorem decodeLoop_atEnd {s : State} (turns : Nat) (hcap : s.pkLen ≤ s.caps.pbuf) (hmore : s.emitCnt < s.origSize)
    (hend : 8 * s.pkLen.toNat ≤ s.readPos) :
    decodeLoop (turns + 1) s = .raised .truncatedContent s.emitCnt.toNat := by
  have hle : s.pkLen ≤ s.buByte := BitVec.not_lt.1 fun hlt => absurd (buByte_lt_pkLen_iff.1 hlt) (Nat.not_lt.2 hend)
  rw [decodeLoop_succ _ _ hmore, rbitBody_atEnd hcap hle]
  rfl

/-- An emitted symbol stands behind those emitted before (R220). -/
theorem readByte_emit {s : State} {out : List Byte} {a : Nat} {old : Byte} (hcount : s.emitCnt.toNat = out.length)
    (hbytes : s.readByte .obuf a = out[a]?.getD old) : s.emit.readByte .obuf a = (out ++ [s.rdata])[a]?.getD old := by
  change (s.writeByte .obuf s.emitCnt.toNat s.rdata).readByte .obuf a = _
  rw [hcount]
  rcases lt_trichotomy a out.length with hlt | rfl | hgt
  · rw [State.readByte_writeByte_other _ _ _ hlt.ne, hbytes, List.getElem?_append_left hlt]
  · simp
  · rw [State.readByte_writeByte_other _ _ _ hgt.ne', hbytes, List.getElem?_eq_none hgt.le,
      List.getElem?_eq_none (by simpa using hgt)]

section
variable {s0 s : State} {cand rest : List Bool} {out : List Byte} {b : Bool}

theorem State.Decoding.more_iff (h : s0.Decoding cand rest out s) :
    s.emitCnt < s.origSize ↔ out.length < s0.origSize.toNat := by
  rw [BitVec.lt_def, h.emitted, h.frame]

theorem State.Decoding.pkLen_eq (h : s0.Decoding cand rest out s) : s.pkLen = s0.pkLen := by rw [h.frame]

theorem State.Decoding.caps_eq (h : s0.Decoding cand rest out s) : s.caps = s0.caps := by rw [h.frame]

theorem State.Decoding.code_eq (h : s0.Decoding cand rest out s) : s.code = s0.code := by rw [h.frame]

/-- The next bit is the one at the unpacker's cursor. -/
theorem State.Decoding.bit (h : s0.Decoding cand (b :: rest) out s) :
    s.readPos < 8 * s0.pkLen.toNat ∧ s.streamBit .pbuf s.readPos = b ∧
      rest = s0.packedBits.drop (s.readPos + 1) := by
  have hpos := h.position
  rw [List.length_cons] at hpos
  have hlt : s.readPos < s0.packedBits.length := by rw [length_packedBits]; omega
  have hdrop := h.rest_eq
  rw [List.drop_eq_getElem_cons hlt, List.cons.injEq] at hdrop
  obtain ⟨hb, hrest⟩ := hdrop
  refine ⟨by omega, ?_, hrest⟩
  have hstream : s.streamBit .pbuf s.readPos = s0.streamBit .pbuf s.readPos := by
    have hp : s.pbuf = s0.pbuf := by rw [h.frame]
    have he : s.epoch = s0.epoch := by rw [h.frame]
    exact congrArg (BitVec.getLsbD · _) (State.readByte_congr (sp := .pbuf) hp he _)
  rw [hstream, hb]
  simp [State.packedBits]

/-- The entry SLOOKUP scans for is the candidate's bit string with the next bit. -/
theorem State.Decoding.nextCandidate (h : s0.Decoding cand (b :: rest) out s) :
    (s.readTo s.readPos).nextCandidate b = pathEntry 0 0 (cand ++ [b]) :=
  nextCandidate_of_path (by rw [h.frame]; rfl) (by rw [h.frame]; rfl) b

/-- What the scan answers after the next bit. -/
theorem State.Decoding.scan (h : s0.Decoding cand (b :: rest) out s) :
    findSymbol (s.readTo s.readPos).code ((s.readTo s.readPos).nextCandidate b).pat
      ((s.readTo s.readPos).nextCandidate b).len = symbolOf s0.code (cand ++ [b]) := by
  have hlen : (cand ++ [b]).length ≤ 16 := by simpa using h.cand_lt
  rw [h.nextCandidate, symbolOf_eq_findSymbol hlen]
  exact congrArg (findSymbol · _ _) h.code_eq

theorem State.Decoding.toNat_nextCandidate_len (h : s0.Decoding cand (b :: rest) out s) :
    ((s.readTo s.readPos).nextCandidate b).len.toNat = cand.length + 1 := by
  have hlen : (cand ++ [b]).length ≤ 16 := by simpa using h.cand_lt
  rw [h.nextCandidate, toNat_pathEntry_len hlen, List.length_append, List.length_singleton]

/-- What is still to read once the next bit is read. -/
theorem State.Decoding.advance (h : s0.Decoding cand (b :: rest) out s) :
    rest = s0.packedBits.drop (s.readTo s.readPos).readPos ∧
      (s.readTo s.readPos).readPos + rest.length = 8 * s0.pkLen.toNat := by
  obtain ⟨hlt, -, hrest⟩ := h.bit
  have hposition := h.position
  rw [List.length_cons] at hposition
  rw [readPos_readTo (by rwa [h.pkLen_eq])]
  exact ⟨hrest, by omega⟩

/-- The state of a match, its symbol emitted, has one symbol more and an empty candidate. -/
theorem State.Decoding.emit (h : s0.Decoding cand (b :: rest) out s) (hmore : out.length < s0.origSize.toNat)
    (x : Byte) : s0.Decoding [] rest (out ++ [x])
      ({ s.readTo s.readPos with rdata := x, matched := true, cand := 0, clen := 0 } : State).emit where
  frame := by rw [h.frame]; rfl
  rest_eq := h.advance.1
  position := h.advance.2
  cand_lt := Nat.zero_lt_succ _
  emitted := by
    have hfits := s0.origSize.isLt
    have hcount := h.emitted
    change (s.emitCnt + 1#64).toNat = _
    rw [BitVec.toNat_add, BitVec.toNat_ofNat, List.length_append, List.length_singleton]
    omega
  out_le := by simpa using hmore
  settled _ := rfl
  last _ := ⟨by rw [List.getLast?_concat]; rfl, (decide_eq_true (by simp)).symm⟩
  bytes a := readByte_emit (s := { s.readTo s.readPos with rdata := x }) h.emitted (h.bytes a)

/-- The state without a match has one candidate bit more. -/
theorem State.Decoding.extend (h : s0.Decoding cand (b :: rest) out s) (hmore : out.length < s0.origSize.toNat)
    (hlen : cand.length + 1 < 16) : s0.Decoding (cand ++ [b]) rest out ({ s.readTo s.readPos with
      cand := (pathEntry 0 0 (cand ++ [b])).pat, clen := (pathEntry 0 0 (cand ++ [b])).len,
      matched := false } : State) where
  frame := by rw [h.frame]; rfl
  rest_eq := h.advance.1
  position := h.advance.2
  cand_lt := by simpa using hlen
  emitted := h.emitted
  out_le := h.out_le
  settled hdone := absurd hdone hmore.ne
  last hnil := absurd hnil (by simp)
  bytes := h.bytes

end

/-- How the loop ends where the decoding of the packed bits of `s0` ends so. -/
def State.EndsAs (s0 : State) : Decoded → Result → Prop
  | .symbols xs rest, r => xs.length = s0.origSize.toNat ∧ ∃ t, r = .ok t ∧ s0.Decoding [] rest xs t
  | .truncated n, r => r = .raised .truncatedContent n
  | .unbounded n, r => r = .raised .unboundedDecode n

/-- Once every symbol is emitted no bit is read. -/
theorem greedy_done {todo : Nat} {out : List Byte} (hdone : ¬ out.length < todo) (code : CodeTable)
    (bits cand : List Bool) : greedy code todo bits cand out = .symbols out bits := by
  cases bits with
  | nil => exact if_neg hdone
  | cons b bits => exact if_neg hdone

/-- With every symbol emitted the decoding and the loop have ended. -/
theorem State.Decoding.endsAs_done {s0 s : State} {cand rest : List Bool} {out : List Byte}
    (h : s0.Decoding cand rest out s) (hdone : ¬ out.length < s0.origSize.toNat) (turns : Nat) :
    s0.EndsAs (greedy s0.code s0.origSize.toNat rest cand out) (decodeLoop turns s) := by
  have hlen : out.length = s0.origSize.toNat := Nat.le_antisymm h.out_le (Nat.not_lt.1 hdone)
  obtain rfl := h.settled hlen
  rw [decodeLoop_done _ _ (mt h.more_iff.1 hdone), greedy_done hdone]
  exact ⟨hlen, s, rfl, h⟩

/-- DECODE's loop ends as the greedy decoding of the bits still to read does. -/
theorem decodeLoop_endsAs {s0 s : State} {cand rest : List Bool} {out : List Byte} {turns : Nat}
    (hcap : s0.pkLen ≤ s0.caps.pbuf) (h : s0.Decoding cand rest out s) (hturns : rest.length < turns) :
    s0.EndsAs (greedy s0.code s0.origSize.toNat rest cand out) (decodeLoop turns s) := by
  induction rest generalizing s cand out turns with
  | nil =>
    by_cases hmore : out.length < s0.origSize.toNat
    · obtain ⟨turns, rfl⟩ := Nat.exists_eq_succ_of_ne_zero (Nat.ne_zero_of_lt hturns)
      have hend : 8 * s.pkLen.toNat ≤ s.readPos := by rw [h.pkLen_eq]; exact h.position.ge
      rw [greedy, if_pos hmore,
        decodeLoop_atEnd _ (by rwa [h.pkLen_eq, h.caps_eq]) (h.more_iff.2 hmore) hend, h.emitted]
      rfl
    · exact h.endsAs_done hmore turns
  | cons b rest ih =>
    by_cases hmore : out.length < s0.origSize.toNat
    · obtain ⟨turns, rfl⟩ := Nat.exists_eq_succ_of_ne_zero (Nat.ne_zero_of_lt hturns)
      obtain ⟨hlt, hb, -⟩ := h.bit
      have hscan := h.scan
      have hnext := h.nextCandidate
      have hlen := h.toNat_nextCandidate_len
      rw [List.length_cons, Nat.succ_lt_succ_iff] at hturns
      rw [greedy, if_pos hmore, decodeLoop_bit turns (by rwa [h.pkLen_eq, h.caps_eq]) (h.more_iff.2 hmore)
        (by rwa [h.pkLen_eq]), hb]
      cases hx : symbolOf s0.code (cand ++ [b]) with
      | some x =>
        rw [slookupBody_match (hscan.trans hx)]
        exact ih (h.emit hmore x) hturns
      | none =>
        by_cases hfull : 16 ≤ cand.length + 1
        · rw [slookupBody_unbounded (hscan.trans hx) (hlen.symm ▸ hfull)]
          simp only [if_pos hfull]
          exact congrArg (Result.raised .unboundedDecode) h.emitted
        · rw [slookupBody_noMatch (hscan.trans hx) (hlen.symm ▸ Nat.not_le.1 hfull), hnext]
          simp only [if_neg hfull]
          exact ih (h.extend hmore (Nat.not_le.1 hfull)) hturns
    · exact h.endsAs_done hmore turns

end Sys2Proof.Machine

namespace Sys2Proof.Machine

/-! ## DECODE (spec/45_huffman_decoder.md R220 to R223) -/

/-- Settles O42: the three cases of DECODE's body, the last of which decodes nothing. -/
theorem decodeStart : Obligations.DecodeStart := by
  refine fun s hs => ⟨fun hlt => ?_, fun hcap hlt => ?_, fun hcap h0 => ?_⟩
  · rcases decodeBody_cases s.accept with ⟨-, hb⟩ | ⟨hle, -⟩ | ⟨hle, -⟩
    · exact ⟨_, command_raised hs hb, faultEntry_faultedFrom ..⟩
    · exact absurd hlt hle
    · exact absurd hlt hle
  · rcases decodeBody_cases s.accept with ⟨hgt, -⟩ | ⟨-, -, hb⟩ | ⟨-, hle, -⟩
    · exact absurd hcap (BitVec.not_le.2 hgt)
    · exact ⟨_, command_raised hs hb, faultEntry_faultedFrom ..⟩
    · exact absurd hlt hle
  · have hb : decodeBody s.accept = .ok s.accept.startDecode := by
      rw [decodeBody_zero (s := s.accept) hcap h0, State.accept_origSize, h0]
      rfl
    exact (command_ok hs hb :)

/-- DECODE that passes its two checks is its loop. -/
theorem decodeBody_fits {s : State} (hcap : s.pkLen ≤ s.caps.pbuf) (hout : s.origSize ≤ s.caps.obuf) :
    decodeBody s = (decodeLoop (8 * s.pkLen.toNat + 1) s.startDecode).andThen
      fun t => .ok { t with outLen := t.origSize } := by
  rcases decodeBody_cases s with ⟨hlt, -⟩ | ⟨-, hlt, -⟩ | ⟨-, -, hb⟩
  · exact absurd hcap (BitVec.not_le.2 hlt)
  · exact absurd hout (BitVec.not_le.2 hlt)
  · exact hb

/-- The loop of a DECODE issued in `s` ends as the greedy decoding of all packed bits does. -/
theorem decodeLoop_startDecode {s : State} (hcap : s.pkLen ≤ s.caps.pbuf) :
    s.startDecode.EndsAs (greedy s.code s.origSize.toNat s.packedBits [] [])
      (decodeLoop (8 * s.pkLen.toNat + 1) s.startDecode) :=
  decodeLoop_endsAs hcap (decoding_startDecode s) (by rw [length_packedBits]; exact Nat.lt_succ_self _)

/-- Settles O44: DECODE's loop ends as the greedy decoding of the packed bits does. -/
theorem decodeIsGreedyDecoding : Obligations.DecodeIsGreedyDecoding := by
  intro s hs hcap hout
  have hbody := decodeBody_fits (s := s.accept) hcap hout
  have hloop := decodeLoop_startDecode (s := s.accept) hcap
  refine ⟨fun xs rest hg => ?_, fun n hg => ?_, fun n hg => ?_⟩
  · obtain ⟨hlen, u, hu, hd⟩ : State.EndsAs s.accept.startDecode (.symbols xs rest) _ := hg ▸ hloop
    rw [hu] at hbody
    obtain ⟨hrdata, hmatched⟩ := hd.last rfl
    have hcount : u.emitCnt = s.origSize := BitVec.eq_of_toNat_eq (hd.emitted.trans hlen)
    refine ⟨_, command_ok hs hbody, ?_, hd.position, hlen, hd.bytes⟩
    rw [hd.frame, hrdata, hmatched, hcount]
    rfl
  · have hu : _ = Result.raised .truncatedContent n := (hg ▸ hloop :)
    rw [hu] at hbody
    exact ⟨_, command_raised hs hbody, faultEntry_faultedFrom ..⟩
  · have hu : _ = Result.raised .unboundedDecode n := (hg ▸ hloop :)
    rw [hu] at hbody
    exact ⟨_, command_raised hs hbody, faultEntry_faultedFrom ..⟩

/-! ## Decoding under a table in which no code begins another (spec/45_huffman_decoder.md R223) -/

/-- A scan of at least one bit that finds a symbol has read that symbol's code. -/
theorem symbolOf_eq_some {code : CodeTable} {bits : List Bool} {b : Byte} (hlen : bits.length ≤ 16)
    (hne : bits ≠ []) (h : symbolOf code bits = some b) : present code b ∧ (tget code b).string = bits := by
  rw [symbolOf_eq_findSymbol hlen] at h
  obtain ⟨hb, -⟩ := findSymbol_eq_some_iff.1 h
  refine ⟨fun h0 => hne ?_, by rw [hb, string_pathEntry hlen]⟩
  rw [hb, ← BitVec.toNat_inj, toNat_pathEntry_len hlen] at h0
  exact List.length_eq_zero_iff.1 h0

theorem eq_of_string_prefix {code : CodeTable} (hfree : prefixFree code) {b c : Byte} (hb : present code b)
    (hc : present code c) (h : (tget code b).string <+: (tget code c).string) : b = c :=
  not_not.1 fun hne => hfree b c hb hc hne h

section
variable {code : CodeTable} (hproper : properCodes code) (hfree : prefixFree code)
include hproper hfree

/-- The code of a present symbol is found as that symbol's. -/
theorem symbolOf_string {x : Byte} (hx : present code x) : symbolOf code (tget code x).string = some x := by
  obtain ⟨hlen, hpat⟩ := hproper x hx
  rw [symbolOf_eq_findSymbol (by rwa [length_string]), pathEntry_string hlen hpat, findSymbol_eq_some_iff]
  refine ⟨rfl, fun b hlt heq => BitVec.ne_of_lt hlt ?_⟩
  exact eq_of_string_prefix hfree (by rwa [present, heq]) hx (by rw [heq])

/-- A proper beginning of a code is no code. -/
theorem symbolOf_string_beginning {x : Byte} (hx : present code x) {bits more : List Bool}
    (h : (tget code x).string = bits ++ more) (hbits : bits ≠ []) (hmore : more ≠ []) :
    symbolOf code bits = none := by
  have hlen : bits.length + more.length ≤ 16 := by
    rw [← List.length_append, ← h, length_string]
    exact (hproper x hx).1
  cases hy : symbolOf code bits with
  | none => rfl
  | some y =>
    obtain ⟨hpresent, hstring⟩ := symbolOf_eq_some (by omega) hbits hy
    obtain rfl := eq_of_string_prefix hfree hpresent hx ⟨more, by rw [hstring, h]⟩
    exact absurd (List.append_right_eq_self.1 (h.symm.trans hstring)) hmore

/-- The bits of a code that are left, read one after the other, emit its symbol. -/
theorem greedy_string {x : Byte} (hx : present code x) {todo : Nat} {out : List Byte} (hmore : out.length < todo)
    {cand bits : List Bool} (hbits : bits ≠ []) (h : (tget code x).string = cand ++ bits) (rest : List Bool) :
    greedy code todo (bits ++ rest) cand out = greedy code todo rest [] (out ++ [x]) := by
  induction bits generalizing cand with
  | nil => exact absurd rfl hbits
  | cons b bits ih =>
    rw [List.append_cons] at h
    rw [List.cons_append, greedy, if_pos hmore]
    by_cases hlast : bits = []
    · subst hlast
      rw [List.append_nil] at h
      rw [← h, symbolOf_string hproper hfree hx]
      rfl
    · have hlen : cand.length + 1 < 16 := by
        have htotal := congrArg List.length h
        have hpos := List.length_pos_iff.2 hlast
        have hle := (hproper x hx).1
        simp only [length_string, List.length_append, List.length_singleton] at htotal
        omega
      rw [symbolOf_string_beginning hproper hfree hx h (by simp) hlast]
      simp only [if_neg (Nat.not_le.2 hlen)]
      exact ih hlast h

/-- Greedy decoding of the codes of symbols, one after the other, is those symbols. -/
theorem greedy_codeString {xs : List Byte} (hxs : ∀ b ∈ xs, present code b) {todo : Nat} (out : List Byte)
    (htodo : out.length + xs.length = todo) (rest : List Bool) :
    greedy code todo (codeString code xs ++ rest) [] out = .symbols (out ++ xs) rest := by
  induction xs generalizing out with
  | nil =>
    have hdone : ¬ out.length < todo := by simp only [List.length_nil] at htodo; omega
    rw [greedy_done hdone, codeString, List.flatMap_nil, List.nil_append, List.append_nil]
  | cons x xs ih =>
    obtain ⟨hx, hxs⟩ := List.forall_mem_cons.1 hxs
    have hstring : (tget code x).string ≠ [] := fun hnil => hx (by
      rw [← BitVec.toNat_inj, ← length_string, hnil]
      rfl)
    have hmore : out.length < todo := by simp only [List.length_cons] at htodo; omega
    rw [codeString, List.flatMap_cons, List.append_assoc, greedy_string hproper hfree hx hmore hstring rfl]
    have htodo' : (out ++ [x]).length + xs.length = todo := by
      simp only [List.length_append, List.length_cons, List.length_nil] at htodo ⊢
      omega
    refine (ih hxs (out ++ [x]) htodo').trans ?_
    rw [List.append_assoc, List.singleton_append]

end

/-- Content that begins with these bits, inside the declared capacity, begins the packed bits with them. -/
theorem packedBits_beginsWith {s : State} {bits : List Bool} (h : s.contentIs bits)
    (hlen : bits.length ≤ 8 * s.pkLen.toNat) : bits <+: s.packedBits := by
  refine List.prefix_iff_eq_take.2 (List.ext_getElem ?_ fun k hk _ => ?_)
  · rw [List.length_take, length_packedBits, Nat.min_eq_left hlen]
  · simp only [List.getElem_take, State.packedBits, List.getElem_map, List.getElem_range, h k hk]

/-- Settles O43: DECODE is greedy decoding, which of the codes of symbols is those symbols. -/
theorem decodeReconstructs : Obligations.DecodeReconstructs := by
  intro s xs hs hcap hout hproper hfree hxs hlen hfits hcontent
  obtain ⟨rest, hbits⟩ := packedBits_beginsWith hcontent hfits
  have hgreedy := greedy_codeString hproper hfree hxs [] ((Nat.zero_add _).trans hlen) rest
  rw [hbits] at hgreedy
  obtain ⟨t, ht, hframe, hread, -, hbytes⟩ := (decodeIsGreedyDecoding s hs hcap hout).1 xs rest hgreedy
  have htotal := congrArg List.length hbits
  rw [List.length_append, length_packedBits, ← hread] at htotal
  exact ⟨t, ht, hframe, (Nat.add_right_cancel htotal).symm, hbytes⟩

end Sys2Proof.Machine

namespace Sys2Proof.Machine

/-! ## The checks of DECOMPRESS (spec/46_container_codec.md R251) -/

/-- A command whose body raises a fault ends in that fault. -/
theorem faults_of_raised {i : Instr} {s : State} {f : CmdFault} {info : Nat} (hi : i ≠ .clr) (hs : s.phase = .idle)
    (h : bodyOf i s.accept = .raised f info) : Faults i s f.code.toNat info :=
  ⟨_, (exec_eq_bodyOf hi s).trans (command_raised hs h), faultEntry_faultedFrom ..⟩

theorem length_magicPairs (s : State) : (Config.magic.zip (s.readBytes .abuf 0 6)).length = 6 := by
  rw [List.length_zip, State.length_readBytes]
  rfl

/-- A pair of the comparison of R251 differs where the archive's byte is not the signature's. -/
theorem magicPair_differs_iff (s : State) {k : Nat} (h : k < (Config.magic.zip (s.readBytes .abuf 0 6)).length) :
    decide ((Config.magic.zip (s.readBytes .abuf 0 6))[k].1 ≠
      (Config.magic.zip (s.readBytes .abuf 0 6))[k].2) = true ↔ signature[k]? ≠ some (s.readByte .abuf k) := by
  have hk : k < signature.length := h.trans_eq (length_magicPairs s)
  rw [decide_eq_true_iff, List.getElem_zip, State.getElem_readBytes, Nat.zero_add, List.getElem?_eq_getElem hk, ne_eq,
    ne_eq, Option.some.injEq]
  rfl

/-- The first byte that differs from the signature's. -/
theorem firstBadMagic_eq_some {s : State} {k : Nat} (hk : k < 6)
    (hbefore : ∀ j, j < k → signature[j]? = some (s.readByte .abuf j))
    (hbad : signature[k]? ≠ some (s.readByte .abuf k)) : firstBadMagic s = some k := by
  refine List.findIdx?_eq_some_iff_getElem.2 ⟨hk.trans_eq (length_magicPairs s).symm,
    (magicPair_differs_iff s _).2 hbad, fun j hj => ?_⟩
  exact fun h => (magicPair_differs_iff s _).1 h (hbefore j hj)

theorem firstBadMagic_eq_none {s : State} (h : s.hasMagic) : firstBadMagic s = none := by
  refine List.findIdx?_eq_none_iff.2 fun p hp => ?_
  obtain ⟨k, hk, rfl⟩ := List.mem_iff_getElem.1 hp
  refine Bool.eq_false_iff.2 fun hd => (magicPair_differs_iff s hk).1 hd (h k ?_)
  rwa [length_magicPairs] at hk

theorem decompressBody_of_checkMagic {s : State} {f : CmdFault} {info : Nat} (h : checkMagic s = .raised f info) :
    decompressBody s = .raised f info := by
  rw [decompressBody_eq, h, Result.raised_andThen]

/-- Settles O48: the checks are made in this order, and the scan stops at the first byte that differs. -/
theorem decompressChecksTheMagic : Obligations.DecompressChecksTheMagic := by
  refine fun s hs => ⟨fun hlt => ?_, fun hcap h6 => ?_, fun hcap h6 k hk hbefore hbad => ?_⟩
  · have hcheck : checkMagic s.accept = .raised .allocFailure s.arLen.toNat := if_pos hlt
    exact faults_of_raised (i := .decompress) (by decide) hs (decompressBody_of_checkMagic hcheck)
  · have hcheck : checkMagic s.accept = .raised .truncatedHeader s.arLen.toNat :=
      (if_neg (BitVec.not_lt.2 hcap)).trans (if_pos h6)
    exact faults_of_raised (i := .decompress) (by decide) hs (decompressBody_of_checkMagic hcheck)
  · have hfirst : firstBadMagic s.accept = some k := firstBadMagic_eq_some (s := s.accept) hk hbefore hbad
    have hcheck : checkMagic s.accept = .raised .badMagic k := by
      rcases checkMagic_cases s.accept with ⟨hlt, -⟩ | ⟨-, hlt, -⟩ | ⟨j, -, -, hj, h⟩ | ⟨-, -, hnone, -⟩
      · exact absurd hcap (BitVec.not_le.2 hlt)
      · exact absurd h6 (Nat.not_le.2 hlt)
      · cases hfirst.symm.trans hj
        exact h
      · cases hfirst.symm.trans hnone
    exact faults_of_raised (i := .decompress) (by decide) hs (decompressBody_of_checkMagic hcheck)

/-! ## DECOMPRESS is its steps (R252 to R254) -/

/-- DECOMPRESS of an archive with a whole header goes on from TDESER with the header's fields. -/
theorem decompressBody_of_hasMagic {s : State} (hcap : s.arLen ≤ s.caps.abuf) (hlen : 18 ≤ s.arLen.toNat)
    (hmagic : s.hasMagic) :
    decompressBody s = (tdeserBody { s with origSize := s.headerSize, contentOff := s.headerOff }).andThen
      fun t => (copyContent t).andThen decodeBody := by
  have hcheck : checkMagic s = .ok s := by
    rcases checkMagic_cases s with ⟨hlt, -⟩ | ⟨-, hlt, -⟩ | ⟨k, -, -, hk, -⟩ | ⟨-, -, -, h⟩
    · exact absurd hcap (BitVec.not_le.2 hlt)
    · omega
    · cases (firstBadMagic_eq_none hmagic).symm.trans hk
    · exact h
  have hheader : readHeader s = .ok { s with origSize := s.headerSize, contentOff := s.headerOff } := by
    rcases readHeader_cases s with ⟨hlt, -⟩ | ⟨-, h⟩
    · omega
    · rw [h, ← toNat_headerSize, ← toNat_headerOff, BitVec.ofNat_toNat, BitVec.ofNat_toNat, BitVec.setWidth_eq,
        BitVec.setWidth_eq]
  rw [decompressBody_eq, hcheck, Result.ok_andThen, hheader, Result.ok_andThen]

/-- The copy puts the content at the beginning of PBUF and leaves the rest of it (R253). -/
theorem copyContent_fits {s : State} {n : Nat} (hn : s.arLen.toNat - s.contentOff.toNat = n)
    (hcap : n ≤ s.caps.pbuf.toNat) :
    ∃ t, copyContent s = .ok t ∧ t = { s with pbuf := t.pbuf, pkLen := BitVec.ofNat 64 n } ∧
      ∀ a, t.readByte .pbuf a =
        if a < n then s.readByte .abuf (s.contentOff.toNat + a) else s.readByte .pbuf a := by
  subst hn
  rcases copyContent_cases s with ⟨hlt, -⟩ | ⟨-, h⟩
  · omega
  · refine ⟨_, h, by rw [State.writeBytes_eq_setBuf]; rfl, fun a => ?_⟩
    refine (readByte_writeBytes_zero s .pbuf _ a).trans ?_
    by_cases ha : a < s.arLen.toNat - s.contentOff.toNat
    · rw [if_pos ha, State.getElem?_readBytes _ _ _ ha, Option.getD_some]
    · rw [if_neg ha, List.getElem?_eq_none (by rw [State.length_readBytes]; omega), Option.getD_none]

/-- TDESER ends in success or takes a fault (spec/45_huffman_decoder.md R211). -/
theorem exec_tdeser_cases {s : State} (hs : s.phase = .idle) :
    (∃ t, tdeserBody s.accept = .ok t ∧ exec .tdeser s = .next t.finish) ∨
    (∃ f info, tdeserBody s.accept = .raised f info ∧ exec .tdeser s = .next (s.faultEntry f info)) := by
  rcases tdeserBody_cases s.accept with ⟨-, h⟩ | ⟨-, -, h⟩ | ⟨_, -, -, h⟩
  · exact .inr ⟨_, _, h, command_raised hs h⟩
  · exact .inr ⟨_, _, h, command_raised hs h⟩
  · exact .inl ⟨_, h, command_ok hs h⟩

/-- Settles O50: each step's body takes up the state the one before it left, and a fault of a step is DECOMPRESS's. -/
theorem decompressIsItsSteps : Obligations.DecompressIsItsSteps := by
  intro s hs hcap hlen hmagic
  have hbody := decompressBody_of_hasMagic (s := s.accept) hcap hlen hmagic
  rcases exec_tdeser_cases (s := { s with origSize := s.headerSize, contentOff := s.headerOff }) hs with
    ⟨t, ht, hexec⟩ | ⟨f, info, hf, hexec⟩
  · have hframe := tdeserBody_frame ht
    have hrest : decompressBody s.accept = (copyContent t).andThen decodeBody := by
      rw [hbody]
      exact congrArg (Result.andThen · _) ht
    have hn : t.arLen.toNat - t.contentOff.toNat = s.arLen.toNat - s.headerOff.toNat := by rw [hframe]; rfl
    have hcaps : t.caps = s.caps := by rw [hframe]; rfl
    refine ⟨t.finish, hexec, ?_, fun _ hlt => ?_, fun _ hfits => ?_⟩
    · exact nofun
    · refine faults_of_raised (i := .decompress) (f := .allocFailure) (by decide) hs ?_
      rcases copyContent_cases t with ⟨-, h⟩ | ⟨hle, -⟩
      · exact hrest.trans (by rw [h, hn]; rfl)
      · rw [hn, hcaps] at hle
        exact absurd hlt hle
    · obtain ⟨c, hc, hcframe, hcbytes⟩ := copyContent_fits hn (hcaps ▸ hfits)
      have hcontrol : c.finish.accept = c := by
        rw [hcframe, hframe]
        rfl
      refine ⟨c.finish, ?_, (congrArg State.finish hcframe :), fun a => (hcbytes a).trans ?_⟩
      · refine (command_congr (t := c.finish) hs rfl ?_ fun f info => ?_).symm
        · rw [hcontrol, hrest, hc, Result.ok_andThen]
        · rw [hcframe, hframe]
          rfl
      · rw [hframe]
        rfl
  · refine ⟨_, hexec, fun _ => command_raised hs ?_, ?_, ?_⟩
    · rw [hbody]
      exact congrArg (Result.andThen · _) hf
    · exact nofun
    · exact nofun

end Sys2Proof.Machine

namespace Sys2Proof.Machine

/-! ## DECOMPRESS of an archive under a table in which no code begins another (R255, spec/45_huffman_decoder.md R223) -/

/-- The two tables give the same symbols codes, and to each of them the same code. -/
def SameCodes (code code' : CodeTable) : Prop :=
  ∀ b, tget code' b = tget code b ∨ (¬ present code b ∧ ¬ present code' b)

section
variable {code code' : CodeTable} {b : Byte}

theorem SameCodes.tget_eq (h : SameCodes code code') (hb : present code b) : tget code' b = tget code b :=
  (h b).resolve_right fun hnone => hnone.1 hb

theorem SameCodes.present_iff (h : SameCodes code code') : present code' b ↔ present code b := by
  rcases h b with heq | ⟨hb, hb'⟩
  · rw [present, heq]
  · exact iff_of_false hb' hb

theorem SameCodes.properCodes (h : SameCodes code code') (hproper : properCodes code) : Machine.properCodes code' := by
  intro b hb
  have hb := h.present_iff.1 hb
  rw [h.tget_eq hb]
  exact hproper b hb

theorem SameCodes.prefixFree (h : SameCodes code code') (hfree : prefixFree code) : Machine.prefixFree code' := by
  intro b c hb hc hne
  have hb := h.present_iff.1 hb
  have hc := h.present_iff.1 hc
  rw [h.tget_eq hb, h.tget_eq hc]
  exact hfree b c hb hc hne

theorem SameCodes.codeString_eq (h : SameCodes code code') {xs : List Byte} (hxs : ∀ b ∈ xs, present code b) :
    codeString code' xs = codeString code xs :=
  List.flatMap_congr fun b hb => by rw [h.tget_eq (hxs b hb)]

end

/-- Entries that are those of a table leave its entries in the slots they name. -/
theorem tget_storeEntries_of_entries {s : State} {code : CodeTable} {n : Nat}
    (h : ∀ i, i < n → tget code (s.readByte .abuf (18 + 4 * i)) = s.entryCode i) {i : Nat} (hi : i < n) :
    tget (s.storeEntries n).code (s.readByte .abuf (18 + 4 * i)) = tget code (s.readByte .abuf (18 + 4 * i)) := by
  induction n with
  | zero => cases hi
  | succ n ih =>
    rw [code_storeEntries_succ, ← h n n.lt_succ_self]
    by_cases hlast : s.readByte .abuf (18 + 4 * i) = s.readByte .abuf (18 + 4 * n)
    · rw [hlast, tget_tset_same]
    · have hne : i ≠ n := fun hin => hlast (by rw [hin])
      rw [tget_tset_other _ _ hlast]
      exact ih (fun j hj => h j (hj.trans n.lt_succ_self)) (by omega)

/-- TDESER of the entries of a table, in whatever order, gives that table's codes. -/
theorem sameCodes_storeEntries {s : State} {code : CodeTable} {n : Nat}
    (h : ∀ i, i < n → tget code (s.readByte .abuf (18 + 4 * i)) = s.entryCode i)
    (hrest : ∀ b : Byte, (∀ i, i < n → s.readByte .abuf (18 + 4 * i) ≠ b) → ¬ present code b) :
    SameCodes code ((s.startEntries n).storeEntries n).code := by
  intro b
  by_cases hb : ∀ i, i < n → s.readByte .abuf (18 + 4 * i) ≠ b
  · refine .inr ⟨hrest b hb, ?_⟩
    rw [present, tget_storeEntries_unnamed (s := s.startEntries n) hb]
    exact fun hlen => hlen (congrArg CodeEntry.len (tget_replicate CodeEntry.absent b))
  · obtain ⟨i, hi, rfl⟩ : ∃ i, i < n ∧ s.readByte .abuf (18 + 4 * i) = b := by simpa using hb
    exact .inl (tget_storeEntries_of_entries (s := s.startEntries n) h hi)

/-- TDESER of an archive whose entries are those of a table. -/
theorem exec_tdeser_sameCodes {s : State} {code : CodeTable} {count : Nat} (hs : s.phase = .idle)
    (hcap : s.arLen ≤ s.caps.abuf) (hcount : count ≤ 256) (hoff : s.contentOff.toNat = 18 + 4 * count)
    (hlen : s.contentOff.toNat ≤ s.arLen.toNat)
    (h : ∀ i, i < count → tget code (s.readByte .abuf (18 + 4 * i)) = s.entryCode i)
    (hrest : ∀ b : Byte, (∀ i, i < count → s.readByte .abuf (18 + 4 * i) ≠ b) → ¬ present code b) :
    ∃ code', SameCodes code code' ∧ exec .tdeser s = .next { s with
      code := code', entryCnt := BitVec.ofNat 16 count, cand := 0, clen := 0, matched := false }.completed :=
  ⟨_, sameCodes_storeEntries (s := s.accept) h hrest, exec_tdeser_fits hs hcap hcount hoff hlen⟩

/-- Bytes copied from one space to another are the same stream there. -/
theorem streamBit_of_copied {s t : State} {sp sq : Space} {off n k : Nat}
    (h : ∀ a, a < n → t.readByte sq a = s.readByte sp (off + a)) (hk : k < 8 * n) :
    t.streamBit sq k = s.streamBit sp (8 * off + k) := by
  rw [State.streamBit, State.streamBit, h _ (by omega), show (8 * off + k) / 8 = off + k / 8 by omega,
    show (8 * off + k) % 8 = k % 8 by omega]

/-- Settles O51: TDESER gives the table's codes, the copy the content, and DECODE the original. -/
theorem decompressReadsAnArchive : Obligations.DecompressReadsAnArchive := by
  intro s code count xs hs hcap hmagic hcount hoff hlen hfits hout hxslen hentries hrest hproper hfree hxs hcontent
    hbits
  obtain ⟨b, hb, -, -, hsteps⟩ := decompressIsItsSteps s hs hcap (by omega) hmagic
  obtain ⟨code', hcodes, htdeser⟩ := exec_tdeser_sameCodes
    (s := { s with origSize := s.headerSize, contentOff := s.headerOff }) hs hcap hcount hoff hlen hentries hrest
  have hbstate := Host.Outcome.next.inj (hb.symm.trans htdeser)
  obtain ⟨c, hexec, hcstate, hcbytes⟩ := hsteps (by rw [hbstate]; rfl) hfits
  rw [hbstate] at hcstate
  generalize s.arLen.toNat - s.headerOff.toNat = n at *
  have hidle : c.phase = .idle := by rw [hcstate]; rfl
  have hcaps : c.caps = s.caps := by rw [hcstate]; rfl
  have hsize : c.origSize = s.headerSize := by rw [hcstate]; rfl
  have hpk : c.pkLen.toNat = n := by
    rw [hcstate]
    exact Nat.mod_eq_of_lt (hfits.trans_lt s.caps.pbuf.isLt)
  have hcode : SameCodes code c.code := by rw [hcstate]; exact hcodes
  have hstring := hcode.codeString_eq hxs
  have hpacked : c.contentIs (codeString c.code xs) := by
    rw [hstring]
    intro k hk
    rw [streamBit_of_copied (fun a ha => (hcbytes a).trans (if_pos ha)) (hk.trans_le hcontent)]
    exact hbits k hk
  rw [← hcaps, ← hsize] at hout
  rw [← hsize] at hxslen
  rw [← hstring, ← hpk] at hcontent
  rw [← hpk, ← hcaps] at hfits
  obtain ⟨t, ht, htstate, hread, hbytes⟩ := decodeReconstructs c xs hidle (BitVec.le_def.2 hfits) hout
    (hcode.properCodes hproper) (hcode.prefixFree hfree) (fun b hb => hcode.present_iff.2 (hxs b hb)) hxslen hcontent
    hpacked
  refine ⟨t, hexec.trans ht, ?_, hread.trans (by rw [hstring]), fun b hb => ?_, fun a => (hbytes a).trans ?_,
    fun a => Eq.trans ?_ (hcbytes a)⟩
  · rw [htstate, hcstate]
    rfl
  · rw [htstate]
    exact hcode.tget_eq hb
  · rw [hcstate]
    rfl
  · rw [htstate]
    rfl

end Sys2Proof.Machine

namespace Sys2Proof.Machine

/-! ## The faults of COMPRESS (spec/46_container_codec.md R236, R238, R239, R241, R242, R295) -/

/-- A search through the symbols finds the least one that is sought. -/
theorem find?_allSymbols_eq_some {p : Byte → Bool} {b : Byte} (hb : p b = true)
    (hleast : ∀ c : Byte, c < b → p c = false) : allSymbols.find? p = some b := by
  cases hfind : allSymbols.find? p with
  | none => exact absurd hb (List.find?_eq_none.1 hfind b (mem_allSymbols b))
  | some x =>
    obtain ⟨hx, as, bs, hsplit, has⟩ := List.find?_eq_some_iff_append.1 hfind
    have hsorted := allSymbols_sorted
    have hmem := mem_allSymbols b
    rw [hsplit] at hsorted hmem
    rcases List.mem_append.1 hmem with hin | hin
    · simpa [hb] using has b hin
    · rcases List.mem_cons.1 hin with rfl | hin
      · rfl
      · have hlt : x < b := (List.pairwise_cons.1 (List.pairwise_append.1 hsorted).2.1).1 b hin
        exact absurd hx (by simp [hleast x hlt])

/-- The code R238 reports is that of the least symbol with one longer than 16. -/
theorem overlong_eq_some {code : CodeTable} {b : Byte} (hb : 16 < (tget code b).len.toNat)
    (hleast : ∀ c : Byte, c < b → (tget code c).len.toNat ≤ 16) : overlong code = some (b, tget code b) := by
  have hfind := find?_allSymbols_eq_some (p := fun c => decide (16 < (tget code c).len.toNat))
    (decide_eq_true hb) fun c hc => decide_eq_false (Nat.not_lt.2 (hleast c hc))
  rw [overlong, zip_allSymbols, List.find?_map]
  exact congrArg (Option.map fun c => (c, tget code c)) hfind

theorem packLoop_append (i : Nat) (as bs : List Byte) (s : State) :
    packLoop i (as ++ bs) s = (packLoop i as s).andThen (packLoop (i + as.length) bs) := by
  induction as generalizing i s with
  | nil => rfl
  | cons a as ih =>
    rw [List.cons_append, List.length_cons, packLoop, packLoop, Nat.add_comm as.length, ← Nat.add_assoc]
    by_cases h : (tget s.code a).len = 0
    · simp only [if_pos h, Result.raised_andThen]
    · simp only [if_neg h, Result.andThen_assoc]
      exact congrArg (Result.andThen _) (funext (ih (i + 1)))

/-! ### Step C4 -/

section
variable {s : State} {m : Nat}

theorem compressPack_packOverfull (hg : isGreatestLen s.code m) (h : s.caps.pbuf.toNat < worstCase s.inLen.toNat m) :
    compressPack s = .raised .allocFailure (worstCase s.inLen.toNat m) := by
  rw [compressPack, greatestLen_presentCodes hg]
  exact if_pos h

/-- The state in which step C4 starts the packer. -/
def State.declareWorstCase (s : State) (m : Nat) : State :=
  { s with pkLen := BitVec.ofNat 64 (worstCase s.inLen.toNat m) }

variable (hg : isGreatestLen s.code m) (hfits : worstCase s.inLen.toNat m ≤ s.caps.pbuf.toNat)
include hg hfits

theorem compressPack_fits :
    compressPack s =
      ((bpinitBody (s.declareWorstCase m)).andThen (packLoop 0 s.input)).andThen compressAppend := by
  rw [compressPack, greatestLen_presentCodes hg]
  exact if_neg (Nat.not_lt.2 hfits)

/-- The beginning of an input is packed as long as its bytes have codes: the worst case has room for it (R243). -/
theorem packBeginning (h16 : m ≤ 16) {xs : List Byte} (hlen : xs.length ≤ s.inLen.toNat)
    (hpresent : ∀ b ∈ xs, present s.code b) :
    ∃ t, (bpinitBody (s.declareWorstCase m)).andThen (packLoop 0 xs) = .ok t ∧
      (s.declareWorstCase m).Packs (codeString s.code xs) (codeString s.code xs).length t := by
  have hpk : (s.declareWorstCase m).pkLen.toNat = worstCase s.inLen.toNat m :=
    Nat.mod_eq_of_lt (hfits.trans_lt s.caps.pbuf.isLt)
  have hcap : (s.declareWorstCase m).pkLen ≤ (s.declareWorstCase m).caps.pbuf := by
    rw [BitVec.le_def, hpk]
    exact hfits
  have hroom : (codeString s.code xs).length ≤ 8 * worstCase s.inLen.toNat m := by
    have hle := (length_codeString_le hg.1 xs).trans (Nat.mul_le_mul_right m hlen)
    rw [worstCase]
    omega
  obtain ⟨u, hu, hpacks⟩ := bpinitBody_packs hcap
  obtain ⟨t, ht, hpacks⟩ := hpacks.packLoop (bits := []) (xs := xs) 0 hpresent (fun b => (hg.1 b).trans h16) hcap
    (by rw [hpk, List.length_nil, Nat.zero_add]; exact hroom)
  exact ⟨t, Result.andThen_ok.2 ⟨u, hu, ht⟩, hpacks⟩

/-- The first byte without a code ends the packing (R242). -/
theorem compressPack_unencodable (h16 : m ≤ 16) {xs ys : List Byte} {b : Byte} (hinput : s.input = xs ++ b :: ys)
    (hpresent : ∀ b ∈ xs, present s.code b) (hb : ¬ present s.code b) :
    compressPack s = .raised .unencodableSymbol xs.length := by
  have hlen : xs.length ≤ s.inLen.toNat := by
    rw [← length_input, hinput, List.length_append]
    exact Nat.le_add_right _ _
  obtain ⟨t, ht, hpacks⟩ := packBeginning hg hfits h16 hlen hpresent
  have hcode : t.code = s.code := hpacks.code_eq
  have hstop : packLoop xs.length (b :: ys) t = .raised .unencodableSymbol xs.length := by
    rcases packLoop_cons xs.length b ys t with ⟨-, h⟩ | ⟨h, -⟩
    · exact h
    · rw [hcode] at h
      exact absurd h hb
  have hsplit : packLoop 0 s.input = fun u => (packLoop 0 xs u).andThen (packLoop xs.length (b :: ys)) := by
    funext u
    rw [hinput, packLoop_append, Nat.zero_add]
  rw [compressPack_fits hg hfits, hsplit, ← Result.andThen_assoc, ht, Result.ok_andThen, hstop,
    Result.raised_andThen]

/-- The touched bytes do not fit behind the archive's head (R241). -/
theorem compressPack_archiveOverfull (h16 : m ≤ 16) (hpresent : ∀ b ∈ s.input, present s.code b)
    (h : s.caps.abuf.toNat < contentStart (presentSymbols s.code).length + (s.inputBits.length + 7) / 8) :
    compressPack s =
      .raised .allocFailure (contentStart (presentSymbols s.code).length + (s.inputBits.length + 7) / 8) := by
  obtain ⟨t, ht, hpacks⟩ := packBeginning hg hfits h16 (length_input s).le hpresent
  have hcode : t.code = s.code := hpacks.code_eq
  have hcaps : t.caps = s.caps := hpacks.caps_eq
  have htouched : t.touched = (s.inputBits.length + 7) / 8 := touched_of_packPos hpacks.pos
  rw [compressPack_fits hg hfits, ht, Result.ok_andThen]
  rcases compressAppend_cases t with ⟨-, happend⟩ | ⟨hle, -⟩
  · rw [happend, length_presentCodes, hcode, htouched]
  · rw [length_presentCodes, hcode, htouched, hcaps] at hle
    exact absurd h hle

end

/-! ### The steps before -/

theorem compressBody_inputOverfull {s : State} (h : s.caps.ibuf < s.inLen) :
    compressBody s = .raised .allocFailure s.inLen.toNat := if_pos h

theorem compressBody_fits {s : State} (h : s.inLen ≤ s.caps.ibuf) :
    compressBody s = ((compressCount s).andThen compressHeader).andThen compressPack := if_neg (BitVec.not_lt.2 h)

/-- COMPRESS under a table with a code longer than 16 (R238). -/
theorem compressBody_codeTooLong {s : State} (hin : s.inLen ≤ s.caps.ibuf) {b : Byte}
    (hb : 16 < (tget s.code b).len.toNat) (hleast : ∀ c : Byte, c < b → (tget s.code c).len.toNat ≤ 16) :
    compressBody s = .raised .codeTooLong (b.toNat + 256 * (tget s.code b).len.toNat) := by
  rw [compressBody_fits hin, compressCount, overlong_eq_some hb hleast]
  rfl

section
variable {s : State} {m : Nat} (hin : s.inLen ≤ s.caps.ibuf) (hg : isGreatestLen s.code m) (h16 : m ≤ 16)
include hin hg h16

/-- Step C1 under a table without a code longer than 16 (R237). -/
theorem compressBody_shortCodes :
    compressBody s = (compressHeader { s with
      entryCnt := BitVec.ofNat 16 (presentSymbols s.code).length, maxLen := BitVec.ofNat 8 m }).andThen
        compressPack := by
  have hover := overlong_eq_none_of_le fun b => (hg.1 b).trans h16
  rcases compressCount_cases s with ⟨e, he, -⟩ | ⟨-, hcount⟩
  · cases hover.symm.trans he
  · rw [compressBody_fits hin, hcount, Result.ok_andThen, length_presentCodes, greatestLen_presentCodes hg]

/-- The archive's head does not fit ABUF (R239). -/
theorem compressBody_headOverfull (h : s.caps.abuf.toNat < contentStart (presentSymbols s.code).length) :
    compressBody s = .raised .allocFailure (contentStart (presentSymbols s.code).length) := by
  rw [compressBody_shortCodes hin hg h16, compressHeader, length_presentCodes]
  exact congrArg (Result.andThen · compressPack) (if_pos h)

variable (hhead : contentStart (presentSymbols s.code).length ≤ s.caps.abuf.toNat)
include hhead

/-- Once the head stands in ABUF it is step C4 that is left, in a state that differs from the first one in what the
head and the registers of the archive hold. -/
theorem compressBody_eq_compressPack :
    ∃ abuf size off count max, compressBody s = compressPack { s with
      abuf := abuf, origSize := size, contentOff := off, entryCnt := count, maxLen := max } := by
  obtain ⟨t, ht, hframe, -⟩ := compressHeader_head (s := { s with
      entryCnt := BitVec.ofNat 16 (presentSymbols s.code).length, maxLen := BitVec.ofNat 8 m }) hhead
  refine ⟨t.abuf, s.inLen, BitVec.ofNat 32 (contentStart (presentSymbols s.code).length),
    BitVec.ofNat 16 (presentSymbols s.code).length, BitVec.ofNat 8 m, ?_⟩
  rw [compressBody_shortCodes hin hg h16, ht, Result.ok_andThen]
  exact congrArg compressPack hframe

/-- The worst case of the packed bits does not fit PBUF (R241). -/
theorem compressBody_packOverfull (h : s.caps.pbuf.toNat < worstCase s.inLen.toNat m) :
    compressBody s = .raised .allocFailure (worstCase s.inLen.toNat m) := by
  obtain ⟨_, _, _, _, _, hpack⟩ := compressBody_eq_compressPack hin hg h16 hhead
  exact hpack.trans (compressPack_packOverfull hg h)

variable (hfits : worstCase s.inLen.toNat m ≤ s.caps.pbuf.toNat)
include hfits

/-- An input byte without a code (R242). -/
theorem compressBody_unencodable {xs ys : List Byte} {b : Byte} (hinput : s.input = xs ++ b :: ys)
    (hpresent : ∀ b ∈ xs, present s.code b) (hb : ¬ present s.code b) :
    compressBody s = .raised .unencodableSymbol xs.length := by
  obtain ⟨abuf, size, off, count, max, hpack⟩ := compressBody_eq_compressPack hin hg h16 hhead
  exact hpack.trans (compressPack_unencodable
    (s := { s with abuf := abuf, origSize := size, contentOff := off, entryCnt := count, maxLen := max })
    hg hfits h16 hinput hpresent hb)

/-- The content does not fit ABUF behind the head (R241). -/
theorem compressBody_archiveOverfull (hpresent : ∀ b ∈ s.input, present s.code b)
    (h : s.caps.abuf.toNat < contentStart (presentSymbols s.code).length + (s.inputBits.length + 7) / 8) :
    compressBody s =
      .raised .allocFailure (contentStart (presentSymbols s.code).length + (s.inputBits.length + 7) / 8) := by
  obtain ⟨_, _, _, _, _, hpack⟩ := compressBody_eq_compressPack hin hg h16 hhead
  exact hpack.trans (compressPack_archiveOverfull hg hfits h16 hpresent h)

end

/-- The input around one of its bytes. -/
theorem input_eq_append {s : State} {i : Nat} (hi : i < s.inLen.toNat) :
    s.input = s.readBytes .ibuf 0 i ++ s.readByte .ibuf i :: s.readBytes .ibuf (i + 1) (s.inLen.toNat - (i + 1)) := by
  have hone : s.readBytes .ibuf i 1 = [s.readByte .ibuf i] := rfl
  rw [State.input, ← List.singleton_append, ← hone, ← State.readBytes_append]
  have hbytes := State.readBytes_append s .ibuf 0 i (1 + (s.inLen.toNat - (i + 1)))
  rwa [Nat.zero_add, show i + (1 + (s.inLen.toNat - (i + 1))) = s.inLen.toNat by omega] at hbytes

/-- Settles O46: each check is reached when the ones before it pass, and packing stops at the first byte without a
code. -/
theorem compressFaultsInOrder : Obligations.CompressFaultsInOrder := by
  rintro s m _ _ _ _ hs rfl rfl rfl rfl hg
  have hfault {f : CmdFault} {info : Nat} (h : compressBody s.accept = .raised f info) :
      Faults .compress s f.code.toNat info := faults_of_raised (i := .compress) (by decide) hs h
  refine ⟨fun h => ?_, fun hin => ⟨fun b hb hleast => ?_, fun h16 h => ?_, fun h16 hhead h => ?_,
    fun h16 hhead hfits => ⟨fun i hi hbefore hb => ?_, fun hpresent h => ?_⟩⟩⟩
  · exact hfault (compressBody_inputOverfull h)
  · exact hfault (compressBody_codeTooLong (s := s.accept) hin hb hleast)
  · exact hfault (compressBody_headOverfull (s := s.accept) hin hg h16 h)
  · exact hfault (compressBody_packOverfull (s := s.accept) hin hg h16 hhead h)
  · have hpresent : ∀ b ∈ s.readBytes .ibuf 0 i, present s.code b := by
      intro b hmem
      obtain ⟨j, hj, rfl⟩ := List.mem_map.1 hmem
      rw [Nat.zero_add]
      exact hbefore j (List.mem_range.1 hj)
    rw [← State.length_readBytes s .ibuf 0 i]
    have hinput := input_eq_append (s := s) hi
    exact hfault (compressBody_unencodable (s := s.accept) hin hg h16 hhead hfits hinput hpresent hb)
  · exact hfault (compressBody_archiveOverfull (s := s.accept) hin hg h16 hhead hfits hpresent h)

end Sys2Proof.Machine

namespace Sys2Proof.Machine

/-! ## The round trip (spec/46_container_codec.md R256) -/

theorem exists_isGreatestLen (code : CodeTable) : ∃ m, isGreatestLen code m := by
  obtain ⟨b, hb⟩ := Finite.exists_max fun b : Byte => (tget code b).len.toNat
  exact ⟨_, hb, .inr ⟨b, rfl⟩⟩

/-- Under a proper table the greatest code length is one that COMPRESS takes (R238). -/
theorem isGreatestLen_le {code : CodeTable} {m : Nat} (hproper : properCodes code) (h : isGreatestLen code m) :
    m ≤ 16 := by
  rcases h.2 with rfl | ⟨b, rfl⟩
  · exact Nat.zero_le _
  · by_cases hb : present code b
    · exact (hproper b hb).1
    · rw [show (tget code b).len = 0 from not_not.1 hb]
      exact Nat.zero_le _

/-- ENCODE that succeeds has given the bytes of the input, and no other symbol, proper codes of which none
begins another (spec/42_code_assigner.md R168). -/
theorem encodeBody_codes {s t : State} (h : encodeBody s.accept = .ok t) :
    properCodes t.code ∧ prefixFree t.code ∧ ∀ b, present t.code b ↔ b ∈ s.input := by
  obtain ⟨a, b, ha, hb, ht⟩ := encodeBody_ok h
  rcases freqBody_cases s.accept with ⟨-, hraised⟩ | ⟨-, hok⟩
  · cases ha.symm.trans hraised
  · cases ha.symm.trans hok
    have hcontrol : b.finish.accept = b := tbuildBody_finish_accept (s := { s with freq := countBytes s.input }) hb
    obtain ⟨ps, hps⟩ := codes_of_tbuild_cassign hb (hcontrol.symm ▸ ht)
    exact ⟨hps.properCodes, hps.prefixFree_codes, fun b =>
      (hps.present_iff_freq b).trans (tget_countBytes_ne_zero (length_input_lt s) b)⟩

/-- COMPRESS that succeeds has met none of its faults. -/
theorem compressible_of_ok {s t : State} {m : Nat} (h : compressBody s.accept = .ok t) (hg : isGreatestLen s.code m)
    (h16 : m ≤ 16) (hpresent : ∀ b ∈ s.input, present s.code b) : s.Compressible m := by
  have hnot {f : CmdFault} {info : Nat} (hraised : compressBody s.accept = .raised f info) : False := by
    cases h.symm.trans hraised
  have hin : s.inLen ≤ s.caps.ibuf := BitVec.not_lt.1 fun hlt => hnot (compressBody_inputOverfull hlt)
  have hhead : contentStart (presentSymbols s.code).length ≤ s.caps.abuf.toNat :=
    Nat.not_lt.1 fun hlt => hnot (compressBody_headOverfull (s := s.accept) hin hg h16 hlt)
  have hfits : worstCase s.inLen.toNat m ≤ s.caps.pbuf.toNat :=
    Nat.not_lt.1 fun hlt => hnot (compressBody_packOverfull (s := s.accept) hin hg h16 hhead hlt)
  have harchive : contentStart (presentSymbols s.code).length + (s.inputBits.length + 7) / 8 ≤ s.caps.abuf.toNat :=
    Nat.not_lt.1 fun hlt =>
      hnot (compressBody_archiveOverfull (s := s.accept) hin hg h16 hhead hfits hpresent hlt)
  exact ⟨hin, hg, h16, hpresent, hfits, harchive⟩

theorem exists_entryIndex_eq {code : CodeTable} {i : Nat} (hi : i < (presentSymbols code).length) :
    ∃ b, present code b ∧ entryIndex code b = i := by
  have hmem : present code (presentSymbols code)[i] := mem_presentSymbols.1 (List.getElem_mem hi)
  have hnodup : (presentSymbols code).Nodup := (allSymbols_sorted.filter _).imp BitVec.ne_of_lt
  refine ⟨_, hmem, ((List.getElem?_inj hi hnodup).1 ?_).symm⟩
  rw [getElem?_entryIndex hmem, List.getElem?_eq_getElem hi]

theorem entryIndex_lt {code : CodeTable} {b : Byte} (hb : present code b) :
    entryIndex code b < (presentSymbols code).length :=
  (List.getElem?_eq_some_iff.1 (getElem?_entryIndex hb)).1

/-- `s` holds what ENCODE and COMPRESS of `xs` leave: the archive in ABUF, and the packed content still in PBUF. -/
structure State.Compressed (s : State) (size : Reg64) (xs : List Byte) : Prop where
  phase : s.phase = .idle
  length : xs.length = size.toNat
  proper : properCodes s.code
  prefixFree : prefixFree s.code
  present : ∀ b ∈ xs, present s.code b
  archiveFits : s.arLen ≤ s.caps.abuf
  packedFits : s.pkLen ≤ s.caps.pbuf
  packedRoom : ((codeString s.code xs).length + 7) / 8 ≤ s.pkLen.toNat
  origSize : s.origSize = size
  magic : s.hasMagic
  headerSize : s.headerSize = size
  headerOff : s.headerOff.toNat = 18 + 4 * (presentSymbols s.code).length
  arLen : s.arLen.toNat = s.headerOff.toNat + ((codeString s.code xs).length + 7) / 8
  entries : ∀ b : Byte, Machine.present s.code b →
    s.readByte .abuf (18 + 4 * entryIndex s.code b) = b ∧ s.entryCode (entryIndex s.code b) = tget s.code b
  archived : ∀ k (h : k < (codeString s.code xs).length),
    s.streamBit .abuf (8 * s.headerOff.toNat + k) = (codeString s.code xs)[k]
  packed : s.contentIs (codeString s.code xs)

/-- What a COMPRESS leaves that succeeds under a proper table in which no code begins another. -/
theorem compressed_of_compress {s t : State} {m : Nat} (hs : s.phase = .idle) (hproper : properCodes s.code)
    (hfree : prefixFree s.code) (hc : s.Compressible m) (h : exec .compress s = .next t) :
    t.Compressed s.inLen s.input ∧ t.caps = s.caps := by
  obtain ⟨u, hu, hstate, hmagic, hsize, hoff, hentries, hstream, -, hcopied, -⟩ :=
    compressWritesTheArchive s m _ _ _ _ _ hs hc.input hc.greatest hc.short hc.present rfl rfl rfl rfl rfl hc.packedFits
      hc.archiveFits
  obtain rfl := Host.Outcome.next.inj (h.symm.trans hu)
  have hcode : t.code = s.code := by rw [hstate]; rfl
  have hcaps : t.caps = s.caps := by rw [hstate]; rfl
  have hpk : t.pkLen.toNat = worstCase s.inLen.toNat m := by
    rw [hstate]
    exact Nat.mod_eq_of_lt (hc.packedFits.trans_lt s.caps.pbuf.isLt)
  have harLen : t.arLen.toNat =
      18 + 4 * (presentSymbols s.code).length + ((codeString s.code s.input).length + 7) / 8 := by
    rw [hstate]
    exact Nat.mod_eq_of_lt (hc.archiveFits.trans_lt s.caps.abuf.isLt)
  have hroom : (codeString s.code s.input).length / 8 < worstCase s.inLen.toNat m := hc.length_inputBits.1
  refine ⟨?_, hcaps⟩
  constructor
  case phase => rw [hstate]; rfl
  case length => exact length_input s
  case proper => rwa [hcode]
  case prefixFree => rwa [hcode]
  case present => rw [hcode]; exact hc.present
  case archiveFits => rw [BitVec.le_def, harLen, hcaps]; exact hc.archiveFits
  case packedFits => rw [BitVec.le_def, hpk, hcaps]; exact hc.packedFits
  case packedRoom => rw [hcode, hpk]; omega
  case origSize => rw [hstate]; rfl
  case magic => exact hmagic
  case headerSize => exact hsize
  case headerOff => rw [hcode]; exact hoff
  case arLen => rw [hcode, hoff]; exact harLen
  case entries => rw [hcode]; exact hentries
  case archived =>
    rw [hcode, hoff]
    intro k hk
    rw [hstream k (by omega), List.getElem?_eq_getElem hk, Option.getD_some]
  case packed =>
    rw [hcode]
    intro k hk
    rw [streamBit_of_copied hcopied (by omega), hstream k (by omega), List.getElem?_eq_getElem hk, Option.getD_some]

/-- What ENCODE and COMPRESS leave where they succeed. -/
theorem compressed_of_runAll {s c : State} (hs : s.phase = .idle) (h : runAll [.encode, .compress] s = some c) :
    c.Compressed s.inLen s.input ∧ c.caps = s.caps := by
  obtain ⟨a, ha, had, h⟩ := runAll_cons.1 h
  obtain ⟨c, hc, hcd, h⟩ := runAll_cons.1 h
  cases h
  obtain ⟨u, hu, rfl⟩ := exec_done (by decide) hs ha had
  obtain ⟨v, hv, -⟩ := exec_done (by decide) rfl hc hcd
  obtain ⟨hproper, hfree, hpresent⟩ := encodeBody_codes hu
  obtain ⟨m, hg⟩ := exists_isGreatestLen u.code
  have hframe := encodeBody_frame hu
  have hinput : u.finish.input = s.input := by rw [hframe]; rfl
  have hinLen : u.finish.inLen = s.inLen := by rw [hframe]; rfl
  have hcaps : u.finish.caps = s.caps := by rw [hframe]; rfl
  have hpresent : ∀ b ∈ u.finish.input, present u.code b := fun b hb => (hpresent b).2 (hinput ▸ hb)
  have hfits : u.finish.Compressible m := compressible_of_ok hv hg (isGreatestLen_le hproper hg) hpresent
  obtain ⟨hcompressed, hcaps'⟩ := compressed_of_compress (s := u.finish) rfl hproper hfree hfits hc
  rw [hinput, hinLen] at hcompressed
  exact ⟨hcompressed, hcaps'.trans hcaps⟩

section
variable {s : State} {size : Reg64} {xs : List Byte} (h : s.Compressed size xs) (hout : size ≤ s.caps.obuf)
include h hout

/-- DECODE of the content that is still in PBUF. -/
theorem State.Compressed.decode :
    ∃ d, exec .decode s = .next d ∧ d.done = true ∧ d.outLen = size ∧
      ∀ a, d.readByte .obuf a = xs[a]?.getD (s.readByte .obuf a) := by
  have hroom := h.packedRoom
  obtain ⟨d, hd, hstate, -, hbytes⟩ := decodeReconstructs s xs h.phase h.packedFits (h.origSize ▸ hout) h.proper
    h.prefixFree h.present (h.origSize ▸ h.length) (by omega) h.packed
  exact ⟨d, hd, by rw [hstate]; rfl, by rw [hstate]; exact h.origSize, hbytes⟩

/-- DECOMPRESS of the archive in ABUF. -/
theorem State.Compressed.decompress :
    ∃ d, exec .decompress s = .next d ∧ d.done = true ∧ d.outLen = size ∧
      ∀ a, d.readByte .obuf a = xs[a]?.getD (s.readByte .obuf a) := by
  have hcontent : s.arLen.toNat - s.headerOff.toNat = ((codeString s.code xs).length + 7) / 8 := by
    rw [h.arLen]
    exact Nat.add_sub_cancel_left ..
  have hfits : s.arLen.toNat - s.headerOff.toNat ≤ s.caps.pbuf.toNat :=
    hcontent.trans_le (h.packedRoom.trans (BitVec.le_def.1 h.packedFits))
  have hentries : ∀ i, i < (presentSymbols s.code).length →
      tget s.code (s.readByte .abuf (18 + 4 * i)) = s.entryCode i := by
    intro i hi
    obtain ⟨b, hb, rfl⟩ := exists_entryIndex_eq hi
    rw [(h.entries b hb).1, (h.entries b hb).2]
  have hrest : ∀ b : Byte, (∀ i, i < (presentSymbols s.code).length → s.readByte .abuf (18 + 4 * i) ≠ b) →
      ¬ Machine.present s.code b := fun b hnone hb => hnone _ (entryIndex_lt hb) (h.entries b hb).1
  obtain ⟨d, hd, hstate, -, -, hbytes, -⟩ := decompressReadsAnArchive s s.code _ xs h.phase h.archiveFits h.magic
    (length_presentSymbols_le s.code) h.headerOff (by rw [h.arLen]; exact Nat.le_add_right ..) hfits
    (h.headerSize ▸ hout) (h.headerSize ▸ h.length) hentries hrest h.proper h.prefixFree h.present (by omega)
    h.archived
  exact ⟨d, hd, by rw [hstate]; rfl, by rw [hstate]; exact h.headerSize, hbytes⟩

end

/-- Settles O52: in ENCODE's table no code begins another, so that the codes are read back as their symbols, from the
archive's content and from PBUF alike. -/
theorem roundTrip : Obligations.RoundTrip := by
  intro s c hs h hout last hlast
  obtain ⟨hc, hcaps⟩ := compressed_of_runAll hs h
  rw [← hcaps] at hout
  obtain ⟨d, hd, hdone, hlen, hbytes⟩ : ∃ d, exec last c = .next d ∧ d.done = true ∧ d.outLen = s.inLen ∧
      ∀ a, d.readByte .obuf a = s.input[a]?.getD (c.readByte .obuf a) := by
    rcases hlast with rfl | rfl
    · exact hc.decompress hout
    · exact hc.decode hout
  refine ⟨d, hd, hdone, hlen, fun k hk => ?_⟩
  rw [hbytes k, State.input, State.getElem?_readBytes _ _ _ hk, Option.getD_some, Nat.zero_add]

end Sys2Proof.Machine

namespace Sys2Proof.Machine

/-! ## Issuing a command, the fault state and CLR (spec/47_system.md R270 to R275) -/

/-- Settles O5: a write to address 0 is the issue of its low 32 bits, and a legal word's issue is its command. -/
theorem stepRunsTheDecodedCommand : Obligations.StepRunsTheDecodedCommand := by
  refine ⟨fun s => step_waits, fun s v rest i hp hd => ?_⟩
  calc step s = transact (.writeReg 0 v) { s with pending := rest } := step_transacts hp
    _ = issue (v.truncate 32) { s with pending := rest } := transact_cmd v _
    _ = exec i { s with pending := rest, cmd := v.truncate 32 } := issue_ok hd _

theorem illegalWord_faulted (w : Word) {s : State} (h : s.phase = .faulted) : illegalWord w s = .next s := by
  simp only [illegalWord, h]

theorem encode_clr : encode .clr = 0x01000000 := rfl

theorem decode_clrWord : decode 0x01000000 = .ok .clr := decode_encode .clr rfl

/-- Settles O6: CLR has one word only, and in FAULTED neither another command nor an illegal word does anything. -/
theorem faultedIgnoresAllButClr : Obligations.FaultedIgnoresAllButClr := by
  refine fun s hs => ⟨fun w hw => ?_, issue_ok decode_clrWord s⟩
  cases hd : decode w with
  | error e => exact (issue_illegal hd s).trans (illegalWord_faulted w hs)
  | ok i =>
    have hi : i ≠ .clr := by
      rintro rfl
      exact hw (encodeOfDecode w .clr hd).2.symm
    exact (issue_ok hd s).trans (exec_faulted hi hs)

theorem status_resetWith (caps : Caps) : (State.resetWith caps).status = 0 := by
  simp [State.status]

theorem treeRoot_resetWith (caps : Caps) : (State.resetWith caps).treeRoot = 0 := by
  simp [State.treeRoot]

/-- Every register's reset value is 0 (spec/10_state.md R40). -/
theorem readReg_resetWith (caps : Caps) (r : RegName) : (State.resetWith caps).readReg r = 0 := by
  cases r with
  | status => rw [State.readReg, status_resetWith]; rfl
  | treeRoot => rw [State.readReg, treeRoot_resetWith]; rfl
  | freq i => exact Vector.getElem_replicate ..
  | code i => simp [State.readReg, State.resetWith, tget, CodeEntry.absent, CodeEntry.word]
  | nodeFreq i => simp [State.readReg, State.resetWith, Node.empty]
  | nodeLink i => simp [State.readReg, State.resetWith, Node.empty, Node.link]
  | _ => rfl

/-- After CLR every register but `CMD` is as after reset (spec/47_system.md R273). -/
theorem readReg_softReset (s : State) {r : RegName} (h : r ≠ .cmd) : s.softReset.readReg r = 0 := by
  have hsame : s.softReset.readReg r = (State.resetWith s.caps).readReg r := by
    cases r with
    | cmd => exact absurd rfl h
    | _ => rfl
  rw [hsame, readReg_resetWith]

/-- Settles O7: the state after CLR is `softReset`, whose registers but `CMD` are those of reset. -/
theorem clrResets : Obligations.ClrResets := by
  refine ⟨encode_clr, fun s hs => ?_⟩
  have hrun : s.phase ≠ .run := by rcases hs with hs | hs <;> simp [hs]
  exact ⟨s.softReset, exec_clr hrun, rfl, rfl, status_resetWith s.caps, fun r hr => readReg_softReset s hr,
    fun i => Vector.getElem_replicate .., rfl, State.buf_softReset s, State.readByte_softReset s, rfl, rfl, rfl⟩

end Sys2Proof.Machine

namespace Sys2Proof.Machine

/-! ## The faults of single commands (spec/60_exceptions.md R281 to R290) -/

/-- Settles O10: fault entry leaves the registers R290 names, and nothing after a raise runs. -/
theorem faultEntryRecords : Obligations.FaultEntryRecords :=
  ⟨fun _ _ _ _ hs hb => ⟨_, command_raised hs hb, faultEntry_faultedFrom ..⟩, Result.raised_andThen,
    rfl, rfl, rfl, rfl, rfl, rfl, rfl, rfl, rfl, rfl, rfl⟩

/-- Settles O32: the length is the first check of WBITS. -/
theorem wbitsIllegalOperand : Obligations.WbitsIllegalOperand := by
  intro s pattern length hs hlen
  refine faults_of_raised (i := .wbits pattern length) (f := .illegalOperand) (by simp) hs ?_
  rcases wbitsBody_cases pattern length s.accept with ⟨-, h⟩ | ⟨hle, -⟩ | ⟨hle, -⟩
  · exact h
  · exact absurd hlen (Nat.not_lt.2 hle)
  · exact absurd hlen (Nat.not_lt.2 hle)

/-- An archive that begins with the signature passes steps D0 and D1 (spec/46_container_codec.md R251). -/
theorem checkMagic_of_hasMagic {s : State} (hcap : s.arLen ≤ s.caps.abuf) (h6 : ¬ s.arLen.toNat < 6)
    (hmagic : s.hasMagic) : checkMagic s = .ok s := by
  rcases checkMagic_cases s with ⟨hlt, -⟩ | ⟨-, hlt, -⟩ | ⟨k, -, -, hk, -⟩ | ⟨-, -, -, h⟩
  · exact absurd hcap (BitVec.not_le.2 hlt)
  · exact absurd hlt h6
  · cases (firstBadMagic_eq_none hmagic).symm.trans hk
  · exact h

/-- With the right magic it is step D2 that finds the header cut short (R252). -/
theorem decompressBody_truncatedHeader {s : State} (hcap : s.arLen ≤ s.caps.abuf) (h6 : ¬ s.arLen.toNat < 6)
    (hmagic : s.hasMagic) (h18 : s.arLen.toNat < 18) :
    decompressBody s = .raised .truncatedHeader s.arLen.toNat := by
  rw [decompressBody_eq, checkMagic_of_hasMagic hcap h6 hmagic, Result.ok_andThen]
  rcases readHeader_cases s with ⟨-, h⟩ | ⟨hge, -⟩
  · rw [h, Result.raised_andThen]
  · exact absurd h18 hge

/-- Settles O49: below 6 bytes step D1 faults, from there to 17 bytes step D2. -/
theorem decompressTruncatedHeader : Obligations.DecompressTruncatedHeader := by
  intro s hs hcap h
  by_cases h6 : s.arLen.toNat < 6
  · exact (decompressChecksTheMagic s hs).2.1 hcap h6
  · obtain ⟨h18, hmagic⟩ := h.resolve_left h6
    exact faults_of_raised (i := .decompress) (by decide) hs
      (decompressBody_truncatedHeader (s := s.accept) hcap h6 hmagic h18)

/-! ## Hardware reset (spec/70_reset_and_hazards.md R320) -/

/-- After hardware reset every register is as in the state of reset. -/
theorem readReg_hardReset (s : State) (r : RegName) : s.hardReset.readReg r = 0 := by
  have hsame : s.hardReset.readReg r = (State.resetWith s.caps).readReg r := by cases r <;> rfl
  rw [hsame, readReg_resetWith]

/-- A byte that no buffer lists holds the free value of the epoch (spec/10_state.md R40). -/
theorem readByte_of_unlisted {s : State} {sp : Space} (h : s.buf sp = []) (a : Nat) :
    s.readByte sp a = Config.freeBits s.epoch (.byte sp a) 8 := by
  rw [State.readByte, h]
  rfl

/-- Settles O8: the state after hardware reset is `hardReset`, which lists no byte of any buffer. -/
theorem hardwareResetClears : Obligations.HardwareResetClears := fun s =>
  ⟨s.hardReset, rfl, readReg_hardReset s, rfl, fun i => Vector.getElem_replicate i.isLt, rfl, State.buf_hardReset s,
    fun sp => readByte_of_unlisted (State.buf_hardReset s sp), rfl, rfl⟩

/-! ## The state after a fault (spec/60_exceptions.md R291, R296) -/

/-- A command that is issued in IDLE and ends in FAULTED has taken a fault. -/
theorem exec_faults {i : Instr} {s t : State} (hs : s.phase = .idle) (h : exec i s = .next t)
    (ht : t.phase = .faulted) : ∃ f info, t = s.faultEntry f info := by
  by_cases hi : i = .clr
  · subst hi
    rw [exec_clr (by simp [hs])] at h
    cases h
    cases ht
  · rw [exec_eq_bodyOf hi] at h
    rcases command_next h with ⟨-, u, -, rfl⟩ | ⟨-, f, info, -, rfl⟩ | ⟨hp, -⟩
    · cases ht
    · exact ⟨f, info, rfl⟩
    · cases hs.symm.trans hp

/-- Of the fault itself, fault entry leaves its code and its information register only. -/
theorem faultEntry_eq_of_registers (s : State) {f g : CmdFault} {m n : Nat}
    (hcode : (s.faultEntry f m).faultCode = (s.faultEntry g n).faultCode)
    (hinfo : (s.faultEntry f m).faultInfo = (s.faultEntry g n).faultInfo) : s.faultEntry f m = s.faultEntry g n := by
  have hcode : f.code = g.code := hcode
  have hinfo : BitVec.ofNat 64 m = BitVec.ofNat 64 n := hinfo
  simp only [State.faultEntry, hcode, hinfo]

/-- Settles O11: both states are those of fault entry, which depends on nothing but what the two commands share. -/
theorem afterAFaultNothingIsKnown : Obligations.AfterAFaultNothingIsKnown := by
  intro i j s s' t t' hs hs' hcmd hcaps hepoch hpending hreplies h h' ht ht' hcode hinfo
  obtain ⟨f, m, rfl⟩ := exec_faults hs h ht
  obtain ⟨g, n, rfl⟩ := exec_faults hs' h' ht'
  have hshared : s.faultEntry g n = s'.faultEntry g n := faultEntry_congr g n hcmd hcaps hepoch hpending hreplies
  rw [← hshared] at hcode hinfo ⊢
  exact faultEntry_eq_of_registers s hcode hinfo

/-! ## Leaving FAULTED (spec/60_exceptions.md R297) -/

/-- What R297 says stays until CLR or hardware reset. -/
def State.StaysFaulted (s t : State) : Prop :=
  t.phase = .faulted ∧ t.faultCode = s.faultCode ∧ t.faultInfo = s.faultInfo ∧ t.status = s.status

/-- What R297 says holds after CLR or hardware reset. -/
def State.LeftFaulted (t : State) : Prop :=
  t.phase = .idle ∧ t.faultCode = 0 ∧ t.faultInfo = 0 ∧ t.status = 0

section
variable {s t : State} (hs : s.phase = .faulted)
include hs

/-- A write to `CMD` leaves FAULTED with CLR's word only (spec/47_system.md R272). -/
theorem issue_of_faulted {w : Word} (h : issue w s = .next t) :
    s.StaysFaulted t ∨ (t.LeftFaulted ∧ w = 0x01000000) := by
  obtain ⟨hother, hclr⟩ := faultedIgnoresAllButClr s hs
  by_cases hw : w = 0x01000000
  · subst hw
    rw [hclr, exec_clr (by simp [hs])] at h
    cases h
    exact .inr ⟨⟨rfl, rfl, rfl, status_resetWith s.caps⟩, rfl⟩
  · rw [hother w hw] at h
    cases h
    exact .inl ⟨hs, rfl, rfl, rfl⟩

theorem hostWriteReg_of_faulted {a : BitVec 16} {v : Reg64} (h : hostWriteReg a v s = .next t) :
    s.StaysFaulted t ∨ (t.LeftFaulted ∧ a = 0 ∧ v.truncate 32 = (0x01000000 : Word)) := by
  by_cases ha : a = 0
  · subst ha
    exact (issue_of_faulted hs h).imp_right fun ⟨hleft, hw⟩ => ⟨hleft, rfl, hw⟩
  · rw [hostWriteReg_faulted v hs ha] at h
    cases h
    exact .inl ⟨hs, rfl, rfl, rfl⟩

/-- A read stores its answer with the host's (spec/47_system.md R274). -/
theorem hostReadReg_of_faulted {a : BitVec 16} (h : hostReadReg a s = .next t) : s.StaysFaulted t := by
  have hrun : s.phase ≠ .run := by simp [hs]
  cases hr : regAt a with
  | none =>
    rw [hostReadReg_unmapped hrun hr] at h
    cases h
  | some r =>
    rw [hostReadReg_mapped hrun hr] at h
    cases h
    exact ⟨hs, rfl, rfl, rfl⟩

theorem hostReadBuf_of_faulted {sp : Space} {index : Reg64} (h : hostReadBuf sp index s = .next t) :
    s.StaysFaulted t := by
  rcases hostReadBuf_cases sp index (s := s) (by simp [hs]) with ⟨-, h'⟩ | ⟨-, h'⟩ <;> rw [h'] at h <;> cases h
  exact ⟨hs, rfl, rfl, rfl⟩

theorem hostWriteBuf_of_faulted {sp : Space} {index : Reg64} {v : Byte} (h : hostWriteBuf sp index v s = .next t) :
    s.StaysFaulted t := by
  rcases hostWriteBuf_cases sp index v (s := s) (by simp [hs]) with ⟨-, h'⟩ | ⟨-, -, h'⟩ | ⟨-, hidle, -⟩
  · rw [h'] at h
    cases h
  · rw [h'] at h
    cases h
    exact ⟨hs, rfl, rfl, rfl⟩
  · cases hs.symm.trans hidle

/-- Of the host's transactions only the write of CLR's word and the reset input leave FAULTED. -/
theorem transact_of_faulted {x : Transaction} (h : transact x s = .next t) :
    s.StaysFaulted t ∨
      (t.LeftFaulted ∧ ((∃ v, x = .writeReg 0 v ∧ v.truncate 32 = (0x01000000 : Word)) ∨ x = .reset)) := by
  cases x with
  | writeReg a v =>
    refine (hostWriteReg_of_faulted hs h).imp_right fun ⟨hleft, ha, hv⟩ => ⟨hleft, .inl ⟨v, ?_, hv⟩⟩
    rw [ha]
  | readReg a => exact .inl (hostReadReg_of_faulted hs h)
  | writeBuf sp k v => exact .inl (hostWriteBuf_of_faulted hs h)
  | readBuf sp k => exact .inl (hostReadBuf_of_faulted hs h)
  | reset =>
    cases h
    exact .inr ⟨⟨rfl, rfl, rfl, status_resetWith s.caps⟩, .inr rfl⟩

end

/-- Settles O13: a step waits or carries out one transaction, and every transaction but the write of CLR's word and
the reset input keeps `PHASE`, the flags and the fault registers. -/
theorem onlyClrOrResetLeavesFaulted : Obligations.OnlyClrOrResetLeavesFaulted := by
  intro s t hs h
  cases hp : s.pending with
  | nil =>
    rw [step_waits hp] at h
    cases h
    exact .inl ⟨hs, rfl, rfl, rfl⟩
  | cons x rest =>
    rw [step_transacts hp] at h
    rcases transact_of_faulted (s := { s with pending := rest }) hs h with hstays | ⟨hleft, hx⟩
    · exact .inl hstays
    · obtain ⟨hphase, hcode, hinfo, hstatus⟩ := hleft
      refine .inr ⟨hphase, hcode, hinfo, hstatus, ?_⟩
      rcases hx with ⟨v, rfl, hv⟩ | rfl
      · exact .inl ⟨v, rest, rfl, hv⟩
      · exact .inr ⟨rest, rfl⟩

end Sys2Proof.Machine

namespace Sys2Proof.Machine

/-! ## Every command ends (spec/70_reset_and_hazards.md R340) -/

/-- The pseudocode of a body comes to its last line or to a raise. -/
def Result.Ends (x : Result) : Prop := ∀ r, x ≠ .stuck r

@[simp] theorem Result.ends_ok (s : State) : (Result.ok s).Ends := fun _ h => by cases h

@[simp] theorem Result.ends_raised (f : CmdFault) (info : Nat) : (Result.raised f info).Ends := fun _ h => by cases h

/-- A sequence ends if its first part does, and its second wherever the first succeeds. -/
theorem Result.Ends.andThen {x : Result} {k : State → Result} (hx : x.Ends) (hk : ∀ s, x = .ok s → (k s).Ends) :
    (x.andThen k).Ends := by
  intro r h
  rcases Result.andThen_stuck.1 h with h | ⟨s, hs, h⟩
  · exact hx r h
  · exact hk s hs r h

/-! ### The encoder -/

theorem freqBody_ends (s : State) : (freqBody s).Ends := by
  rcases freqBody_cases s with ⟨-, h⟩ | ⟨-, h⟩ <;> simp [h]

theorem tbuildBody_ends (s : State) : (tbuildBody s).Ends := by
  obtain ⟨u, h⟩ := tbuildBody_succeeds s
  simp [h]

/-- The walk of a whole tree ends, at a leaf deeper than 16 or after the last one (spec/42_code_assigner.md R163,
R165). -/
theorem walk_ne_stuck {node : Arena} {fuel : Nat} {n : NodeId} {ls : List (List Bool × Byte)} (bits len : Nat)
    (code : CodeTable) (ht : treeLeaves node fuel n = some ls) : walk node fuel n bits len code ≠ .stuck := by
  cases hdeep : ls.find? (tooDeep len) with
  | none => simp [walk_of_shallow ht (find?_tooDeep_eq_none.1 hdeep)]
  | some x => simp [walk_of_tooDeep ht hdeep]

/-- The tree, if there is one, is whole. -/
def State.TreeWhole (s : State) : Prop :=
  s.rootValid = true → ∃ ls, treeLeaves s.node 511 s.root = some ls

theorem treeWhole_of_treeOk {s : State} (hs : s.phase = .idle) (h : s.treeOk) : s.TreeWhole := fun hr => by
  obtain ⟨-, ls, hls, -⟩ := (h hs).2 hr
  exact ⟨ls, hls⟩

theorem assignCodes_ne_stuck {s : State} (h : s.TreeWhole) : assignCodes s ≠ .stuck := by
  cases hr : s.rootValid with
  | false => simp [assignCodes_of_noTree hr]
  | true =>
    obtain ⟨ls, ht⟩ := h hr
    obtain ⟨nd, hnd, ⟨hk, -⟩ | ⟨hk, -⟩⟩ := treeLeaves_cases ht
    · simp [assignCodes_of_leaf hr hnd hk]
    · rw [assignCodes_of_internal hr hnd hk]
      exact walk_ne_stuck 0 0 noCodes ht

theorem cassignBody_ends {s : State} (h : s.TreeWhole) : (cassignBody s).Ends := by
  rcases cassignBody_cases s with ⟨_, -, h'⟩ | ⟨_, _, -, h'⟩ | ⟨hstuck, -⟩
  · simp [h']
  · simp [h']
  · exact absurd hstuck (assignCodes_ne_stuck h)

/-- ENCODE walks the tree that it has built itself (R170). -/
theorem encodeBody_ends (s : State) : (encodeBody s).Ends := by
  rw [encodeBody_eq]
  refine (freqBody_ends s).andThen fun a _ => (tbuildBody_ends a).andThen fun b hb => cassignBody_ends ?_
  exact treeWhole_of_treeOk (s := b.finish) rfl (tbuildBody_finish_treeOk hb)

/-! ### The packer and the unpacker -/

theorem bpinitBody_ends (s : State) : (bpinitBody s).Ends := by
  rcases bpinitBody_cases s with ⟨-, h⟩ | ⟨-, -, h⟩ | ⟨-, -, h⟩ <;> simp [h]

theorem writeBits_ends (bits : List Bool) (s : State) : (writeBits bits s).Ends := by
  induction bits generalizing s with
  | nil => simp [writeBits]
  | cons b bits ih =>
    refine Result.Ends.andThen ?_ fun u _ => ih u
    rcases writeBit_cases b s with ⟨-, h⟩ | ⟨-, h⟩ <;> simp [h]

theorem wbitsBody_ends (pattern : BitVec 16) (length : Nat) (s : State) : (wbitsBody pattern length s).Ends := by
  rcases wbitsBody_cases pattern length s with ⟨-, h⟩ | ⟨-, -, h⟩ | ⟨-, -, h⟩
  · simp [h]
  · simp [h]
  · rw [h]
    exact writeBits_ends _ s

theorem buinitBody_ends (s : State) : (buinitBody s).Ends := by
  rcases buinitBody_cases s with ⟨-, h⟩ | ⟨-, h⟩ <;> simp [h]

theorem rbitBody_ends (s : State) : (rbitBody s).Ends := by
  rcases rbitBody_cases s with ⟨-, h⟩ | ⟨-, -, h⟩ | ⟨-, -, h⟩ <;> simp [h]

/-! ### The decoder -/

theorem tdeserBody_ends (s : State) : (tdeserBody s).Ends := by
  rcases tdeserBody_cases s with ⟨-, h⟩ | ⟨-, -, h⟩ | ⟨_, -, -, h⟩ <;> simp [h]

theorem slookupBody_ends (bit : Bool) (s : State) : (slookupBody bit s).Ends := by
  rcases slookupBody_cases bit s with ⟨_, -, h⟩ | ⟨-, -, h⟩ | ⟨-, -, h⟩ <;> simp [h]

theorem decodeLoop_ends (turns : Nat) (s : State) : (decodeLoop turns s).Ends := by
  induction turns generalizing s with
  | zero =>
    rw [decodeLoop]
    split <;> simp
  | succ turns ih =>
    by_cases hs : s.emitCnt < s.origSize
    · rw [decodeLoop_succ _ _ hs]
      refine (rbitBody_ends s).andThen fun u _ => ?_
      split
      · simp
      · exact (slookupBody_ends _ u).andThen fun v _ => ih _
    · simp [decodeLoop_done _ _ hs]

theorem decodeBody_ends (s : State) : (decodeBody s).Ends := by
  rcases decodeBody_cases s with ⟨-, h⟩ | ⟨-, -, h⟩ | ⟨-, -, h⟩
  · simp [h]
  · simp [h]
  · rw [h]
    exact (decodeLoop_ends _ _).andThen fun u _ => Result.ends_ok _

/-! ### The container -/

theorem packLoop_ends (i : Nat) (bs : List Byte) (s : State) : (packLoop i bs s).Ends := by
  induction bs generalizing i s with
  | nil => simp [packLoop]
  | cons b bs ih =>
    rcases packLoop_cons i b bs s with ⟨-, h⟩ | ⟨-, h⟩
    · simp [h]
    · rw [h]
      exact (wbitsBody_ends _ _ s).andThen fun u _ => ih (i + 1) u

theorem compressPack_ends (s : State) : (compressPack s).Ends := by
  simp only [compressPack]
  split
  · simp
  · refine ((bpinitBody_ends _).andThen fun a _ => packLoop_ends 0 _ a).andThen fun b _ => ?_
    rcases compressAppend_cases b with ⟨-, h⟩ | ⟨-, h⟩ <;> simp [h]

theorem compressBody_ends (s : State) : (compressBody s).Ends := by
  rcases compressBody_cases s with ⟨-, h⟩ | ⟨-, h⟩
  · simp [h]
  · rw [h]
    refine (Result.Ends.andThen ?_ fun a _ => ?_).andThen fun b _ => compressPack_ends b
    · rcases compressCount_cases s with ⟨_, -, h⟩ | ⟨-, h⟩ <;> simp [h]
    · rcases compressHeader_cases a with ⟨-, h⟩ | ⟨-, _, h, -⟩ <;> simp [h]

theorem decompressBody_ends (s : State) : (decompressBody s).Ends := by
  rw [decompressBody_eq]
  refine Result.Ends.andThen ?_ fun m _ => Result.Ends.andThen ?_ fun a _ => (tdeserBody_ends a).andThen fun b _ =>
    Result.Ends.andThen ?_ fun c _ => decodeBody_ends c
  · rcases checkMagic_cases s with ⟨-, h⟩ | ⟨-, -, h⟩ | ⟨_, -, -, -, h⟩ | ⟨-, -, -, h⟩ <;> simp [h]
  · rcases readHeader_cases m with ⟨-, h⟩ | ⟨-, h⟩ <;> simp [h]
  · rcases copyContent_cases b with ⟨-, h⟩ | ⟨-, h⟩ <;> simp [h]

/-! ### All commands -/

/-- Every body ends, CASSIGN's on a tree that is whole. -/
theorem bodyOf_ends {i : Instr} {s : State} (h : i = .cassign → s.TreeWhole) : (bodyOf i s).Ends := by
  cases i with
  | clr => exact Result.ends_ok s
  | freq => exact freqBody_ends s
  | tbuild => exact tbuildBody_ends s
  | cassign => exact cassignBody_ends (h rfl)
  | encode => exact encodeBody_ends s
  | bpinit => exact bpinitBody_ends s
  | wbits pattern length => exact wbitsBody_ends pattern length s
  | buinit => exact buinitBody_ends s
  | rbit => exact rbitBody_ends s
  | tdeser => exact tdeserBody_ends s
  | slookup bit => exact slookupBody_ends bit s
  | decode => exact decodeBody_ends s
  | compress => exact compressBody_ends s
  | decompress => exact decompressBody_ends s

/-- Settles O12: a body that ends leaves success or fault entry, and no body writes FAULT or a fault register. -/
theorem everyCommandEnds : Obligations.EveryCommandEnds := by
  intro i s hs htree
  by_cases hi : i = .clr
  · subst hi
    exact ⟨s.softReset, exec_clr (by simp [hs]), .inl ⟨rfl, rfl, fun h => absurd rfl h⟩⟩
  · have hends : (bodyOf i s.accept).Ends := bodyOf_ends fun hc => (treeWhole_of_treeOk hs (htree hc) :)
    rcases command_idle (body := bodyOf i) hs with ⟨u, hu, h⟩ | ⟨f, info, -, h⟩ | ⟨r, hr, -⟩
    · refine ⟨u.finish, (exec_eq_bodyOf hi s).trans h, .inl ⟨rfl, rfl, fun _ => ⟨rfl, ?_⟩⟩⟩
      exact (bodyOf_keeps_fault hu :)
    · obtain ⟨hmin, hmax⟩ := f.code_range
      exact ⟨_, (exec_eq_bodyOf hi s).trans h, .inr ⟨_, info, hmin, hmax, faultEntry_faultedFrom s f info⟩⟩
    · exact absurd hr (hends r)

end Sys2Proof.Machine

namespace Sys2Proof.Machine

/-! ## The frames of the commands that store bytes (spec/70_reset_and_hazards.md R328, spec/20_memory.md R62) -/

/-! ### WBITS (spec/43_bit_packer.md R183 to R185) -/

/-- A WBITS that succeeds has added its bits inside the declared capacity. -/
theorem wbitsBody_appends {pattern : BitVec 16} {length : Nat} {s t : State} (h : wbitsBody pattern length s = .ok t) :
    s.Appends (patternBits pattern length) t ∧ (length = 0 ∨ s.packPos + length ≤ 8 * s.pkLen.toNat) := by
  have hlen := length_patternBits pattern length
  rcases wbitsBody_cases pattern length s with ⟨-, h'⟩ | ⟨-, -, h'⟩ | ⟨hl, hcap, -⟩
  · cases h.symm.trans h'
  · cases h.symm.trans h'
  · have hcap := BitVec.not_lt.1 hcap
    have hfits : length = 0 ∨ s.packPos + length ≤ 8 * s.pkLen.toNat := by
      by_contra hnot
      cases h.symm.trans (wbitsBody_overrun hl hcap (by omega) (by omega))
    obtain ⟨u, hu, happends⟩ := writeBits_appends (s := s) (patternBits pattern length)
      (hfits.imp (fun h0 => List.eq_nil_of_length_eq_zero (hlen.trans h0)) (by rw [hlen]; exact id))
    cases h.symm.trans ((wbitsBody_legal hl hcap).trans hu)
    exact ⟨happends, hfits⟩

/-- Without a bit to add the packer touches no byte, and it never touches one at or above the declared capacity. -/
theorem State.Appends.readByte_untouched {s t : State} {bits : List Bool} {a : Nat} (h : s.Appends bits t)
    (ha : bits.length = 0 ∨ (s.packPos + bits.length ≤ 8 * s.pkLen.toNat ∧ s.pkLen.toNat ≤ a)) :
    t.readByte .pbuf a = s.readByte .pbuf a := by
  have hs := s.bpByte_eq
  have ht := bpByte_eq_of_packPos h.pos
  refine State.readByte_eq_of_streamBit fun q hq => ?_
  rw [h.streamBit_outside (by omega), if_neg (by omega)]

/-- The bytes outside the packer's way from its first to its last are as before. -/
theorem wbitsBody_readByte {pattern : BitVec 16} {length : Nat} {s t : State} (h : wbitsBody pattern length s = .ok t)
    {a : Nat} (ha : length = 0 ∨ a < s.bpByte.toNat ∨ t.bpByte.toNat < a ∨ s.pkLen.toNat ≤ a) :
    t.readByte .pbuf a = s.readByte .pbuf a := by
  obtain ⟨happends, hfits⟩ := wbitsBody_appends h
  have hlen := length_patternBits pattern length
  by_cases hout : a < s.bpByte.toNat ∨ t.bpByte.toNat < a
  · exact happends.readByte_outside hout
  · exact happends.readByte_untouched (by rw [hlen]; omega)

/-! ### DECODE (spec/45_huffman_decoder.md R220, R221) -/

theorem decodeBody_outLen {s t : State} (h : decodeBody s = .ok t) : t.outLen = s.origSize := by
  obtain ⟨-, _, _, -, rfl⟩ := decodeBody_ok h
  rfl

/-- Every symbol is emitted below the original size. -/
theorem decodeBody_readByte {s t : State} (h : decodeBody s = .ok t) {a : Nat} (ha : s.origSize.toNat ≤ a) :
    t.readByte .obuf a = s.readByte .obuf a := by
  obtain ⟨-, turns, u, hu, rfl⟩ := decodeBody_ok h
  refine (decodeLoop_induction (P := fun v => v.origSize = s.origSize ∧ v.readByte .obuf a = s.readByte .obuf a) hu
    ⟨rfl, rfl⟩ fun v x y ⟨horig, hbyte⟩ hlt hx _ hy => ?_).1.2
  have hne : a ≠ v.emitCnt.toNat := by
    rw [horig, BitVec.lt_def] at hlt
    omega
  rw [slookupBody_frame hy, rbitBody_frame hx]
  split
  · exact ⟨horig, (State.readByte_writeByte_other _ _ _ hne).trans hbyte⟩
  · exact ⟨horig, hbyte⟩

theorem decodeBody_frame_outLen {s t : State} (h : decodeBody s = .ok t) :
    t = { s with
      obuf := t.obuf, outLen := s.origSize, emitCnt := t.emitCnt, buByte := t.buByte, buBit := t.buBit, cand := t.cand,
      clen := t.clen, rdata := t.rdata, eod := t.eod, matched := t.matched } := by
  have hframe := decodeBody_frame h
  rwa [decodeBody_outLen h] at hframe

/-! ### COMPRESS (spec/46_container_codec.md R237 to R243) -/

/-- The packing loop comes to its end only if every byte has a code (R242). -/
theorem packLoop_present {i : Nat} {bs : List Byte} {s t : State} (h : packLoop i bs s = .ok t) :
    ∀ b ∈ bs, present s.code b := by
  induction bs generalizing i s with
  | nil => simp
  | cons c bs ih =>
    rcases packLoop_cons i c bs s with ⟨-, h'⟩ | ⟨hc, h'⟩ <;> rw [h'] at h
    · cases h
    · obtain ⟨u, hu, h⟩ := Result.andThen_ok.1 h
      have hcode : u.code = s.code := by rw [wbitsBody_frame hu]
      exact List.forall_mem_cons.2 ⟨hc, hcode ▸ ih h⟩

theorem compressPack_present {s t : State} (h : compressPack s = .ok t) : ∀ b ∈ s.input, present s.code b := by
  simp only [compressPack] at h
  split at h
  · cases h
  · obtain ⟨b, hb, -⟩ := Result.andThen_ok.1 h
    obtain ⟨a, ha, hb⟩ := Result.andThen_ok.1 hb
    have hcode : a.code = s.code := by rw [bpinitBody_frame ha]
    exact hcode ▸ packLoop_present hb

/-- Step C1 lets no code longer than 16 bits through (R238). -/
theorem greatestLen_le_of_compressCount {s t : State} {m : Nat} (h : compressCount s = .ok t)
    (hg : isGreatestLen s.code m) : m ≤ 16 := by
  rcases compressCount_cases s with ⟨_, -, h'⟩ | ⟨hover, -⟩
  · cases h.symm.trans h'
  · rw [← greatestLen_presentCodes hg]
    exact greatestLen_le (overlong_eq_none hover)

/-- A COMPRESS that succeeds is one of an input that has codes and fits. -/
theorem exists_compressible_of_ok {s t : State} (h : compressBody s.accept = .ok t) : ∃ m, s.Compressible m := by
  obtain ⟨a, b, ha, hb, ht⟩ := compressBody_ok h
  obtain ⟨m, hg⟩ := exists_isGreatestLen s.code
  have hpresent : ∀ b ∈ s.input, present s.code b := by
    have hpacked := compressPack_present ht
    rw [compressHeader_frame hb, (compressCount_ok ha).1] at hpacked
    exact hpacked
  exact ⟨m, compressible_of_ok h hg (greatestLen_le_of_compressCount ha hg) hpresent⟩

/-- Where COMPRESS succeeds the cursor stands after the input's bits, and the archive ends with the bytes these touch
(R241). -/
theorem exec_compress_stores {s t : State} {m : Nat} (hs : s.phase = .idle) (hm : s.Compressible m)
    (h : exec .compress s = .next t) :
    t.origSize = s.inLen ∧ t.packPos = (codeString s.code s.input).length ∧
      t.arLen.toNat = 18 + 4 * (presentSymbols s.code).length + t.touched ∧
      (∀ a, t.arLen.toNat ≤ a → t.readByte .abuf a = s.readByte .abuf a) ∧
      ∀ a, t.bpByte.toNat < a → t.readByte .pbuf a = s.readByte .pbuf a := by
  obtain ⟨u, hu, hstate, -, -, -, -, -, harchive, -, -, hpacked⟩ :=
    compressWritesTheArchive s m _ _ _ _ _ hs hm.input hm.greatest hm.short hm.present rfl rfl rfl rfl rfl hm.packedFits
      hm.archiveFits
  cases h.symm.trans hu
  have hroom : (codeString s.code s.input).length / 8 < 2 ^ 64 := hm.length_inputBits.1.trans hm.length_inputBits.2
  have hbyte : t.bpByte.toNat = (codeString s.code s.input).length / 8 := by
    rw [hstate]
    exact Nat.mod_eq_of_lt hroom
  have hbit : t.bpBit.toNat = (codeString s.code s.input).length % 8 := by
    rw [hstate]
    exact Nat.mod_eq_of_lt (Nat.mod_lt _ (by decide))
  have hpos : t.packPos = (codeString s.code s.input).length := by
    rw [State.packPos, hbyte, hbit, Nat.div_add_mod]
  have harLen : t.arLen.toNat =
      18 + 4 * (presentSymbols s.code).length + ((codeString s.code s.input).length + 7) / 8 := by
    rw [hstate]
    exact Nat.mod_eq_of_lt (hm.archiveFits.trans_lt s.caps.abuf.isLt)
  exact ⟨by rw [hstate]; rfl, hpos, by rw [harLen, touched_of_packPos hpos], harLen ▸ harchive, hbyte ▸ hpacked⟩

/-! ### DECOMPRESS (spec/46_container_codec.md R252 to R255) -/

/-- Step D2 that succeeds reads the two fields of the header (R252). -/
theorem readHeader_ok {s t : State} (h : readHeader s = .ok t) :
    t = { s with origSize := s.headerSize, contentOff := s.headerOff } := by
  rcases readHeader_cases s with ⟨-, h'⟩ | ⟨-, h'⟩ <;> rw [h'] at h <;> cases h
  rw [← toNat_headerSize, ← toNat_headerOff, BitVec.ofNat_toNat, BitVec.ofNat_toNat, BitVec.setWidth_eq,
    BitVec.setWidth_eq]

/-- Step D4 that succeeds stores the content at the beginning of PBUF (R253). -/
theorem copyContent_ok {s t : State} (h : copyContent s = .ok t) :
    t = { s with pbuf := t.pbuf, pkLen := BitVec.ofNat 64 (s.arLen.toNat - s.contentOff.toNat) } ∧
      ∀ a, s.arLen.toNat - s.contentOff.toNat ≤ a → t.readByte .pbuf a = s.readByte .pbuf a := by
  have hcap : s.arLen.toNat - s.contentOff.toNat ≤ s.caps.pbuf.toNat := by
    rcases copyContent_cases s with ⟨-, h'⟩ | ⟨hle, -⟩
    · cases h.symm.trans h'
    · exact Nat.not_lt.1 hle
  obtain ⟨t', ht', hframe, hbytes⟩ := copyContent_fits rfl hcap
  cases h.symm.trans ht'
  exact ⟨hframe, fun a ha => (hbytes a).trans (if_neg (Nat.not_lt.2 ha))⟩

/-- What DECOMPRESS writes where it succeeds: the registers of the header, and of PBUF and OBUF the content and the
original (R255). -/
theorem decompressBody_stores {s t : State} (h : decompressBody s = .ok t) :
    t = { s with
      origSize := s.headerSize, contentOff := s.headerOff, entryCnt := t.entryCnt, code := t.code, pbuf := t.pbuf,
      pkLen := BitVec.ofNat 64 (s.arLen.toNat - s.headerOff.toNat), obuf := t.obuf, outLen := s.headerSize,
      emitCnt := t.emitCnt, buByte := t.buByte, buBit := t.buBit, cand := t.cand, clen := t.clen, rdata := t.rdata,
      eod := t.eod, matched := t.matched } ∧
    (∀ a, s.arLen.toNat - s.headerOff.toNat ≤ a → t.readByte .pbuf a = s.readByte .pbuf a) ∧
    ∀ a, s.headerSize.toNat ≤ a → t.readByte .obuf a = s.readByte .obuf a := by
  obtain ⟨a, b, c, ha, hb, hc, ht⟩ := decompressBody_ok h
  obtain ⟨hcframe, hcbytes⟩ := copyContent_ok hc
  have hbframe := tdeserBody_frame hb
  rw [readHeader_ok ha] at hbframe
  have harLen : b.arLen = s.arLen := by rw [hbframe]; rfl
  have hoff : b.contentOff = s.headerOff := by rw [hbframe]; rfl
  have hsize : c.origSize = s.headerSize := by rw [hcframe, hbframe]; rfl
  have htframe := decodeBody_frame_outLen ht
  rw [harLen, hoff] at hcframe hcbytes
  refine ⟨?_, fun k hk => ?_, fun k hk => ?_⟩
  · rw [htframe, hsize, hcframe, hbframe]
    rfl
  · calc t.readByte .pbuf k = c.readByte .pbuf k := by rw [htframe]; rfl
      _ = b.readByte .pbuf k := hcbytes k hk
      _ = s.readByte .pbuf k := by rw [hbframe]; rfl
  · calc t.readByte .obuf k = c.readByte .obuf k := decodeBody_readByte ht (hsize ▸ hk)
      _ = s.readByte .obuf k := by rw [hcframe, hbframe]; rfl

/-! ### All commands -/

/-- Settles O56: each body's frame, ended in success, and for the bodies that store bytes where they store them. -/
theorem commandsKeepTheRest : Obligations.CommandsKeepTheRest := by
  intro i s t hs h ht
  by_cases hi : i = .clr
  · subst hi
    rw [exec_clr (by simp [hs])] at h
    cases h
    exact ⟨rfl, rfl, rfl, rfl⟩
  obtain ⟨u, hu, rfl⟩ := exec_success hi hs h ht
  cases i with
  | clr => exact absurd rfl hi
  | freq => exact (congrArg State.finish (freqBody_frame hu) :)
  | tbuild => exact (congrArg State.finish (tbuildBody_frame hu) :)
  | cassign => exact (congrArg State.finish (cassignBody_frame hu) :)
  | encode => exact (congrArg State.finish (encodeBody_frame hu) :)
  | bpinit =>
    refine ⟨(congrArg State.finish (bpinitBody_frame hu) :), fun a ha => (bpinitBody_readByte hu a).trans ?_⟩
    exact if_neg fun ⟨h0, hne⟩ => ha.elim (· h0) hne
  | wbits pattern length =>
    have happends := (wbitsBody_appends hu).1
    refine ⟨(congrArg State.finish happends.frame :), ?_, fun a => (wbitsBody_readByte hu :)⟩
    exact happends.pos.trans (by rw [length_patternBits]; rfl)
  | buinit => exact (congrArg State.finish (buinitBody_ok hu) :)
  | rbit => exact (congrArg State.finish (rbitBody_frame hu) :)
  | tdeser => exact (congrArg State.finish (tdeserBody_frame hu) :)
  | slookup bit => exact (congrArg State.finish (slookupBody_frame hu) :)
  | decode => exact ⟨(congrArg State.finish (decodeBody_frame_outLen hu) :), fun a => (decodeBody_readByte hu :)⟩
  | compress =>
    obtain ⟨m, hm⟩ := exists_compressible_of_ok hu
    obtain ⟨horig, hstores⟩ := exec_compress_stores hs hm h
    have hframe := compressBody_frame hu
    rw [show u.origSize = s.inLen from horig] at hframe
    exact ⟨(congrArg State.finish hframe :), hstores⟩
  | decompress =>
    obtain ⟨hframe, hstores⟩ := decompressBody_stores hu
    exact ⟨(congrArg State.finish hframe :), hstores⟩

end Sys2Proof.Machine
